-- ==== Sys2Proof/Word.lean ====
section
/-! DEFINITION. The words of the machine: widths the manual names, and nothing else (R8, R21). -/

namespace Sys2Proof

/-- A byte of memory. -/
abbrev Byte := BitVec 8
/-- A 32-bit register or word (R72). -/
abbrev Word := BitVec 32
/-- A 64-bit pair, g register or memory word (R8, R122). -/
abbrev DWord := BitVec 64
/-- A program counter: a 56-bit virtual byte address (R127, R132). -/
abbrev PCWord := BitVec 56
/-- A lane mask of up to 1,024 lanes: bit L is lane L, so word mask i is bits 32i+31..32i (R124). -/
abbrev Mask := BitVec 1024
/-- One 32-byte sector, byte 0 in bits 7..0 (R8). -/
abbrev Sector := BitVec 256
/-- The eight arithmetic flags in the layout of `fflags` bits 7:0 (R30). -/
abbrev Flags := BitVec 8
/-- A register field of the instruction word (R49). -/
abbrev Reg := BitVec 8

end Sys2Proof
end

