-- ==== Sys2Proof/Config.lean ====
section
/-! DEFINITION. What one implementation fixes, and the values the manual leaves open. -/

namespace Sys2Proof

/-- The byte an unlisted address of a stack reads as (DESIGN CHOICE, assumption 2). -/
def Config.blankByte : Byte := 0

/-! Free values: constants without a body, applied to the counter `State.free` or to what they depend on, so
that nothing in Lean can say what they are. -/

/-- The L2 way, among the ways R361 allows, that a fill replaces. -/
opaque Config.freeWay : Nat → Nat
/-- Bytes of an overlapped copy (R212), of a readable value the manual does not state. -/
opaque Config.freeByte : Nat → Byte
/-- A number the manual leaves open: a racy order, a measured quantity. -/
opaque Config.freeNat : Nat → Nat
/-- A word the manual leaves open. -/
opaque Config.freeWord : Nat → DWord
/-- The device's identity key signing a report (R434): SLH-DSA-SHA2-128s's 7,856 bytes as one number, from the report and the boot count. -/
opaque Config.signature : List Byte → Nat → Nat
/-- The identity key's public half, and the SHA-256 of the boot ROM, 32 bytes each as one number (R434). -/
opaque Config.identityKey : Nat
opaque Config.romHash : Nat
/-- The parts of a firmware image in the bytes of its slot, the key that signed it, and what its manifest gives as the SHA-256 of the agent
code: the manual gives no layout (R432). -/
opaque Config.agentCode : List Byte → List Byte
opaque Config.controllerCode : List Byte → List Byte
opaque Config.manifest : List Byte → List Byte
opaque Config.imageKey : List Byte → List Byte
opaque Config.measurement : List Byte → List Byte
/-- The SHA-256 hash of the firmware key that the boot ROM holds, and whether a manifest's signature verifies under a key (R432). -/
opaque Config.romKeyHash : List Byte
opaque Config.signed : List Byte → List Byte → Bool
/-- The code that stands in a core after a load, the number of loads given, which an error of the load may have changed (R433). -/
opaque Config.loaded : List Byte → Nat → List Byte
/-- The CRC of a flit's bytes 223:0 (R399); the manual names no polynomial. -/
opaque Config.crc : Nat → BitVec 256

end Sys2Proof
end

