-- ==== Sys2Proof/Syntax.lean ====
section
/-! DEFINITION. The abstract syntax: every row of the opcode table is one constructor of `Instr`.
Rows that are instructions carry typed operand records; rows that are the device's own steps carry the
names of the objects they act on. -/

namespace Sys2Proof

/-- Rounding modes, codes 0 to 4 of R25. -/
inductive Rm | rne | rtz | rup | rdn | rna
deriving DecidableEq, Repr

/-- Signedness of an integer type: `s` two's complement, `n` unsigned (R21, R77). -/
inductive Sg | s | n
deriving DecidableEq, Repr

/-- Float element types, codes 0 to 3 of R77. -/
inductive FTy | f32 | f16 | bf16 | f64
deriving DecidableEq, Repr

/-- The lane's number types, codes 0x0 to 0xE of R88. -/
inductive NumTy | s8 | n8 | s16 | n16 | s32 | n32 | s64 | n64 | e4m3 | e5m2 | bf16 | f16 | f19 | f32 | f64
deriving DecidableEq, Repr

/-- Compare conditions, codes 0 to 7 of R89. -/
inductive Cond | eq | ne | lt | le | gt | ge | un | ord
deriving DecidableEq, Repr

/-- Compare types, codes 0 to 7 of R89. -/
inductive CmpTy | s32 | n32 | f32 | f16 | bf16 | s64 | n64 | f64
deriving DecidableEq, Repr

/-- Reduction operations of R153. -/
inductive RedOp | add | min | max | and | or | xor
deriving DecidableEq, Repr

/-- Types of reductions (R153). -/
inductive RedTy | s32 | n32 | f32 | f64 | s64 | n64
deriving DecidableEq, Repr

/-- Atomic operations of R189. -/
inductive AtOp | add | min | max | and | or | xor | exch | cas
deriving DecidableEq, Repr

/-- Atomic types of R189. -/
inductive AtTy | s32 | n32 | f32 | s64 | n64 | f64
deriving DecidableEq, Repr

/-- Access sizes of R179. -/
inductive MSize | n8 | s8 | n16 | s16 | b32 | b64 | b128
deriving DecidableEq, Repr

/-- Sizes of `cpl` (R209). -/
inductive CplSize | b32 | b64 | b128 | b256
deriving DecidableEq, Repr

/-- Accumulator tags that `mzero` and `mld` name (R242). -/
inductive AccTy | f32 | s32 | f64
deriving DecidableEq, Repr

/-- `mout` activations 0 to 6 (R243). -/
inductive Act | none | relu | gelu | silu | tanh | sig | exp2
deriving DecidableEq, Repr

/-- Form bit, predicate and lookahead of an instruction word (R49, R51, R59). -/
structure Ctl where
  /-- W: the team-wide form. -/
  w : Bool
  /-- PS: predicate select. -/
  ps : BitVec 3
  /-- PN: predicate negate. -/
  pn : Bool
  /-- LA: lookahead; ignored by the core on instructions that are not long-latency (R59). -/
  la : BitVec 4
deriving DecidableEq, Repr

/-- The B operand: its kind and field (R54); `simm` is the short immediate. -/
inductive BOp
  | reg (r : Reg)
  | bank (k : BitVec 8)
  | imm (v : BitVec 20)
  | simm (v : BitVec 8)
  | lit (v : Word)
deriving DecidableEq, Repr

/-- A transfer target: BK 0b00 register, 0b10 or 0b11 PC-relative (R132, R135). -/
inductive Tgt
  | reg (r : Reg)
  | rel20 (v : BitVec 20)
  | rel32 (v : Word)
deriving DecidableEq, Repr

/-- Two-operand integer forms. -/
structure IntB where
  c : Ctl
  ty : Sg
  d : Reg
  a : Reg
  b : BOp
  sat : Bool
deriving DecidableEq, Repr

/-- Integer forms with a C field (`addc`, `subb`, `mad`, `bfi`). -/
structure IntC where
  c : Ctl
  ty : Sg
  d : Reg
  a : Reg
  b : BOp
  cc : Reg
  sat : Bool
deriving DecidableEq, Repr

/-- One-operand integer forms. -/
structure IntU where
  c : Ctl
  ty : Sg
  d : Reg
  a : Reg
  sat : Bool
deriving DecidableEq, Repr

/-- Two-operand float forms (R85, R87). -/
structure FltB where
  c : Ctl
  ty : FTy
  d : Reg
  a : Reg
  b : BOp
  rm : Rm
  ftz : Bool
  sat : Bool
deriving DecidableEq, Repr

/-- Three-operand float forms (R85, R87). -/
structure FltC where
  c : Ctl
  ty : FTy
  d : Reg
  a : Reg
  b : BOp
  cc : Reg
  rm : Rm
  ftz : Bool
  sat : Bool
deriving DecidableEq, Repr

/-- Float forms whose one operand is B (`rcp`, `sqrt`, the special functions). -/
structure FltU where
  c : Ctl
  ty : FTy
  d : Reg
  b : BOp
  rm : Rm
  ftz : Bool
  sat : Bool
deriving DecidableEq, Repr

/-- `cvt` (R88). -/
structure CvtF where
  c : Ctl
  dst : NumTy
  src : NumTy
  d : Reg
  a : Reg
  rm : Rm
  ftz : Bool
  sat : Bool
deriving DecidableEq, Repr

/-- `cmp` (R89). -/
structure CmpF where
  c : Ctl
  cond : Cond
  ty : CmpTy
  d : Reg
  a : Reg
  b : BOp
  ftz : Bool
deriving DecidableEq, Repr

/-- Destination and B operand. -/
structure DB where
  c : Ctl
  d : Reg
  b : BOp
deriving DecidableEq, Repr

/-- Destination, A and B. -/
structure DAB where
  c : Ctl
  d : Reg
  a : Reg
  b : BOp
deriving DecidableEq, Repr

/-- Destination, A, B and C. -/
structure DABC where
  c : Ctl
  d : Reg
  a : Reg
  b : BOp
  cc : Reg
deriving DecidableEq, Repr

/-- Destination and A. -/
structure DA where
  c : Ctl
  d : Reg
  a : Reg
deriving DecidableEq, Repr

/-- Destination, A and a variant bit. -/
structure DAX where
  c : Ctl
  d : Reg
  a : Reg
  x : Bool
deriving DecidableEq, Repr

/-- Destination, A, B and a variant bit. -/
structure DABX where
  c : Ctl
  d : Reg
  a : Reg
  b : BOp
  x : Bool
deriving DecidableEq, Repr

/-- Destination, A, B, C and a variant bit. -/
structure DABCX where
  c : Ctl
  d : Reg
  a : Reg
  b : BOp
  cc : Reg
  x : Bool
deriving DecidableEq, Repr

/-- Destination, A, C and a variant bit. -/
structure DACX where
  c : Ctl
  d : Reg
  a : Reg
  cc : Reg
  x : Bool
deriving DecidableEq, Repr

/-- Predicate logic (R91): `ia`, `ib` invert the operands. -/
structure PredF where
  c : Ctl
  d : Reg
  a : Reg
  b : Reg
  ia : Bool
  ib : Bool
deriving DecidableEq, Repr

/-- Stack moves (R92): entry index of `speek` and the trap variant. -/
structure StackF where
  c : Ctl
  d : Reg
  a : Reg
  idx : BitVec 3
  t : Bool
deriving DecidableEq, Repr

/-- `exv` and `exvn` (R109). -/
structure ExvF where
  c : Ctl
  a : Reg
  fb : Reg
  n : BitVec 8
  m : Bool
  t : Bool
deriving DecidableEq, Repr

/-- Transfers with a target (R133, R135, R136). -/
structure BraF where
  c : Ctl
  d : Reg
  tgt : Tgt
deriving DecidableEq, Repr

/-- `brd` (R134). -/
structure BrdF where
  c : Ctl
  tgt : BitVec 20
  join : BitVec 16
deriving DecidableEq, Repr

/-- `trap` and `brk` codes (R137, R339). -/
structure CodeF where
  c : Ctl
  code : BitVec 8
deriving DecidableEq, Repr

/-- `red` and `scan` (R153). -/
structure RedF where
  c : Ctl
  op : RedOp
  ty : RedTy
  d : Reg
  a : Reg
  rm : Rm
  ftz : Bool
  ex : Bool
deriving DecidableEq, Repr

/-- `rstat` (R155): `wn` is log2 N in the lane form, 0 in the team-wide form. -/
structure RstatF where
  c : Ctl
  d : Reg
  a : Reg
  wn : BitVec 4
deriving DecidableEq, Repr

/-- Loads and stores (R179, R186): `v` is `.na` of `ld`, `.mod` of `lds` and `sts`. -/
structure MemF where
  c : Ctl
  size : MSize
  d : Reg
  a : Reg
  b : BOp
  v : Bool
deriving DecidableEq, Repr

/-- `fence` (R186). -/
structure FenceF where
  c : Ctl
  acq : Bool
  rel : Bool
deriving DecidableEq, Repr

/-- `pf` (R188). -/
structure PfF where
  c : Ctl
  l2 : Bool
  a : Reg
  b : BOp
deriving DecidableEq, Repr

/-- `atom` (R189). -/
structure AtomF where
  c : Ctl
  op : AtOp
  ty : AtTy
  d : Reg
  a : Reg
  b : BOp
  cc : Reg
  sp : Bool
  acq : Bool
  rel : Bool
  nr : Bool
deriving DecidableEq, Repr

/-- `mcst` (R191): `cnt` is c - 1. -/
structure McstF where
  c : Ctl
  d64 : Bool
  d : Reg
  a : Reg
  b : Reg
  cnt : BitVec 2
deriving DecidableEq, Repr

/-- Types of `mred` (R191). -/
inductive MredTy | s32 | n32 | f32
deriving DecidableEq, Repr

/-- Operations of `mred` (R191). -/
inductive MredOp | add | min | max
deriving DecidableEq, Repr

/-- `mred` (R191). -/
structure MredF where
  c : Ctl
  op : MredOp
  ty : MredTy
  d : Reg
  a : Reg
  b : Reg
  cnt : BitVec 2
deriving DecidableEq, Repr

/-- Stash windows (R184). -/
structure StashF where
  c : Ctl
  d : Reg
  a : Reg
  b : BOp
  win : BitVec 3
  ro : Bool
deriving DecidableEq, Repr

/-- `cpl` (R209). -/
structure CplF where
  c : Ctl
  size : CplSize
  d : Reg
  a : Reg
  b : BOp
  cc : Reg
  out : Bool
deriving DecidableEq, Repr

/-- `cp`, `cp2d`, `cpz`, `cpx` (R211): `e8` is the b8 element of the 2:4 forms. -/
structure CopyF where
  c : Ctl
  e8 : Bool
  d : Reg
  a : Reg
  b : BOp
  cc : Reg
  ds : Bool
  ss : Bool
  bar : Bool
  tbar : Bool
deriving DecidableEq, Repr

/-- Barrier objects and transaction barriers (R215, R219, R234): `tr` is `.try`. -/
structure BarF where
  c : Ctl
  d : Reg
  a : Reg
  b : BOp
  tr : Bool
deriving DecidableEq, Repr

/-- `gath` (R224). -/
structure GathF where
  c : Ctl
  d : Reg
  a : Reg
  b : BOp
  cc : Reg
  h : BitVec 4
  dd : Bool
deriving DecidableEq, Repr

/-- `mmul` (R240). -/
structure MmulF where
  c : Ctl
  d : Reg
  a : Reg
  b : Reg
  cc : Reg
  kb : Bool
  ka : BitVec 2
deriving DecidableEq, Repr

/-- `mzero` and `mld` (R242). -/
structure AccF where
  c : Ctl
  d : Reg
  a : Reg
  cc : Reg
  ty : AccTy
deriving DecidableEq, Repr

/-- `mout` (R243). -/
structure MoutF where
  c : Ctl
  d : Reg
  a : Reg
  b : Reg
  cc : Reg
  fmt : BitVec 4
  raw : Bool
  bias : Bool
  act : Act
deriving DecidableEq, Repr

/-- Moraine instructions (R282): `x` is `.d` or `.out`, `sel` the selector of `mgst`. -/
structure MgF where
  c : Ctl
  d : Reg
  a : Reg
  b : BOp
  cc : Reg
  x : Bool
  h : BitVec 4
deriving DecidableEq, Repr

/-- `walk` (R322). -/
structure WalkF where
  c : Ctl
  d : Reg
  a : Reg
  b : BOp
  cc : Reg
  h : BitVec 4
deriving DecidableEq, Repr

/-- A request from another device that reaches this home (R405): a sector's load or store, an atomic with the operands of its
lanes, a transaction-barrier step, a deque step, a walk that goes on here (R320), a note (R393), a lease of pieces up to a last one, or
with rights 0 the end of its launch's leases (R406), a step of a queue header (R376), a watch bit (R414). -/
inductive RemoteOp
  | load
  | store (mask : Word) (data : Sector)
  | atomic (op : AtOp) (ty : AtTy) (ops : List (DWord × DWord))
  | barrier (kind : Nat) (tr : Bool) (arg : Nat)
  | deque (kind : Nat) (value : DWord)
  | walk (state : Nat)
  | note (v : DWord)
  | lease (last rights : Nat)
  | header (kind arg : Nat)
  | watch (on : Bool)
  /-- The home takes words of a sector back from a core that owns them, or from its stash (R262, R185). -/
  | revoke (words : BitVec 8) (core : Nat) (stash : Bool)
  /-- A stash store: its words are registered, and the sector comes back for the stash (R185). -/
  | register (mask : Word)
  /-- A stash gives words of a sector back to their home (R184, R185). -/
  | giveBack (mask : Word) (data : Sector)
deriving DecidableEq, Repr

/-- A remote request as it arrives: sending device, request tag (R328), the sender's own number of the request, address, identifier,
generation, first slice of the partition that serves it, the issuer's ASID, the lease identifier of its launch, and the core that
will own the words of a store, with its stash or not (R261, R314, R359, R399, R403, R405). -/
structure RemoteReq where
  dev : Nat
  tag : Nat
  num : Nat
  va : Nat
  dk : Bool
  dom : Nat
  gen : Nat
  part : Nat
  asid : Nat
  lease : Option (Nat × Nat)
  who : Option (Nat × Bool)
  op : RemoteOp
deriving DecidableEq, Repr

/-- A flit of a fabric link, the fields of its 256 bytes (R399): FKIND is 1 request, 2 response, 3 acknowledgement, 4 negative
acknowledgement. -/
structure Flit where
  /-- LSEQ: bytes 1:0. -/
  lseq : BitVec 16
  /-- FKIND: byte 2. -/
  kind : BitVec 8
  /-- SRCDEV: byte 3. -/
  src : BitVec 8
  /-- DSTDEV: byte 4. -/
  dst : BitVec 8
  /-- TAG: bytes 9:5. -/
  tag : BitVec 40
  /-- OP: bytes 31:10. -/
  op : BitVec 176
  /-- PAYLOAD: bytes 223:32. -/
  payload : BitVec 1536
  /-- CHECK: bytes 255:224. -/
  check : BitVec 256
deriving DecidableEq, Repr

/-- Bytes 223:0 of a flit as one number, byte 0 lowest (R8, R399). -/
def Flit.bytes (f : Flit) : Nat :=
  f.lseq.toNat + 2 ^ 16 * f.kind.toNat + 2 ^ 24 * f.src.toNat + 2 ^ 32 * f.dst.toNat + 2 ^ 40 * f.tag.toNat + 2 ^ 80 * f.op.toNat +
    2 ^ 256 * f.payload.toNat
/-- OP and PAYLOAD as one number. -/
def Flit.body (f : Flit) : Nat := f.op.toNat + 2 ^ 176 * f.payload.toNat
/-- CHECK agrees with the bytes (R399). -/
def Flit.good (f : Flit) : Bool := decide (f.check = Config.crc f.bytes)
/-- A flit of its fields with the CHECK they call for. -/
def Flit.make (lseq : BitVec 16) (kind : BitVec 8) (src dst tag body : Nat) : Flit :=
  let f : Flit := ⟨lseq, kind, BitVec.ofNat 8 src, BitVec.ofNat 8 dst, BitVec.ofNat 40 tag, BitVec.ofNat 176 body, BitVec.ofNat 1536 (body / 2 ^ 176), 0⟩
  { f with check := Config.crc f.bytes }

/-- The engines a collector stops (R369). -/
inductive Engine
  | team (core slot : Nat)
  | sequencer (core ctx : Nat)
  | copyUnit (core : Nat)
  | poolCopy (idx : Nat)
  | moraine (slice : Nat)
  | walkers (slice : Nat)
  | block (core idx : Nat)
deriving DecidableEq, Repr

/-- The setting of a voltage and frequency island (R4): it runs at a division of its nominal clock, is gated, or is held in
retention. -/
inductive Power
  | run (div : Nat) | gated | retention
deriving DecidableEq, Repr

/-- The instructions and the device's own steps: one constructor per row of spec/opcode_table.json. -/
inductive Instr
  -- integer add group (R81)
  | add (f : IntB) | sub (f : IntB) | addc (f : IntC) | subb (f : IntC) | adda (f : IntB)
  -- integer multiply, divide, min, max, absolute value (R82)
  | mul (f : IntB) | mulh (f : IntB) | mad (f : IntC) | div (f : IntB) | rem (f : IntB)
  | min (f : IntB) | max (f : IntB) | abs (f : IntU) | neg (f : IntU)
  -- logic, shifts, bit fields (R83)
  | and (f : IntB) | or (f : IntB) | xor (f : IntB) | andn (f : IntB) | not (f : IntU)
  | shl (f : IntB) | shr (f : IntB) | sar (f : IntB) | rol (f : IntB) | ror (f : IntB)
  | bfe (f : IntB) | bfi (f : IntC) | popc (f : IntU) | clz (f : IntU) | ctz (f : IntU) | brev (f : IntU)
  -- 64-bit pair forms (R84)
  | pairAdd (f : IntB) | pairSub (f : IntB) | pairMul (f : IntB) | pairMin (f : IntB) | pairMax (f : IntB)
  | pairShl (f : IntB) | pairShr (f : IntB) | pairSar (f : IntB)
  | pairAnd (f : IntB) | pairOr (f : IntB) | pairXor (f : IntB)
  -- floating point (R85)
  | floatAdd (f : FltB) | floatSub (f : FltB) | floatMul (f : FltB)
  | fma (f : FltC) | fms (f : FltC) | fnma (f : FltC)
  | floatMin (f : FltB) | floatMax (f : FltB) | floatDiv (f : FltB) | rcp (f : FltU) | sqrt (f : FltU)
  -- special functions (R86)
  | exp2 (f : FltU) | log2 (f : FltU) | sin (f : FltU) | cos (f : FltU) | tanh (f : FltU) | sig (f : FltU) | gelu (f : FltU)
  -- packed half forms (R87)
  | add2 (f : FltB) | sub2 (f : FltB) | mul2 (f : FltB) | fma2 (f : FltC) | min2 (f : FltB) | max2 (f : FltB)
  -- conversions, compares, moves, predicates (R88 to R91)
  | cvt (f : CvtF) | cmp (f : CmpF) | mov (f : DB) | sel (f : DABC) | movd (f : DB) | seld (f : DABC)
  | pand (f : PredF) | por (f : PredF) | pxor (f : PredF) | pandn (f : PredF) | pmov (f : PredF) | ptst (f : PredF) | pget (f : PredF)
  -- stack moves (R92), system values (R94)
  | spush (f : StackF) | spop (f : StackF) | speek (f : StackF) | sdep (f : StackF) | sclr (f : StackF)
  | sval (f : DA)
  -- execute-vector (R109, R115, R118)
  | exv (f : ExvF) | exvn (f : ExvF) | exwin (f : DB) | lsr (f : DA) | lsc (f : DB)
  -- control flow (R133 to R143)
  | bra (f : BraF) | brany (f : BraF) | brall (f : BraF) | brd (f : BrdF)
  | jmp (f : BraF) | call (f : BraF) | ret (f : BraF) | loop (f : BraF) | streamLoop (f : BraF)
  | exit (c : Ctl) | streamExit (c : Ctl) | agentExit (c : Ctl)
  | trap (f : CodeF) | streamTrap (f : CodeF) | tret (c : Ctl)
  | rgn (f : DB) | fchk (c : Ctl) | waitla (c : Ctl)
  -- team-wide work (R150 to R161)
  | gtov (f : DAX) | vtog (f : DABX) | pbc (f : DAX) | ffr (f : DA) | ffc (f : DB)
  | vany (f : DAX) | vall (f : DAX) | vcnt (f : DAX) | ballot (f : DABX) | vfirst (f : DAX) | vuni (f : DAX) | vrank (f : DAX)
  | shfi (f : DABCX) | shfx (f : DABCX) | shfu (f : DABCX) | shfd (f : DABCX)
  | red (f : RedF) | scan (f : RedF) | rstat (f : RstatF)
  | regrp (f : DAB) | regroupDecision (core slot : Nat)
  -- memory (R179 to R192)
  | ld (f : MemF) | st (f : MemF) | lds (f : MemF) | sts (f : MemF)
  | lda (f : MemF) | stl (f : MemF) | fence (f : FenceF) | pf (f : PfF)
  | atom (f : AtomF) | mcst (f : McstF) | mred (f : MredF)
  | stmap (f : StashF) | stunmap (f : StashF) | stflush (f : StashF) | mset (f : DB) | mget (f : DA)
  -- engines (R209 to R226)
  | cpl (f : CplF) | cp (f : CopyF) | cp2d (f : CopyF) | cpz (f : CopyF) | cpx (f : CopyF)
  | binit (f : BarF) | barr (f : BarF) | bwait (f : BarF)
  | streamBinit (f : BarF) | streamBarr (f : BarF) | streamBwait (f : BarF)
  | tbinit (f : BarF) | tbarr (f : BarF) | tbwait (f : BarF) | tbwaitAnswer (core idx : Nat)
  | scat (f : DAX) | gath (f : GathF) | xsect (f : DABC)
  -- matrix engine and sequencer (R232 to R246)
  | mstart (f : DAB) | mstq (f : DAX) | mmul (f : MmulF) | mzero (f : AccF) | mld (f : AccF) | mout (f : MoutF)
  | mstat (f : DA) | maudit (f : CodeF) | xadd (f : DAB) | cset (f : DB)
  | matrixOperationComplete (core ctx : Nat) | pinReservationGrant (slice : Nat) | coldStartGrant (cluster : Nat)
  -- deques (R272)
  | dqpush (f : DABC) | dqpop (f : DABC) | dqsteal (f : DABC) | dequeStep (header : Nat)
  -- Moraine (R282)
  | mgopen (f : MgF) | mgput (f : MgF) | morainePutArrival (core : Nat) | mgclose (f : MgF) | mgcloseAbort (f : MgF)
  | mgdrain (f : MgF) | mgadd (f : MgF) | mgst (f : MgF)
  -- walks (R322)
  | walkChase (f : WalkF) | walkRnd (f : WalkF) | walkSeek (f : WalkF) | walkHop (core idx : Nat)
  -- launch and context (R349, R382)
  | lnch (f : DAB) | ctxsv (f : DACX) | ctxld (f : DACX) | halt (f : DACX) | resm (f : DACX)
  | broadcastAcknowledged (core block : Nat)
  -- operand log, breakpoint, debug (R339, R414, R420)
  | logrd (f : DB) | logre (f : DA) | logdr (f : DA) | brk (f : CodeF)
  | wtch (f : DABX) | tmark (f : DB) | pmrd (f : DB)
  -- privileged (R392)
  | place (f : DABCX) | bkill (f : DACX) | mrd (f : DA) | mwr (f : DAB) | anote (f : DAX) | await (f : DB)
  | awaitTimeout (core : Nat)
  -- the core's own steps
  | illegalInstruction (detail : BitVec 4) | fetchFault (va : Nat)
  | longLatencyWrite (core quad entry : Nat) | fragmentBoost (core quad entry : Nat)
  | loadResponse (core idx sector : Nat) | storeSectorAccept (core idx : Nat)
  | atomicRequest (core idx : Nat) | transactionBarrierStep (core idx : Nat)
  | l2MissTranslation (slice idx : Nat) | l2Fill (slice idx : Nat) | deferredFault (core : Nat)
  | sessionEnd (core idx : Nat) | sessionCancelTimeout (core block : Nat) | drainEnd (slice idx : Nat)
  -- leases and translation
  | leaseRequest (slice cmd : Nat)
  | invalComplete (stack : Nat)
  | staleRepresent (core idx : Nat)
  -- agents and commands
  | agentScan (core : Nat) | launchCommand (cmd core : Nat) | leaseGranted (cmd : Nat) | blockPlacement (core cmd : Nat)
  | bulkCopyCommand (cmd : Nat) | waitCommand (cmd : Nat) | signalCommand (cmd : Nat) | markerCommand (cmd : Nat)
  | blockRetire (core block : Nat) | commandEnd (core block : Nat)
  -- partitions and pre-emption
  | preemptStop (part : Nat) (e : Engine) | preemptAck (part : Nat) (e : Engine)
  -- debug
  | watchHit (core : Nat) | watchPredicateExit (core : Nat) | watchPredicateLimit (core : Nat)
  -- fabric and host
  | remoteRequest (r : RemoteReq)
  -- steps that only the host, a link or the environment starts
  | residencyAnswer (slice idx : Nat) (mapped : Bool) | inval (stack : Nat) (v : DWord)
  | generationBump (part : Nat) (dk : Bool) (id : Nat) | doorbell (part q : Nat) | queueRegister (part q : Nat) (v : DWord)
  | queueDestroy (part q : Nat) (v : DWord) | qstop (part q : Nat) (v : DWord) | pentWrite (part : Nat) (v : DWord)
  | tentWrite (part t : Nat) (v : DWord) | preq (part : Nat) (v : DWord) | dcmdRead (v : DWord) | dcmdWrite (v : DWord)
  | dcmdForcedWrite (v : DWord) | sliceDrain (slice : Nat) | sliceUndrain (slice : Nat) | scal (slice : Nat) (ok : Bool)
  | devnumWrite (v : DWord) | fwctlGo (v : DWord) (ok : Bool) | attestationRequest (nonce addr : Nat) | thermalResume
  | thermalStop (temp : Nat) | powerThrottle (watts temp : Nat) | ownershipTableWrite (e : Nat) (v : BitVec 128)
  | flitReceive (port : Nat) (flit : Flit) (full : Bool) | hostWrite (fn va : Nat) (bytes : List Byte)
  | hostRead (fn va n : Nat) | registerWrite (unit off : Nat) (v : DWord) | trcctlWrite (core : Nat) (v : DWord)
  | telbaseWrite (part : Nat) (v : DWord) | clock | powerOn (fails : List Nat) | retrain (port : Nat) (ok : Bool)
  | replayResend (port : Nat) | portDown (port : Nat) | flitUnacknowledged (port : Nat) | sliceDrained (slice : Nat)
  | agentReload (core : Nat)
deriving DecidableEq, Repr

end Sys2Proof
end

