-- ==== Sys2Proof/WellFormed.lean ====
section
/-! DEFINITION. What makes an instruction legal where it stands: the checks of R64 on one instruction,
each under the detail code that reports it (spec/03_encoding.md R49 to R66 and each instruction's own rule). -/

namespace Sys2Proof

/-- Where a word is decoded: team code, the agent slot, a sequencer stream (R62). -/
inductive Place | team | agent | stream
deriving DecidableEq, Repr

/-- The limits of R57: declared registers and lanes of the launch, accumulators granted to the block. -/
structure Limits where
  place : Place
  regs : Nat
  lanes : Nat
  accs : Nat
deriving DecidableEq, Repr

/-- The conditions of R64, true when the instruction keeps them. -/
structure Checks where
  /-- detail 0x4: modifier -/
  mod : Bool := true
  /-- detail 0x5: B kind -/
  bk : Bool := true
  /-- detail 0x6: lane or team-wide form -/
  form : Bool := true
  /-- detail 0x7: operand limits -/
  lim : Bool := true
  /-- detail 0x8: privilege -/
  priv : Bool := true
  /-- detail 0x9: context -/
  ctx : Bool := true
  /-- operand fields the instruction does not use hold the encoder's zero (never reported) -/
  canon : Bool := true
deriving DecidableEq, Repr

/-- The B kinds an instruction accepts (R54). -/
structure Kinds where
  reg : Bool := true
  bank : Bool := true
  imm : Bool := true
  simm : Bool := false
  lit : Bool := true
deriving DecidableEq, Repr

def Kinds.all : Kinds := {}
def Kinds.noImm : Kinds := { imm := false }
def Kinds.short : Kinds := { imm := false, simm := true }
def Kinds.regOnly : Kinds := { bank := false, imm := false, lit := false }
def Kinds.regBank : Kinds := { imm := false, lit := false }
def Kinds.noReg : Kinds := { reg := false }
def Kinds.immOnly : Kinds := { reg := false, bank := false, lit := false }
def Kinds.noBank : Kinds := { bank := false }

/-- The operand's kind is among the accepted ones. -/
def BOp.accepted (b : BOp) (k : Kinds) : Bool :=
  match b with
  | .reg _ => k.reg | .bank _ => k.bank | .imm _ => k.imm | .simm _ => k.simm | .lit _ => k.lit

def BOp.isImm : BOp → Bool
  | .imm _ => true | _ => false

/-- Lane register below the declared count. -/
def vOk (L : Limits) (r : Reg) : Bool := decide (r.toNat < L.regs)
/-- Even register of a lane pair (R73). -/
def vPairOk (L : Limits) (r : Reg) : Bool := decide (r.toNat % 2 = 0 ∧ r.toNat + 1 < L.regs)
/-- Four lane registers, number a multiple of 4 (R179). -/
def vQuadOk (L : Limits) (r : Reg) : Bool := decide (r.toNat % 4 = 0 ∧ r.toNat + 3 < L.regs)
/-- Team-wide register g0 to g63. -/
def gOk (r : Reg) : Bool := decide (r.toNat < 64)
/-- A field in the range 0 to n - 1. -/
def below (n : Nat) (r : Reg) : Bool := decide (r.toNat < n)
/-- Predicate field 0 to 7. -/
def pOk (r : Reg) : Bool := below 8 r
/-- A 32-bit register operand of the form W. -/
def rOk (L : Limits) (w : Bool) (r : Reg) : Bool := if w then gOk r else vOk L r
/-- A 64-bit register operand of the form W: any g register, or an even lane register. -/
def rPairOk (L : Limits) (w : Bool) (r : Reg) : Bool := if w then gOk r else vPairOk L r
/-- Register operand, 64 bits wide when `d`. -/
def rdOk (L : Limits) (w d : Bool) (r : Reg) : Bool := if d then rPairOk L w r else rOk L w r

/-- Limits of a B operand; `d` when it is 64 bits wide: an even pair or an even kN (R57). -/
def bOk (L : Limits) (w d : Bool) : BOp → Bool
  | .reg r => rdOk L w d r
  | .bank k => !d || decide (k.toNat % 2 = 0)
  | _ => true

/-- Legal in team code only. -/
def teamOnly (L : Limits) : Bool := decide (L.place = .team)
/-- Legal in team code, and in its team-wide form in the agent slot (R53). -/
def teamAgent (L : Limits) (c : Ctl) : Bool :=
  match L.place with
  | .team => true | .agent => c.w | .stream => false
/-- Legal in a sequencer stream only. -/
def streamOnly (L : Limits) : Bool := decide (L.place = .stream)
/-- The predicate PS = 7, PN = 0. -/
def Ctl.always (c : Ctl) : Bool := decide (c.ps = 7) && !c.pn

/-- Checks of a two-operand integer form. -/
def IntB.chk (f : IntB) (L : Limits) (satOk dWide bWide : Bool) : Checks :=
  { mod := satOk || !f.sat, bk := f.b.accepted .all
    lim := rdOk L f.c.w dWide f.d && rdOk L f.c.w dWide f.a && bOk L f.c.w bWide f.b
    ctx := teamAgent L f.c }

/-- Checks of an integer form with a C operand, which is a predicate when `cp`. -/
def IntC.chk (f : IntC) (L : Limits) (satOk cp : Bool) : Checks :=
  { mod := satOk || !f.sat, bk := f.b.accepted .noImm
    lim := rOk L f.c.w f.d && rOk L f.c.w f.a && bOk L f.c.w false f.b &&
      (if cp then pOk f.cc else rOk L f.c.w f.cc)
    ctx := teamAgent L f.c }

/-- Checks of a one-operand integer form. -/
def IntU.chk (f : IntU) (L : Limits) (satOk : Bool) : Checks :=
  { mod := satOk || !f.sat
    lim := rOk L f.c.w f.d && rOk L f.c.w f.a
    ctx := teamAgent L f.c }

/-- `.ftz` on f64 is illegal (R78). -/
def ftzOk (ty : FTy) (ftz : Bool) : Bool := !ftz || decide (ty ≠ .f64)

/-- Checks of a two-operand float form. -/
def FltB.chk (f : FltB) (L : Limits) (rmOk satOk : Bool) : Checks :=
  let d := decide (f.ty = .f64)
  { mod := (rmOk || decide (f.rm = .rne)) && (satOk || !f.sat) && ftzOk f.ty f.ftz
    bk := f.b.accepted .all
    lim := rdOk L f.c.w d f.d && rdOk L f.c.w d f.a && bOk L f.c.w d f.b
    ctx := teamAgent L f.c }

/-- Checks of a three-operand float form. -/
def FltC.chk (f : FltC) (L : Limits) : Checks :=
  let d := decide (f.ty = .f64)
  { mod := ftzOk f.ty f.ftz, bk := f.b.accepted .noImm
    lim := rdOk L f.c.w d f.d && rdOk L f.c.w d f.a && bOk L f.c.w d f.b && rdOk L f.c.w d f.cc
    ctx := teamAgent L f.c }

/-- Checks of a one-operand float form. -/
def FltU.chk (f : FltU) (L : Limits) (satOk : Bool) : Checks :=
  let d := decide (f.ty = .f64)
  { mod := (satOk || !f.sat) && ftzOk f.ty f.ftz, bk := f.b.accepted .all
    lim := rdOk L f.c.w d f.d && bOk L f.c.w d f.b
    ctx := teamAgent L f.c }

/-- Special functions take no f64 (R86): the decoder never builds one. -/
def FltU.spChk (f : FltU) (L : Limits) : Checks :=
  let k := f.chk L false
  { k with canon := decide (f.ty ≠ .f64) }

/-- A packed half type (R87). -/
def halfTy (t : FTy) : Bool := decide (t = .f16 ∨ t = .bf16)

/-- Checks of packed half forms (R87): lane forms in team code, no immediate. -/
def FltB.halfChk (f : FltB) (L : Limits) (arith : Bool) : Checks :=
  { mod := (arith || decide (f.rm = .rne)) && (arith || !f.sat), bk := f.b.accepted .noImm
    form := !f.c.w, lim := vOk L f.d && vOk L f.a && bOk L false false f.b
    ctx := teamOnly L, canon := halfTy f.ty }

def FltC.halfChk (f : FltC) (L : Limits) : Checks :=
  { bk := f.b.accepted .noImm, form := !f.c.w
    lim := vOk L f.d && vOk L f.a && bOk L false false f.b && vOk L f.cc
    ctx := teamOnly L, canon := halfTy f.ty }

/-- 64-bit number types of `cvt`. -/
def NumTy.wide : NumTy → Bool
  | .s64 => true | .n64 => true | .f64 => true | _ => false
/-- Types on which FZ of `cvt` acts (R88). -/
def NumTy.ftzTy : NumTy → Bool
  | .f32 => true | .f16 => true | .bf16 => true | _ => false

def CvtF.chk (f : CvtF) (L : Limits) : Checks :=
  { mod := !f.ftz || f.dst.ftzTy || f.src.ftzTy
    lim := rdOk L f.c.w f.dst.wide f.d && rdOk L f.c.w f.src.wide f.a
    ctx := teamAgent L f.c }

def CmpTy.wide : CmpTy → Bool
  | .s64 => true | .n64 => true | .f64 => true | _ => false
def CmpTy.isFloat : CmpTy → Bool
  | .f32 => true | .f16 => true | .bf16 => true | .f64 => true | _ => false

def CmpF.chk (f : CmpF) (L : Limits) : Checks :=
  { mod := !f.ftz || (f.ty.isFloat && !f.ty.wide), bk := f.b.accepted .all
    lim := pOk f.d && rdOk L f.c.w f.ty.wide f.a && bOk L f.c.w f.ty.wide f.b
    ctx := teamAgent L f.c
    canon := f.ty.isFloat || decide (f.cond ≠ .un ∧ f.cond ≠ .ord) }

def DB.movChk (f : DB) (L : Limits) (wide : Bool) : Checks :=
  { bk := f.b.accepted .all, lim := rdOk L f.c.w wide f.d && bOk L f.c.w wide f.b, ctx := teamAgent L f.c }

def DABC.selChk (f : DABC) (L : Limits) (wide : Bool) : Checks :=
  { bk := f.b.accepted .noImm
    lim := rdOk L f.c.w wide f.d && rdOk L f.c.w wide f.a && bOk L f.c.w wide f.b && pOk f.cc
    ctx := teamAgent L f.c }

/-- Predicate logic: `dv` when D is a value register, `av` when A is, `two` when B is used (R91). -/
def PredF.chk (f : PredF) (L : Limits) (dv av two : Bool) : Checks :=
  { lim := (if dv then rOk L f.c.w f.d else pOk f.d) && (if av then rOk L f.c.w f.a else pOk f.a) &&
      (!two || pOk f.b)
    ctx := teamAgent L f.c }

def StackF.chk (f : StackF) (L : Limits) (useD useA useIdx : Bool) : Checks :=
  { mod := useIdx || decide (f.idx = 0), form := !f.c.w
    lim := (!useD || vOk L f.d) && (!useA || vOk L f.a), ctx := teamOnly L }

/-- `sval` selectors (R94): 64-bit ones in the lane form, and those the team-wide form refuses. -/
def svalWide (sel : Reg) : Bool := decide (2 ≤ sel.toNat ∧ sel.toNat ≤ 8)
def svalTeam (sel : Reg) : Bool := !(decide (sel.toNat ≤ 2 ∨ sel.toNat = 8))

def ExvF.chk (f : ExvF) (L : Limits) (many : Bool) : Checks :=
  { form := !f.c.w
    lim := vOk L f.a && vOk L f.fb &&
      (if many then decide (1 ≤ f.n.toNat ∧ f.n.toNat ≤ 64 ∧ f.a.toNat + f.n.toNat - 1 < L.regs)
       else decide (f.n = 0))
    ctx := teamOnly L }

/-- Stream-legal or team and agent code, in the form the place wants (R133, R137, R140). -/
def anyPlace (L : Limits) (c : Ctl) : Bool :=
  match L.place with
  | .team => true | .agent => c.w | .stream => true

def Tgt.isReg : Tgt → Bool
  | .reg _ => true | _ => false

/-- Jumps by a register (R135). -/
def BraF.jmpChk (f : BraF) (L : Limits) : Checks :=
  { bk := f.tgt.isReg, form := f.c.w, lim := (match f.tgt with | .reg r => gOk r | _ => true)
    ctx := teamAgent L f.c, canon := decide (f.d = 0) }

def MSize.bytes : MSize → Nat
  | .n8 => 1 | .s8 => 1 | .n16 => 2 | .s16 => 2 | .b32 => 4 | .b64 => 8 | .b128 => 16

/-- The data register of a load or store (R179). -/
def MSize.regOk (L : Limits) (w : Bool) (s : MSize) (r : Reg) : Bool :=
  match s with
  | .b64 => rPairOk L w r
  | .b128 => if w then gOk r else vQuadOk L r
  | _ => rOk L w r

/-- Store sizes have no sign-extending form (R179). -/
def MSize.stOk (s : MSize) : Bool := decide (s ≠ .s8 ∧ s ≠ .s16)

/-- Global loads and stores. -/
def MemF.chk (f : MemF) (L : Limits) (vOk : Bool) (agent : Bool) : Checks :=
  { mod := vOk || !f.v, bk := f.b.accepted .all
    form := !(f.c.w && decide (f.size = .b128))
    lim := f.size.regOk L f.c.w f.d && rPairOk L f.c.w f.a && bOk L f.c.w false f.b
    ctx := if agent then teamAgent L f.c else teamOnly L }

/-- Scratchpad loads and stores: A is an offset or a modulo register. -/
def MemF.spChk (f : MemF) (L : Limits) : Checks :=
  { bk := f.b.accepted .all
    form := !(f.c.w && decide (f.size = .b128))
    lim := f.size.regOk L f.c.w f.d && (if f.v then below 8 f.a else rOk L f.c.w f.a) && bOk L f.c.w false f.b
    ctx := teamOnly L }

def AtTy.wide : AtTy → Bool
  | .s64 => true | .n64 => true | .f64 => true | _ => false
def AtTy.isFloat : AtTy → Bool
  | .f32 => true | .f64 => true | _ => false
/-- Reserved minors of R189. -/
def atomLegal (op : AtOp) (ty : AtTy) : Bool :=
  match op with
  | .and => !ty.isFloat | .or => !ty.isFloat | .xor => !ty.isFloat | _ => true

def AtomF.chk (f : AtomF) (L : Limits) : Checks :=
  { mod := !(f.sp && (f.acq || f.rel))
    bk := f.b.accepted (if f.op = .cas then .noImm else .all)
    lim := (f.nr || rdOk L f.c.w f.ty.wide f.d) && (if f.sp then rOk L f.c.w f.a else rPairOk L f.c.w f.a) &&
      bOk L f.c.w f.ty.wide f.b && (decide (f.op ≠ .cas) || rdOk L f.c.w f.ty.wide f.cc)
    ctx := teamAgent L f.c
    canon := atomLegal f.op f.ty && (decide (f.op = .cas) || decide (f.cc = 0)) }

def StashF.chk (f : StashF) (L : Limits) (map : Bool) : Checks :=
  { mod := map || !f.ro
    bk := f.b.accepted (if map then .regBank else .regOnly), form := f.c.w
    lim := gOk f.d && (!map || (gOk f.a && bOk L true true f.b)), ctx := teamOnly L
    canon := map || decide (f.b = .reg 0 ∧ f.a = 0) }

/-- Bulk copies: `n` is the descriptor's length without the barrier word (R211). -/
def CopyF.chk (f : CopyF) (L : Limits) (n : Nat) (useB useE8 : Bool) : Checks :=
  { mod := !(f.bar && f.tbar)
    bk := f.b.accepted (if useB then .all else .regOnly) && !(f.bar && f.b.isImm)
    form := f.c.w
    lim := gOk f.d && decide (f.a.toNat + n + (if f.tbar then 1 else 0) ≤ 64) &&
      (!useB || bOk L true false f.b) && (!f.bar || below 16 f.cc)
    ctx := teamAgent L f.c
    canon := (f.bar || decide (f.cc = 0)) && (useE8 || !f.e8) && (useB || decide (f.b = .reg 0)) }

/-- Barrier objects: A names the object when `obj`, a g register otherwise (R215, R219). -/
def BarF.chk (f : BarF) (L : Limits) (obj useD tryOk : Bool) : Checks :=
  { mod := tryOk || !f.tr, bk := f.b.accepted .all, form := f.c.w
    lim := (!useD || gOk f.d) && (if obj then below 16 f.a else gOk f.a) && bOk L true false f.b
    ctx := teamAgent L f.c
    canon := useD || decide (f.d = 0) }

/-- Barrier objects of a stream (R234): D and a register B are counters. -/
def BarF.streamChk (f : BarF) (L : Limits) (useD : Bool) : Checks :=
  { mod := !f.tr, bk := f.b.accepted .noBank
    lim := (!useD || below 8 f.d) && below 16 f.a && (match f.b with | .reg r => below 8 r | _ => true)
    ctx := streamOnly L, canon := useD || decide (f.d = 0) }

/-- Accumulator operand: granted, and for f64 an even one with its partner (R242). -/
def accOk (L : Limits) (ty : AccTy) (r : Reg) : Bool :=
  match ty with
  | .f64 => decide (r.toNat % 2 = 0 ∧ r.toNat + 1 < L.accs)
  | _ => below L.accs r

def MgF.chk (f : MgF) (L : Limits) (w xOk : Bool) (lim bk : Bool) : Checks :=
  { mod := xOk || !f.x, bk := bk, form := f.c.w == w, lim := lim, ctx := teamOnly L }

def WalkF.chk (f : WalkF) (L : Limits) (rnd : Bool) : Checks :=
  { mod := rnd || decide (f.h = 0), bk := f.b.accepted .noImm, form := !f.c.w
    lim := decide (f.d.toNat % 2 = 0 ∧ f.d.toNat + 2 < L.regs) && vPairOk L f.a && bOk L false false f.b && vOk L f.cc
    ctx := teamOnly L }

/-- Major 0x3A context instructions and major 0x3C: W = 1, BK 00. -/
def DACX.chk (f : DACX) (L : Limits) (useA useC priv : Bool) : Checks :=
  { form := f.c.w, lim := gOk f.d && (!useA || gOk f.a) && (!useC || gOk f.cc)
    priv := !priv || decide (L.place = .agent), ctx := teamAgent L f.c }

/-- Types and rounding of reductions (R153). -/
def RedTy.wide : RedTy → Bool
  | .f64 => true | .s64 => true | .n64 => true | _ => false
def RedTy.isFloat : RedTy → Bool
  | .f32 => true | .f64 => true | _ => false
def redLegal (op : RedOp) (ty : RedTy) : Bool :=
  match op with
  | .and => !ty.isFloat | .or => !ty.isFloat | .xor => !ty.isFloat | _ => true
def RedF.modOk (f : RedF) (exOk : Bool) : Bool :=
  (decide (f.rm = .rne) || (decide (f.op = .add) && f.ty.isFloat)) &&
  (!f.ftz || (decide (f.op = .add ∨ f.op = .min ∨ f.op = .max) && decide (f.ty = .f32))) && (exOk || !f.ex)

/-- The checks of one instruction where it stands, before the stream's common rule. The device's own
steps have no encoding: they keep no check at all. -/
def Instr.base (L : Limits) (i : Instr) : Checks :=
  let ev : Checks := { canon := false }
  match i with
  | .add f => f.chk L true false false
  | .sub f => f.chk L true false false
  | .addc f => f.chk L false true
  | .subb f => f.chk L false true
  | .adda f => f.chk L false true false
  | .mul f => f.chk L true false false
  | .mulh f => f.chk L false false false
  | .mad f => f.chk L true false
  | .div f => f.chk L false false false
  | .rem f => f.chk L false false false
  | .min f => f.chk L false false false
  | .max f => f.chk L false false false
  | .abs f => f.chk L true
  | .neg f => f.chk L true
  | .and f => f.chk L false false false
  | .or f => f.chk L false false false
  | .xor f => f.chk L false false false
  | .andn f => f.chk L false false false
  | .not f => f.chk L false
  | .shl f => f.chk L false false false
  | .shr f => f.chk L false false false
  | .sar f => f.chk L false false false
  | .rol f => f.chk L false false false
  | .ror f => f.chk L false false false
  | .bfe f => f.chk L false false false
  | .bfi f => f.chk L false false
  | .popc f => f.chk L false
  | .clz f => f.chk L false
  | .ctz f => f.chk L false
  | .brev f => f.chk L false
  | .pairAdd f => f.chk L true true true
  | .pairSub f => f.chk L true true true
  | .pairMul f => f.chk L true true true
  | .pairMin f => f.chk L false true true
  | .pairMax f => f.chk L false true true
  | .pairShl f => f.chk L false true false
  | .pairShr f => f.chk L false true false
  | .pairSar f => f.chk L false true false
  | .pairAnd f => f.chk L false true true
  | .pairOr f => f.chk L false true true
  | .pairXor f => f.chk L false true true
  | .floatAdd f => f.chk L true true
  | .floatSub f => f.chk L true true
  | .floatMul f => f.chk L true true
  | .fma f => f.chk L
  | .fms f => f.chk L
  | .fnma f => f.chk L
  | .floatMin f => f.chk L false false
  | .floatMax f => f.chk L false false
  | .floatDiv f => f.chk L true true
  | .rcp f => f.chk L true
  | .sqrt f => f.chk L false
  | .exp2 f => f.spChk L
  | .log2 f => f.spChk L
  | .sin f => f.spChk L
  | .cos f => f.spChk L
  | .tanh f => f.spChk L
  | .sig f => f.spChk L
  | .gelu f => f.spChk L
  | .add2 f => f.halfChk L true
  | .sub2 f => f.halfChk L true
  | .mul2 f => f.halfChk L true
  | .fma2 f => f.halfChk L
  | .min2 f => f.halfChk L false
  | .max2 f => f.halfChk L false
  | .cvt f => f.chk L
  | .cmp f => f.chk L
  | .mov f => f.movChk L false
  | .sel f => f.selChk L false
  | .movd f => f.movChk L true
  | .seld f => f.selChk L true
  | .pand f => f.chk L false false true
  | .por f => f.chk L false false true
  | .pxor f => f.chk L false false true
  | .pandn f => f.chk L false false true
  | .pmov f => f.chk L false false false
  | .ptst f => f.chk L false true false
  | .pget f => f.chk L true false false
  | .spush f => f.chk L false true false
  | .spop f => f.chk L true false false
  | .speek f => f.chk L true false true
  | .sdep f => f.chk L true false false
  | .sclr f => f.chk L false false false
  | .sval f =>
    { form := !f.c.w || svalTeam f.a || decide (f.a.toNat > 14)
      lim := decide (f.a.toNat ≤ 14) && rdOk L f.c.w (svalWide f.a) f.d, ctx := teamAgent L f.c }
  | .exv f => f.chk L false
  | .exvn f => f.chk L true
  | .exwin f => { bk := f.b.accepted .noReg, form := !f.c.w, ctx := teamOnly L, canon := decide (f.d = 0) }
  | .lsr f => { form := !f.c.w, lim := vOk L f.d, ctx := teamOnly L, canon := decide (f.a = 0) }
  | .lsc f =>
    { bk := f.b.accepted .all, form := !f.c.w, lim := bOk L false false f.b, ctx := teamOnly L
      canon := decide (f.d = 0) }
  | .bra f => { bk := !f.tgt.isReg, form := f.c.w || decide (f.c.ps = 7), ctx := anyPlace L f.c, canon := decide (f.d = 0) }
  | .brany f => { bk := !f.tgt.isReg, form := !f.c.w, ctx := teamOnly L, canon := decide (f.d = 0) }
  | .brall f => { bk := !f.tgt.isReg, form := !f.c.w, ctx := teamOnly L, canon := decide (f.d = 0) }
  | .brd f => { form := !f.c.w, ctx := teamOnly L }
  | .jmp f => f.jmpChk L
  | .call f =>
    { form := f.c.w, lim := gOk f.d && (match f.tgt with | .reg r => gOk r | _ => true), ctx := teamAgent L f.c }
  | .ret f => f.jmpChk L
  | .loop f => { bk := !f.tgt.isReg, form := f.c.w, lim := gOk f.d, ctx := teamAgent L f.c }
  | .streamLoop f => { bk := !f.tgt.isReg, lim := below 8 f.d, ctx := streamOnly L }
  | .exit _ => { ctx := teamOnly L }
  | .streamExit _ => { ctx := streamOnly L }
  | .agentExit c => { ctx := decide (L.place = .agent) && c.w }
  | .trap f => { ctx := teamAgent L f.c }
  | .streamTrap _ => { ctx := streamOnly L }
  | .tret c => { form := c.w, lim := c.always, ctx := teamAgent L c }
  | .rgn f => { bk := f.b.accepted .noReg, form := !f.c.w, ctx := teamOnly L, canon := decide (f.d = 0) }
  | .fchk c => { form := !c.w, ctx := teamOnly L }
  | .waitla c => { form := !c.w, ctx := teamOnly L }
  | .gtov f => { form := !f.c.w, lim := rdOk L false f.x f.d && gOk f.a, ctx := teamAgent L f.c }
  | .vtog f =>
    { bk := f.b.accepted .short, form := f.c.w, lim := gOk f.d && rdOk L false f.x f.a && bOk L true false f.b
      ctx := teamAgent L f.c }
  | .pbc f => { form := !f.c.w, lim := pOk f.d && pOk f.a, ctx := teamAgent L f.c }
  | .ffr f => { form := f.c.w, lim := gOk f.d, ctx := teamAgent L f.c, canon := decide (f.a = 0) }
  | .ffc f =>
    { bk := f.b.accepted .all, form := f.c.w, lim := bOk L true false f.b, ctx := teamAgent L f.c, canon := decide (f.d = 0) }
  | .vany f => { form := f.c.w, lim := pOk f.d && pOk f.a, ctx := teamOnly L }
  | .vall f => { form := f.c.w, lim := pOk f.d && pOk f.a, ctx := teamOnly L }
  | .vcnt f => { form := f.c.w, lim := gOk f.d && pOk f.a, ctx := teamOnly L }
  | .ballot f =>
    { bk := f.b.accepted .short, form := f.c.w, lim := gOk f.d && pOk f.a && bOk L true false f.b, ctx := teamOnly L }
  | .vfirst f => { form := f.c.w, lim := gOk f.d && pOk f.a, ctx := teamOnly L }
  | .vuni f => { form := f.c.w, lim := pOk f.d && rdOk L false f.x f.a, ctx := teamOnly L }
  | .vrank f => { form := !f.c.w, lim := vOk L f.d && pOk f.a, ctx := teamOnly L }
  | .shfi f => shf L f
  | .shfx f => shf L f
  | .shfu f => shf L f
  | .shfd f => shf L f
  | .red f =>
    { mod := f.modOk false, form := f.c.w, lim := gOk f.d && rdOk L false f.ty.wide f.a, ctx := teamOnly L
      canon := redLegal f.op f.ty }
  | .scan f =>
    { mod := f.modOk true, form := !f.c.w, lim := rdOk L false f.ty.wide f.d && rdOk L false f.ty.wide f.a
      ctx := teamOnly L, canon := redLegal f.op f.ty }
  | .rstat f =>
    { mod := !f.c.w || decide (f.wn = 0)
      lim := (if f.c.w then gOk f.d else vPairOk L f.d && decide (1 ≤ f.wn.toNat ∧ f.wn.toNat ≤ 10 ∧ 2 ^ f.wn.toNat ≤ L.lanes)) &&
        vOk L f.a
      ctx := teamOnly L }
  | .regrp f =>
    { bk := f.b.accepted .all, form := f.c.w, lim := pOk f.d && gOk f.a && bOk L true false f.b, ctx := teamOnly L }
  | .ld f => f.chk L true true
  | .st f => { f.chk L false true with canon := f.size.stOk }
  | .lds f => f.spChk L
  | .sts f => { f.spChk L with canon := f.size.stOk }
  | .lda f => { f.chk L false true with canon := decide (f.size ≠ .b128) }
  | .stl f => { f.chk L false true with canon := f.size.stOk && decide (f.size ≠ .b128) }
  | .fence f => { mod := f.acq || f.rel, ctx := teamAgent L f.c }
  | .pf f => { bk := f.b.accepted .all, lim := rPairOk L f.c.w f.a && bOk L f.c.w false f.b, ctx := teamAgent L f.c }
  | .atom f => f.chk L
  | .mcst f =>
    { form := !f.c.w, lim := rdOk L false f.d64 f.d && vOk L f.a && decide (f.b.toNat + f.cnt.toNat ≤ 63), ctx := teamOnly L }
  | .mred f =>
    { form := !f.c.w, lim := vOk L f.d && vOk L f.a && decide (f.b.toNat + f.cnt.toNat ≤ 63), ctx := teamOnly L }
  | .stmap f => f.chk L true
  | .stunmap f => f.chk L false
  | .stflush f => f.chk L false
  | .mset f =>
    { bk := f.b.accepted .regBank, form := f.c.w, lim := below 8 f.d && bOk L true true f.b, ctx := teamOnly L }
  | .mget f => { form := f.c.w, lim := gOk f.d && below 8 f.a, ctx := teamOnly L }
  | .cpl f =>
    { bk := f.b.accepted .noImm, form := !f.c.w, lim := vOk L f.d && vPairOk L f.a && bOk L false false f.b && vOk L f.cc
      ctx := teamOnly L }
  | .cp f => f.chk L 2 true false
  | .cp2d f => f.chk L 4 false false
  | .cpz f => f.chk L 3 true true
  | .cpx f => f.chk L 3 true true
  | .binit f => f.chk L true false false
  | .barr f => f.chk L true true false
  | .bwait f => f.chk L true true true
  | .streamBinit f => f.streamChk L false
  | .streamBarr f => f.streamChk L true
  | .streamBwait f => f.streamChk L true
  | .tbinit f => f.chk L false false false
  | .tbarr f => f.chk L false true false
  | .tbwait f => f.chk L false true true
  | .scat f =>
    { form := !f.c.w, lim := vOk L f.d && decide (f.a.toNat % 2 = 0 ∧ f.a.toNat + 6 < L.regs), ctx := teamOnly L }
  | .gath f =>
    { bk := f.b.accepted .noImm, form := !f.c.w
      lim := rdOk L false f.dd f.d && vOk L f.a && bOk L false false f.b && pOk f.cc, ctx := teamOnly L }
  | .xsect f =>
    { bk := f.b.accepted .regOnly, form := !f.c.w
      lim := vPairOk L f.d && vOk L f.a && bOk L false false f.b && gOk f.cc, ctx := teamOnly L }
  | .mstart f =>
    { bk := f.b.accepted .regBank, form := f.c.w, lim := gOk f.d && decide (f.a.toNat ≤ 48) && bOk L true true f.b
      ctx := teamOnly L }
  | .mstq f => { form := f.c.w, lim := gOk f.d, ctx := teamOnly L, canon := decide (f.a = 0) }
  | .mmul f => { lim := accOk L .f32 f.d && below 8 f.a && below 8 f.b && below 8 f.cc, form := !f.c.w, ctx := streamOnly L }
  | .mzero f => { lim := accOk L f.ty f.d, form := !f.c.w, ctx := streamOnly L, canon := decide (f.a = 0 ∧ f.cc = 0) }
  | .mld f => { lim := accOk L f.ty f.d && below 8 f.a && below 8 f.cc, form := !f.c.w, ctx := streamOnly L }
  | .mout f =>
    { mod := decide (1 ≤ f.fmt.toNat ∧ f.fmt.toNat ≤ 14) && !(f.raw && decide (f.fmt = 6 ∨ f.fmt = 10 ∨ f.fmt = 11 ∨ f.fmt = 14))
      lim := accOk L .f32 f.d && below 8 f.a && below 8 f.b && below 8 f.cc, form := !f.c.w, ctx := streamOnly L }
  | .mstat f => { lim := accOk L .f32 f.d && below 8 f.a, form := !f.c.w, ctx := streamOnly L }
  | .maudit f => { lim := decide (f.code.toNat ≤ 31), form := !f.c.w, ctx := streamOnly L }
  | .xadd f =>
    { bk := f.b.accepted .noBank, lim := below 8 f.d && below 8 f.a && (match f.b with | .reg r => below 8 r | _ => true)
      form := !f.c.w, ctx := streamOnly L }
  | .cset f =>
    { bk := f.b.accepted .noBank, lim := below 8 f.d && (match f.b with | .reg r => below 8 r | _ => true), form := !f.c.w, ctx := streamOnly L }
  | .dqpush f =>
    { bk := f.b.accepted .short, form := f.c.w, lim := gOk f.d && gOk f.a && bOk L true true f.b && pOk f.cc
      ctx := teamAgent L f.c }
  | .dqpop f =>
    { bk := decide (f.b = .reg 0), form := f.c.w, lim := gOk f.d && gOk f.a && pOk f.cc, ctx := teamAgent L f.c }
  | .dqsteal f =>
    { bk := decide (f.b = .reg 0), form := f.c.w, lim := gOk f.d && gOk f.a && pOk f.cc, ctx := teamAgent L f.c }
  | .mgopen f => f.chk L true false (gOk f.d) (f.b.accepted .regOnly)
  | .mgput f => f.chk L false true (rdOk L false f.x f.d && vOk L f.a && bOk L false false f.b && vOk L f.cc) (f.b.accepted .regOnly)
  | .mgclose f => { f.chk L true false (gOk f.d) (f.b.accepted .regOnly) with canon := !f.x }
  | .mgcloseAbort f => { f.chk L true true (gOk f.d) (f.b.accepted .regOnly) with canon := f.x }
  | .mgdrain f => f.chk L true false (gOk f.d) (f.b.accepted .regOnly)
  | .mgadd f => f.chk L true true (gOk f.d && gOk f.a && bOk L true true f.b) (f.b.accepted .noImm)
  | .mgst f => f.chk L true false (gOk f.d && below 6 f.cc) (f.b.accepted .regOnly)
  | .walkChase f => f.chk L false
  | .walkRnd f => f.chk L true
  | .walkSeek f => f.chk L false
  | .lnch f =>
    { bk := f.b.accepted .all, form := f.c.w, lim := gOk f.d && decide (f.a.toNat ≤ 56) && bOk L true false f.b
      ctx := teamAgent L f.c }
  | .ctxsv f => { f.chk L true f.x false with priv := !f.x || decide (L.place = .agent) }
  | .ctxld f => f.chk L true true true
  | .halt f => f.chk L false true true
  | .resm f => f.chk L false true true
  | .logrd f =>
    { bk := f.b.accepted .all, form := f.c.w, lim := gOk f.d && bOk L true false f.b, ctx := teamAgent L f.c }
  | .logre f => { form := f.c.w, lim := gOk f.d, ctx := teamOnly L, canon := decide (f.a = 0) }
  | .logdr f => { form := f.c.w, lim := gOk f.d, ctx := teamAgent L f.c, canon := decide (f.a = 0) }
  | .brk _ => { ctx := teamOnly L }
  | .wtch f =>
    { bk := f.b.accepted .noImm, form := f.c.w, lim := gOk f.d && gOk f.a && bOk L true true f.b
      priv := decide (L.place = .agent), ctx := teamAgent L f.c }
  | .tmark f =>
    { bk := f.b.accepted .all, form := f.c.w, lim := bOk L true false f.b, ctx := teamAgent L f.c, canon := decide (f.d = 0) }
  | .pmrd f =>
    { bk := f.b.accepted .all, form := f.c.w, lim := gOk f.d && bOk L true false f.b, ctx := teamAgent L f.c }
  | .place f =>
    { bk := f.b.accepted .regOnly, form := f.c.w, lim := gOk f.d && gOk f.a && bOk L true false f.b && gOk f.cc
      priv := decide (L.place = .agent), ctx := decide (L.place = .agent) && f.c.w }
  | .bkill f => { f.chk L false true true with ctx := decide (L.place = .agent) && f.c.w, mod := !f.x }
  | .mrd f =>
    { form := f.c.w, lim := gOk f.d && gOk f.a, priv := decide (L.place = .agent), ctx := decide (L.place = .agent) && f.c.w }
  | .mwr f =>
    { bk := f.b.accepted .regOnly, form := f.c.w, lim := gOk f.d && gOk f.a && bOk L true false f.b
      priv := decide (L.place = .agent), ctx := decide (L.place = .agent) && f.c.w }
  | .anote f =>
    { form := f.c.w, lim := gOk f.d && gOk f.a, priv := decide (L.place = .agent), ctx := decide (L.place = .agent) && f.c.w }
  | .await f =>
    { bk := f.b.accepted .all, form := f.c.w, lim := gOk f.d && bOk L true false f.b
      priv := decide (L.place = .agent), ctx := decide (L.place = .agent) && f.c.w }
  | .regroupDecision _ _ => ev | .tbwaitAnswer _ _ => ev | .matrixOperationComplete _ _ => ev
  | .pinReservationGrant _ => ev | .coldStartGrant _ => ev | .dequeStep _ => ev | .morainePutArrival _ => ev
  | .walkHop _ _ => ev | .broadcastAcknowledged _ _ => ev | .awaitTimeout _ => ev
  | .illegalInstruction _ => ev | .fetchFault _ => ev
  | .longLatencyWrite _ _ _ => ev | .fragmentBoost _ _ _ => ev | .loadResponse _ _ _ => ev
  | .storeSectorAccept _ _ => ev | .atomicRequest _ _ => ev | .transactionBarrierStep _ _ => ev
  | .l2MissTranslation _ _ => ev | .l2Fill _ _ => ev | .deferredFault _ => ev | .sessionEnd _ _ => ev
  | .sessionCancelTimeout _ _ => ev | .drainEnd _ _ => ev | .leaseRequest _ _ => ev | .residencyAnswer _ _ _ => ev
  | .inval _ _ => ev | .invalComplete _ => ev | .generationBump _ _ _ => ev | .staleRepresent _ _ => ev
  | .agentScan _ => ev | .launchCommand _ _ => ev | .leaseGranted _ => ev | .blockPlacement _ _ => ev
  | .bulkCopyCommand _ => ev | .waitCommand _ => ev | .signalCommand _ => ev | .markerCommand _ => ev
  | .blockRetire _ _ => ev | .commandEnd _ _ => ev | .agentReload _ => ev | .doorbell _ _ => ev
  | .queueRegister _ _ _ => ev | .queueDestroy _ _ _ => ev | .qstop _ _ _ => ev | .pentWrite _ _ => ev
  | .tentWrite _ _ _ => ev | .preq _ _ => ev | .preemptStop _ _ => ev | .preemptAck _ _ => ev
  | .dcmdRead _ => ev | .dcmdWrite _ => ev | .dcmdForcedWrite _ => ev | .watchHit _ => ev
  | .watchPredicateExit _ => ev | .watchPredicateLimit _ => ev | .sliceDrain _ => ev | .sliceUndrain _ => ev
  | .sliceDrained _ => ev | .scal _ _ => ev | .devnumWrite _ => ev | .fwctlGo _ _ => ev
  | .attestationRequest _ _ => ev | .thermalResume => ev | .thermalStop _ => ev | .powerThrottle _ _ => ev
  | .ownershipTableWrite _ _ => ev | .retrain _ _ => ev | .flitReceive _ _ _ => ev | .replayResend _ => ev
  | .portDown _ => ev | .remoteRequest _ => ev | .hostWrite _ _ _ => ev | .hostRead _ _ _ => ev | .powerOn _ => ev
  | .registerWrite _ _ _ => ev | .clock => ev | .trcctlWrite _ _ => ev | .telbaseWrite _ _ => ev
  | .flitUnacknowledged _ => ev
where
  /-- Shuffles (R152). -/
  shf (L : Limits) (f : DABCX) : Checks :=
    { bk := f.b.accepted .short, form := !f.c.w
      lim := rdOk L false f.x f.d && rdOk L false f.x f.a && bOk L false false f.b && pOk f.cc, ctx := teamOnly L }

/-- Adds the common rule of a stream: W = 0 and the predicate p7 (R230). -/
def Checks.inPlace (k : Checks) (L : Limits) (c : Ctl) : Checks :=
  match L.place with
  | .stream => { k with form := k.form && !c.w, lim := k.lim && c.always }
  | _ => k

/-- Every check holds. -/
def Checks.ok (k : Checks) : Bool := k.mod && k.bk && k.form && k.lim && k.priv && k.ctx && k.canon

/-- The lowest detail code that a broken check reports (R64). -/
def Checks.detail (k : Checks) : Option (BitVec 4) :=
  if !k.mod then some 4 else if !k.bk then some 5 else if !k.form then some 6
  else if !k.lim then some 7 else if !k.priv then some 8 else if !k.ctx then some 9 else none

/-- The form, predicate and lookahead of an instruction; the device's own steps have none. -/
def Instr.ctl : Instr → Ctl
  | .add f => f.c
  | .sub f => f.c
  | .addc f => f.c
  | .subb f => f.c
  | .adda f => f.c
  | .mul f => f.c
  | .mulh f => f.c
  | .mad f => f.c
  | .div f => f.c
  | .rem f => f.c
  | .min f => f.c
  | .max f => f.c
  | .abs f => f.c
  | .neg f => f.c
  | .and f => f.c
  | .or f => f.c
  | .xor f => f.c
  | .andn f => f.c
  | .not f => f.c
  | .shl f => f.c
  | .shr f => f.c
  | .sar f => f.c
  | .rol f => f.c
  | .ror f => f.c
  | .bfe f => f.c
  | .bfi f => f.c
  | .popc f => f.c
  | .clz f => f.c
  | .ctz f => f.c
  | .brev f => f.c
  | .pairAdd f => f.c
  | .pairSub f => f.c
  | .pairMul f => f.c
  | .pairMin f => f.c
  | .pairMax f => f.c
  | .pairShl f => f.c
  | .pairShr f => f.c
  | .pairSar f => f.c
  | .pairAnd f => f.c
  | .pairOr f => f.c
  | .pairXor f => f.c
  | .floatAdd f => f.c
  | .floatSub f => f.c
  | .floatMul f => f.c
  | .fma f => f.c
  | .fms f => f.c
  | .fnma f => f.c
  | .floatMin f => f.c
  | .floatMax f => f.c
  | .floatDiv f => f.c
  | .rcp f => f.c
  | .sqrt f => f.c
  | .exp2 f => f.c
  | .log2 f => f.c
  | .sin f => f.c
  | .cos f => f.c
  | .tanh f => f.c
  | .sig f => f.c
  | .gelu f => f.c
  | .add2 f => f.c
  | .sub2 f => f.c
  | .mul2 f => f.c
  | .fma2 f => f.c
  | .min2 f => f.c
  | .max2 f => f.c
  | .cvt f => f.c
  | .cmp f => f.c
  | .mov f => f.c
  | .sel f => f.c
  | .movd f => f.c
  | .seld f => f.c
  | .pand f => f.c
  | .por f => f.c
  | .pxor f => f.c
  | .pandn f => f.c
  | .pmov f => f.c
  | .ptst f => f.c
  | .pget f => f.c
  | .spush f => f.c
  | .spop f => f.c
  | .speek f => f.c
  | .sdep f => f.c
  | .sclr f => f.c
  | .sval f => f.c
  | .exv f => f.c
  | .exvn f => f.c
  | .exwin f => f.c
  | .lsr f => f.c
  | .lsc f => f.c
  | .bra f => f.c
  | .brany f => f.c
  | .brall f => f.c
  | .brd f => f.c
  | .jmp f => f.c
  | .call f => f.c
  | .ret f => f.c
  | .loop f => f.c
  | .streamLoop f => f.c
  | .exit c => c
  | .streamExit c => c
  | .agentExit c => c
  | .trap f => f.c
  | .streamTrap f => f.c
  | .tret c => c
  | .rgn f => f.c
  | .fchk c => c
  | .waitla c => c
  | .gtov f => f.c
  | .vtog f => f.c
  | .pbc f => f.c
  | .ffr f => f.c
  | .ffc f => f.c
  | .vany f => f.c
  | .vall f => f.c
  | .vcnt f => f.c
  | .ballot f => f.c
  | .vfirst f => f.c
  | .vuni f => f.c
  | .vrank f => f.c
  | .shfi f => f.c
  | .shfx f => f.c
  | .shfu f => f.c
  | .shfd f => f.c
  | .red f => f.c
  | .scan f => f.c
  | .rstat f => f.c
  | .regrp f => f.c
  | .regroupDecision _ _ => ⟨false, 7, false, 0⟩
  | .ld f => f.c
  | .st f => f.c
  | .lds f => f.c
  | .sts f => f.c
  | .lda f => f.c
  | .stl f => f.c
  | .fence f => f.c
  | .pf f => f.c
  | .atom f => f.c
  | .mcst f => f.c
  | .mred f => f.c
  | .stmap f => f.c
  | .stunmap f => f.c
  | .stflush f => f.c
  | .mset f => f.c
  | .mget f => f.c
  | .cpl f => f.c
  | .cp f => f.c
  | .cp2d f => f.c
  | .cpz f => f.c
  | .cpx f => f.c
  | .binit f => f.c
  | .barr f => f.c
  | .bwait f => f.c
  | .streamBinit f => f.c
  | .streamBarr f => f.c
  | .streamBwait f => f.c
  | .tbinit f => f.c
  | .tbarr f => f.c
  | .tbwait f => f.c
  | .tbwaitAnswer _ _ => ⟨false, 7, false, 0⟩
  | .scat f => f.c
  | .gath f => f.c
  | .xsect f => f.c
  | .mstart f => f.c
  | .mstq f => f.c
  | .mmul f => f.c
  | .mzero f => f.c
  | .mld f => f.c
  | .mout f => f.c
  | .mstat f => f.c
  | .maudit f => f.c
  | .xadd f => f.c
  | .cset f => f.c
  | .matrixOperationComplete _ _ => ⟨false, 7, false, 0⟩
  | .pinReservationGrant _ => ⟨false, 7, false, 0⟩
  | .coldStartGrant _ => ⟨false, 7, false, 0⟩
  | .dqpush f => f.c
  | .dqpop f => f.c
  | .dqsteal f => f.c
  | .dequeStep _ => ⟨false, 7, false, 0⟩
  | .mgopen f => f.c
  | .mgput f => f.c
  | .morainePutArrival _ => ⟨false, 7, false, 0⟩
  | .mgclose f => f.c
  | .mgcloseAbort f => f.c
  | .mgdrain f => f.c
  | .mgadd f => f.c
  | .mgst f => f.c
  | .walkChase f => f.c
  | .walkRnd f => f.c
  | .walkSeek f => f.c
  | .walkHop _ _ => ⟨false, 7, false, 0⟩
  | .lnch f => f.c
  | .ctxsv f => f.c
  | .ctxld f => f.c
  | .halt f => f.c
  | .resm f => f.c
  | .broadcastAcknowledged _ _ => ⟨false, 7, false, 0⟩
  | .logrd f => f.c
  | .logre f => f.c
  | .logdr f => f.c
  | .brk f => f.c
  | .wtch f => f.c
  | .tmark f => f.c
  | .pmrd f => f.c
  | .place f => f.c
  | .bkill f => f.c
  | .mrd f => f.c
  | .mwr f => f.c
  | .anote f => f.c
  | .await f => f.c
  | .awaitTimeout _ => ⟨false, 7, false, 0⟩
  | .illegalInstruction _ => ⟨false, 7, false, 0⟩
  | .fetchFault _ => ⟨false, 7, false, 0⟩
  | .longLatencyWrite _ _ _ => ⟨false, 7, false, 0⟩
  | .fragmentBoost _ _ _ => ⟨false, 7, false, 0⟩
  | .loadResponse _ _ _ => ⟨false, 7, false, 0⟩
  | .storeSectorAccept _ _ => ⟨false, 7, false, 0⟩
  | .atomicRequest _ _ => ⟨false, 7, false, 0⟩
  | .transactionBarrierStep _ _ => ⟨false, 7, false, 0⟩
  | .l2MissTranslation _ _ => ⟨false, 7, false, 0⟩
  | .l2Fill _ _ => ⟨false, 7, false, 0⟩
  | .deferredFault _ => ⟨false, 7, false, 0⟩
  | .sessionEnd _ _ => ⟨false, 7, false, 0⟩
  | .sessionCancelTimeout _ _ => ⟨false, 7, false, 0⟩
  | .drainEnd _ _ => ⟨false, 7, false, 0⟩
  | .leaseRequest _ _ => ⟨false, 7, false, 0⟩
  | .residencyAnswer _ _ _ => ⟨false, 7, false, 0⟩
  | .inval _ _ => ⟨false, 7, false, 0⟩
  | .invalComplete _ => ⟨false, 7, false, 0⟩
  | .generationBump _ _ _ => ⟨false, 7, false, 0⟩
  | .staleRepresent _ _ => ⟨false, 7, false, 0⟩
  | .agentScan _ => ⟨false, 7, false, 0⟩
  | .launchCommand _ _ => ⟨false, 7, false, 0⟩
  | .leaseGranted _ => ⟨false, 7, false, 0⟩
  | .blockPlacement _ _ => ⟨false, 7, false, 0⟩
  | .bulkCopyCommand _ => ⟨false, 7, false, 0⟩
  | .waitCommand _ => ⟨false, 7, false, 0⟩
  | .signalCommand _ => ⟨false, 7, false, 0⟩
  | .markerCommand _ => ⟨false, 7, false, 0⟩
  | .blockRetire _ _ => ⟨false, 7, false, 0⟩
  | .commandEnd _ _ => ⟨false, 7, false, 0⟩
  | .agentReload _ => ⟨false, 7, false, 0⟩
  | .doorbell _ _ => ⟨false, 7, false, 0⟩
  | .queueRegister _ _ _ => ⟨false, 7, false, 0⟩
  | .queueDestroy _ _ _ => ⟨false, 7, false, 0⟩
  | .qstop _ _ _ => ⟨false, 7, false, 0⟩
  | .pentWrite _ _ => ⟨false, 7, false, 0⟩
  | .tentWrite _ _ _ => ⟨false, 7, false, 0⟩
  | .preq _ _ => ⟨false, 7, false, 0⟩
  | .preemptStop _ _ => ⟨false, 7, false, 0⟩
  | .preemptAck _ _ => ⟨false, 7, false, 0⟩
  | .dcmdRead _ => ⟨false, 7, false, 0⟩
  | .dcmdWrite _ => ⟨false, 7, false, 0⟩
  | .dcmdForcedWrite _ => ⟨false, 7, false, 0⟩
  | .watchHit _ => ⟨false, 7, false, 0⟩
  | .watchPredicateExit _ => ⟨false, 7, false, 0⟩
  | .watchPredicateLimit _ => ⟨false, 7, false, 0⟩
  | .sliceDrain _ => ⟨false, 7, false, 0⟩
  | .sliceUndrain _ => ⟨false, 7, false, 0⟩
  | .sliceDrained _ => ⟨false, 7, false, 0⟩
  | .scal _ _ => ⟨false, 7, false, 0⟩
  | .devnumWrite _ => ⟨false, 7, false, 0⟩
  | .fwctlGo _ _ => ⟨false, 7, false, 0⟩
  | .attestationRequest _ _ => ⟨false, 7, false, 0⟩
  | .thermalResume => ⟨false, 7, false, 0⟩
  | .thermalStop _ => ⟨false, 7, false, 0⟩
  | .powerThrottle _ _ => ⟨false, 7, false, 0⟩
  | .ownershipTableWrite _ _ => ⟨false, 7, false, 0⟩
  | .retrain _ _ => ⟨false, 7, false, 0⟩
  | .flitReceive _ _ _ => ⟨false, 7, false, 0⟩
  | .replayResend _ => ⟨false, 7, false, 0⟩
  | .portDown _ => ⟨false, 7, false, 0⟩
  | .remoteRequest _ => ⟨false, 7, false, 0⟩
  | .hostWrite _ _ _ => ⟨false, 7, false, 0⟩
  | .hostRead _ _ _ => ⟨false, 7, false, 0⟩
  | .powerOn _ => ⟨false, 7, false, 0⟩
  | .registerWrite _ _ _ => ⟨false, 7, false, 0⟩
  | .clock => ⟨false, 7, false, 0⟩
  | .trcctlWrite _ _ => ⟨false, 7, false, 0⟩
  | .telbaseWrite _ _ => ⟨false, 7, false, 0⟩
  | .flitUnacknowledged _ => ⟨false, 7, false, 0⟩

/-- The instruction is legal where it stands: no condition of R64 holds. -/
def Instr.wellFormed (L : Limits) (i : Instr) : Bool := ((i.base L).inPlace L i.ctl).ok

end Sys2Proof
end

