-- ==== Sys2Proof/Decode.lean ====
section
/-! DEFINITION. Instruction words to instructions and back (spec/03_encoding.md R49 to R68 and each
instruction's own encoding). Decoding is total: every 64 bits decode to an instruction or to a detail code of R64. -/

namespace Sys2Proof

/-- The fields of the instruction word (R49). -/
structure Fields where
  major : BitVec 6
  minor : BitVec 6
  w : Bool
  ps : BitVec 3
  pn : Bool
  la : BitVec 4
  bk : BitVec 2
  d : BitVec 8
  a : BitVec 8
  b : BitVec 8
  c : BitVec 8
  md : BitVec 9
deriving DecidableEq, Repr

/-- The fields of a 64-bit word (R49). -/
def Fields.unpack (x : BitVec 64) : Fields :=
  let n := x.toNat
  { major := BitVec.ofNat 6 n, minor := BitVec.ofNat 6 (n / 2 ^ 6), w := decide (n / 2 ^ 12 % 2 = 1)
    ps := BitVec.ofNat 3 (n / 2 ^ 13), pn := decide (n / 2 ^ 16 % 2 = 1), la := BitVec.ofNat 4 (n / 2 ^ 17)
    bk := BitVec.ofNat 2 (n / 2 ^ 21), d := BitVec.ofNat 8 (n / 2 ^ 23), a := BitVec.ofNat 8 (n / 2 ^ 31)
    b := BitVec.ofNat 8 (n / 2 ^ 39), c := BitVec.ofNat 8 (n / 2 ^ 47), md := BitVec.ofNat 9 (n / 2 ^ 55) }

/-- The word of the fields (R49). -/
def Fields.pack (f : Fields) : BitVec 64 :=
  BitVec.ofNat 64 (f.major.toNat + f.minor.toNat * 2 ^ 6 + f.w.toNat * 2 ^ 12 + f.ps.toNat * 2 ^ 13
    + f.pn.toNat * 2 ^ 16 + f.la.toNat * 2 ^ 17 + f.bk.toNat * 2 ^ 21 + f.d.toNat * 2 ^ 23 + f.a.toNat * 2 ^ 31
    + f.b.toNat * 2 ^ 39 + f.c.toNat * 2 ^ 47 + f.md.toNat * 2 ^ 55)

/-- Form, predicate and lookahead of the fields. -/
def Fields.ctl (f : Fields) : Ctl := ⟨f.w, f.ps, f.pn, f.la⟩

/-- The fields 8:6, 5 and 4 of the modifier of R58. -/
def Fields.rmCode (f : Fields) : BitVec 3 := f.md.extractLsb' 6 3
def Fields.fz (f : Fields) : Bool := f.md.getLsbD 5
def Fields.sat (f : Fields) : Bool := f.md.getLsbD 4
/-- X, bits 3:0 of the modifier. -/
def Fields.x (f : Fields) : BitVec 4 := f.md.extractLsb' 0 4
/-- V, bits 7:4 of the modifier (R178). -/
def Fields.v (f : Fields) : BitVec 4 := f.md.extractLsb' 4 4
def Fields.m8 (f : Fields) : Bool := f.md.getLsbD 8
/-- The 20-bit immediate imm[19:0] = word[58:39] (R55). -/
def Fields.imm (f : Fields) : BitVec 20 := f.x ++ f.c ++ f.b

/-- The rounding code of R25; codes 5 to 7 name none. -/
def rmOf (c : BitVec 3) : Rm :=
  match c.toNat with
  | 1 => .rtz | 2 => .rup | 3 => .rdn | 4 => .rna | _ => .rne
def rmValid (c : BitVec 3) : Bool := decide (c.toNat ≤ 4)
def rmCode : Rm → BitVec 3
  | .rne => 0 | .rtz => 1 | .rup => 2 | .rdn => 3 | .rna => 4

/-- The B operand by BK, with the 20-bit immediate (R54). -/
def Fields.bop (f : Fields) (lit : Word) : BOp :=
  match f.bk.toNat with
  | 0 => .reg f.b | 1 => .bank f.b | 2 => .imm f.imm | _ => .lit lit
/-- The B operand by BK, with the short immediate (R54). -/
def Fields.bopS (f : Fields) (lit : Word) : BOp :=
  match f.bk.toNat with
  | 0 => .reg f.b | 1 => .bank f.b | 2 => .simm f.b | _ => .lit lit
/-- The transfer target by BK (R132, R135). -/
def Fields.tgt (f : Fields) (lit : Word) : Tgt :=
  match f.bk.toNat with
  | 2 => .rel20 f.imm | 3 => .rel32 lit | _ => .reg f.b

/-- X is part of the 20-bit immediate or zero. -/
def Fields.xZero (f : Fields) : Bool := decide (f.bk = 2) || decide (f.x = 0)
/-- No modifier bit is set. -/
def Fields.mZero (f : Fields) : Bool := decide (f.rmCode = 0) && !f.fz && !f.sat && f.xZero
/-- SAT alone may be set. -/
def Fields.mSat (f : Fields) : Bool := decide (f.rmCode = 0) && !f.fz && f.xZero
/-- RM, FZ and SAT may be set. -/
def Fields.mArith (f : Fields) : Bool := rmValid f.rmCode && f.xZero
/-- Only the X bits of the mask may be set. -/
def Fields.mX (f : Fields) (mask : BitVec 4) : Bool :=
  decide (f.rmCode = 0) && !f.fz && !f.sat && (decide (f.bk = 2) || decide (f.x &&& ~~~mask = 0))
/-- The same where the immediate is short and X keeps its meaning (R54). -/
def Fields.mXS (f : Fields) (mask : BitVec 4) : Bool :=
  decide (f.rmCode = 0) && !f.fz && !f.sat && decide (f.x &&& ~~~mask = 0)
/-- Memory majors: only the V bits of the mask may be set (R178). -/
def Fields.mV (f : Fields) (mask : BitVec 4) : Bool := !f.m8 && decide (f.v &&& ~~~mask = 0) && f.xZero

/-- BK = 0b11 with field B nonzero breaks R54. -/
def Fields.litOk (f : Fields) : Bool := !(decide (f.bk = 3) && decide (f.b ≠ 0))
/-- BK must be 0b00: the instruction has no B operand. -/
def Fields.bkNone (f : Fields) : Bool := decide (f.bk = 0)

/-- What the fields name, with the conditions that only the raw word shows: modifier bits, B kind, limits. -/
structure Raw where
  i : Instr
  mod : Bool := true
  bk : Bool := true
  lim : Bool := true

namespace Fields

def intB (f : Fields) (lit : Word) (ty : Sg) (mk : IntB → Instr) : Option Raw :=
  some { i := mk ⟨f.ctl, ty, f.d, f.a, f.bop lit, f.sat⟩, mod := f.mSat, bk := f.litOk }
def intC (f : Fields) (lit : Word) (ty : Sg) (mk : IntC → Instr) : Option Raw :=
  some { i := mk ⟨f.ctl, ty, f.d, f.a, f.bop lit, f.c, f.sat⟩, mod := f.mSat, bk := f.litOk }
def intU (f : Fields) (ty : Sg) (mk : IntU → Instr) : Option Raw :=
  some { i := mk ⟨f.ctl, ty, f.d, f.a, f.sat⟩, mod := f.mSat, bk := f.bkNone }
/-- The type bit of the integer majors (R77). -/
def sg (f : Fields) : Sg := if f.minor.toNat % 2 = 0 then .s else .n

/-- Major 0x01 (R81). -/
def p01 (f : Fields) (l : Word) : Option Raw :=
  match f.minor.toNat / 2 with
  | 0 => f.intB l f.sg .add | 1 => f.intB l f.sg .sub | 2 => f.intC l f.sg .addc | 3 => f.intC l f.sg .subb
  | 4 => f.intB l f.sg .adda | _ => none
/-- Majors 0x02 to 0x04 (R82). -/
def p02 (f : Fields) (l : Word) : Option Raw :=
  match f.minor.toNat / 2 with
  | 0 => f.intB l f.sg .mul | 1 => f.intB l f.sg .mulh | 2 => f.intC l f.sg .mad | _ => none
def p03 (f : Fields) (l : Word) : Option Raw :=
  match f.minor.toNat / 2 with
  | 0 => f.intB l f.sg .div | 1 => f.intB l f.sg .rem | _ => none
def p04 (f : Fields) (l : Word) : Option Raw :=
  match f.minor.toNat / 2 with
  | 0 => f.intB l f.sg .min | 1 => f.intB l f.sg .max | 2 => f.intU f.sg .abs | 3 => f.intU f.sg .neg | _ => none
/-- Majors 0x05 to 0x07 (R83). -/
def p05 (f : Fields) (l : Word) : Option Raw :=
  match f.minor.toNat / 2 with
  | 0 => f.intB l f.sg .and | 1 => f.intB l f.sg .or | 2 => f.intB l f.sg .xor | 3 => f.intB l f.sg .andn
  | 4 => f.intU f.sg .not | _ => none
def p06 (f : Fields) (l : Word) : Option Raw :=
  match f.minor.toNat / 2 with
  | 0 => f.intB l f.sg .shl | 1 => f.intB l f.sg .shr | 2 => f.intB l f.sg .sar | 3 => f.intB l f.sg .rol
  | 4 => f.intB l f.sg .ror | _ => none
def p07 (f : Fields) (l : Word) : Option Raw :=
  match f.minor.toNat / 2 with
  | 0 => f.intB l f.sg .bfe | 1 => f.intC l f.sg .bfi | 2 => f.intU f.sg .popc | 3 => f.intU f.sg .clz
  | 4 => f.intU f.sg .ctz | 5 => f.intU f.sg .brev | _ => none
/-- Major 0x08 (R84). -/
def p08 (f : Fields) (l : Word) : Option Raw :=
  match f.minor.toNat / 2 with
  | 0 => f.intB l f.sg .pairAdd | 1 => f.intB l f.sg .pairSub | 2 => f.intB l f.sg .pairMul
  | 3 => f.intB l f.sg .pairMin | 4 => f.intB l f.sg .pairMax | 5 => f.intB l f.sg .pairShl
  | 6 => f.intB l f.sg .pairShr | 7 => f.intB l f.sg .pairSar | 8 => f.intB l f.sg .pairAnd
  | 9 => f.intB l f.sg .pairOr | 10 => f.intB l f.sg .pairXor | _ => none

/-- The float type code of minor bits 2:0 (R77). -/
def fty (f : Fields) : Option FTy :=
  match f.minor.toNat % 8 with
  | 0 => some .f32 | 1 => some .f16 | 2 => some .bf16 | 3 => some .f64 | _ => none
def fltB (f : Fields) (l : Word) (mk : FltB → Instr) : Option Raw :=
  f.fty.map fun ty =>
    { i := mk ⟨f.ctl, ty, f.d, f.a, f.bop l, rmOf f.rmCode, f.fz, f.sat⟩, mod := f.mArith, bk := f.litOk }
def fltC (f : Fields) (l : Word) (mk : FltC → Instr) : Option Raw :=
  f.fty.map fun ty =>
    { i := mk ⟨f.ctl, ty, f.d, f.a, f.bop l, f.c, rmOf f.rmCode, f.fz, f.sat⟩, mod := f.mArith, bk := f.litOk }
def fltU (f : Fields) (l : Word) (mk : FltU → Instr) : Option Raw :=
  f.fty.map fun ty =>
    { i := mk ⟨f.ctl, ty, f.d, f.bop l, rmOf f.rmCode, f.fz, f.sat⟩, mod := f.mArith, bk := f.litOk }
/-- Majors 0x09 to 0x0D (R85). -/
def p09 (f : Fields) (l : Word) : Option Raw :=
  match f.minor.toNat / 8 with
  | 0 => f.fltB l .floatAdd | 1 => f.fltB l .floatSub | _ => none
def p0A (f : Fields) (l : Word) : Option Raw :=
  match f.minor.toNat / 8 with
  | 0 => f.fltB l .floatMul | _ => none
def p0B (f : Fields) (l : Word) : Option Raw :=
  match f.minor.toNat / 8 with
  | 0 => f.fltC l .fma | 1 => f.fltC l .fms | 2 => f.fltC l .fnma | _ => none
def p0C (f : Fields) (l : Word) : Option Raw :=
  match f.minor.toNat / 8 with
  | 0 => f.fltB l .floatMin | 1 => f.fltB l .floatMax | _ => none
def p0D (f : Fields) (l : Word) : Option Raw :=
  match f.minor.toNat / 8 with
  | 0 => f.fltB l .floatDiv | 1 => f.fltU l .rcp | 2 => f.fltU l .sqrt | _ => none
/-- Major 0x0E (R86): no f64. -/
def p0E (f : Fields) (l : Word) : Option Raw :=
  if f.minor.toNat % 8 = 3 then none else
  match f.minor.toNat / 8 with
  | 0 => f.fltU l .exp2 | 1 => f.fltU l .log2 | 2 => f.fltU l .sin | 3 => f.fltU l .cos | 4 => f.fltU l .tanh
  | 5 => f.fltU l .sig | 6 => f.fltU l .gelu | _ => none
/-- Major 0x0F (R87): f16 and bf16 only. -/
def p0F (f : Fields) (l : Word) : Option Raw :=
  if f.minor.toNat % 8 = 1 ∨ f.minor.toNat % 8 = 2 then
    match f.minor.toNat / 8 with
    | 0 => f.fltB l .add2 | 1 => f.fltB l .sub2 | 2 => f.fltB l .mul2 | 3 => f.fltC l .fma2 | 4 => f.fltB l .min2
    | 5 => f.fltB l .max2 | _ => none
  else none

/-- The number type codes of R88. -/
def numTy (c : Nat) : Option NumTy :=
  match c with
  | 0 => some .s8 | 1 => some .n8 | 2 => some .s16 | 3 => some .n16 | 4 => some .s32 | 5 => some .n32
  | 6 => some .s64 | 7 => some .n64 | 8 => some .e4m3 | 9 => some .e5m2 | 10 => some .bf16 | 11 => some .f16
  | 12 => some .f19 | 13 => some .f32 | 14 => some .f64 | _ => none
/-- Major 0x10 (R88): the destination code in the minor, the source code in X. -/
def p10 (f : Fields) : Option Raw :=
  if f.minor.toNat / 16 = 0 then
    (numTy (f.minor.toNat % 16)).map fun dst =>
      let src := numTy f.x.toNat
      { i := .cvt ⟨f.ctl, dst, src.getD .s32, f.d, f.a, rmOf f.rmCode, f.fz, f.sat⟩
        mod := rmValid f.rmCode && (src.isSome || decide (f.bk = 2)), bk := f.bkNone }
  else none

/-- The compare codes of R89. -/
def cond (c : Nat) : Cond :=
  match c with
  | 0 => .eq | 1 => .ne | 2 => .lt | 3 => .le | 4 => .gt | 5 => .ge | 6 => .un | _ => .ord
def cmpTy (c : Nat) : CmpTy :=
  match c with
  | 0 => .s32 | 1 => .n32 | 2 => .f32 | 3 => .f16 | 4 => .bf16 | 5 => .s64 | 6 => .n64 | _ => .f64
/-- Major 0x11 (R89). -/
def p11 (f : Fields) (l : Word) : Option Raw :=
  let cd := cond (f.minor.toNat / 8)
  let ty := cmpTy (f.minor.toNat % 8)
  if ty.isFloat || decide (cd ≠ .un ∧ cd ≠ .ord) then
    some { i := .cmp ⟨f.ctl, cd, ty, f.d, f.a, f.bop l, f.fz⟩
           mod := decide (f.rmCode = 0) && !f.sat && f.xZero, bk := f.litOk }
  else none

def db (f : Fields) (b : BOp) (d : Reg) (mk : DB → Instr) (mod : Bool) : Option Raw :=
  some { i := mk ⟨f.ctl, d, b⟩, mod := mod, bk := f.litOk }
def dab (f : Fields) (b : BOp) (mk : DAB → Instr) (mod : Bool) : Option Raw :=
  some { i := mk ⟨f.ctl, f.d, f.a, b⟩, mod := mod, bk := f.litOk }
def dabc (f : Fields) (b : BOp) (mk : DABC → Instr) (mod : Bool) : Option Raw :=
  some { i := mk ⟨f.ctl, f.d, f.a, b, f.c⟩, mod := mod, bk := f.litOk }
def dax (f : Fields) (a : Reg) (x : Bool) (mk : DAX → Instr) (mod : Bool) : Option Raw :=
  some { i := mk ⟨f.ctl, f.d, a, x⟩, mod := mod, bk := f.bkNone }
def da (f : Fields) (a : Reg) (mk : DA → Instr) (mod : Bool) : Option Raw :=
  some { i := mk ⟨f.ctl, f.d, a⟩, mod := mod, bk := f.bkNone }
def dacx (f : Fields) (mk : DACX → Instr) (mod : Bool) : Option Raw :=
  some { i := mk ⟨f.ctl, f.d, f.a, f.c, f.x.getLsbD 0⟩, mod := mod, bk := f.bkNone }

/-- Major 0x12 (R90). -/
def p12 (f : Fields) (l : Word) : Option Raw :=
  match f.minor.toNat with
  | 0 => f.db (f.bop l) f.d .mov f.mZero | 1 => f.dabc (f.bop l) .sel f.mZero
  | 2 => f.db (f.bop l) f.d .movd f.mZero | 3 => f.dabc (f.bop l) .seld f.mZero | _ => none
/-- Major 0x13 (R91). -/
def p13 (f : Fields) : Option Raw :=
  let mk (k : PredF → Instr) : Option Raw :=
    some { i := k ⟨f.ctl, f.d, f.a, f.b, f.x.getLsbD 0, f.x.getLsbD 1⟩, mod := f.mX 3, bk := f.bkNone }
  match f.minor.toNat with
  | 0 => mk .pand | 1 => mk .por | 2 => mk .pxor | 3 => mk .pandn | 4 => mk .pmov | 5 => mk .ptst | 6 => mk .pget
  | _ => none
/-- Major 0x14 (R92). -/
def p14 (f : Fields) : Option Raw :=
  let mk (k : StackF → Instr) : Option Raw :=
    some { i := k ⟨f.ctl, f.d, f.a, if f.bk = 2 then 0 else f.x.extractLsb' 0 3, f.x.getLsbD 3⟩, mod := f.mX 15, bk := f.bkNone }
  match f.minor.toNat with
  | 0 => mk .spush | 1 => mk .spop | 2 => mk .speek | 3 => mk .sdep | 4 => mk .sclr | _ => none
/-- Major 0x15 (R94). -/
def p15 (f : Fields) : Option Raw :=
  match f.minor.toNat with
  | 0 => f.da f.a .sval (f.mX 0) | _ => none
/-- Major 0x16 (R109). -/
def p16 (f : Fields) : Option Raw :=
  let mk (k : ExvF → Instr) : Option Raw :=
    some { i := k ⟨f.ctl, f.a, f.b, f.c, f.x.getLsbD 1, f.x.getLsbD 0⟩, mod := f.mX 3, bk := f.bkNone }
  match f.minor.toNat with
  | 0 => mk .exv | 1 => mk .exvn | _ => none
/-- Major 0x17 (R115, R118). -/
def p17 (f : Fields) (l : Word) : Option Raw :=
  match f.minor.toNat with
  | 0 => f.db (f.bop l) 0 .exwin f.mZero | 1 => f.da 0 .lsr (f.mX 0) | 2 => f.db (f.bop l) 0 .lsc f.mZero | _ => none

def braF (f : Fields) (l : Word) (d : Reg) (mk : BraF → Instr) (bk : Bool) : Option Raw :=
  some { i := mk ⟨f.ctl, d, f.tgt l⟩, mod := f.mZero, bk := f.litOk && bk }
/-- Major 0x18 (R133). -/
def p18 (f : Fields) (l : Word) : Option Raw :=
  let bk := decide (f.bk = 2 ∨ f.bk = 3)
  match f.minor.toNat with
  | 0 => f.braF l 0 .bra bk | 1 => f.braF l 0 .brany bk | 2 => f.braF l 0 .brall bk | _ => none
/-- Major 0x19 (R134). -/
def p19 (f : Fields) : Option Raw :=
  match f.minor.toNat with
  | 0 => some { i := .brd ⟨f.ctl, f.imm, f.a ++ f.d⟩
                mod := f.mZero, bk := decide (f.bk = 2) }
  | _ => none
/-- Major 0x1A (R135). -/
def p1A (f : Fields) (l : Word) : Option Raw :=
  let j (k : BraF → Instr) : Option Raw :=
    some { i := k ⟨f.ctl, 0, .reg f.a⟩, mod := f.mZero, bk := f.bkNone }
  match f.minor.toNat with
  | 0 => j .jmp | 1 => f.braF l f.d .call (decide (f.bk ≠ 1)) | 2 => j .ret | _ => none
/-- Major 0x1B (R136). -/
def p1B (f : Fields) (p : Place) (l : Word) : Option Raw :=
  let bk := decide (f.bk = 2 ∨ f.bk = 3)
  match f.minor.toNat with
  | 0 => f.braF l f.d (if p = .stream then .streamLoop else .loop) bk
  | _ => none
/-- Major 0x1C (R137). -/
def p1C (f : Fields) (p : Place) : Option Raw :=
  match f.minor.toNat with
  | 0 => some { i := (match p with | .team => .exit f.ctl | .agent => .agentExit f.ctl | .stream => .streamExit f.ctl)
                mod := f.mX 0, bk := f.bkNone }
  | 1 => some { i := (if p = .stream then .streamTrap ⟨f.ctl, f.b⟩ else .trap ⟨f.ctl, f.b⟩)
                mod := f.mZero, bk := decide (f.bk = 2), lim := decide (f.imm.toNat ≤ 255) }
  | 2 => some { i := .tret f.ctl, mod := f.mX 0, bk := f.bkNone }
  | _ => none
/-- Major 0x1D (R141). -/
def p1D (f : Fields) (l : Word) : Option Raw :=
  match f.minor.toNat with
  | 0 => f.db (f.bop l) 0 .rgn f.mZero
  | 1 => some { i := .fchk f.ctl, mod := f.mX 0, bk := f.bkNone }
  | 2 => some { i := .waitla f.ctl, mod := f.mX 0, bk := f.bkNone }
  | _ => none
/-- Major 0x1E (R150). -/
def p1E (f : Fields) (l : Word) : Option Raw :=
  let x := f.x.getLsbD 0
  match f.minor.toNat with
  | 0 => f.dax f.a x .gtov (f.mX 1)
  | 1 => some { i := .vtog ⟨f.ctl, f.d, f.a, f.bopS l, x⟩, mod := f.mXS 1, bk := f.litOk }
  | 2 => f.dax f.a x .pbc (f.mX 1) | 3 => f.da 0 .ffr (f.mX 0) | 4 => f.db (f.bop l) 0 .ffc f.mZero | _ => none
/-- Major 0x1F (R151). -/
def p1F (f : Fields) (l : Word) : Option Raw :=
  let x := f.x.getLsbD 0
  match f.minor.toNat with
  | 0 => f.dax f.a x .vany (f.mX 1) | 1 => f.dax f.a x .vall (f.mX 1) | 2 => f.dax f.a x .vcnt (f.mX 1)
  | 3 => some { i := .ballot ⟨f.ctl, f.d, f.a, f.bopS l, x⟩, mod := f.mXS 1, bk := f.litOk }
  | 4 => f.dax f.a x .vfirst (f.mX 1) | 5 => f.dax f.a x .vuni (f.mX 1) | 6 => f.dax f.a x .vrank (f.mX 1) | _ => none
/-- Major 0x20 (R152). -/
def p20 (f : Fields) (l : Word) : Option Raw :=
  let mk (k : DABCX → Instr) : Option Raw :=
    some { i := k ⟨f.ctl, f.d, f.a, f.bopS l, f.c, f.x.getLsbD 0⟩, mod := f.mXS 1, bk := f.litOk }
  match f.minor.toNat with
  | 0 => mk .shfi | 1 => mk .shfx | 2 => mk .shfu | 3 => mk .shfd | _ => none

def redOp (c : Nat) : Option RedOp :=
  match c with
  | 0 => some .add | 1 => some .min | 2 => some .max | 3 => some .and | 4 => some .or | 5 => some .xor | _ => none
def redTy (c : Nat) : Option RedTy :=
  match c with
  | 0 => some .s32 | 1 => some .n32 | 2 => some .f32 | 3 => some .f64 | 4 => some .s64 | 5 => some .n64 | _ => none
/-- Major 0x21 (R153): W chooses between `red` and `scan`. -/
def p21 (f : Fields) : Option Raw :=
  match redOp (f.minor.toNat / 8), redTy (f.minor.toNat % 8) with
  | some op, some ty =>
    if redLegal op ty then
      some { i := (if f.w then Instr.red else Instr.scan) ⟨f.ctl, op, ty, f.d, f.a, rmOf f.rmCode, f.fz, f.x.getLsbD 0 && decide (f.bk ≠ 2)⟩
             mod := rmValid f.rmCode && !f.sat && (decide (f.bk = 2) || decide (f.x &&& ~~~1 = 0)), bk := f.bkNone }
    else none
  | _, _ => none
/-- Majors 0x22 and 0x23 (R155, R157). -/
def p22 (f : Fields) : Option Raw :=
  match f.minor.toNat with
  | 0 => some { i := .rstat ⟨f.ctl, f.d, f.a, if f.bk = 2 then 0 else f.x⟩, mod := f.mX 15, bk := f.bkNone } | _ => none
def p23 (f : Fields) (l : Word) : Option Raw :=
  match f.minor.toNat with
  | 0 => f.dab (f.bop l) .regrp f.mZero | _ => none

/-- Access sizes by the minor codes of R179. -/
def msize (c : Nat) : Option MSize :=
  match c with
  | 0 => some .n8 | 1 => some .s8 | 2 => some .n16 | 3 => some .s16 | 4 => some .b32 | 5 => some .b64 | 6 => some .b128
  | _ => none
def memF (f : Fields) (l : Word) (s : Option MSize) (ok : MSize → Bool) (vm : BitVec 4) (mk : MemF → Instr) : Option Raw :=
  match s with
  | some z => if ok z then
      some { i := mk ⟨f.ctl, z, f.d, f.a, f.bop l, f.v.getLsbD 0⟩, mod := f.mV vm, bk := f.litOk } else none
  | none => none
def anySize (_ : MSize) : Bool := true
def upTo64 (z : MSize) : Bool := decide (z ≠ .b128)
/-- Majors 0x24 to 0x28 (R179, R186, R188). -/
def p24 (f : Fields) (l : Word) : Option Raw := f.memF l (msize f.minor.toNat) anySize 1 .ld
def p25 (f : Fields) (l : Word) : Option Raw := f.memF l (msize f.minor.toNat) MSize.stOk 0 .st
def p26 (f : Fields) (l : Word) : Option Raw :=
  if f.minor.toNat < 8 then f.memF l (msize f.minor.toNat) anySize 1 .lds
  else f.memF l (msize (f.minor.toNat - 8)) MSize.stOk 1 .sts
def p27 (f : Fields) (l : Word) : Option Raw :=
  if f.minor.toNat = 16 then
    some { i := .fence ⟨f.ctl, f.v.getLsbD 1, f.v.getLsbD 2⟩, mod := f.mV 6, bk := f.bkNone }
  else if f.minor.toNat < 8 then f.memF l (msize f.minor.toNat) upTo64 0 .lda
  else f.memF l (msize (f.minor.toNat - 8)) (fun z => z.stOk && upTo64 z) 0 .stl
def p28 (f : Fields) (l : Word) : Option Raw :=
  match f.minor.toNat with
  | 0 => some { i := .pf ⟨f.ctl, false, f.a, f.bop l⟩, mod := f.mV 0, bk := f.litOk }
  | 1 => some { i := .pf ⟨f.ctl, true, f.a, f.bop l⟩, mod := f.mV 0, bk := f.litOk }
  | _ => none

def atOp (c : Nat) : AtOp :=
  match c with
  | 0 => .add | 1 => .min | 2 => .max | 3 => .and | 4 => .or | 5 => .xor | 6 => .exch | _ => .cas
def atTy (c : Nat) : Option AtTy :=
  match c with
  | 0 => some .s32 | 1 => some .n32 | 2 => some .f32 | 3 => some .s64 | 4 => some .n64 | 5 => some .f64 | _ => none
/-- Major 0x29 (R189); field C is the compare value of `cas` alone. -/
def p29 (f : Fields) (l : Word) : Option Raw :=
  match atTy (f.minor.toNat % 8) with
  | some ty =>
    let op := atOp (f.minor.toNat / 8)
    if atomLegal op ty then
      some { i := .atom ⟨f.ctl, op, ty, f.d, f.a, f.bop l, if op = .cas then f.c else 0, f.v.getLsbD 0, f.v.getLsbD 1,
                         f.v.getLsbD 2, f.v.getLsbD 3⟩
             mod := f.mV 15, bk := f.litOk }
    else none
  | none => none
/-- Major 0x2A (R191). -/
def p2A (f : Fields) : Option Raw :=
  let mc (d : Bool) : Option Raw :=
    some { i := .mcst ⟨f.ctl, d, f.d, f.a, f.b, f.v.extractLsb' 0 2⟩, mod := f.mV 3, bk := f.bkNone }
  let mr (op : MredOp) : Option Raw :=
    match f.minor.toNat % 8 with
    | 0 => some { i := .mred ⟨f.ctl, op, .s32, f.d, f.a, f.b, f.v.extractLsb' 0 2⟩, mod := f.mV 3, bk := f.bkNone }
    | 1 => some { i := .mred ⟨f.ctl, op, .n32, f.d, f.a, f.b, f.v.extractLsb' 0 2⟩, mod := f.mV 3, bk := f.bkNone }
    | 2 => some { i := .mred ⟨f.ctl, op, .f32, f.d, f.a, f.b, f.v.extractLsb' 0 2⟩, mod := f.mV 3, bk := f.bkNone }
    | _ => none
  if f.minor.toNat = 0x20 then mc false else if f.minor.toNat = 0x21 then mc true else
  match f.minor.toNat / 8 with
  | 0 => mr .add | 1 => mr .min | 2 => mr .max | _ => none
/-- Major 0x2B (R182, R184). -/
def p2B (f : Fields) (l : Word) : Option Raw :=
  match f.minor.toNat with
  | 0 => some { i := .stmap ⟨f.ctl, f.d, f.a, f.bop l, f.v.extractLsb' 0 3, f.v.getLsbD 3⟩, mod := f.mV 15, bk := f.litOk }
  | 1 => some { i := .stunmap ⟨f.ctl, f.d, 0, .reg 0, f.v.extractLsb' 0 3, false⟩, mod := f.mV 7, bk := f.bkNone }
  | 2 => some { i := .stflush ⟨f.ctl, f.d, 0, .reg 0, f.v.extractLsb' 0 3, false⟩, mod := f.mV 7, bk := f.bkNone }
  | 8 => f.db (f.bop l) f.d .mset (f.mV 0) | 9 => f.da f.a .mget (f.mV 0) | _ => none
/-- Major 0x2C (R209). -/
def p2C (f : Fields) (l : Word) : Option Raw :=
  let mk (z : CplSize) : Option Raw :=
    some { i := .cpl ⟨f.ctl, z, f.d, f.a, f.bop l, f.c, f.v.getLsbD 0⟩, mod := f.mV 1, bk := f.litOk }
  match f.minor.toNat with
  | 0 => mk .b32 | 1 => mk .b64 | 2 => mk .b128 | 3 => mk .b256 | _ => none
def copyF (f : Fields) (b : BOp) (e8 : Bool) (mk : CopyF → Instr) (bk : Bool) : Option Raw :=
  let bar := f.v.getLsbD 2
  some { i := mk ⟨f.ctl, e8, f.d, f.a, b, if bar then f.c else 0, f.v.getLsbD 0, f.v.getLsbD 1, bar, f.v.getLsbD 3⟩
         mod := f.mV 15, bk := bk, lim := decide (f.bk = 2) || decide (f.c.toNat < 16) }
/-- Major 0x2D (R211). -/
def p2D (f : Fields) (l : Word) : Option Raw :=
  match f.minor.toNat with
  | 0 => f.copyF (f.bop l) false .cp f.litOk | 1 => f.copyF (.reg 0) false .cp2d f.bkNone
  | 2 => f.copyF (f.bop l) false .cpz f.litOk | 3 => f.copyF (f.bop l) true .cpz f.litOk
  | 4 => f.copyF (f.bop l) false .cpx f.litOk | 5 => f.copyF (f.bop l) true .cpx f.litOk | _ => none
def barF (f : Fields) (l : Word) (d : Reg) (vm : BitVec 4) (mk : BarF → Instr) : Option Raw :=
  some { i := mk ⟨f.ctl, d, f.a, f.bop l, f.v.getLsbD 0⟩, mod := f.mV vm, bk := f.litOk }
/-- Major 0x2E (R215, R234) and 0x2F (R219). -/
def p2E (f : Fields) (p : Place) (l : Word) : Option Raw :=
  if p = .stream then
    match f.minor.toNat with
    | 0 => f.barF l 0 0 .streamBinit | 1 => f.barF l f.d 0 .streamBarr | 2 => f.barF l f.d 0 .streamBwait | _ => none
  else
    match f.minor.toNat with
    | 0 => f.barF l 0 0 .binit | 1 => f.barF l f.d 0 .barr | 2 => f.barF l f.d 1 .bwait | _ => none
def p2F (f : Fields) (l : Word) : Option Raw :=
  match f.minor.toNat with
  | 0 => f.barF l 0 0 .tbinit | 1 => f.barF l f.d 0 .tbarr | 2 => f.barF l f.d 1 .tbwait | _ => none
/-- Majors 0x30 to 0x33 (R224, R226, R221, R232). -/
def p30 (f : Fields) (l : Word) : Option Raw :=
  match f.minor.toNat with
  | 0 => some { i := .gath ⟨f.ctl, f.d, f.a, f.bop l, f.c, f.v, f.x.getLsbD 0⟩
                mod := !f.m8 && (decide (f.bk = 2) || decide (f.x &&& ~~~1 = 0)), bk := f.litOk }
  | _ => none
def p31 (f : Fields) (l : Word) : Option Raw :=
  match f.minor.toNat with
  | 0 => f.dabc (f.bop l) .xsect (f.mV 0) | _ => none
def p32 (f : Fields) : Option Raw :=
  match f.minor.toNat with
  | 0 => f.dax f.a false .scat (f.mV 0) | 1 => f.dax f.a true .scat (f.mV 0) | _ => none
def p33 (f : Fields) (l : Word) : Option Raw :=
  match f.minor.toNat with
  | 0 => f.dab (f.bop l) .mstart f.mZero | 1 => f.dax 0 (f.x.getLsbD 0) .mstq (f.mX 1) | _ => none

/-- Accumulator tags of `mzero` and `mld` (R242). -/
def accTy (c : Nat) : AccTy :=
  match c with
  | 1 => .s32 | 2 => .f64 | _ => .f32
def act (c : Nat) : Act :=
  match c with
  | 1 => .relu | 2 => .gelu | 3 => .silu | 4 => .tanh | 5 => .sig | 6 => .exp2 | _ => .none
/-- Majors 0x34 and 0x35 (R240, R242, R243). -/
def p34 (f : Fields) : Option Raw :=
  match f.minor.toNat with
  | 0 => some { i := .mmul ⟨f.ctl, f.d, f.a, f.b, f.c, f.x.getLsbD 2, f.x.extractLsb' 0 2⟩, mod := f.mX 7, bk := f.bkNone }
  | _ => none
def p35 (f : Fields) : Option Raw :=
  let ac (k : AccF → Instr) (a c : Reg) : Option Raw :=
    some { i := k ⟨f.ctl, f.d, a, c, accTy f.x.toNat⟩, mod := f.mX 3 && (decide (f.bk = 2) || decide (f.x ≠ 3)), bk := f.bkNone }
  match f.minor.toNat with
  | 0 => ac .mzero 0 0 | 1 => ac .mld f.a f.c
  | 2 => some { i := .mout ⟨f.ctl, f.d, f.a, f.b, f.c, f.md.extractLsb' 5 4, f.md.getLsbD 4, f.md.getLsbD 3,
                            act (f.md.extractLsb' 0 3).toNat⟩
                mod := decide (f.md.extractLsb' 0 3 ≠ 7), bk := f.bkNone }
  | _ => none
/-- Major 0x36 (R235, R245, R246). -/
def p36 (f : Fields) (l : Word) : Option Raw :=
  match f.minor.toNat with
  | 0 => f.da f.a .mstat (f.mX 0)
  | 1 => some { i := .maudit ⟨f.ctl, f.b⟩, mod := f.mZero, bk := decide (f.bk = 2), lim := decide (f.imm.toNat ≤ 31) }
  | 2 => f.dab (f.bop l) .xadd f.mZero | 3 => f.db (f.bop l) f.d .cset f.mZero | _ => none
/-- Major 0x37 (R272). -/
def p37 (f : Fields) (l : Word) : Option Raw :=
  match f.minor.toNat with
  | 0 => some { i := .dqpush ⟨f.ctl, f.d, f.a, f.bopS l, f.c⟩, mod := !f.m8 && decide (f.v = 0) && decide (f.x = 0), bk := f.litOk }
  | 1 => f.dabc (f.bop l) .dqpop (f.mV 0) | 2 => f.dabc (f.bop l) .dqsteal (f.mV 0) | _ => none
/-- Major 0x38 (R282). -/
def p38 (f : Fields) (l : Word) : Option Raw :=
  let mk (k : MgF → Instr) : Option Raw :=
    some { i := k ⟨f.ctl, f.d, f.a, f.bop l, f.c, f.md.getLsbD 4, f.x⟩, mod := decide (f.md.extractLsb' 5 4 = 0), bk := f.litOk }
  match f.minor.toNat with
  | 0 => mk .mgopen | 1 => mk .mgput
  | 2 => if f.md.getLsbD 4 then mk .mgcloseAbort else mk .mgclose
  | 3 => mk .mgdrain | 4 => mk .mgadd | 5 => mk .mgst | _ => none
/-- Major 0x39 (R322). -/
def p39 (f : Fields) (l : Word) : Option Raw :=
  let mk (k : WalkF → Instr) : Option Raw :=
    some { i := k ⟨f.ctl, f.d, f.a, f.bop l, f.c, f.v⟩, mod := !f.m8 && f.xZero, bk := f.litOk }
  match f.minor.toNat with
  | 0 => mk .walkChase | 1 => mk .walkRnd | 2 => mk .walkSeek | _ => none
/-- Major 0x3A (R349, R382). -/
def p3A (f : Fields) (l : Word) : Option Raw :=
  match f.minor.toNat with
  | 0 => f.dab (f.bop l) .lnch f.mZero | 1 => f.dacx .ctxsv (f.mX 1) | 2 => f.dacx .ctxld (f.mX 1)
  | 3 => f.dacx .halt (f.mX 1) | 4 => f.dacx .resm (f.mX 1) | _ => none
/-- Major 0x3B (R339, R414, R420). -/
def p3B (f : Fields) (l : Word) : Option Raw :=
  match f.minor.toNat with
  | 0 => f.db (f.bop l) f.d .logrd f.mZero | 1 => f.da 0 .logre (f.mX 0) | 2 => f.da 0 .logdr (f.mX 0)
  | 3 => some { i := .brk ⟨f.ctl, f.b⟩, mod := f.mZero, bk := decide (f.bk = 2), lim := decide (f.imm.toNat ≤ 255) }
  | 0x10 => some { i := .wtch ⟨f.ctl, f.d, f.a, f.bop l, f.x.getLsbD 0⟩
                   mod := f.mX 1
                   bk := f.litOk }
  | 0x11 => f.db (f.bop l) f.d .pmrd f.mZero | 0x12 => f.db (f.bop l) 0 .tmark f.mZero | _ => none
/-- Major 0x3C (R392). -/
def p3C (f : Fields) (l : Word) : Option Raw :=
  let x := f.x.getLsbD 0
  match f.minor.toNat with
  | 0 => some { i := .place ⟨f.ctl, f.d, f.a, f.bop l, f.c, x⟩
                mod := f.mX 1, bk := f.litOk }
  | 1 => some { i := .bkill ⟨f.ctl, f.d, f.a, f.c, false⟩, mod := f.mX 0, bk := f.bkNone }
  | 2 => f.da f.a .mrd (f.mX 0) | 3 => f.dab (f.bop l) .mwr f.mZero
  | 4 => f.dax f.a x .anote (f.mX 1) | 5 => f.db (f.bop l) f.d .await f.mZero | _ => none

end Fields

/-- What the fields name in a place; none where the minor is reserved (R62, R63). -/
def Fields.parse (f : Fields) (p : Place) (l : Word) : Option Raw :=
  match f.major.toNat with
  | 0x01 => f.p01 l | 0x02 => f.p02 l | 0x03 => f.p03 l | 0x04 => f.p04 l | 0x05 => f.p05 l | 0x06 => f.p06 l
  | 0x07 => f.p07 l | 0x08 => f.p08 l | 0x09 => f.p09 l | 0x0A => f.p0A l | 0x0B => f.p0B l | 0x0C => f.p0C l
  | 0x0D => f.p0D l | 0x0E => f.p0E l | 0x0F => f.p0F l | 0x10 => f.p10 | 0x11 => f.p11 l | 0x12 => f.p12 l
  | 0x13 => f.p13 | 0x14 => f.p14 | 0x15 => f.p15 | 0x16 => f.p16 | 0x17 => f.p17 l | 0x18 => f.p18 l
  | 0x19 => f.p19 | 0x1A => f.p1A l | 0x1B => f.p1B p l | 0x1C => f.p1C p | 0x1D => f.p1D l | 0x1E => f.p1E l
  | 0x1F => f.p1F l | 0x20 => f.p20 l | 0x21 => f.p21 | 0x22 => f.p22 | 0x23 => f.p23 l | 0x24 => f.p24 l
  | 0x25 => f.p25 l | 0x26 => f.p26 l | 0x27 => f.p27 l | 0x28 => f.p28 l | 0x29 => f.p29 l | 0x2A => f.p2A
  | 0x2B => f.p2B l | 0x2C => f.p2C l | 0x2D => f.p2D l | 0x2E => f.p2E p l | 0x2F => f.p2F l | 0x30 => f.p30 l
  | 0x31 => f.p31 l | 0x32 => f.p32 | 0x33 => f.p33 l | 0x34 => f.p34 | 0x35 => f.p35 | 0x36 => f.p36 l
  | 0x37 => f.p37 l | 0x38 => f.p38 l | 0x39 => f.p39 l | 0x3A => f.p3A l | 0x3B => f.p3B l | 0x3C => f.p3C l
  | _ => none

/-- What decoding gives: an instruction, or the detail code of the illegal-instruction trap (R64). -/
inductive Decoded
  | ok (i : Instr)
  | illegal (detail : BitVec 4)
deriving DecidableEq, Repr

/-- An operand kind the instruction does not accept hides no undefined modifier bit: the lower detail is reported (R64,
R110, R92, R153, R155). An instruction without a B operand keeps X as X whatever BK holds. DESIGN CHOICE (log 119): where a
B operand refuses the immediate, X is part of that immediate (R55) and no modifier bit, so that the detail is 0x5. -/
def Fields.modUnder (f : Fields) (L : Limits) (l : Word) (r : Raw) : Bool :=
  f.bk ≠ 2 || r.bk || (match ({ f with bk := 0 } : Fields).parse L.place l with
    | some r' => r'.mod && (r'.i.base L).mod
    | none => true)

/-- Decodes fields where they stand; of several broken conditions the lowest code is reported (R64). -/
def decodeFields (L : Limits) (f : Fields) (l : Word) : Decoded :=
  if f.major.toNat = 0 ∨ f.major.toNat = 0x3F then .illegal 1
  else if f.major.toNat = 0x3D ∨ f.major.toNat = 0x3E then .illegal 2
  else
    match f.parse L.place l with
    | none => .illegal 3
    | some r =>
      let k := (r.i.base L).inPlace L f.ctl
      match ({ k with mod := k.mod && r.mod && f.modUnder L l r, bk := k.bk && r.bk, lim := k.lim && r.lim } : Checks).detail with
      | some d => .illegal d
      | none => .ok r.i

/-- The instruction needs a literal parcel: BK is 0b11 (R50). -/
def needsParcel (x : BitVec 64) : Bool := decide (x.extractLsb' 21 2 = 3)
/-- Length in bytes (R50). -/
def wordLength (x : BitVec 64) : Nat := if needsParcel x then 12 else 8
/-- Decodes a word and its parcel (zero when there is none). -/
def decodeWord (L : Limits) (x : BitVec 64) (l : Word) : Decoded := decodeFields L (Fields.unpack x) l

/-- Little-endian value of bytes (R8). -/
def leBytes : List Byte → Nat
  | [] => 0
  | b :: bs => b.toNat + 256 * leBytes bs

/-- Decodes the instruction at the start of the bytes, with the bytes after it; none where the bytes end
inside the instruction. -/
def decodeBytes (L : Limits) (bs : List Byte) : Option (Decoded × List Byte) :=
  let x : BitVec 64 := BitVec.ofNat 64 (leBytes (bs.take 8))
  let n := wordLength x
  if bs.length < n then none
  else some (decodeWord L x (BitVec.ofNat 32 (leBytes ((bs.drop 8).take (n - 8)))), bs.drop n)

/-- The first n little-endian bytes of a number. -/
def toLeBytes (n : Nat) (x : Nat) : List Byte := (List.range n).map fun i => BitVec.ofNat 8 (x / 2 ^ (8 * i))

/-- Places of the instruction word in the order in which `decodeTableWord` tries them. -/
def tableLimits (p : Place) : Limits := ⟨p, 256, 1024, 4⟩

/-- The instruction of an opcode-table word: the words as the hardware stores them, given to the decoder
in the first place of R62 where they are legal. Bits beyond nbits are zero. -/
def decodeTableWord (nbits w : Nat) : Option Instr :=
  let bs := toLeBytes 12 (w % 2 ^ nbits)
  let dec (p : Place) : Option Instr :=
    match decodeBytes (tableLimits p) bs with
    | some (.ok i, _) => some i
    | _ => none
  (dec .team).orElse fun _ => (dec .agent).orElse fun _ => dec .stream

/-! ## The encoder -/

/-- Fields of an instruction with a B operand; an immediate takes field C and X (R54). -/
def mkFields (major minor : Nat) (c : Ctl) (d a : Reg) (b : BOp) (cc : Reg) (md : BitVec 9) : Fields :=
  let f : Fields := ⟨BitVec.ofNat 6 major, BitVec.ofNat 6 minor, c.w, c.ps, c.pn, c.la, 0, d, a, 0, cc, md⟩
  match b with
  | .reg r => { f with b := r }
  | .bank k => { f with bk := 1, b := k }
  | .imm v => { f with bk := 2, b := v.extractLsb' 0 8, c := v.extractLsb' 8 8, md := md.extractLsb' 4 5 ++ v.extractLsb' 16 4 }
  | .simm v => { f with bk := 2, b := v }
  | .lit _ => { f with bk := 3 }

/-- Modifier of R58. -/
def mdArith (rm : Rm) (fz sat : Bool) (x : BitVec 4) : BitVec 9 :=
  rmCode rm ++ BitVec.ofBool fz ++ BitVec.ofBool sat ++ x
/-- Modifier of R178. -/
def mdV (v x : BitVec 4) : BitVec 9 := BitVec.ofBool false ++ v ++ x
/-- X from its bits 3, 2, 1, 0. -/
def bits4 (b3 b2 b1 b0 : Bool) : BitVec 4 := BitVec.ofBool b3 ++ BitVec.ofBool b2 ++ BitVec.ofBool b1 ++ BitVec.ofBool b0

def Sg.code : Sg → Nat
  | .s => 0 | .n => 1
def FTy.code : FTy → Nat
  | .f32 => 0 | .f16 => 1 | .bf16 => 2 | .f64 => 3
def NumTy.code : NumTy → Nat
  | .s8 => 0 | .n8 => 1 | .s16 => 2 | .n16 => 3 | .s32 => 4 | .n32 => 5 | .s64 => 6 | .n64 => 7 | .e4m3 => 8 | .e5m2 => 9
  | .bf16 => 10 | .f16 => 11 | .f19 => 12 | .f32 => 13 | .f64 => 14
def Cond.code : Cond → Nat
  | .eq => 0 | .ne => 1 | .lt => 2 | .le => 3 | .gt => 4 | .ge => 5 | .un => 6 | .ord => 7
def CmpTy.code : CmpTy → Nat
  | .s32 => 0 | .n32 => 1 | .f32 => 2 | .f16 => 3 | .bf16 => 4 | .s64 => 5 | .n64 => 6 | .f64 => 7
def RedOp.code : RedOp → Nat
  | .add => 0 | .min => 1 | .max => 2 | .and => 3 | .or => 4 | .xor => 5
def RedTy.code : RedTy → Nat
  | .s32 => 0 | .n32 => 1 | .f32 => 2 | .f64 => 3 | .s64 => 4 | .n64 => 5
def MSize.code : MSize → Nat
  | .n8 => 0 | .s8 => 1 | .n16 => 2 | .s16 => 3 | .b32 => 4 | .b64 => 5 | .b128 => 6
def AtOp.code : AtOp → Nat
  | .add => 0 | .min => 1 | .max => 2 | .and => 3 | .or => 4 | .xor => 5 | .exch => 6 | .cas => 7
def AtTy.code : AtTy → Nat
  | .s32 => 0 | .n32 => 1 | .f32 => 2 | .s64 => 3 | .n64 => 4 | .f64 => 5
def MredOp.code : MredOp → Nat
  | .add => 0 | .min => 1 | .max => 2
def MredTy.code : MredTy → Nat
  | .s32 => 0 | .n32 => 1 | .f32 => 2
def CplSize.code : CplSize → Nat
  | .b32 => 0 | .b64 => 1 | .b128 => 2 | .b256 => 3
def AccTy.code : AccTy → BitVec 4
  | .f32 => 0 | .s32 => 1 | .f64 => 2
def Act.code : Act → BitVec 3
  | .none => 0 | .relu => 1 | .gelu => 2 | .silu => 3 | .tanh => 4 | .sig => 5 | .exp2 => 6

def IntB.enc (f : IntB) (major op : Nat) : Fields :=
  mkFields major (2 * op + f.ty.code) f.c f.d f.a f.b 0 (mdArith .rne false f.sat 0)
def IntC.enc (f : IntC) (major op : Nat) : Fields :=
  mkFields major (2 * op + f.ty.code) f.c f.d f.a f.b f.cc (mdArith .rne false f.sat 0)
def IntU.enc (f : IntU) (major op : Nat) : Fields :=
  mkFields major (2 * op + f.ty.code) f.c f.d f.a (.reg 0) 0 (mdArith .rne false f.sat 0)
def FltB.enc (f : FltB) (major op : Nat) : Fields :=
  mkFields major (8 * op + f.ty.code) f.c f.d f.a f.b 0 (mdArith f.rm f.ftz f.sat 0)
def FltC.enc (f : FltC) (major op : Nat) : Fields :=
  mkFields major (8 * op + f.ty.code) f.c f.d f.a f.b f.cc (mdArith f.rm f.ftz f.sat 0)
def FltU.enc (f : FltU) (major op : Nat) : Fields :=
  mkFields major (8 * op + f.ty.code) f.c f.d 0 f.b 0 (mdArith f.rm f.ftz f.sat 0)
def PredF.enc (f : PredF) (op : Nat) : Fields :=
  mkFields 0x13 op f.c f.d f.a (.reg f.b) 0 (mdV 0 (bits4 false false f.ib f.ia))
def StackF.enc (f : StackF) (op : Nat) : Fields :=
  mkFields 0x14 op f.c f.d f.a (.reg 0) 0 (mdV 0 (BitVec.ofBool f.t ++ f.idx))
def ExvF.enc (f : ExvF) (op : Nat) : Fields :=
  mkFields 0x16 op f.c 0 f.a (.reg f.fb) f.n (mdV 0 (bits4 false false f.m f.t))
/-- The B operand that stands for a transfer target. -/
def Tgt.bop : Tgt → BOp
  | .reg r => .reg r | .rel20 v => .imm v | .rel32 v => .lit v
def BraF.enc (f : BraF) (major op : Nat) : Fields := mkFields major op f.c f.d 0 f.tgt.bop 0 0
/-- `jmp` and `ret` name the target register in field A (R135). -/
def BraF.encJ (f : BraF) (op : Nat) : Fields :=
  mkFields 0x1A op f.c 0 (match f.tgt with | .reg r => r | _ => 0) (.reg 0) 0 0
def CodeF.enc (f : CodeF) (major op : Nat) : Fields := mkFields major op f.c 0 0 (.imm (f.code.setWidth 20)) 0 0
def DB.enc (f : DB) (major op : Nat) : Fields := mkFields major op f.c f.d 0 f.b 0 0
def DAB.enc (f : DAB) (major op : Nat) : Fields := mkFields major op f.c f.d f.a f.b 0 0
def DABC.enc (f : DABC) (major op : Nat) : Fields := mkFields major op f.c f.d f.a f.b f.cc 0
def DA.enc (f : DA) (major op : Nat) : Fields := mkFields major op f.c f.d f.a (.reg 0) 0 0
def DAX.enc (f : DAX) (major op : Nat) : Fields :=
  mkFields major op f.c f.d f.a (.reg 0) 0 (mdV 0 (bits4 false false false f.x))
def DABX.enc (f : DABX) (major op : Nat) : Fields :=
  mkFields major op f.c f.d f.a f.b 0 (mdV 0 (bits4 false false false f.x))
def DABCX.enc (f : DABCX) (major op : Nat) : Fields :=
  mkFields major op f.c f.d f.a f.b f.cc (mdV 0 (bits4 false false false f.x))
def DACX.enc (f : DACX) (major op : Nat) : Fields :=
  mkFields major op f.c f.d f.a (.reg 0) f.cc (mdV 0 (bits4 false false false f.x))
def MemF.enc (f : MemF) (major base : Nat) : Fields :=
  mkFields major (base + f.size.code) f.c f.d f.a f.b 0 (mdV (bits4 false false false f.v) 0)
def StashF.enc (f : StashF) (op : Nat) : Fields :=
  mkFields 0x2B op f.c f.d f.a f.b 0 (mdV (BitVec.ofBool f.ro ++ f.win) 0)
def CopyF.enc (f : CopyF) (op : Nat) : Fields :=
  mkFields 0x2D op f.c f.d f.a f.b f.cc (mdV (bits4 f.tbar f.bar f.ss f.ds) 0)
def BarF.enc (f : BarF) (major op : Nat) : Fields :=
  mkFields major op f.c f.d f.a f.b 0 (mdV (bits4 false false false f.tr) 0)
def AccF.enc (f : AccF) (op : Nat) : Fields := mkFields 0x35 op f.c f.d f.a (.reg 0) f.cc (mdV 0 f.ty.code)
def MgF.enc (f : MgF) (op : Nat) : Fields :=
  mkFields 0x38 op f.c f.d f.a f.b f.cc (mdV (bits4 false false false f.x) f.h)
def WalkF.enc (f : WalkF) (op : Nat) : Fields := mkFields 0x39 op f.c f.d f.a f.b f.cc (mdV f.h 0)

/-- The literal parcel of a B operand, zero when it has none. -/
def BOp.parcel : BOp → Word
  | .lit v => v | _ => 0

/-- The fields of an instruction; none for the device's own steps, which have no encoding. -/
def Instr.fields (i : Instr) : Option Fields :=
  match i with
  | .add f => some (f.enc 0x01 0) | .sub f => some (f.enc 0x01 1) | .addc f => some (f.enc 0x01 2)
  | .subb f => some (f.enc 0x01 3) | .adda f => some (f.enc 0x01 4)
  | .mul f => some (f.enc 0x02 0) | .mulh f => some (f.enc 0x02 1) | .mad f => some (f.enc 0x02 2)
  | .div f => some (f.enc 0x03 0) | .rem f => some (f.enc 0x03 1)
  | .min f => some (f.enc 0x04 0) | .max f => some (f.enc 0x04 1) | .abs f => some (f.enc 0x04 2) | .neg f => some (f.enc 0x04 3)
  | .and f => some (f.enc 0x05 0) | .or f => some (f.enc 0x05 1) | .xor f => some (f.enc 0x05 2)
  | .andn f => some (f.enc 0x05 3) | .not f => some (f.enc 0x05 4)
  | .shl f => some (f.enc 0x06 0) | .shr f => some (f.enc 0x06 1) | .sar f => some (f.enc 0x06 2)
  | .rol f => some (f.enc 0x06 3) | .ror f => some (f.enc 0x06 4)
  | .bfe f => some (f.enc 0x07 0) | .bfi f => some (f.enc 0x07 1) | .popc f => some (f.enc 0x07 2)
  | .clz f => some (f.enc 0x07 3) | .ctz f => some (f.enc 0x07 4) | .brev f => some (f.enc 0x07 5)
  | .pairAdd f => some (f.enc 0x08 0) | .pairSub f => some (f.enc 0x08 1) | .pairMul f => some (f.enc 0x08 2)
  | .pairMin f => some (f.enc 0x08 3) | .pairMax f => some (f.enc 0x08 4) | .pairShl f => some (f.enc 0x08 5)
  | .pairShr f => some (f.enc 0x08 6) | .pairSar f => some (f.enc 0x08 7) | .pairAnd f => some (f.enc 0x08 8)
  | .pairOr f => some (f.enc 0x08 9) | .pairXor f => some (f.enc 0x08 10)
  | .floatAdd f => some (f.enc 0x09 0) | .floatSub f => some (f.enc 0x09 1) | .floatMul f => some (f.enc 0x0A 0)
  | .fma f => some (f.enc 0x0B 0) | .fms f => some (f.enc 0x0B 1) | .fnma f => some (f.enc 0x0B 2)
  | .floatMin f => some (f.enc 0x0C 0) | .floatMax f => some (f.enc 0x0C 1)
  | .floatDiv f => some (f.enc 0x0D 0) | .rcp f => some (f.enc 0x0D 1) | .sqrt f => some (f.enc 0x0D 2)
  | .exp2 f => some (f.enc 0x0E 0) | .log2 f => some (f.enc 0x0E 1) | .sin f => some (f.enc 0x0E 2) | .cos f => some (f.enc 0x0E 3)
  | .tanh f => some (f.enc 0x0E 4) | .sig f => some (f.enc 0x0E 5) | .gelu f => some (f.enc 0x0E 6)
  | .add2 f => some (f.enc 0x0F 0) | .sub2 f => some (f.enc 0x0F 1) | .mul2 f => some (f.enc 0x0F 2)
  | .fma2 f => some (f.enc 0x0F 3) | .min2 f => some (f.enc 0x0F 4) | .max2 f => some (f.enc 0x0F 5)
  | .cvt f => some (mkFields 0x10 f.dst.code f.c f.d f.a (.reg 0) 0 (mdArith f.rm f.ftz f.sat (BitVec.ofNat 4 f.src.code)))
  | .cmp f => some (mkFields 0x11 (8 * f.cond.code + f.ty.code) f.c f.d f.a f.b 0 (mdArith .rne f.ftz false 0))
  | .mov f => some (f.enc 0x12 0) | .sel f => some (f.enc 0x12 1) | .movd f => some (f.enc 0x12 2) | .seld f => some (f.enc 0x12 3)
  | .pand f => some (f.enc 0) | .por f => some (f.enc 1) | .pxor f => some (f.enc 2) | .pandn f => some (f.enc 3)
  | .pmov f => some (f.enc 4) | .ptst f => some (f.enc 5) | .pget f => some (f.enc 6)
  | .spush f => some (f.enc 0) | .spop f => some (f.enc 1) | .speek f => some (f.enc 2) | .sdep f => some (f.enc 3)
  | .sclr f => some (f.enc 4)
  | .sval f => some (f.enc 0x15 0)
  | .exv f => some (f.enc 0) | .exvn f => some (f.enc 1)
  | .exwin f => some (f.enc 0x17 0) | .lsr f => some (f.enc 0x17 1) | .lsc f => some (f.enc 0x17 2)
  | .bra f => some (f.enc 0x18 0) | .brany f => some (f.enc 0x18 1) | .brall f => some (f.enc 0x18 2)
  | .brd f => some (mkFields 0x19 0 f.c (f.join.extractLsb' 0 8) (f.join.extractLsb' 8 8) (.imm f.tgt) 0 0)
  | .jmp f => some (f.encJ 0) | .call f => some (f.enc 0x1A 1) | .ret f => some (f.encJ 2)
  | .loop f => some (f.enc 0x1B 0) | .streamLoop f => some (f.enc 0x1B 0)
  | .exit c => some (mkFields 0x1C 0 c 0 0 (.reg 0) 0 0) | .streamExit c => some (mkFields 0x1C 0 c 0 0 (.reg 0) 0 0)
  | .agentExit c => some (mkFields 0x1C 0 c 0 0 (.reg 0) 0 0)
  | .trap f => some (f.enc 0x1C 1) | .streamTrap f => some (f.enc 0x1C 1)
  | .tret c => some (mkFields 0x1C 2 c 0 0 (.reg 0) 0 0)
  | .rgn f => some (f.enc 0x1D 0) | .fchk c => some (mkFields 0x1D 1 c 0 0 (.reg 0) 0 0)
  | .waitla c => some (mkFields 0x1D 2 c 0 0 (.reg 0) 0 0)
  | .gtov f => some (f.enc 0x1E 0) | .vtog f => some (f.enc 0x1E 1) | .pbc f => some (f.enc 0x1E 2)
  | .ffr f => some (f.enc 0x1E 3) | .ffc f => some (f.enc 0x1E 4)
  | .vany f => some (f.enc 0x1F 0) | .vall f => some (f.enc 0x1F 1) | .vcnt f => some (f.enc 0x1F 2)
  | .ballot f => some (f.enc 0x1F 3) | .vfirst f => some (f.enc 0x1F 4) | .vuni f => some (f.enc 0x1F 5)
  | .vrank f => some (f.enc 0x1F 6)
  | .shfi f => some (f.enc 0x20 0) | .shfx f => some (f.enc 0x20 1) | .shfu f => some (f.enc 0x20 2) | .shfd f => some (f.enc 0x20 3)
  | .red f => some (redEnc f) | .scan f => some (redEnc f)
  | .rstat f => some (mkFields 0x22 0 f.c f.d f.a (.reg 0) 0 (mdV 0 f.wn))
  | .regrp f => some (f.enc 0x23 0)
  | .ld f => some (f.enc 0x24 0) | .st f => some (f.enc 0x25 0) | .lds f => some (f.enc 0x26 0) | .sts f => some (f.enc 0x26 8)
  | .lda f => some (f.enc 0x27 0) | .stl f => some (f.enc 0x27 8)
  | .fence f => some (mkFields 0x27 0x10 f.c 0 0 (.reg 0) 0 (mdV (bits4 false f.rel f.acq false) 0))
  | .pf f => some (mkFields 0x28 f.l2.toNat f.c 0 f.a f.b 0 0)
  | .atom f => some (mkFields 0x29 (8 * f.op.code + f.ty.code) f.c f.d f.a f.b f.cc (mdV (bits4 f.nr f.rel f.acq f.sp) 0))
  | .mcst f => some (mkFields 0x2A (0x20 + f.d64.toNat) f.c f.d f.a (.reg f.b) 0 (mdV (0#2 ++ f.cnt) 0))
  | .mred f => some (mkFields 0x2A (8 * f.op.code + f.ty.code) f.c f.d f.a (.reg f.b) 0 (mdV (0#2 ++ f.cnt) 0))
  | .stmap f => some (f.enc 0) | .stunmap f => some (f.enc 1) | .stflush f => some (f.enc 2)
  | .mset f => some (f.enc 0x2B 8) | .mget f => some (f.enc 0x2B 9)
  | .cpl f => some (mkFields 0x2C f.size.code f.c f.d f.a f.b f.cc (mdV (bits4 false false false f.out) 0))
  | .cp f => some (f.enc 0) | .cp2d f => some (f.enc 1)
  | .cpz f => some (f.enc (2 + f.e8.toNat)) | .cpx f => some (f.enc (4 + f.e8.toNat))
  | .binit f => some (f.enc 0x2E 0) | .barr f => some (f.enc 0x2E 1) | .bwait f => some (f.enc 0x2E 2)
  | .streamBinit f => some (f.enc 0x2E 0) | .streamBarr f => some (f.enc 0x2E 1) | .streamBwait f => some (f.enc 0x2E 2)
  | .tbinit f => some (f.enc 0x2F 0) | .tbarr f => some (f.enc 0x2F 1) | .tbwait f => some (f.enc 0x2F 2)
  | .scat f => some (mkFields 0x32 f.x.toNat f.c f.d f.a (.reg 0) 0 0)
  | .gath f => some (mkFields 0x30 0 f.c f.d f.a f.b f.cc (mdV f.h (bits4 false false false f.dd)))
  | .xsect f => some (f.enc 0x31 0)
  | .mstart f => some (f.enc 0x33 0) | .mstq f => some (f.enc 0x33 1)
  | .mmul f => some (mkFields 0x34 0 f.c f.d f.a (.reg f.b) f.cc (mdV 0 (BitVec.ofBool false ++ BitVec.ofBool f.kb ++ f.ka)))
  | .mzero f => some (f.enc 0) | .mld f => some (f.enc 1)
  | .mout f => some (mkFields 0x35 2 f.c f.d f.a (.reg f.b) f.cc
      (f.fmt ++ BitVec.ofBool f.raw ++ BitVec.ofBool f.bias ++ f.act.code))
  | .mstat f => some (f.enc 0x36 0) | .maudit f => some (f.enc 0x36 1) | .xadd f => some (f.enc 0x36 2) | .cset f => some (f.enc 0x36 3)
  | .dqpush f => some (f.enc 0x37 0) | .dqpop f => some (f.enc 0x37 1) | .dqsteal f => some (f.enc 0x37 2)
  | .mgopen f => some (f.enc 0) | .mgput f => some (f.enc 1) | .mgclose f => some (f.enc 2) | .mgcloseAbort f => some (f.enc 2)
  | .mgdrain f => some (f.enc 3) | .mgadd f => some (f.enc 4) | .mgst f => some (f.enc 5)
  | .walkChase f => some (f.enc 0) | .walkRnd f => some (f.enc 1) | .walkSeek f => some (f.enc 2)
  | .lnch f => some (f.enc 0x3A 0) | .ctxsv f => some (f.enc 0x3A 1) | .ctxld f => some (f.enc 0x3A 2)
  | .halt f => some (f.enc 0x3A 3) | .resm f => some (f.enc 0x3A 4)
  | .logrd f => some (f.enc 0x3B 0) | .logre f => some (f.enc 0x3B 1) | .logdr f => some (f.enc 0x3B 2) | .brk f => some (f.enc 0x3B 3)
  | .wtch f => some (f.enc 0x3B 0x10) | .pmrd f => some (f.enc 0x3B 0x11) | .tmark f => some (f.enc 0x3B 0x12)
  | .place f => some (f.enc 0x3C 0) | .bkill f => some (f.enc 0x3C 1) | .mrd f => some (f.enc 0x3C 2) | .mwr f => some (f.enc 0x3C 3)
  | .anote f => some (f.enc 0x3C 4) | .await f => some (f.enc 0x3C 5)
  | .regroupDecision _ _ => none | .tbwaitAnswer _ _ => none | .matrixOperationComplete _ _ => none
  | .pinReservationGrant _ => none | .coldStartGrant _ => none | .dequeStep _ => none
  | .morainePutArrival _ => none | .walkHop _ _ => none | .broadcastAcknowledged _ _ => none
  | .awaitTimeout _ => none | .illegalInstruction _ => none | .fetchFault _ => none
  | .longLatencyWrite _ _ _ => none | .fragmentBoost _ _ _ => none | .loadResponse _ _ _ => none
  | .storeSectorAccept _ _ => none | .atomicRequest _ _ => none | .transactionBarrierStep _ _ => none
  | .l2MissTranslation _ _ => none | .l2Fill _ _ => none | .deferredFault _ => none | .sessionEnd _ _ => none
  | .sessionCancelTimeout _ _ => none | .drainEnd _ _ => none | .leaseRequest _ _ => none
  | .residencyAnswer _ _ _ => none | .inval _ _ => none | .invalComplete _ => none
  | .generationBump _ _ _ => none | .staleRepresent _ _ => none | .agentScan _ => none
  | .launchCommand _ _ => none | .leaseGranted _ => none | .blockPlacement _ _ => none
  | .bulkCopyCommand _ => none | .waitCommand _ => none | .signalCommand _ => none | .markerCommand _ => none
  | .blockRetire _ _ => none | .commandEnd _ _ => none | .agentReload _ => none | .doorbell _ _ => none
  | .queueRegister _ _ _ => none | .queueDestroy _ _ _ => none | .qstop _ _ _ => none | .pentWrite _ _ => none
  | .tentWrite _ _ _ => none | .preq _ _ => none | .preemptStop _ _ => none | .preemptAck _ _ => none
  | .dcmdRead _ => none | .dcmdWrite _ => none | .dcmdForcedWrite _ => none | .watchHit _ => none
  | .watchPredicateExit _ => none | .watchPredicateLimit _ => none | .sliceDrain _ => none
  | .sliceUndrain _ => none | .sliceDrained _ => none | .scal _ _ => none | .devnumWrite _ => none
  | .fwctlGo _ _ => none | .attestationRequest _ _ => none | .thermalResume => none | .thermalStop _ => none
  | .powerThrottle _ _ => none | .ownershipTableWrite _ _ => none | .retrain _ _ => none
  | .flitReceive _ _ _ => none | .replayResend _ => none | .portDown _ => none | .remoteRequest _ => none
  | .hostWrite _ _ _ => none | .hostRead _ _ _ => none | .powerOn _ => none | .registerWrite _ _ _ => none
  | .clock => none | .trcctlWrite _ _ => none | .telbaseWrite _ _ => none | .flitUnacknowledged _ => none
where
  /-- `red` and `scan` (R153). -/
  redEnc (f : RedF) : Fields :=
    mkFields 0x21 (8 * f.op.code + f.ty.code) f.c f.d f.a (.reg 0) 0 (mdArith f.rm f.ftz false (bits4 false false false f.ex))

/-- The literal parcel of an instruction, zero when it has none. -/
def Instr.parcel (i : Instr) : Word :=
  match i with
  | .add f => f.b.parcel | .sub f => f.b.parcel | .addc f => f.b.parcel | .subb f => f.b.parcel
  | .adda f => f.b.parcel | .mul f => f.b.parcel | .mulh f => f.b.parcel | .mad f => f.b.parcel
  | .div f => f.b.parcel | .rem f => f.b.parcel | .min f => f.b.parcel | .max f => f.b.parcel | .abs _ => 0
  | .neg _ => 0 | .and f => f.b.parcel | .or f => f.b.parcel | .xor f => f.b.parcel | .andn f => f.b.parcel
  | .not _ => 0 | .shl f => f.b.parcel | .shr f => f.b.parcel | .sar f => f.b.parcel | .rol f => f.b.parcel
  | .ror f => f.b.parcel | .bfe f => f.b.parcel | .bfi f => f.b.parcel | .popc _ => 0 | .clz _ => 0 | .ctz _ => 0
  | .brev _ => 0 | .pairAdd f => f.b.parcel | .pairSub f => f.b.parcel | .pairMul f => f.b.parcel
  | .pairMin f => f.b.parcel | .pairMax f => f.b.parcel | .pairShl f => f.b.parcel | .pairShr f => f.b.parcel
  | .pairSar f => f.b.parcel | .pairAnd f => f.b.parcel | .pairOr f => f.b.parcel | .pairXor f => f.b.parcel
  | .floatAdd f => f.b.parcel | .floatSub f => f.b.parcel | .floatMul f => f.b.parcel | .fma f => f.b.parcel
  | .fms f => f.b.parcel | .fnma f => f.b.parcel | .floatMin f => f.b.parcel | .floatMax f => f.b.parcel
  | .floatDiv f => f.b.parcel | .rcp f => f.b.parcel | .sqrt f => f.b.parcel | .exp2 f => f.b.parcel
  | .log2 f => f.b.parcel | .sin f => f.b.parcel | .cos f => f.b.parcel | .tanh f => f.b.parcel
  | .sig f => f.b.parcel | .gelu f => f.b.parcel | .add2 f => f.b.parcel | .sub2 f => f.b.parcel
  | .mul2 f => f.b.parcel | .fma2 f => f.b.parcel | .min2 f => f.b.parcel | .max2 f => f.b.parcel | .cvt _ => 0
  | .cmp f => f.b.parcel | .mov f => f.b.parcel | .sel f => f.b.parcel | .movd f => f.b.parcel
  | .seld f => f.b.parcel | .pand _ => 0 | .por _ => 0 | .pxor _ => 0 | .pandn _ => 0 | .pmov _ => 0
  | .ptst _ => 0 | .pget _ => 0 | .spush _ => 0 | .spop _ => 0 | .speek _ => 0 | .sdep _ => 0 | .sclr _ => 0
  | .sval _ => 0 | .exv _ => 0 | .exvn _ => 0 | .exwin f => f.b.parcel | .lsr _ => 0 | .lsc f => f.b.parcel
  | .bra f => f.tgt.bop.parcel | .brany f => f.tgt.bop.parcel | .brall f => f.tgt.bop.parcel | .brd _ => 0
  | .jmp f => f.tgt.bop.parcel | .call f => f.tgt.bop.parcel | .ret f => f.tgt.bop.parcel
  | .loop f => f.tgt.bop.parcel | .streamLoop f => f.tgt.bop.parcel | .exit _ => 0 | .streamExit _ => 0
  | .agentExit _ => 0 | .trap _ => 0 | .streamTrap _ => 0 | .tret _ => 0 | .rgn f => f.b.parcel | .fchk _ => 0
  | .waitla _ => 0 | .gtov _ => 0 | .vtog f => f.b.parcel | .pbc _ => 0 | .ffr _ => 0 | .ffc f => f.b.parcel
  | .vany _ => 0 | .vall _ => 0 | .vcnt _ => 0 | .ballot f => f.b.parcel | .vfirst _ => 0 | .vuni _ => 0
  | .vrank _ => 0 | .shfi f => f.b.parcel | .shfx f => f.b.parcel | .shfu f => f.b.parcel | .shfd f => f.b.parcel
  | .red _ => 0 | .scan _ => 0 | .rstat _ => 0 | .regrp f => f.b.parcel | .regroupDecision _ _ => 0
  | .ld f => f.b.parcel | .st f => f.b.parcel | .lds f => f.b.parcel | .sts f => f.b.parcel
  | .lda f => f.b.parcel | .stl f => f.b.parcel | .fence _ => 0 | .pf f => f.b.parcel | .atom f => f.b.parcel
  | .mcst _ => 0 | .mred _ => 0 | .stmap f => f.b.parcel | .stunmap f => f.b.parcel | .stflush f => f.b.parcel
  | .mset f => f.b.parcel | .mget _ => 0 | .cpl f => f.b.parcel | .cp f => f.b.parcel | .cp2d f => f.b.parcel
  | .cpz f => f.b.parcel | .cpx f => f.b.parcel | .binit f => f.b.parcel | .barr f => f.b.parcel
  | .bwait f => f.b.parcel | .streamBinit f => f.b.parcel | .streamBarr f => f.b.parcel
  | .streamBwait f => f.b.parcel | .tbinit f => f.b.parcel | .tbarr f => f.b.parcel | .tbwait f => f.b.parcel
  | .tbwaitAnswer _ _ => 0 | .scat _ => 0 | .gath f => f.b.parcel | .xsect f => f.b.parcel
  | .mstart f => f.b.parcel | .mstq _ => 0 | .mmul _ => 0 | .mzero _ => 0 | .mld _ => 0 | .mout _ => 0
  | .mstat _ => 0 | .maudit _ => 0 | .xadd f => f.b.parcel | .cset f => f.b.parcel
  | .matrixOperationComplete _ _ => 0 | .pinReservationGrant _ => 0 | .coldStartGrant _ => 0
  | .dqpush f => f.b.parcel | .dqpop f => f.b.parcel | .dqsteal f => f.b.parcel | .dequeStep _ => 0
  | .mgopen f => f.b.parcel | .mgput f => f.b.parcel | .morainePutArrival _ => 0 | .mgclose f => f.b.parcel
  | .mgcloseAbort f => f.b.parcel | .mgdrain f => f.b.parcel | .mgadd f => f.b.parcel | .mgst f => f.b.parcel
  | .walkChase f => f.b.parcel | .walkRnd f => f.b.parcel | .walkSeek f => f.b.parcel | .walkHop _ _ => 0
  | .lnch f => f.b.parcel | .ctxsv _ => 0 | .ctxld _ => 0 | .halt _ => 0 | .resm _ => 0
  | .broadcastAcknowledged _ _ => 0 | .logrd f => f.b.parcel | .logre _ => 0 | .logdr _ => 0 | .brk _ => 0
  | .wtch f => f.b.parcel | .tmark f => f.b.parcel | .pmrd f => f.b.parcel | .place f => f.b.parcel
  | .bkill _ => 0 | .mrd _ => 0 | .mwr f => f.b.parcel | .anote _ => 0 | .await f => f.b.parcel
  | .awaitTimeout _ => 0 | .illegalInstruction _ => 0 | .fetchFault _ => 0 | .longLatencyWrite _ _ _ => 0
  | .fragmentBoost _ _ _ => 0 | .loadResponse _ _ _ => 0 | .storeSectorAccept _ _ => 0 | .atomicRequest _ _ => 0
  | .transactionBarrierStep _ _ => 0 | .l2MissTranslation _ _ => 0 | .l2Fill _ _ => 0 | .deferredFault _ => 0
  | .sessionEnd _ _ => 0 | .sessionCancelTimeout _ _ => 0 | .drainEnd _ _ => 0 | .leaseRequest _ _ => 0
  | .residencyAnswer _ _ _ => 0 | .inval _ _ => 0 | .invalComplete _ => 0 | .generationBump _ _ _ => 0
  | .staleRepresent _ _ => 0 | .agentScan _ => 0 | .launchCommand _ _ => 0 | .leaseGranted _ => 0
  | .blockPlacement _ _ => 0 | .bulkCopyCommand _ => 0 | .waitCommand _ => 0 | .signalCommand _ => 0
  | .markerCommand _ => 0 | .blockRetire _ _ => 0 | .commandEnd _ _ => 0 | .agentReload _ => 0
  | .doorbell _ _ => 0 | .queueRegister _ _ _ => 0 | .queueDestroy _ _ _ => 0 | .qstop _ _ _ => 0
  | .pentWrite _ _ => 0 | .tentWrite _ _ _ => 0 | .preq _ _ => 0 | .preemptStop _ _ => 0 | .preemptAck _ _ => 0
  | .dcmdRead _ => 0 | .dcmdWrite _ => 0 | .dcmdForcedWrite _ => 0 | .watchHit _ => 0
  | .watchPredicateExit _ => 0 | .watchPredicateLimit _ => 0 | .sliceDrain _ => 0 | .sliceUndrain _ => 0
  | .sliceDrained _ => 0 | .scal _ _ => 0 | .devnumWrite _ => 0 | .fwctlGo _ _ => 0
  | .attestationRequest _ _ => 0 | .thermalResume => 0 | .thermalStop _ => 0 | .powerThrottle _ _ => 0
  | .ownershipTableWrite _ _ => 0 | .retrain _ _ => 0 | .flitReceive _ _ _ => 0 | .replayResend _ => 0
  | .portDown _ => 0 | .remoteRequest _ => 0 | .hostWrite _ _ _ => 0 | .hostRead _ _ _ => 0 | .powerOn _ => 0
  | .registerWrite _ _ _ => 0 | .clock => 0 | .trcctlWrite _ _ => 0 | .telbaseWrite _ _ => 0
  | .flitUnacknowledged _ => 0

/-- The words of an instruction: the 64-bit word, and the parcel where BK is 0b11 (R49, R50). -/
def encode (i : Instr) : Option (BitVec 64 × Word) := i.fields.map fun f => (f.pack, i.parcel)

/-- The instruction's bytes in memory, lowest address first (R8, R50). -/
def encodeBytes (i : Instr) : List Byte :=
  match encode i with
  | some (x, l) => toLeBytes 8 x.toNat ++ (if needsParcel x then toLeBytes 4 l.toNat else [])
  | none => []

/-- No field of the word is lost: unpacking a packed word gives the fields back. -/
theorem Fields.unpack_pack (f : Fields) : Fields.unpack f.pack = f := by
  obtain ⟨mj, mn, w, ps, pn, la, bk, d, a, b, c, md⟩ := f
  have h1 := mj.isLt; have h2 := mn.isLt; have h3 := ps.isLt; have h4 := la.isLt; have h5 := bk.isLt
  have h6 := d.isLt; have h7 := a.isLt; have h8 := b.isLt; have h9 := c.isLt; have h10 := md.isLt
  have hw : w.toNat < 2 := by cases w <;> decide
  have hp : pn.toNat < 2 := by cases pn <;> decide
  have ew : ∀ x : Nat, x % 2 = w.toNat → decide (x % 2 = 1) = w := by intro x hx; rw [hx]; cases w <;> rfl
  have ep : ∀ x : Nat, x % 2 = pn.toNat → decide (x % 2 = 1) = pn := by intro x hx; rw [hx]; cases pn <;> rfl
  simp only [Fields.unpack, Fields.pack, BitVec.toNat_ofNat, Fields.mk.injEq]
  refine ⟨?_, ?_, ew _ (by omega), ?_, ep _ (by omega), ?_, ?_, ?_, ?_, ?_, ?_, ?_⟩ <;>
    (apply BitVec.eq_of_toNat_eq; rw [BitVec.toNat_ofNat]; omega)

end Sys2Proof
end

