-- ==== Sys2Proof/Machine/State.lean ====
section
/-! DEFINITION. The state of the machine: every piece of state the manual names, as plain data, and its value
right after reset. A field's docstring gives its width, its rule and its value at reset; fields marked MODEL
are the model's own bookkeeping of work in progress. -/

namespace Sys2Proof.Machine

/-! ## Reasons a step can stop -/

/-- Faults of a step. The machine's own faults (R327) are not here: they are taken, as next states. -/
inductive Fault
  /-- The instruction's issuer names a team slot that holds no team. Raised by every instruction of team code;
  safe: no step makes such a state, because an entry is freed with its team (R127). -/
  | noTeam
deriving DecidableEq, Repr

/-- Refusals of a step. -/
inductive Refusal
  /-- The instruction has no meaning in the model. Raised by the arms of exec alone; safe. -/
  | notModelled (mnemonic : String)
  /-- An instruction was given to exec with nothing issuing it: `cur` names no fragment and no stream. Safe. -/
  | noIssuer
  /-- One of the device's own steps was given to exec while the object it acts on does not exist, or while the rule it follows has it
  come about only later. Raised by the meanings of those steps. Safe: on the hardware the step does not come about then. -/
  | eventNotDue
deriving DecidableEq, Repr

/-! ## Lanes and teams -/

/-- A register or predicate of a team: lane register, lane predicate, team-wide register, team-wide predicate. -/
inductive RegRef
  | v (lane r : Nat) | p (lane i : Nat) | g (r : Nat) | gp (i : Nat)
deriving DecidableEq, Repr

/-- One write an instruction makes: a register, a predicate, a lane's AFL flags, `fflags`. -/
inductive Wr
  | v (lane r : Nat) (x : Word) | p (lane i : Nat) (b : Bool) | g (r : Nat) (x : DWord) | gp (i : Nat) (b : Bool)
  | afl (lane : Nat) (f : Flags) | ff (f : Flags)
deriving DecidableEq, Repr

/-- A pending write of an open lookahead window (R60), or of a load still outstanding. -/
structure Pend where
  /-- The request that delivers the result; MODEL. -/
  id : Nat
  dests : List RegRef
  writes : List Wr
  /-- Followers the window still covers (R60). -/
  left : Nat
  /-- The result is there. -/
  ready : Bool
deriving DecidableEq, Repr

/-- The state of one lane (R72). -/
structure Lane where
  /-- v0 to v(N-1): N registers of 32 bits (R72); 0 at lane start. -/
  v : List Word
  /-- p0 to p6 in bits 6:0 (R72); false at lane start; bit 7 is never written, p7 reads true. -/
  p : BitVec 8
  /-- Operand stack, st0 first; its length is the depth, 0 to 8 (R72, R92); empty at lane start. -/
  stack : List Word
  /-- Lane status word: 32 bits (R74); 0 at lane start. -/
  status : Word
  /-- Work identifier: 64 bits (R75); set by the launch. -/
  wid : DWord
  /-- Original lane id (R72). -/
  olid : Nat
  /-- The team number the lane started in, read by the lane form of `sval team` (R95). -/
  team : Nat
deriving DecidableEq, Repr

/-- A modulo register: base, length, index, 20 bits each (R182); 0 at team start. -/
structure ModReg where
  base : BitVec 20
  len : BitVec 20
  idx : BitVec 20
deriving DecidableEq, Repr

/-- A link to a join record (R127): a split-table entry or a serial record. -/
structure Link where
  serial : Bool
  idx : Nat
deriving DecidableEq, Repr

/-- A serial record of the team's context area (R130, R346). -/
structure Serial where
  jaddr : PCWord
  resume : PCWord
  outer : Option Link
  pending : Mask
  held : Mask
deriving DecidableEq, Repr

/-- STATE of a split-table entry (R127). -/
inductive EState | free | running | waiting | record
deriving DecidableEq, Repr

/-- A split-table entry: the fields of R127, the word masks, and the fragment's issue state. -/
structure Entry where
  /-- STATE: 2 bits (R127); free at reset. -/
  st : EState
  /-- TEAM: 8 bits (R127); 0 at reset. -/
  team : Nat
  /-- PC: 56 bits (R127); 0 at reset. -/
  pc : PCWord
  /-- The 32 word masks; SUMMARY is their zero test (R124, R127); 0 at reset. -/
  mask : Mask
  /-- INNER: valid, serial, index (R127); none at reset. -/
  inner : Option Link
  /-- REC: the entry holds a split record (R127); false at reset. -/
  isRec : Bool
  /-- JADDR: 56 bits (R127); 0 at reset and when REC = 0. -/
  jaddr : PCWord
  /-- OUTER: the outer link of the held record (R127); none at reset. -/
  outer : Option Link
  /-- Age counter (R166); 0 at reset. -/
  age : Nat
  /-- Boosted, with the order in which boosts came (R166); none at reset. -/
  boost : Option Nat
  /-- Pending writes, oldest first, at most 16 (R60); none at reset. -/
  pend : List Pend
  /-- MODEL: the entry belongs to a fragment saved at a lower trap level and does not issue (R337). -/
  frozen : Bool
  /-- MODEL: the fragment found a resource or operand missing in this progress epoch, and the reason of R421. -/
  stall : Option (Nat × Nat)
  /-- MODEL: the outstanding step the instruction at PC waits for. -/
  op : Option Nat
  /-- MODEL: requests issued before this identifier must be done before the instruction at PC goes on (R138, R187). -/
  snap : Option Nat
  /-- MODEL: the fragment waits at this barrier object; the status it was released with (R216, R217). -/
  bw : Option (Nat × Option Nat)
deriving DecidableEq, Repr

/-- A free entry. -/
def Entry.empty : Entry :=
  ⟨.free, 0, 0, 0, none, false, 0, none, 0, none, [], false, none, none, none, none⟩

/-- A trap frame (R337). -/
structure Frame where
  stopPc : PCWord
  resumePc : PCWord
  cls : BitVec 8
  detail : BitVec 8
  level : BitVec 8
  deferred : Bool
  strict : Bool
  seq : BitVec 16
  lane : BitVec 16
  logn0 : Nat
  count0 : Nat
  nfrag : Nat
  faddr : DWord
deriving DecidableEq, Repr

/-- A saved fragment of a trap level (R337, R346): its entry number and image; `raised` marks the fragment
whose stop raised a precise fault and which takes RESUMEPC (R338). -/
structure FragSave where
  quad : Nat
  idx : Nat
  img : Entry
  raised : Bool
deriving DecidableEq, Repr

/-- The deferred-fault record (R330); LOGN is the log's length. All fields 0 when clear. -/
structure DefRec where
  valid : Bool
  ovf : Bool
  sess : Bool
  cls : BitVec 8
  tag : BitVec 33
  count : Nat
  lane : BitVec 16
  fva : DWord
  fpc : DWord
deriving DecidableEq, Repr

/-- A clear record. -/
def DefRec.clear : DefRec := ⟨false, false, false, 0, 0, 0, 0, 0, 0⟩

/-- An operand-log entry (R336). -/
structure LogEntry where
  kind : BitVec 8
  size : BitVec 8
  op : BitVec 8
  flags : BitVec 8
  lane : BitVec 16
  dreg : BitVec 8
  preg : BitVec 8
  seq : BitVec 16
  cls : BitVec 8
  level : BitVec 8
  pc : DWord
  va : DWord
  data : BitVec 128
deriving DecidableEq, Repr

/-- Why a team stops at its next boundary (R337, R344, R332, R415). -/
inductive StopReq
  /-- Enter the trap handler: class, detail, lowest lane, address; PC + length to resume after, at the entry. -/
  | trap (cls detail : BitVec 8) (lane : BitVec 16) (addr : DWord) (skip : Nat) (quad entry : Nat)
  /-- A deferred fault at a fault-check point, or a read of a logged destination, at the entry (R331). -/
  | check (quad entry : Nat)
  /-- Strict stop (R332). -/
  | strict
  /-- Halt with a class (R344); the entry that raised it and its resume PC (R343). -/
  | halt (cls : BitVec 8) (skip : Option (Nat × PCWord))
  /-- Hold for a watch predicate (R415). -/
  | watch
deriving DecidableEq, Repr

/-- What a resident team is doing. -/
inductive TMode
  /-- Eligible. -/
  | run
  /-- Halted with a class (R344); the entry that resumes elsewhere than at its stopped PC, and where (R343). -/
  | halted (cls : BitVec 8) (skip : Option (Nat × PCWord))
  /-- Held for a watch predicate (R415). -/
  | held
  /-- Arrived at `regrp` (R158). -/
  | regrp
  /-- Placed under a cooperative launch whose blocks are not all placed (R386), or restored and not yet resumed. -/
  | waiting
  /-- Retired: the slot waits for completion-status writes (R144). -/
  | retired
deriving DecidableEq, Repr

/-- An arrival at `regrp` (R157, R158). -/
structure Arrival where
  pc : PCWord
  len : Nat
  set : Word
  live : Word
  gpd : Nat
deriving DecidableEq, Repr

/-- A completion status written and not yet joined by every thread (R202). -/
structure Join where
  regs : List RegRef
  /-- The session's global destination: first byte and length of each part. -/
  ranges : List (Nat × Nat)
  /-- The fragments that have joined, by entry and trap level: 64 * level + entry (R264). -/
  joined : List Nat
deriving DecidableEq, Repr

/-- An instruction whose requests are outstanding, indexed by SEQ (R328). -/
structure Flying where
  seq : BitVec 16
  pc : PCWord
  lanes : Mask
  /-- MODEL: the active lanes of the fragment that issued it: whose earlier access it is (R138). -/
  frag : Mask
deriving DecidableEq, Repr

/-- A team slot's team (R122). -/
structure Team where
  /-- The block it belongs to on its core; MODEL. -/
  block : Nat
  /-- Team number in its block, 0 to 31 (R94). -/
  num : Nat
  /-- Its quadrant (R163). -/
  quad : Nat
  /-- Lane count n (R122). -/
  n : Nat
  /-- Declared register count N (R57). -/
  nregs : Nat
  /-- The n lanes, indexed by lane id (R72). -/
  lanes : List Lane
  /-- g0 to g63, 64 bits each (R122); 0 at team start. -/
  g : List DWord
  /-- gp0 to gp6 (R122); false at team start; gp7 reads true. -/
  gp : BitVec 8
  /-- m0 to m7 (R122, R182); 0 at team start. -/
  m : List ModReg
  /-- `fflags`: 32 bits (R30); 0 at team start. -/
  fflags : Word
  /-- `xwin`: base and length in 32-byte units, as `exwin`'s operand (R115); 0 at team start. -/
  xwin : Word
  /-- Region start: restart PC (R122); the launch entry PC at team start. -/
  regionPc : PCWord
  /-- Region start: 32-bit live-in mask (R122); 0 at team start. -/
  regionMask : Word
  /-- Trap nesting level 0 to 3 (R122); 0 at team start. -/
  level : Nat
  /-- Frames of levels 1 to 3 (R337); none at team start. -/
  frames : List Frame
  /-- Fragment saves of levels 1 to 3 (R337); none at team start. -/
  saves : List (List FragSave)
  /-- The deferred-fault record (R330); clear at team start. -/
  record : DefRec
  /-- The operand log, at most 256 entries (R333); empty at team start. -/
  log : List LogEntry
  /-- The 32 serial slots (R130); all free at team start. -/
  serials : List (Option Serial)
  /-- The 16-bit sequence counter (R328); 0 at team start. -/
  seq : BitVec 16
  /-- Instructions with outstanding requests (R328); none at team start. -/
  flying : List Flying
  /-- Strict mode set by the launch or a debugger (R332). -/
  strict : Bool
  /-- What the team is doing. -/
  mode : TMode
  /-- Stops asked for and not yet reached, in order; MODEL. -/
  stops : List StopReq
  /-- Its arrival at `regrp` (R158). -/
  arrival : Option Arrival
  /-- Status destinations of running sessions: readers and writers wait (R202, R205); none at team start. -/
  busy : List RegRef
  /-- Statuses not yet joined (R202). -/
  joins : List Join
  /-- Base of its context area (R346); 0 for none. -/
  ctxBase : DWord
  /-- MODEL: the context area in memory is older than the frames, record, serial records, saves and log held here. -/
  areaDirty : Bool
  /-- Order in which the core placed the teams (R165). -/
  age : Nat
  /-- Launch priority 0 to 255 (R165, R376). -/
  prio : Nat
  /-- Stopped for a pre-emption, in the region form when true (R369). -/
  saved : Option Bool
  /-- Drains of Moraine sessions that it has started and that have not ended (R291): SEQ and gD; MODEL. -/
  drains : List (BitVec 16 × Nat)
deriving DecidableEq, Repr

/-! ## Blocks and launches -/

/-- An entry of a launch's buffer list (R380). -/
structure BufEnt where
  base : Nat
  len : Nat
  rights : Nat
  mode : Nat
deriving DecidableEq, Repr

/-- The fields of a launch packet: its 64 bytes, the launch descriptor and the buffer list (R377 to R380). -/
structure Launch where
  flags : BitVec 8
  cmpl : Nat
  ldesc : Nat
  bufl : Nat
  w : List Nat
  e1 : Nat
  e2 : Nat
  e3 : Nat
  e4 : Nat
  e5 : Nat
  acc : Nat
  entry : PCWord
  code : Nat
  codelen : Nat
  stream : Nat
  streamlen : Nat
  kbank : Nat
  lanes : Nat
  regs : Nat
  scratch : Nat
  trapent : PCWord
  htab : Nat
  frames : Nat
  fmap : Nat
  framen : Nat
  framesz : Nat
  dump : Nat
  dumplen : Nat
  clmask : Nat
  dbgown : Nat
  bufs : List BufEnt
deriving DecidableEq, Repr

/-- What a launch resident on a core holds there: a launch slot 0 to 31 (R171), its constant bank and handles. -/
structure LSlot where
  part : Nat
  /-- QID (R375). -/
  q : Nat
  idx : Nat
  asid : Nat
  sdom : Nat
  /-- The generations the core has adopted for the ASID and the share domain, 16 bits each (R260). -/
  gen : BitVec 16
  sgen : BitVec 16
  launch : Launch
  /-- k0 to k255 (R54); an entry not set reads 0. -/
  kbank : List Word
  /-- Handles 0 to 15: descriptor addresses, 0 for none (R379). -/
  htab : List Nat
deriving DecidableEq, Repr

/-- A placed block (R388, R393). -/
structure Block where
  lslot : Nat
  ticket : Nat
  frame : Nat
  /-- Its team slots in ascending team number. -/
  slots : List Nat
  /-- Scratchpad allocation in bytes, a multiple of 1 KiB (R168). -/
  size : Nat
  /-- Scratchpad bytes by offset; an unlisted byte is 0 (R168, R298). -/
  scratch : List Host.Cell
  /-- Sequencer context and its granted physical accumulators: context, first, count (R228). -/
  seq : Option (Nat × Nat × Nat)
  /-- A broadcast halts it, and the clock it began in (R345). -/
  bcast : Option Nat
  /-- The broadcast was acknowledged (R345). -/
  acked : Bool
  /-- The command's end asks a dump naming class, slot and PC (R348). -/
  ending : Option (BitVec 8 × Nat × DWord × DWord)
  /-- Cooperative launch: not eligible until every block is placed (R386). -/
  coop : Bool
  /-- Sessions live at the broadcast (R353): identifier, major, minor, request tag, status word. -/
  live : List (Nat × Nat × Nat × Nat × Word)
  /-- A pre-emption has stopped engines of the block (R369). -/
  stopping : Bool
  /-- It has retired: its place and its launch slot stand until its teams' slots are free (R144); MODEL. -/
  gone : Bool
  /-- Its save has been written: its room is free once its core has acknowledged (R368); MODEL. -/
  saved : Bool
  /-- The cycle count when its dump began, while the dump is being written (R353). -/
  dumpAt : Option DWord
deriving DecidableEq, Repr

/-! ## The core's engines -/

/-- A lease-window register (R171): VALID 0 at reset. -/
structure LeaseReg where
  valid : Bool
  mode : BitVec 2
  rights : BitVec 2
  top : Nat
  tag : Nat
  base : Nat
deriving DecidableEq, Repr

/-- A stash window (R183): not mapped at reset. `block` is the block; the register's BLOCK field shows its first team slot. -/
structure StashWin where
  valid : Bool
  ro : Bool
  block : Nat
  soff : Nat
  slen : Nat
  gbase : Nat
deriving DecidableEq, Repr

/-- A cached 32-byte sector of the L1, the gather cache or the stash, with the tag fields of R257 (R170).
In the stash, bit i of `owned` says word i is owned by the stash (R185). -/
structure CSector where
  va : Nat
  dk : Bool
  dom : Nat
  gen : BitVec 16
  pr : Bool
  pw : Bool
  data : Sector
  /-- Words that are valid: an acquire invalidates words, not sectors (R170, R187). -/
  valid : BitVec 8
  owned : BitVec 8
  watch : Bool
deriving DecidableEq, Repr

/-- An owner of a word other than the L2 (R261): the stash of a core when `stash`, else its L1; a core of another device when `dev`
names one (R405). -/
structure Owner where
  dk : Bool
  dom : Nat
  word : Nat
  dev : Option Nat
  core : Nat
  stash : Bool
deriving DecidableEq, Repr

/-- One lane's part of a memory request. -/
structure Acc where
  /-- Lane id, or 0xFFFF for a team-wide access. -/
  lane : Nat
  va : Nat
  size : Nat
  /-- Destination or data register. -/
  reg : Nat
  data : BitVec 128
  cmp : DWord
deriving DecidableEq, Repr

/-- What a request does. -/
inductive ReqKind
  /-- load: sign-extend, team-wide, allocate in the L1, acquire. -/
  | load (sx w na acq : Bool)
  /-- atomic: operation minor, team-wide, no return, acquire, release, reducing store. -/
  | atomic (op : AtOp) (ty : AtTy) (w nr acq rel red : Bool)
  /-- prefetch, into the L2 only when `l2`. -/
  | prefetch (l2 : Bool)
  /-- a scratchpad load through a stash window: sign-extend, team-wide (R183, R185). -/
  | stash (sx w : Bool)
  /-- a gather that has ended, whose refusals are on their way. -/
  | gath
deriving DecidableEq, Repr

/-- An outstanding request of a fragment (R174, R328). -/
structure Req where
  id : Nat
  kind : ReqKind
  slot : Nat
  quad : Nat
  entry : Nat
  seq : BitVec 16
  pc : PCWord
  level : Nat
  lanes : Mask
  accs : List Acc
  /-- Generations of the ASID and the share domain the request carries (R307). -/
  gen : BitVec 16
  sgen : BitVec 16
  /-- Sent to another device: the number its answer carries, and the address (R405). -/
  away : List (Nat × Nat)
  /-- Of those numbers, the ones whose requests left before an acquire of the core: their answers enter no cache (R187, R407). -/
  past : List Nat
  /-- Sectors (or words, for atomics) still to be served. -/
  todo : List Nat
  /-- Of those, the ones that have missed at their home: each request counts once (R365, R366). -/
  missed : List Nat
  /-- Lanes whose sector faulted: no value comes (R176). -/
  lost : List Nat
deriving DecidableEq, Repr

/-- An entry of the late-fault store buffer (R329). -/
structure StoreEnt where
  id : Nat
  slot : Nat
  seq : BitVec 16
  pc : PCWord
  level : Nat
  va : Nat
  /-- Byte mask of the sector. -/
  mask : Word
  data : Sector
  /-- The bytes of each lane that writes the sector. -/
  accs : List Acc
  w : Bool
  /-- Generations of the ASID and the share domain the request carries (R307). -/
  gen : BitVec 16
  sgen : BitVec 16
  /-- Sent to another device: the number its answer carries (R405). -/
  away : Option Nat
  /-- Registers ownership for the stash (R185). -/
  stash : Bool
  /-- A release store's (R187): its log entry says so (R336). -/
  rel : Bool
  /-- Sent to its home (R370). -/
  sent : Bool
deriving DecidableEq, Repr

/-- A refusal on its way to the core (R330): what the DEFERRED_FAULT step delivers. -/
structure Refused where
  /-- Identifier of the request refused; MODEL. -/
  id : Nat
  slot : Nat
  seq : BitVec 16
  pc : PCWord
  cls : BitVec 8
  va : Nat
  lane : BitVec 16
  sess : Bool
  /-- Log entries to make (R334). -/
  entries : List LogEntry
deriving DecidableEq, Repr

/-- Sessions of the core's copy unit (R201 to R213, R221). -/
inductive SessKind
  | cpl (out : Bool) (w : Nat) (lanes : List (Nat × Nat × Nat))
  | cp (dst src len : Nat)
  | cp2d (dst src rowlen rows : Nat) (dstride sstride : Int)
  | cpz (e8 : Bool) (dst mdat src n : Nat)
  | cpx (e8 : Bool) (dst vals mdat n : Nat)
  | scat (w idx src dst n : Nat)
deriving DecidableEq, Repr

/-- A live session. -/
structure Session where
  id : Nat
  kind : SessKind
  ds : Bool
  ss : Bool
  major : Nat
  minor : Nat
  slot : Nat
  block : Nat
  lslot : Nat
  seq : BitVec 16
  pc : PCWord
  dest : List RegRef
  bar : Option Nat
  /-- The block whose barrier object it arrives on, fixed at issue (R216, R393). -/
  barBlk : Nat
  tbar : Option Nat
  /-- A forced debugger write cancelled its status write (R352). -/
  mute : Bool
  /-- Range-scoreboard entries: kind W, and bounds (R207). -/
  ranges : List (Bool × Nat × Nat)
  /-- Its progress, at a sector boundary (R369, R372): parts done of those `SessKind.pieces` lists. -/
  done : Nat
  /-- CODE of each lane done, or the one status word so far (R206). -/
  codes : List Nat
  /-- Its first fault so far. -/
  fault : Option (BitVec 8 × Nat)
  /-- Global bytes a scatter has written so far. -/
  wrote : List (Nat × Nat)
  /-- It has moved its data, and its arrival at a transaction barrier of another device is awaited (R407). -/
  arriving : Bool
deriving DecidableEq, Repr

/-- Walk kinds (R322). -/
inductive WalkKind | chase | rnd | seek
deriving DecidableEq, Repr

/-- A walk of one lane (R324, R372). -/
structure Walk where
  id : Nat
  kind : WalkKind
  slot : Nat
  block : Nat
  lslot : Nat
  lane : Nat
  seq : BitVec 16
  pc : PCWord
  dreg : Nat
  /-- p, v or the list base. -/
  x : DWord
  /-- walk id of a random walk. -/
  wid : Word
  b : Word
  n : Nat
  lo : Nat
  hi : Nat
  last : Option Word
  h : Nat
  desc : Nat
  /-- The descriptor's 64 bytes, once a random walk has read them. -/
  hdr : Option Nat
  /-- The row pointers of its present vertex that a random walk has read. -/
  got : List Nat
  /-- It runs on another device: the number its answer carries (R320). -/
  away : Option Nat
  /-- Slice whose walkers hold it. -/
  slice : Nat
  mute : Bool
deriving DecidableEq, Repr

/-- An `mgput` in the core's put queue (R285): lane, row, column, stream, value. The slot of a team that is saved is given by a number
above 63 that names its launch, its frame and its number (MODEL). -/
structure Put where
  id : Nat
  slot : Nat
  seq : BitVec 16
  pc : PCWord
  /-- The session it is for: its unit's slice, 12 where the handle names no descriptor, its launch and handle (R280). -/
  slice : Nat
  part : Nat
  q : Nat
  idx : Nat
  handle : Nat
  wide : Bool
  ents : List (Nat × Word × Word × Word × DWord)
  /-- Held by its unit, with the order in which the unit held the puts (R288). -/
  held : Option Nat
deriving DecidableEq, Repr

/-- A deque step on its way to its home (R273). -/
structure DqReq where
  id : Nat
  kind : Nat
  slot : Nat
  quad : Nat
  entry : Nat
  seq : BitVec 16
  pc : PCWord
  level : Nat
  va : Nat
  value : DWord
  dreg : Nat
  preg : Nat
  /-- Sent to another device: the number its answer carries (R405). -/
  away : Option Nat
deriving DecidableEq, Repr

/-- A transaction-barrier step on its way to its home, or its answer (R220). -/
structure TbReq where
  id : Nat
  kind : Nat
  tr : Bool
  slot : Nat
  quad : Nat
  entry : Nat
  seq : BitVec 16
  pc : PCWord
  va : Nat
  arg : Word
  dreg : Nat
  /-- Sent to another device: the number its answer carries (R407). -/
  away : Option Nat
  /-- The answer of a wait, on its way back: the status, or none where the home refused the read. -/
  done : Option (Option DWord)
deriving DecidableEq, Repr

/-- An operation in flight of a stream (R231): `mmul` or `mld` with the registers it was issued with. -/
structure MatOp where
  id : Nat
  isLoad : Bool
  ty : AccTy
  acc : Nat
  xa : DWord
  xb : DWord
  xc : DWord
  /-- Format codes of the first block of A and of B, read at issue (R38). -/
  fa : Nat
  fb : Nat
  pc : PCWord
  /-- Slices with the bytes still to be reserved there, ascending (R239). -/
  need : List (Nat × Nat)
  /-- Clock at which every reservation was granted. -/
  ready : Option Nat
  /-- The surge arbiter has granted its start (R253). -/
  started : Bool
deriving DecidableEq, Repr

/-- A pin reservation at a slice, granted or waiting (R239). -/
structure Pin where
  core : Nat
  ctx : Nat
  op : Nat
  bytes : Nat
  granted : Bool
deriving DecidableEq, Repr

/-- A lane of a running execute-vector instruction (R111): words and feeds read at issue, steps still skipped, done, and the
step and code of its fault. -/
structure ExvLane where
  lane : Nat
  words : List Word
  feeds : List Word
  skip : Nat
  done : Bool
  fault : Option (Nat × Nat)
deriving DecidableEq, Repr

/-- An execute-vector instruction stalled by the range scoreboard before a step (R117): the window read at issue (R116) and
the flags raised so far (R112). -/
structure ExvRun where
  id : Nat
  /-- The instruction itself. -/
  ins : Instr
  step : Nat
  win : Word
  flags : Flags
  lanes : List ExvLane
deriving DecidableEq, Repr

/-- An instruction that has issued and whose accesses to other devices are under way (R405): its identifier, which entry names as what it
waits for, its slot, its SEQ, and the team as it reads it; MODEL. -/
structure Midway where
  id : Nat
  slot : Nat
  seq : BitVec 16
  view : Team
  /-- The instruction itself, once its step is known to wait. -/
  ins : Option Instr
  /-- The slot that an `lnch` has reserved: its index, and its address (R382). -/
  slotAt : Option (Nat × Nat)
deriving DecidableEq, Repr

/-- A sequencer context (R229). -/
structure Seq where
  /-- The block that owns it; none when free. -/
  block : Option Nat
  /-- Stream PC: 56 bits; 0 at placement and reset. -/
  pc : PCWord
  /-- x0 to x7: 64 bits each; 0 at placement and reset. -/
  x : List DWord
  /-- c0 to c7: 64 bits each; 0 at placement and reset. -/
  c : List DWord
  /-- Status word: 32 bits (R251); 0 at reset. -/
  status : Word
  /-- Audit exponent, off at reset (R229, R246). -/
  audit : Option Nat
  /-- Operation count: 32 bits; 0 at reset. -/
  count : Word
  /-- Operations in flight, oldest first, at most 4. -/
  flight : List MatOp
  /-- Waits at a barrier object; the status it was released with. -/
  bw : Option (Nat × Option Nat)
  /-- MODEL: progress epoch in which it found nothing to do. -/
  stall : Option Nat
  /-- Held by a broadcast or a pre-emption. -/
  hold : Bool
  /-- A refused access stops it once its operations in flight are done: class, PC, address (R238). -/
  stopping : Option (BitVec 8 × DWord × DWord)
deriving DecidableEq, Repr

/-- A physical accumulator (R227): tag, and words by row-major index 128 i + j; an unlisted word is 0. -/
structure AccReg where
  tag : BitVec 2
  words : List (Nat × Word)
deriving DecidableEq, Repr

/-- A packet that an agent claims: queue, index, address of the header, its ASID and PRIO, and the packet's 64 bytes (R383; MODEL). -/
structure ClaimTry where
  q : Nat
  idx : Nat
  desc : Nat
  asid : Nat
  prio : Nat
  packet : List Byte
deriving DecidableEq, Repr

/-- What the firmware agent of a core is doing (R383 to R394). -/
structure Agent where
  /-- A wake by a doorbell, `lnch` or `anote` is pending (R383). -/
  wake : Bool
  /-- Undelivered notes, oldest first, at most 64 (R393). -/
  notes : List DWord
  /-- A note was dropped: the agent rescans everything (R393). -/
  rescan : Bool
  /-- The block most recently placed by this agent (R393). -/
  lastBlock : Option Nat
  /-- ASID of the current task (R382). -/
  asid : Nat
  /-- Predicate task at WPRED: the hit served, by tag and sector, and instructions run (R415). -/
  pred : Option (Nat × Nat)
  /-- A running `await`: the clock at which it expires, its entry, gD, and its length (R393). -/
  await : Option (Nat × Nat × Nat × Nat)
  /-- The outcome of a predicate task that has ended (R415). -/
  verdict : Option (Bool × Nat)
  /-- The command its agent is serving: queue and index (R394). -/
  serving : Option (Nat × Nat)
  /-- A claim whose compare-and-swap another device has been asked for (R383, R405). -/
  claim : Option ClaimTry
  /-- Its two last reads of TICKET with their clocks (R388). -/
  reads : List (Nat × Nat × Nat)
  /-- The agent stopped by a precise fault waits for its reload (R394). -/
  dead : Bool
  /-- The core was marked failed or out (R431, R433). -/
  out : Bool
  /-- Firmware image slot it runs (R433). -/
  image : Nat
deriving DecidableEq, Repr

/-- A watch hit waiting for its predicate (R415). -/
structure Hit where
  slot : Nat
  va : Nat
  tag : BitVec 33
  kind : Nat
  pc : PCWord
  dbg : Nat
  /-- Beyond the 16 the core queues: counts as true without a predicate. -/
  beyond : Bool
deriving DecidableEq, Repr

/-- A core. -/
structure Core where
  /-- The four quadrants' split tables of 64 entries (R127, R162). -/
  quads : List (List Entry)
  /-- Team slots 0 to 31, and the agent slot 32 (R162). -/
  slots : List (Option Team)
  /-- Placed blocks. -/
  blocks : List (Option Block)
  /-- Launch slots 0 to 31 of the core (R171). -/
  lslots : List (Option LSlot)
  /-- The 64 lease-window registers (R171); invalid at reset. -/
  leases : List LeaseReg
  /-- The two sequencer contexts (R229). -/
  seqs : List Seq
  /-- The four physical accumulators (R227); +0 with tag 0 at placement. -/
  accs : List AccReg
  /-- The context whose operation started last on the matrix engine (R252); context 0 first after reset. -/
  engTurn : Nat
  /-- Clock of the engine's last operation, for the cold-start rule (R253). -/
  engBusy : Nat
  /-- Outstanding requests in issue order (R174). -/
  reqs : List Req
  /-- The late-fault store buffer in issue order, at most 512 entries (R174, R329). -/
  stores : List StoreEnt
  /-- The put queue in arrival order, at most 64 (R285). -/
  puts : List Put
  /-- Deque steps under way (R273). -/
  dqs : List DqReq
  /-- Transaction-barrier steps under way (R220). -/
  tbs : List TbReq
  /-- Sessions of the copy unit in start order, at most 64 (R205). -/
  sessions : List Session
  /-- Walks in start order, at most 1,024 (R320). -/
  walks : List Walk
  /-- Execute-vector instructions stalled between steps (R117). -/
  exvs : List ExvRun
  /-- Instructions that have issued and wait for answers of other devices (R405). -/
  midways : List Midway
  /-- Refusals returning to the core in order (R330). -/
  refused : List Refused
  /-- The eight stash windows (R183). -/
  wins : List StashWin
  /-- Stash sectors (R185). -/
  stash : List CSector
  /-- Words of other devices' pieces that the core's L1, or its stash, owns (R261, R405). -/
  rown : List Owner
  /-- The L1's sectors (R170). -/
  l1 : List CSector
  /-- The gather cache's sectors (R225). -/
  gcache : List CSector
  /-- Unanswered watch hits (R415). -/
  hits : List Hit
  /-- The firmware agent. -/
  agent : Agent
  /-- DDATA: 64 bits (R412); 0 at reset. -/
  ddata : DWord
  /-- DSTAT: 64 bits (R412); 0 at reset. -/
  dstat : DWord
  /-- TRCBASE: 64 bits (R412); 0 at reset. -/
  trcbase : DWord
  /-- TRCLEN: 64 bits (R412); 0 at reset. -/
  trclen : DWord
  /-- TRCPTR: 64 bits (R412); 0 at reset. -/
  trcptr : DWord
  /-- TRCCTL: 64 bits (R412); 0 at reset. -/
  trcctl : DWord
  /-- MODEL: trace packets of events that have come about and are not yet written to the buffer: their words. -/
  trq : List (List DWord)
  /-- Trace packets not written since the last LOSS packet (R418); 0 at reset. -/
  trclost : Nat
  /-- ELIG: 32 counters of 64 bits (R412, R421); 0 at reset. -/
  elig : List DWord
  /-- STALL: 40 counters of 64 bits (R412, R421); 0 at reset. -/
  stallc : List DWord
  /-- ISSUE: 4 counters of 64 bits (R412); 0 at reset. -/
  issue : List DWord
  /-- GERR: 64 bits (R412); 0 at reset. -/
  gerr : DWord
  /-- WHITS: 64 bits (R412); 0 at reset. -/
  whits : DWord
  /-- CYC: 64 bits (R412, R437); 0 at reset. -/
  cyc : DWord
  /-- MODEL: eligible fragments of each quadrant in the clock under way (R421). -/
  eligN : List Nat
  /-- MODEL: next placement age and next boost order. -/
  nextAge : Nat
  nextBoost : Nat
deriving DecidableEq, Repr

/-! ## Slices, stacks and translation -/

/-- An L2 way with its tag (R257), its four sectors, and the physical address its translation gave (MODEL:
where a write-back goes). -/
structure Line where
  vtag : BitVec 35
  dk : Bool
  dom : Nat
  gen : BitVec 4
  pr : Bool
  pw : Bool
  pin : Bool
  watch : BitVec 4
  valid : BitVec 4
  dirty : BitVec 4
  filler : Nat
  pa : Nat
  data : List Sector
  poison : BitVec 4
deriving DecidableEq, Repr

/-- A miss in flight (R259, R312): the line asked for, by whom it is translated, and what the Firn found. -/
structure Miss where
  va : Nat
  dk : Bool
  dom : Nat
  gen : BitVec 16
  write : Bool
  tenant : Nat
  part : Nat
  /-- none: waits for translation; a class: refused; an address with PR and PW: waits for the fill. -/
  res : Option (Sum (BitVec 8) (Nat × Bool × Bool))
deriving DecidableEq, Repr

/-- An access of an engine to another device (R405): 0 read, 1 write, 2 atomic, 3 transaction-barrier step, 4 deque step, 7 lease, 8 header
step, 9 watch bit, 10 words taken back, 12 words of a stash given back; the engine's step waits until each has its answer, a sector or the class of a refusal. -/
structure RemBuf where
  owner : Nat
  part : Nat
  dk : Bool
  dom : Nat
  va : Nat
  op : Nat
  mask : Word
  data : Sector
  num : Nat
  ans : Option (Sum Sector (BitVec 8))
  /-- With an answer: the sector's rights and watch bit at its home. -/
  pr : Bool
  pw : Bool
  watch : Bool
deriving DecidableEq, Repr

/-- A TLB entry (R312): the identifier, the piece number of its first piece, its size in pieces, the frame base. -/
structure TlbEnt where
  dk : Bool
  id : Nat
  vpn : Nat
  size : Nat
  base : Nat
  pr : Bool
  pw : Bool
deriving DecidableEq, Repr

/-- A lease record of a Firn (R316). -/
structure LeaseRec where
  qid : Nat
  idx : Nat
  dk : Bool
  id : Nat
  first : Nat
  last : Nat
  rights : Nat
  /-- The device whose launch holds it, when that is another one (R406). -/
  dev : Option Nat
deriving DecidableEq, Repr

/-- An entry held by a Moraine unit (R286): row, column, stream, sequence, value. -/
structure MgEnt where
  row : Word
  col : Word
  stream : Nat
  seqn : Nat
  val : DWord
deriving DecidableEq, Repr

/-- A spill region (R288): base, length, bytes used, still usable. -/
structure MgRegion where
  base : Nat
  len : Nat
  used : Nat
  ok : Bool
deriving DecidableEq, Repr

/-- A session of a Moraine unit (R279 to R292). -/
structure MgSess where
  part : Nat
  q : Nat
  idx : Nat
  asid : Nat
  sdom : Nat
  handle : Nat
  /-- STATE 1 to 5 (R281); a session in STATE 0 is not listed. -/
  state : Nat
  ety : Nat
  out : Nat
  outlen : Nat
  rows : Nat
  cols : Nat
  cap : Nat
  result : Nat
  ents : List MgEnt
  regions : List MgRegion
  /-- Runs written: region, offset, entries. -/
  runs : List (Nat × Nat × Nat)
  nruns : Nat
  /-- Next sequence number of each stream that has one. -/
  seqs : List (Nat × Nat)
  accepted : Nat
  dropped : Nat
  flags : BitVec 4
  outcome : Nat
  need : Nat
  /-- The drain's session: issuing core, slot, SEQ, PC, gD. -/
  drain : Option (Nat × Nat × BitVec 16 × PCWord × Nat)
deriving DecidableEq, Repr

/-- A slice: its L2, Firn, walker group and Moraine unit. -/
structure Slice where
  /-- L2 ways that hold a line, by 16 * set + way in ascending order (R256); an unlisted way is invalid. -/
  lines : List (Nat × Line)
  /-- Owners of words (R261); an unlisted word is owned by the L2. -/
  owners : List Owner
  /-- Misses in flight (R312). -/
  misses : List Miss
  /-- Firn FCTL: 64 bits (R306); 0 at reset. -/
  fctl : DWord
  /-- Firn ASIDBASE: 64 bits (R306); 0 at reset. -/
  asidbase : DWord
  /-- Firn DOMBASE: 64 bits (R306); 0 at reset. -/
  dombase : DWord
  /-- Firn FRAMEBASE: 64 bits (R306); 0 at reset. -/
  framebase : DWord
  /-- Invalidations in progress and queued, oldest first (R312); INVALST.BUSY is that there is one. -/
  inval : List DWord
  /-- Firn MISSHW: 64 bits (R306); 0 at reset. -/
  misshw : DWord
  /-- The TLB (R312); empty at reset. -/
  tlb : List TlbEnt
  /-- Live lease records, at most 4,096 (R316); LEASEUSE is their number. -/
  leases : List LeaseRec
  /-- Moraine sessions in states 1 to 5, at most 16 (R280). -/
  mg : List MgSess
  /-- Pin reservations, granted or waiting, in the order asked (R239). -/
  pins : List Pin
  /-- SDRAIN: 1 bit (R428); 0 at reset, 1 at the end of start-up. -/
  sdrain : Bool
  /-- SSTAT.DRAINED: 1 bit (R428); 0 at reset, 1 at the end of start-up. -/
  drained : Bool
  /-- SSTAT.OUT: 1 bit (R428); 0 at reset. -/
  out : Bool
  /-- SSTAT.CALBUSY: 1 bit (R428, R430); 0 at reset. -/
  calbusy : Bool
  /-- MODEL: the retraining under way will succeed; false at reset. -/
  calok : Bool
deriving DecidableEq, Repr

/-! ## Partitions, queues and commands -/

/-- A queue slot (R375, R411). -/
structure Queue where
  q : Nat
  /-- QCTL.VALID: 1 bit (R375); 0 at reset. -/
  valid : Bool
  /-- QCTL.KILL: 1 bit (R375); 0 at reset. -/
  kill : Bool
  /-- QCTL.BUSY: 1 bit (R375); 0 at reset. -/
  busy : Bool
  /-- QCTL.DESC: 50 bits (R375), as the descriptor's address; 0 at reset. -/
  desc : Nat
  /-- QSTOP.EN: 1 bit (R411); 0 at reset. -/
  qen : Bool
  /-- QSTOP.S: 56 bits (R411); 0 at reset. -/
  qs : Nat
deriving DecidableEq, Repr

/-- How far a claimed command has come (R384, R386). -/
inductive CStage
  /-- Claimed, not started. -/
  | claimed
  /-- Waiting for the lease: Firns that have granted (R317). -/
  | lease (granted : List Nat)
  /-- Waiting for the cooperative token (R386). -/
  | token
  /-- Live: blocks may be placed (R386). -/
  | live
  /-- Bulk copy, wait, signal or marker under way (R384). -/
  | other
  /-- Ending early: RESULT, CLASS, FPC, FVA (R389). -/
  | ending (result : Nat) (cls : BitVec 8) (fpc fva : DWord)
deriving DecidableEq, Repr

/-- A claimed command (R383 to R390). -/
structure Cmd where
  q : Nat
  idx : Nat
  asid : Nat
  sdom : Nat
  prio : Nat
  kind : Nat
  flags : BitVec 8
  cmpl : Nat
  launch : Launch
  /-- Bytes 63:24 of the other kinds, as four 64-bit words and a byte. -/
  args : List Nat
  /-- Core whose agent claimed it. -/
  core : Nat
  stage : CStage
  /-- Saved frames that wait for `place.res` (R368). -/
  saved : List Nat
  /-- Saved frames that cannot be restored (R393; log 135). -/
  lost : List Nat
  /-- Atomic requests applied so far, by word address (R423). -/
  ords : List (Nat × Nat)
  /-- Bytes a bulk copy has moved: a pre-emption stops it at a sector boundary (R369). -/
  done : Nat
  /-- Every agent has been told of its early end, and TICKET written (R389). -/
  told : Bool
deriving DecidableEq, Repr

/-- What a saved block keeps besides its save area (R369, R371, R372): the parameters of its sessions and walks, and of each
team, by team number, what it was doing, the stops asked for and the statuses not yet joined; MODEL. -/
structure Parked where
  part : Nat
  q : Nat
  idx : Nat
  frame : Nat
  ticket : Nat
  sessions : List Session
  walks : List Walk
  teams : List (Nat × TMode × List StopReq × List Join)
  /-- Its stash windows, by window number (R183). -/
  wins : List (Nat × StashWin)
  /-- Of its sequencer context: the audit exponent, and the tags of the granted accumulators (R229). -/
  audit : Option Nat
  tags : List (BitVec 2)
  /-- Its cooperative wait, and its block broadcast (R371, R373). -/
  coop : Bool
  bcast : Option Nat
  acked : Bool
  live : List (Nat × Nat × Nat × Nat × Word)
  /-- Drains of its teams that have ended meanwhile: team number, gD, CODE (R290). -/
  drains : List (Nat × Nat × Nat)
deriving DecidableEq, Repr

/-- A residency request waiting for its answer (R318): slice, command, piece. -/
structure Residency where
  slice : Nat
  q : Nat
  idx : Nat
  dk : Bool
  id : Nat
  vpn : Nat
  /-- The device whose launch asks, when that is another one: `q` is then its QID (R406). -/
  dev : Option Nat
  /-- Such a request was answered "refused", which its device is still to be told. -/
  refused : Bool
deriving DecidableEq, Repr

/-- A hard partition. -/
structure Part where
  /-- PENT: 64 bits (R357); 0 at reset. -/
  pent : DWord
  /-- PSTAT.ERR: 8 bits (R358); 0 at reset. -/
  err : BitVec 8
  /-- PSTAT.PTEN: 4 bits (R358); 0 at reset. -/
  pten : BitVec 4
  /-- PSTAT.PBUSY: 1 bit (R358); 0 at reset. -/
  pbusy : Bool
  /-- The collection pre-empts every tenant (R367). -/
  pall : Bool
  /-- Tenants whose engines the collection stops (R366, R368); none at reset. -/
  ptens : List Nat
  /-- Engines that have not yet acknowledged; PSTAT.PEND is their number (R358); none at reset. -/
  pend : List Engine
  /-- Stops sent and not yet taken (R368). -/
  stops : List Engine
  /-- A queued PREQ (R367); none at reset. -/
  pqueue : Option DWord
  /-- TENT 0 to 15: 64 bits each (R360); 0 at reset. -/
  tent : List DWord
  /-- The 16 partition counters: 64 bits each (R365); 0 at reset, bit 63 of a shared one reads 1. -/
  ctr : List DWord
  /-- The tenants' counters, eight each (R366); 0 at reset. -/
  tctr : List DWord
  /-- TELBASE: 64 bits (R422); 0 at reset. -/
  telbase : DWord
  /-- TELLOG: 64 bits (R422); 0 at reset. -/
  tellog : DWord
  /-- TELWR: 64 bits (R422); 0 at reset. -/
  telwr : DWord
  /-- Queue slots that were ever written (R375). -/
  queues : List Queue
  /-- Claimed commands whose completion is not yet written, in claim order. -/
  cmds : List Cmd
  /-- Residency requests waiting (R318). -/
  resid : List Residency
  /-- Holder of the cooperative token: queue and index (R386). -/
  coop : Option (Nat × Nat)
  /-- HASID of the partition's virtual function: bits 12:0 used (R425); 0 at reset (no value given). -/
  hasid : DWord
deriving DecidableEq, Repr

/-! ## Fabric and management -/

/-- A fabric port (R399 to R402). -/
structure Port where
  /-- UP: 1 bit (R401); 0 at reset. -/
  up : Bool
  /-- REPLAYS: 16 bits (R401); 0 at reset. -/
  replays : Nat
  /-- BACKOFF: 16 bits (R401); 64 at reset. -/
  backoff : BitVec 16
  /-- Next LSEQ to send (R401). -/
  txseq : BitVec 16
  /-- Flits not acknowledged, oldest first: the first 64 are the replay window (R401), the others wait to be sent. -/
  window : List Flit
  /-- Numbers of the requests sent on the port and not yet answered (R401); MODEL. -/
  out : List Nat
  /-- Requests and responses longer than a flit of which some flits have come: sender, number, flits, data; none at reset. -/
  parts : List (Nat × Nat × Nat × Nat)
  /-- Resends of the oldest flit without success (R401). -/
  tries : Nat
  /-- A negative acknowledgement asks a resend from this LSEQ, at this clock, BACKOFF clocks after it (R401); none at reset. -/
  resend : Option (BitVec 16 × Nat)
  /-- LSEQ the receiver expects next (R401). -/
  rxseq : BitVec 16
  /-- Acknowledgements and answers to send. -/
  replies : List Flit
  /-- Setting of the last successful training (R402). -/
  setting : Nat
  /-- RETRAIN was written while the device's clocks were stopped: whether the training will succeed; none at reset (R436); MODEL. -/
  train : Option Bool
deriving DecidableEq, Repr

/-- An entry of the start journal (R431). -/
structure JEntry where
  step : Nat
  attempt : Nat
  result : Nat
  setting : Nat
  boots : Nat
deriving DecidableEq, Repr

/-- Who issues the instruction that exec runs; plain data. -/
inductive Who
  | none
  /-- A fragment: core, quadrant, split-table entry. -/
  | frag (core quad entry : Nat)
  /-- A sequencer stream: core, context. -/
  | stream (core ctx : Nat)
deriving DecidableEq, Repr

/-- An entry that an agent appends to a debug owner's ring or record area: the core, the launch and its address space, the owner record,
KIND of a record (none for an event), what it holds (R410, R423). -/
structure DbgJob where
  num : Nat
  core : Nat
  part : Nat
  q : Nat
  idx : Nat
  asid : Nat
  sdom : Nat
  dbg : Nat
  kind : Option Nat
  body : List Byte
deriving DecidableEq, Repr

/-- The device. -/
structure State where
  /-- Start-up has run (R431); false at reset. -/
  on : Bool
  /-- Issuer of the instruction given to exec; MODEL; none at reset. -/
  cur : Who
  /-- Steps chosen from outside: host inputs and the timing of the device's own steps, oldest first; MODEL; empty at reset. -/
  agenda : List Instr
  /-- Whose turn it is: a core, or 384 for the device's own steps; MODEL; 0 at reset. -/
  turn : Nat
  /-- Counts steps that changed something, so that a stalled fragment is tried again; MODEL; 0 at reset. -/
  epoch : Nat
  /-- Fresh identifiers of requests; MODEL; 0 at reset. -/
  nextId : Nat
  /-- Counter of free values taken; MODEL; 0 at reset. -/
  free : Nat
  /-- Bytes of the stacks by physical address (R300); an unlisted byte reads 0; nothing listed at reset. -/
  mem : List Host.Cell
  /-- Physical sectors marked poisoned (R302); none at reset. -/
  poison : List Nat
  /-- Physical sectors that hold an error ECC corrects, and one it cannot (R302); the environment makes them; none at reset. -/
  softErr : List Nat
  hardErr : List Nat
  /-- Physical sectors whose watch bit is 1 (R414); none at reset. -/
  watch : List Nat
  /-- The 384 cores (R4). -/
  cores : List Core
  /-- The 12 slices (R254). -/
  slices : List Slice
  /-- The 12 partitions (R356). -/
  parts : List Part
  /-- The 24 fabric ports (R399). -/
  ports : List Port
  /-- Ownership table entries that were written, by number (R403); an unlisted entry is 0. -/
  otable : List (Nat × BitVec 128)
  /-- DEVNUM: bits 7:0 (R428); 0 at reset. -/
  devnum : DWord
  /-- FWCTL: 64 bits (R428); 0 at reset. -/
  fwctl : DWord
  /-- FWSTAT: 64 bits (R428); 0 at reset. -/
  fwstat : DWord
  /-- HERR: 64 bits (R428); 0 at reset (R428). -/
  herr : DWord
  /-- PLIM: 64 bits (R428); 2,600 at reset. -/
  plim : DWord
  /-- TEMP: 64 bits (R428); 0 at reset (R428). -/
  temp : DWord
  /-- THERMST.STOPPED: 1 bit (R428); 0 at reset. -/
  stopped : Bool
  /-- How far the power controller has lowered the clock of core islands, then of others (R435); full speed at reset. -/
  throttle : Nat × Nat
  /-- The 512 islands (R4), in the order of R4's list; running at full speed at reset (no value given). -/
  islands : List Power
  /-- Lowest clock division the voltage rail and clock source of each of the 48 clusters allow (R4); 1 at reset (no value given). -/
  rails : List Nat
  /-- Clocks of the device; MODEL; 0 at reset. -/
  clock : Nat
  /-- Bytes of the boot store's image slots, by offset in unit 0x80 (R427, R432); an unlisted one is free; nothing listed at reset. -/
  store : List Host.Cell
  /-- CSEL: bits 8:0 (R412); 0 at reset. -/
  csel : DWord
  /-- Start journal, oldest first, 256 entries (R431); empty at reset (no value given). -/
  journal : List JEntry
  /-- Active firmware image slot (R433); 0 at reset (no value given). -/
  image : Nat
  /-- Boot counter (R431); 0 at reset (no value given). -/
  boots : Nat
  /-- Answers to the host, newest first: data of a read, or none for Completer Abort (R426). -/
  answers : List (Option (List Byte))
  /-- Bytes that the device has written to the host's memory, by address: attestation reports (R434); none at reset. -/
  hostMem : List Host.Cell
  /-- Reloads of the core an update has come to that have brought other code (R433); MODEL; 0 at reset. -/
  fwTries : Nat
  /-- A thermal stop is to be recorded in the journal at the next start (R436); false at reset. -/
  thermalLog : Bool
  /-- Clocks each cluster's surge arbiter granted cold starts in: cluster, clock, tenant (R253); none at reset. -/
  surge : List (Nat × Nat × Nat)
  /-- Operations of the pooled copy engines under way: partition, queue, index (R384). -/
  bulk : List (Nat × Nat × Nat)
  /-- Engines' accesses to other devices and their answers (R405); none at reset. -/
  rbuf : List RemBuf
  /-- MODEL: engines whose step, within itself, has met a unit whose island does not run: the step is not taken (R4); none between steps. -/
  held : List Nat
  /-- Entries that wait to be appended because an owner record or its area is homed on another device, oldest first (R405); MODEL. -/
  dbgq : List DbgJob
  /-- Saved blocks (R368); none at reset. -/
  parked : List Parked
deriving DecidableEq, Repr

/-! ## Reset -/

/-- A sequencer context right after reset: free, everything 0 (R229, R251). -/
def Seq.empty : Seq :=
  { block := none, pc := 0, x := List.replicate 8 0, c := List.replicate 8 0, status := 0, audit := none, count := 0
    flight := [], bw := none, stall := none, hold := false, stopping := none }

/-- An accumulator of zeros with tag 0 (R228). -/
def AccReg.empty : AccReg := ⟨0, []⟩

/-- An invalid lease-window register (R171). -/
def LeaseReg.empty : LeaseReg := ⟨false, 0, 0, 0, 0, 0⟩
/-- An unmapped stash window (R183). -/
def StashWin.empty : StashWin := ⟨false, false, 0, 0, 0, 0⟩
/-- A modulo register of zeros (R182). -/
def ModReg.zero : ModReg := ⟨0, 0, 0⟩

/-- The agent before it is loaded: nothing to do. -/
def Agent.empty : Agent :=
  { wake := false, notes := [], rescan := false, lastBlock := none, asid := 0, pred := none, await := none, verdict := none, serving := none, claim := none, reads := []
    dead := false, out := false, image := 0 }

/-- A core right after reset: no team, empty queues, every counter 0 (R162, R412). -/
def Core.reset : Core :=
  { quads := List.replicate 4 (List.replicate 64 Entry.empty), slots := List.replicate 33 none
    blocks := List.replicate 32 none, lslots := List.replicate 32 none, leases := List.replicate 64 LeaseReg.empty
    seqs := [Seq.empty, Seq.empty], accs := List.replicate 4 AccReg.empty, engTurn := 1, engBusy := 0
    reqs := [], stores := [], puts := [], dqs := [], tbs := [], sessions := [], walks := [], exvs := [], midways := [], refused := []
    wins := List.replicate 8 StashWin.empty, stash := [], rown := [], l1 := [], gcache := [], hits := [], agent := Agent.empty
    ddata := 0, dstat := 0, trcbase := 0, trclen := 0, trcptr := 0, trcctl := 0, trq := [], trclost := 0
    elig := List.replicate 32 0, stallc := List.replicate 40 0, issue := List.replicate 4 0, gerr := 0, whits := 0, cyc := 0
    eligN := List.replicate 4 0, nextAge := 0, nextBoost := 0 }

/-- A slice right after reset: empty L2, Firn disabled, not drained (R306, R428). -/
def Slice.reset : Slice :=
  { lines := [], owners := [], misses := [], fctl := 0, asidbase := 0, dombase := 0, framebase := 0, inval := [], misshw := 0
    tlb := [], leases := [], mg := [], pins := [], sdrain := false, drained := false, out := false, calbusy := false
    calok := false }

/-- A partition right after reset: it does not exist (R356, R357). -/
def Part.reset : Part :=
  { pent := 0, err := 0, pten := 0, pbusy := false, pall := false, ptens := [], pend := [], stops := [], pqueue := none
    tent := List.replicate 16 0, ctr := List.replicate 16 0, tctr := List.replicate 128 0, telbase := 0, tellog := 0, telwr := 0
    queues := [], cmds := [], resid := [], coop := none, hasid := 0 }

/-- A port right after reset: down, BACKOFF 64 (R401). -/
def Port.reset : Port :=
  { up := false, replays := 0, backoff := 64, txseq := 0, window := [], out := [], tries := 0, resend := none, rxseq := 0, replies := []
    parts := [], setting := 0, train := none }

/-- The machine right after reset: start-up has not run yet (R431); nothing is placed, memory lists nothing. -/
def State.reset : State :=
  { on := false, cur := .none, agenda := [], turn := 0, epoch := 0, nextId := 0, free := 0, mem := [], poison := [], softErr := [], hardErr := [], watch := []
    cores := List.replicate 384 Core.reset, slices := List.replicate 12 Slice.reset, parts := List.replicate 12 Part.reset
    ports := List.replicate 24 Port.reset, otable := [], devnum := 0, fwctl := 0, fwstat := 0, herr := 0, plim := 2600, temp := 0
    stopped := false, throttle := (0, 0), islands := List.replicate 512 (.run 1), rails := List.replicate 48 1, clock := 0, store := []
    csel := 0, journal := [], image := 0, boots := 0, answers := [], hostMem := [], fwTries := 0
    thermalLog := false, surge := [], bulk := [], rbuf := [], held := [], dbgq := [], parked := [] }

end Sys2Proof.Machine
end

