-- ==== Sys2Proof/Machine/Mem.lean ====
section
/-! DEFINITION. Byte storage in one canonical form (R8, R168, R300): a list of address and byte pairs with
strictly rising addresses and no entry equal to what an unlisted address reads as; numbers of several bytes
are little-endian. -/

namespace Sys2Proof.Machine

/-- The byte at an address; an unlisted address reads as `Config.blankByte`. -/
def memGet (m : List Host.Cell) (a : Nat) : Byte :=
  match m with
  | [] => Config.blankByte
  | (b, x) :: rest => if a = b then x else memGet rest a

/-- Writes one byte; writing the unlisted value removes the entry. -/
def memPut (m : List Host.Cell) (a : Nat) (v : Byte) : List Host.Cell :=
  match m with
  | [] => if v = Config.blankByte then [] else [(a, v)]
  | (b, x) :: rest =>
    if a < b then (if v = Config.blankByte then (b, x) :: rest else (a, v) :: (b, x) :: rest)
    else if a = b then (if v = Config.blankByte then rest else (a, v) :: rest)
    else (b, x) :: memPut rest a v

/-- The canonical form: addresses strictly rising, every byte different from the unlisted one. -/
def memWf : List Host.Cell → Bool
  | [] => true
  | [(_, x)] => decide (x ≠ Config.blankByte)
  | (a, x) :: (b, y) :: rest => decide (x ≠ Config.blankByte) && decide (a < b) && memWf ((b, y) :: rest)

/-- The canonical form under the name the package's texts use. -/
abbrev Memory.wf (m : List Host.Cell) : Bool := memWf m

/-- The n bytes from an address. -/
def memBytes (m : List Host.Cell) (a n : Nat) : List Byte := (List.range n).map fun i => memGet m (a + i)

/-- Writes bytes from an address. -/
def memPutBytes (m : List Host.Cell) (a : Nat) : List Byte → List Host.Cell
  | [] => m
  | v :: vs => memPutBytes (memPut m a v) (a + 1) vs

/-- The little-endian number of n bytes from an address. -/
def memNat (m : List Host.Cell) (a n : Nat) : Nat := leBytes (memBytes m a n)

/-- Writes the n low bytes of a number from an address. -/
def memPutNat (m : List Host.Cell) (a n x : Nat) : List Host.Cell := memPutBytes m a (toLeBytes n x)

/-- A sector of memory as one number, byte 0 lowest. -/
def memSector (m : List Host.Cell) (a : Nat) : Sector := BitVec.ofNat 256 (memNat m a 32)

/-- Writes the bytes of a sector that a byte mask names. -/
def memPutMasked (m : List Host.Cell) (a : Nat) (mask : Word) (x : Sector) : List Host.Cell :=
  (List.range 32).foldl
    (fun m i => if mask.getLsbD i then memPut m (a + i) (x.extractLsb' (8 * i) 8) else m) m

/-- Merges the masked bytes of `y` into the sector `x`. -/
def mergeSector (x : Sector) (mask : Word) (y : Sector) : Sector :=
  (List.range 32).foldl
    (fun acc i => if mask.getLsbD i
      then (acc &&& ~~~((0xFF : Sector) <<< (8 * i))) ||| (((y.extractLsb' (8 * i) 8).setWidth 256) <<< (8 * i))
      else acc) x

/-- Bytes b to b + n - 1 of a sector as a number. -/
def sectorNat (x : Sector) (b n : Nat) : Nat := (x.toNat / 2 ^ (8 * b)) % 2 ^ (8 * n)

end Sys2Proof.Machine
end

