-- ==== Sys2Proof/Machine/Ops.lean ====
section
/-! DEFINITION. The shared operations of the machine: reading and writing cores, teams, lanes and registers;
issuing an instruction under lookahead and the scoreboard (R59 to R61, R76, R123, R149, R164); fragments
meeting at their records (R127 to R131); stopping a team, taking a trap and ending a command (R337 to R348). -/

namespace Sys2Proof

/-- Instruction length (R50): 12 bytes with a literal parcel. -/
def BOp.len : BOp → Nat
  | .lit _ => 12
  | _ => 8
def Tgt.len : Tgt → Nat
  | .rel32 _ => 12
  | _ => 8

end Sys2Proof

namespace Sys2Proof.Machine

/-- What a step answers. -/
abbrev Out := Host.Outcome State Fault Refusal

/-! ## Reading and writing the parts of the state -/

def State.core (s : State) (c : Nat) : Core := s.cores[c]?.getD Core.reset
def State.setCore (s : State) (c : Nat) (k : Core) : State := { s with cores := s.cores.set c k }
def State.slice (s : State) (i : Nat) : Slice := s.slices[i]?.getD Slice.reset
def State.setSlice (s : State) (i : Nat) (x : Slice) : State := { s with slices := s.slices.set i x }
def State.part (s : State) (i : Nat) : Part := s.parts[i]?.getD Part.reset
def State.setPart (s : State) (i : Nat) (x : Part) : State := { s with parts := s.parts.set i x }
/-- A step that changed something: stalled fragments are tried again (MODEL). -/
def State.bump (s : State) : State := { s with epoch := s.epoch + 1, held := [] }

def Core.quad (k : Core) (q : Nat) : List Entry := k.quads[q]?.getD []
def Core.entry (k : Core) (q e : Nat) : Entry := (k.quad q)[e]?.getD Entry.empty
def Core.setEntry (k : Core) (q e : Nat) (x : Entry) : Core :=
  { k with quads := k.quads.set q ((k.quad q).set e x) }
def Core.team? (k : Core) (i : Nat) : Option Team := k.slots[i]?.getD none
def Core.setTeam (k : Core) (i : Nat) (t : Team) : Core := { k with slots := k.slots.set i (some t) }
def Core.block? (k : Core) (i : Nat) : Option Block := k.blocks[i]?.getD none
def Core.setBlock (k : Core) (i : Nat) (b : Block) : Core := { k with blocks := k.blocks.set i (some b) }
def Core.lslot? (k : Core) (i : Nat) : Option LSlot := k.lslots[i]?.getD none

/-- The launch slot of a team: none for the agent slot. -/
def Core.lslotOf (k : Core) (slot : Nat) : Option LSlot :=
  if slot = 32 then none
  else (k.team? slot).bind fun t => (k.block? t.block).bind fun b => k.lslot? b.lslot

/-- The number of the agent slot (R127). -/
def agentSlot : Nat := 32

/-! ## Lanes, registers and predicates -/

/-- A lane that does not exist. -/
def Lane.none : Lane := ⟨[], 0, [], 0, 0, 0, 0⟩
def Team.lane (t : Team) (L : Nat) : Lane := t.lanes[L]?.getD Lane.none
/-- A lane register. -/
def Lane.r (l : Lane) (n : Nat) : Word := l.v[n]?.getD 0
/-- A pair, named by its even register (R73). -/
def Lane.r2 (l : Lane) (n : Nat) : DWord := l.r (n + 1) ++ l.r n
/-- A lane predicate; p7 reads true (R72). -/
def Lane.pr (l : Lane) (i : Nat) : Bool := decide (i = 7) || l.p.getLsbD i
/-- A team-wide register (R122). -/
def Team.rg (t : Team) (n : Nat) : DWord := t.g[n]?.getD 0
/-- A team-wide predicate; gp7 reads true (R122). -/
def Team.pg (t : Team) (i : Nat) : Bool := decide (i = 7) || t.gp.getLsbD i

/-- A byte with bit i set to b. -/
def setBit8 (x : BitVec 8) (i : Nat) (b : Bool) : BitVec 8 :=
  if b then x ||| BitVec.ofNat 8 (2 ^ i) else x &&& ~~~(BitVec.ofNat 8 (2 ^ i))

/-- AFL: the flags OR-ed into bits 23:16 of a lane status word (R74). -/
def addAfl (st : Word) (f : Flags) : Word := st ||| (f.setWidth 32 <<< 16)

/-- One write, as far as it concerns lane L. -/
def Lane.put (L : Nat) (l : Lane) (w : Wr) : Lane :=
  match w with
  | .v M r x => if M = L then { l with v := l.v.set r x } else l
  | .p M i b => if M = L ∧ i < 7 then { l with p := setBit8 l.p i b } else l
  | .afl M f => if M = L then { l with status := addAfl l.status f } else l
  | .g _ _ => l
  | .gp _ _ => l
  | .ff _ => l

/-- The team-wide part of one write. -/
def putG (g : List DWord) : Wr → List DWord
  | .g r x => g.set r x
  | _ => g
def putGp (gp : BitVec 8) : Wr → BitVec 8
  | .gp i b => if i < 7 then setBit8 gp i b else gp
  | _ => gp
/-- Flags a write contributes to `fflags`: a lane's flags go to both places (R31, R76). -/
def putFf (ff : Word) : Wr → Word
  | .ff f => ff ||| f.setWidth 32
  | .afl _ f => ff ||| f.setWidth 32
  | _ => ff

/-- The register or predicate a write names. -/
def Wr.ref? : Wr → Option RegRef
  | .v L r _ => some (.v L r)
  | .p L i _ => some (.p L i)
  | .g r _ => some (.g r)
  | .gp i _ => some (.gp i)
  | _ => none

/-- Registers a logged load would write on replay (R336, R341). -/
def LogEntry.dests (e : LogEntry) : List RegRef :=
  if e.flags.getLsbD 0 then [.g e.dreg.toNat]
  else
    let n := if e.size = 4 then 4 else if e.size = 3 then 2 else 1
    (List.range n).map fun i => .v e.lane.toNat (e.dreg.toNat + i)

/-- A logged load: KIND 1 or 6, or an atomic that returns (R334). -/
def LogEntry.isLoad (e : LogEntry) : Bool :=
  decide (e.kind = 1 ∨ e.kind = 6) || (decide (e.kind = 3) && !e.flags.getLsbD 1)

/-- CANCEL by a write to the destination at the entry's level (R335). -/
def LogEntry.cancel (level : Nat) (ds : List RegRef) (e : LogEntry) : LogEntry :=
  if e.isLoad && decide (e.level.toNat = level) && e.dests.any (ds.contains ·) then
    { e with flags := e.flags ||| 0x10 } else e

/-- Statuses still to be joined, once some registers are written anew or await another status: each lane keeps its own (R202). -/
def joinsWithout (js : List Join) (ds : List RegRef) : List Join :=
  (js.map fun (j : Join) => { j with regs := j.regs.filter fun r => !(ds.contains r) }).filter fun j => !j.regs.isEmpty

/-- Applies the writes of one instruction together; writes to p7 and gp7 are discarded (R57). A write to a logged
load's destination cancels its replay (R335), and a rewritten status is no longer to be joined (R202). -/
def Team.put (t : Team) (ws : List Wr) : Team :=
  let ds := ws.filterMap Wr.ref?
  { t with
    lanes := t.lanes.mapIdx fun L l => ws.foldl (Lane.put L) l
    g := ws.foldl putG t.g
    gp := ws.foldl putGp t.gp
    fflags := ws.foldl putFf t.fflags
    log := t.log.map (LogEntry.cancel t.level ds)
    areaDirty := t.areaDirty || (!t.log.isEmpty && !ds.isEmpty)
    joins := joinsWithout t.joins ds }

/-! ## Pending writes (R60) -/

/-- Applies pending writes, oldest first. -/
def Team.commit (t : Team) (ps : List Pend) : Team := ps.foldl (fun t p => t.put p.writes) t

def Pend.hits (p : Pend) (rs : List RegRef) : Bool := p.dests.any (rs.contains ·)

/-! ## The issue context -/

/-- An instruction at issue: its fragment, the team as the instruction reads it, and the team it writes. -/
structure Cx where
  c : Nat
  q : Nat
  e : Nat
  k : Core
  x : Entry
  /-- What the instruction reads. -/
  v : Team
  /-- What it writes: `v` with the pending writes its own writes must follow (R60 rule 4). -/
  t : Team

def Cx.slot (cx : Cx) : Nat := cx.x.team

/-- The instruction of an entry that has issued and waits for answers of other devices. -/
def Core.midway? (k : Core) (x : Entry) : Option Midway := x.op.bind fun id => k.midways.find? fun m => decide (m.id = id)

/-- The fragment that issues, or why there is none. Pending writes whose window has passed are done first (R60). An instruction that has
issued and waited reads the team as it did then. -/
def withFrag (s : State) (f : Cx → Out) : Out :=
  match s.cur with
  | .frag c q e =>
    let k := s.core c
    let x := k.entry q e
    match k.team? x.team with
    | none => .fault .noTeam
    | some t =>
      let due := x.pend.filter fun p => decide (p.left = 0) && p.ready
      let t' := t.commit due
      let v := match k.midway? x with
        | some m => m.view
        | none => t'
      f ⟨c, q, e, k, { x with pend := x.pend.filter fun p => !(decide (p.left = 0) && p.ready) }, v, t'⟩
  | _ => .refused .noIssuer

/-- Active lanes of the fragment, ascending. -/
def Cx.active (cx : Cx) : List Nat := (List.range cx.v.n).filter fun L => cx.x.mask.getLsbD L
/-- Lanes taking part in a lane form (R51). -/
def Cx.part (cx : Cx) (c : Ctl) : List Nat :=
  cx.active.filter fun L => (cx.v.lane L).pr c.ps.toNat != c.pn
/-- A team-wide form takes effect (R51). -/
def Cx.takes (cx : Cx) (c : Ctl) : Bool := cx.v.pg c.ps.toNat != c.pn
/-- At least one active lane's predicate is true, or the gp predicate of the team-wide form. -/
def Cx.acts (cx : Cx) (c : Ctl) : Bool := if c.w then cx.takes c else !(cx.part c).isEmpty

/-- The predicate registers an instruction reads (R51). -/
def Cx.predRefs (cx : Cx) (c : Ctl) : List RegRef :=
  if c.ps = 7 then [] else if c.w then [.gp c.ps.toNat] else cx.active.map fun L => .p L c.ps.toNat

/-- What an instruction that acts once for the fragment reads: its predicate, and its operands where that is true (R51). -/
def Cx.onceReads (cx : Cx) (c : Ctl) (rds : List RegRef) : List RegRef := cx.predRefs c ++ if cx.takes c then rds else []

/-- Why a fragment waits, by the reasons of R421. -/
def reasonOperand : Nat := 1

/-- The fragment does nothing in this step and is tried again after another step has changed something. -/
def stall (s : State) (reason : Nat) : Out :=
  match s.cur with
  | .frag c q e =>
    let k := s.core c
    let x := k.entry q e
    .next (s.setCore c (k.setEntry q e { x with stall := some (s.epoch, reason) }))
  | .stream c i =>
    let k := s.core c
    let q := k.seqs[i]?.getD Seq.empty
    .next (s.setCore c { k with seqs := k.seqs.set i { q with stall := some s.epoch } })
  | .none => .refused .noIssuer

/-- Pending writes of the team's other fragments. -/
def Cx.otherPends (cx : Cx) : List Pend :=
  ((cx.k.quad cx.q).mapIdx fun i x =>
    if i ≠ cx.e ∧ x.st ≠ .free ∧ x.team = cx.slot then x.pend else []).flatten

/-- Results of the scoreboard (R60, R149, R202, R331). -/
inductive Hold
  | go
  | wait
  | stop
deriving DecidableEq, Repr

/-- Whether an instruction that reads `rds` and writes `wrs` may go: it waits for a result that is not there, for
another fragment's pending team-wide write (R149) and for a running session's status (R202); it stops the team when
it reads a logged destination of its level (R331). -/
def Cx.hold (cx : Cx) (rds wrs : List RegRef) : Hold :=
  if cx.x.pend.any fun p => (decide (p.left = 0) && p.hits rds) || (!p.ready && p.hits wrs) then .wait
  else if cx.otherPends.any fun p => p.hits rds || p.hits wrs then .wait
  else if cx.v.busy.any fun r => rds.contains r || wrs.contains r then .wait
  else if cx.v.log.any fun e => e.isLoad && !e.flags.getLsbD 4 && decide (e.level.toNat = cx.v.level) &&
      e.dests.any (rds.contains ·) then .stop
  else .go

/-- Commits the pending writes that the instruction's own writes must follow (R60 rule 4). -/
def Cx.yieldTo (cx : Cx) (wrs : List RegRef) : Cx :=
  { cx with
    t := cx.t.commit (cx.x.pend.filter fun p => p.ready && p.hits wrs)
    x := { cx.x with pend := cx.x.pend.filter fun p => !(p.ready && p.hits wrs) } }

/-- Closes every open window (R61); `none` while a result is not there. -/
def Cx.close (cx : Cx) : Option Cx :=
  if cx.x.pend.all (·.ready) then
    let t := cx.t.commit cx.x.pend
    some { cx with v := t, t := t, x := { cx.x with pend := [] } }
  else none

/-- Closes every open window of the team, its other fragments' too (R341); `none` while a result is not there. -/
def Cx.closeTeam (cx : Cx) : Option Cx :=
  let others := (List.range 64).filter fun i =>
    let x := cx.k.entry cx.q i
    decide (i ≠ cx.e ∧ x.st ≠ .free ∧ x.team = cx.slot)
  if others.all fun i => (cx.k.entry cx.q i).pend.all (·.ready) then
    cx.close.map fun cx => others.foldl (fun (cx : Cx) i =>
      let x := cx.k.entry cx.q i
      let t := cx.t.commit x.pend
      { cx with k := cx.k.setEntry cx.q i { x with pend := [] }, v := t, t := t }) cx
  else none

/-- Puts the context's entry and team back. -/
def Cx.core (cx : Cx) : Core := (cx.k.setEntry cx.q cx.e cx.x).setTeam cx.slot cx.t

/-! ## Links and records (R126 to R130) -/

/-- Word of a link: outer link of the record it names. -/
def Core.outerOf (k : Core) (q : Nat) (t : Team) (l : Link) : Option Link :=
  if l.serial then ((t.serials[l.idx]?.getD none).bind (·.outer)) else (k.entry q l.idx).outer

/-- Whether a chain of links, inner then outer, contains the split record of entry r. -/
def Core.chainHas (k : Core) (q : Nat) (t : Team) (r : Nat) : Nat → Option Link → Bool
  | 0, _ => false
  | _, none => false
  | n + 1, some l => (!l.serial && decide (l.idx = r)) || k.chainHas q t r n (k.outerOf q t l)

/-- An entry that holds a live fragment of the team. -/
def Entry.live (x : Entry) (slot : Nat) : Bool :=
  decide (x.team = slot) && !x.frozen && (decide (x.st = .running) || decide (x.st = .waiting))

/-- Entry numbers of a team's live fragments, ascending. -/
def Core.liveOf (k : Core) (q slot : Nat) : List Nat :=
  (List.range 64).filter fun i => (k.entry q i).live slot

/-- The entry a new fragment takes: the lowest-numbered free one of the quadrant (R127). One free entry of quadrant 0 stays for an agent
slot that holds no team (R162). -/
def Core.freeEntry (k : Core) (q : Nat) (agent : Bool) : Option Nat :=
  let free := (List.range 64).filter fun e => decide ((k.entry q e).st = .free)
  if q = 0 ∧ !agent ∧ (k.team? agentSlot).isNone ∧ free.length ≤ 1 then none else free.head?

/-- One fragment of a slot's team starts in the entry it is given. -/
def Core.startFrag (k : Core) (q slot : Nat) (pc : PCWord) (m : Mask) : Core × Nat :=
  match k.freeEntry q (decide (slot = agentSlot)) with
  | some e => (k.setEntry q e { Entry.empty with st := .running, team := slot, pc := pc, mask := m }, e)
  | none => (k, 64)

/-- Completes a fragment's pending writes. -/
def Core.flush (k : Core) (q e : Nat) : Core :=
  let x := k.entry q e
  match k.team? x.team with
  | none => k
  | some t => (k.setTeam x.team (t.commit x.pend)).setEntry q e { x with pend := [] }

/-- The trace covers a slot (R417). -/
def Core.traced (k : Core) (slot : Nat) : Bool := k.trcctl.getLsbD 63 && k.trcctl.getLsbD slot

/-- The first word of a trace packet (R418): kind, slot, entry, and what stands in bits 63:16. -/
def traceWord (kind slot entry rest : Nat) : DWord := BitVec.ofNat 64 (kind + 16 * slot + 1024 * entry + 65536 * rest)

/-- Notes a trace packet, if the trace covers the slot (R417). -/
def Core.note (k : Core) (slot entry kind rest : Nat) : Core :=
  if k.traced slot then { k with trq := k.trq ++ [[traceWord kind slot entry rest]] } else k

/-- A SYNC packet: low 32 bits of CYC, and the PC (R418). -/
def Core.noteSync (k : Core) (slot entry : Nat) (pc : PCWord) : Core :=
  if k.traced slot then { k with trq := k.trq ++ [[traceWord 1 slot entry (k.cyc.toNat % 2 ^ 32), pc.setWidth 64]] } else k

/-- The SYNC packet of a traced team that starts or resumes, for its first live entry (R418; DESIGN CHOICE, log 136). -/
def Core.syncTeam (k : Core) (slot : Nat) : Core := match k.team? slot with
  | some t => let e := (k.liveOf t.quad slot).headD 0; k.noteSync slot e (k.entry t.quad e).pc
  | none => k

/-- A fragment with no lane leaves its entry: the entry keeps an unresolved record, or is freed (R124, R129). -/
def Core.vacate (k : Core) (q e : Nat) : Core :=
  let x := k.entry q e
  if x.isRec then k.setEntry q e { x with st := .record, mask := 0, pend := [], inner := none, boost := none, age := 0 }
  else k.setEntry q e Entry.empty

/-- A running fragment that has reached its inner record, or is empty, takes the next step of R128 to R130; the entries of a retired team
stay as they are until they are freed (R144). -/
def Core.reach (k : Core) (q e slot : Nat) : Option Core :=
  let x := k.entry q e
  match k.team? slot with
  | none => none
  | some t =>
    if !(x.live slot) || decide (x.st = .waiting) || decide (t.mode = .retired) then none
    else
      match x.inner with
      | none => if x.mask = 0 then some (k.vacate q e) else none
      | some l =>
        if l.serial then
          match t.serials[l.idx]?.getD none with
          | none => none
          | some r =>
            if (x.pc = r.jaddr ∨ x.mask = 0) ∧ x.pend.all (·.ready) then
              let k := k.flush q e
              match k.team? slot with
              | none => none
              | some t =>
                let x := k.entry q e
                if r.pending ≠ 0 then
                  some ((k.setEntry q e { x with mask := r.pending, pc := r.resume }).setTeam slot
                    { t with serials := t.serials.set l.idx (some { r with held := r.held ||| x.mask, pending := 0 }), areaDirty := true })
                else
                  some (((k.setEntry q e { x with mask := x.mask ||| r.held, pc := r.jaddr, inner := r.outer }).setTeam slot
                    { t with serials := t.serials.set l.idx none, areaDirty := true }).note slot e 4 (l.idx + 64))
            else none
        else if x.mask = 0 then some (k.vacate q e)
        else if x.pc = (k.entry q l.idx).jaddr then some (k.setEntry q e { x with st := .waiting })
        else none

/-- Fusion of the split record in entry r, when it is complete (R129). Where every lane of a split nested below a serial record has
exited, the pending lanes of that record run next in the nested split's entry, which R130 does not name (DESIGN CHOICE, log 121). -/
def Core.fuse (k : Core) (q r slot : Nat) : Option Core :=
  let rec' := k.entry q r
  if !(decide (rec'.team = slot) && rec'.isRec && !rec'.frozen && decide (rec'.st ≠ .free)) then none
  else
    match k.team? slot with
    | none => none
    | some t => if t.mode = .retired then none else
      let P := (k.liveOf q slot).filter fun i => k.chainHas q t r 100 (k.entry q i).inner
      if P.all fun i => decide ((k.entry q i).inner = some ⟨false, r⟩) && decide ((k.entry q i).st = .waiting)
          && (k.entry q i).pend.all (·.ready) then
        match P with
        | [] => some (match rec'.st, rec'.outer with
          -- every lane of the split has exited: below a serial record the pending lanes run next (R130)
          | .record, some ⟨true, i⟩ =>
            k.setEntry q r { Entry.empty with st := .running, team := slot, pc := rec'.jaddr, inner := some ⟨true, i⟩ }
          | .record, _ => k.setEntry q r Entry.empty
          | _, _ => k.setEntry q r { rec' with isRec := false, jaddr := 0, outer := none })
        | f :: _ =>
          let m := P.foldl (fun m i => m ||| (k.entry q i).mask) 0
          let k := P.foldl (fun k i => k.flush q i) k
          let k := P.foldl (fun k i => if i = f then k else k.vacate q i) k
          let x := k.entry q f
          let k := k.setEntry q f { x with mask := m, inner := rec'.outer, pc := rec'.jaddr, st := .running }
          let y := k.entry q r
          let k := k.note slot f 4 (if r = f then (P[1]?.getD f) else r)
          some (if r = f then k.setEntry q r { y with isRec := false, jaddr := 0, outer := none }
                else k.setEntry q r Entry.empty)
      else none

/-- First answer of a list of attempts. -/
def firstSome {α β : Type} (f : α → Option β) : List α → Option β
  | [] => none
  | a :: as => match f a with
    | some b => some b
    | none => firstSome f as

/-- Every reach and every fusion that has become possible for a team (R128 to R130). -/
def Core.settle : Nat → Core → Nat → Nat → Core
  | 0, k, _, _ => k
  | n + 1, k, q, slot =>
    match firstSome (fun i => k.reach q i slot) (k.liveOf q slot) with
    | some k' => Core.settle n k' q slot
    | none =>
      match firstSome (fun r => k.fuse q r slot) (List.range 64) with
      | some k' => Core.settle n k' q slot
      | none => k

/-- Rounds `settle` is given: no team can make more moves in one step. -/
def settleFuel : Nat := 400

/-- Settles a team whose fragments may have met; a team with one fragment and no record needs nothing. -/
def Core.meet (k : Core) (q e slot : Nat) : Core :=
  let x := k.entry q e
  if x.inner = none ∧ x.mask ≠ 0 then k else Core.settle settleFuel k q slot

/-! ## Stopping a team (R331, R332, R337, R344, R348) -/

/-- Kinds of a transaction-barrier step (R219). -/
def tbKindInit : Nat := 0
def tbKindArrive : Nat := 1
def tbKindWait : Nat := 2

/-- An outstanding step that a stop withdraws: an unanswered transaction-barrier wait (R344). -/
def Core.isTbWait (k : Core) (id : Nat) : Bool :=
  k.tbs.any fun r => decide (r.id = id) && decide (r.kind = tbKindWait) && r.done.isNone

/-- Every live fragment of the team is at an instruction boundary with its results there. -/
def Core.quiet (k : Core) (slot : Nat) (t : Team) : Bool :=
  (k.quad t.quad).all fun x =>
    decide (x.st = .free) || decide (x.team ≠ slot) || x.frozen ||
      (x.pend.all (·.ready) && (match x.op with | none => true | some id => k.isTbWait id))

/-- Completes every pending write of a team and withdraws its waits (R61, R337, R344). -/
def Core.boundary (k : Core) (slot : Nat) (t : Team) : Core :=
  let k := { k with tbs := k.tbs.filter fun r => !(decide (r.slot = slot) && decide (r.kind = tbKindWait)) }
  let k := (List.range 64).foldl (fun k e =>
    let x := k.entry t.quad e
    if x.st ≠ .free ∧ x.team = slot ∧ !x.frozen then
      let k := k.flush t.quad e
      let x := k.entry t.quad e
      k.setEntry t.quad e { x with bw := none, op := none, snap := none, stall := none }
    else k) k
  match k.team? slot with
  | none => k
  | some t => k.setTeam slot { t with arrival := none, mode := if t.mode = .regrp then .run else t.mode }

/-- The name of the fragment in an entry at a trap level, among those that have joined a session (R202, R264). -/
def threadNo (level e : Nat) : Nat := 64 * level + e

/-- A new fragment starts in an entry at the present trap level: it has joined no session (R202, R264). -/
def Team.newThread (t : Team) (e : Nat) : Team :=
  { t with joins := t.joins.map fun j => { j with joined := j.joined.filter (· ≠ threadNo t.level e) } }

/-- Every lane of the team that has not exited. -/
def Core.allLanes (k : Core) (slot : Nat) (t : Team) : Mask :=
  let fr := (k.quad t.quad).foldl (fun m x => if x.st ≠ .free ∧ x.team = slot then m ||| x.mask else m) 0
  t.serials.foldl (fun m r => match r with | none => m | some r => m ||| r.pending ||| r.held) fr

/-- Halts the team (R344). -/
def Core.haltTeam (k : Core) (slot : Nat) (cls : BitVec 8) (skip : Option (Nat × PCWord)) : Core :=
  match k.team? slot with
  | none => k
  | some t =>
    match t.mode with
    | .halted _ _ => k
    | .retired => k
    | _ => k.setTeam slot { t with mode := .halted cls skip }

/-- The slots of a block that hold its teams: a slot freed by a retired team may hold another block's team (R144). -/
def Core.teamsOf (k : Core) (blk : Nat) : List Nat :=
  match k.block? blk with
  | none => []
  | some b => b.slots.filter fun i => match k.team? i with
    | some t => decide (t.block = blk ∧ i ≠ agentSlot)
    | none => false

/-- A pre-emption has stopped the engines of a block: its sessions and walks hold (R369). -/
def Core.blockStopping (k : Core) (blk : Nat) : Bool := match k.block? blk with
  | some b => b.stopping
  | none => false

/-- The name of a team's drain among the sessions of its block (MODEL). -/
def drainName (slot : Nat) (q : BitVec 16) : Nat := 2 ^ 60 + 65536 * slot + q.toNat

/-- The sessions of a block live now, as the dump names them (R353): identifier, major, minor, request tag, status word. -/
def Core.liveSessions (k : Core) (blk : Nat) : List (Nat × Nat × Nat × Nat × Word) :=
  let tag := fun (slot : Nat) (q : BitVec 16) => match k.team? slot with
    | some t => t.quad * 2 ^ 22 + slot * 2 ^ 16 + q.toNat
    | none => slot * 2 ^ 16 + q.toNat
  (k.sessions.filter fun x => decide (x.block = blk ∧ x.slot ≠ agentSlot)).map (fun x => (x.id, x.major, x.minor, tag x.slot x.seq, (0 : Word))) ++
    ((k.walks.filter fun x => decide (x.block = blk ∧ x.slot ≠ agentSlot)).map fun w =>
      (w.id, 0x39, (match w.kind with | .chase => 0 | .rnd => 1 | .seek => 2), tag w.slot w.seq, (0 : Word))) ++
    (k.teamsOf blk).flatMap fun i => match k.team? i with
      | some t => t.drains.map fun d => (drainName i d.1, 0x38, 3, tag i d.1, (0 : Word))
      | none => []

/-- The status word a session wrote, kept for the dump (R353). -/
def Core.liveStatus (k : Core) (blk id : Nat) (st : Word) : Core :=
  match k.block? blk with
  | none => k
  | some b => k.setBlock blk { b with live := b.live.map fun x => if x.1 = id then (x.1, x.2.1, x.2.2.1, x.2.2.2.1, st) else x }

/-- Broadcasts a halt to a block: every team, and its sequencer context (R345). One after an acknowledged broadcast is a new one. -/
def Core.broadcast (k : Core) (blk : Nat) (cls : BitVec 8) : Core :=
  match k.block? blk with
  | none => k
  | some b =>
    let again := b.bcast.isSome && !b.acked
    let k := k.setBlock blk { b with bcast := if again then b.bcast else some k.cyc.toNat, acked := false
                                     live := if again then b.live else k.liveSessions blk }
    let k := (k.teamsOf blk).foldl (fun k i =>
      match k.team? i with
      | none => k
      | some t => match t.mode with
        | .halted _ _ => k
        | .retired => k
        | _ => k.setTeam i { t with stops := t.stops ++ [.halt cls none] }) k
    { k with seqs := k.seqs.map fun q => if q.block = some blk then { q with hold := true } else q }

/-- The command-ending path begins: the team halts, its block is broadcast, and the block keeps what the completion
object names (R348). In the agent slot the agent stops for its reload (R394). -/
def Core.endCommand (k : Core) (slot : Nat) (cls : BitVec 8) (fpc fva : DWord) : Core :=
  let k := k.haltTeam slot cls none
  if slot = agentSlot then { k with agent := { k.agent with dead := true } }
  else
    match k.team? slot with
    | none => k
    | some t =>
      match k.block? t.block with
      | none => k
      | some b => (k.setBlock t.block { b with ending := b.ending.or (some (cls, slot, fpc, fva)) }).broadcast t.block 0

/-- Classes whose delivery is the handler (R327). -/
def deliversToHandler (cls : BitVec 8) : Bool := decide (cls ≠ 0x02 ∧ cls ≠ 0x04 ∧ cls ≠ 0x0B)

/-- Takes an exception: saves the fragments and the frame, raises the nesting level and starts the handler at the
launch's trap entry in the team's lowest entry with every lane that has not exited (R337). -/
def Core.enterTrap (k : Core) (slot : Nat) (t : Team) (fr : Frame) (raising : Option Nat) (entryPc : PCWord) : Core :=
  let q := t.quad
  let own := (List.range 64).filter fun e => decide ((k.entry q e).st ≠ .free ∧ (k.entry q e).team = slot)
  let saved := own.filter fun e => !(k.entry q e).frozen
  let saves := saved.map fun e => (⟨q, e, k.entry q e, decide (raising = some e)⟩ : FragSave)
  let lanes := k.allLanes slot t
  let k := saved.foldl (fun k e => k.setEntry q e { k.entry q e with frozen := true }) k
  let low := own.headD 0
  let k := k.setEntry q low { Entry.empty with st := .running, team := slot, pc := entryPc, mask := lanes }
  let k := k.note slot low 6 (fr.cls.toNat + 256 * (t.level + 1))
  k.setTeam slot { (({ t with level := t.level + 1 } : Team).newThread low) with
    frames := t.frames ++ [{ fr with nfrag := saves.length }], saves := t.saves ++ [saves], areaDirty := true }

/-- The frame of a stop (R337). -/
def Team.frame (t : Team) (stopPc resumePc : PCWord) (cls detail : BitVec 8) (deferred strict : Bool) (seq lane : BitVec 16)
    (faddr : DWord) : Frame :=
  ⟨stopPc, resumePc, cls, detail, BitVec.ofNat 8 (t.level + 1), deferred, strict, seq, lane, t.log.length, t.record.count, 0, faddr⟩

/-- Delivers a class by R327: to the handler when the launch names one and the level is below 3, else R348. -/
def Core.deliver (k : Core) (slot : Nat) (t : Team) (fr : Frame) (raising : Option Nat) (fpc fva : DWord) : Core :=
  let entryPc := match k.lslotOf slot with
    | none => 0
    | some l => l.launch.trapent
  if deliversToHandler fr.cls ∧ entryPc ≠ 0 ∧ t.level < 3 then k.enterTrap slot t fr raising entryPc
  else k.endCommand slot fr.cls fpc fva

/-- Reaches the first stop asked of a team, once the team is at a boundary. -/
def Core.tryStop (k : Core) (slot : Nat) : Core :=
  match k.team? slot with
  | none => k
  | some t0 =>
    match t0.stops with
    | [] => k
    | st :: rest =>
      if t0.mode = .retired then k.setTeam slot { t0 with stops := [] }
      else if !(k.quiet slot t0) then k
      else
        let k := k.boundary slot t0
        match k.team? slot with
        | none => k
        | some t =>
          let t := { t with stops := rest }
          let k := k.setTeam slot t
          let pcOf := fun e => (k.entry t.quad e).pc
          match st with
          | .trap cls detail lane addr skip _ e =>
            let pc := pcOf e
            k.deliver slot t (t.frame pc (pc + BitVec.ofNat 56 skip) cls detail false false t.seq lane addr) (some e)
              (pc.setWidth 64) addr
          | .check _ e =>
            let pc := pcOf e
            k.deliver slot t (t.frame pc pc t.record.cls 0 true false (t.record.tag.extractLsb' 0 16) 0xFFFF 0) none
              t.record.fpc t.record.fva
          | .strict =>
            let pc := pcOf ((k.liveOf t.quad slot).headD 0)
            k.deliver slot t (t.frame pc pc t.record.cls 0 true true (t.record.tag.extractLsb' 0 16) 0xFFFF 0) none
              t.record.fpc t.record.fva
          | .halt cls skip => k.haltTeam slot cls skip
          | .watch => match t.mode with
            | .halted _ _ => k
            | _ => k.setTeam slot { t with mode := .held }

/-- Every team reaches the stops it can; twice, because a command's end asks stops of other teams. -/
def Core.poll (k : Core) : Core :=
  let once := fun k => (List.range 33).foldl Core.tryStop k
  if k.slots.any fun t => match t with | none => false | some t => !t.stops.isEmpty
  then once (once k) else k

/-- Asks a team to stop. -/
def Core.askStop (k : Core) (slot : Nat) (st : StopReq) : Core :=
  match k.team? slot with
  | none => k
  | some t => (k.setTeam slot { t with stops := t.stops ++ [st] }).poll

/-- The instruction no longer waits for answers of other devices. -/
def Cx.given (cx : Cx) : Cx :=
  if (cx.k.midway? cx.x).isSome then
    { cx with x := { cx.x with op := none }, k := { cx.k with midways := cx.k.midways.filter fun m => decide (cx.x.op ≠ some m.id) } }
  else cx

/-- Raises a precise trap at the instruction: it has no effect, and the team stops (R66, R139, R327, R337). -/
def Cx.trap (s : State) (cx : Cx) (cls detail : BitVec 8) (lane : BitVec 16) (addr : DWord) (skip : Nat) : State :=
  (s.setCore cx.c (cx.given.core.askStop cx.slot (.trap cls detail lane addr skip cx.q cx.e))).bump

/-- The detail codes of R64 as a trap detail. -/
def Cx.illegal (s : State) (cx : Cx) (d : BitVec 8) : State := cx.trap s 0x01 d 0xFFFF 0 0

/-- No lane in particular. -/
def noLane : BitVec 16 := 0xFFFF

/-- A fault-check point stops the team: the record is VALID at level 0, or has grown since the level's entry (R331). -/
def Team.checkStops (t : Team) : Bool :=
  if t.level = 0 then t.record.valid
  else
    match t.frames[t.level - 1]? with
    | none => false
    | some f => decide (t.log.length > f.logn0 ∨ t.record.count > f.count0)

/-- Stops the team at this instruction as a fault-check point does (R331). In the agent slot it completes (R353). -/
def Cx.checkStop (s : State) (cx : Cx) : State :=
  (s.setCore cx.c (cx.given.core.askStop cx.slot (.check cx.q cx.e))).bump

/-! ## Finishing an instruction -/

/-- Followers that windows still cover, after one more instruction (R60). -/
def tickPends (ps : List Pend) : List Pend := ps.map fun p => { p with left := p.left - 1 }

/-- The instruction that an entry waited in for answers of other devices is over; stops that came meanwhile take effect. -/
def Core.over (k : Core) (op : Option Nat) : Core :=
  if k.midways.any fun m => decide (op = some m.id) then ({ k with midways := k.midways.filter fun m => decide (op ≠ some m.id) } : Core).poll else k

/-- The instruction ends: its team and entry are put back, the PC moves to `pc`, records reached are taken. -/
def Cx.finish (s : State) (cx : Cx) (pc : PCWord) : State :=
  let x := { cx.x with pc := pc, pend := tickPends cx.x.pend, stall := none, op := none, snap := none, bw := none }
  ((s.setCore cx.c (({ cx with x := x } : Cx).core.meet cx.q cx.e cx.slot))).bump

/-- Sequential end of an instruction of `len` bytes (R50). -/
def Cx.next (s : State) (cx : Cx) (len : Nat) : State := cx.finish s (cx.x.pc + BitVec.ofNat 56 len)

/-- Sequential end with writes done at once. -/
def Cx.write (s : State) (cx : Cx) (len : Nat) (ws : List Wr) : State :=
  ({ cx with t := cx.t.put ws } : Cx).next s len

/-- Sequential end of a long-latency instruction: with `la` = n the writes wait for n followers (R60). -/
def Cx.writeLate (s : State) (cx : Cx) (len : Nat) (la : Nat) (dests : List RegRef) (ws : List Wr) : State :=
  if la = 0 then cx.write s len ws
  else
    let pend := tickPends cx.x.pend ++ [⟨0, dests, ws, la, true⟩]
    let x := { cx.x with pc := cx.x.pc + BitVec.ofNat 56 len, pend := pend, stall := none, op := none, snap := none, bw := none }
    (s.setCore cx.c (({ cx with x := x } : Cx).core.meet cx.q cx.e cx.slot)).bump

/-! ## Joins by status read (R202) -/

def overlaps (a n b m : Nat) : Bool := decide (a < b + m ∧ b < a + n)

/-- The core owns a word at its home, here or on another device, through its stash when `stash`, else through its L1 (R261, R405). -/
def State.ownsWord (s : State) (c : Nat) (stash : Bool) (x : CSector) (w : Nat) : Bool :=
  let o : Owner := ⟨x.dk, x.dom, x.va / 4 + w, none, c, stash⟩
  (s.slices.any fun sl => sl.owners.contains o) || (s.core c).rown.contains o

/-- Sectors without the words a test names; one with no valid word left is gone. -/
def cutWords (cs : List CSector) (drop : CSector → Nat → Bool) : List CSector :=
  (cs.map fun x => { x with valid := (List.range 8).foldl (fun v w => if drop x w then setBit8 v w false else v) x.valid }).filter
    fun x => x.valid ≠ 0

/-- A fragment's first read of a session's status is its join: the core's L1, stash and gather cache lose every word of the
session's global destination that the core does not own (R202). -/
def Cx.join (s : State) (cx : Cx) (rds : List RegRef) : Cx :=
  let js := cx.t.joins.filter fun j => j.regs.any (rds.contains ·) && !(j.joined.contains (threadNo cx.t.level cx.e))
  if js.isEmpty then cx
  else
    let mine := fun (x : CSector) => match cx.k.lslotOf cx.slot with
      | some l => decide (x.dom = if x.dk then l.sdom else l.asid)
      | none => true
    let gone := fun (stash : Bool) (x : CSector) (w : Nat) =>
      mine x && (js.any fun j => j.ranges.any fun r => overlaps (x.va + 4 * w) 4 r.1 r.2) && !(s.ownsWord cx.c stash x w)
    { cx with
      k := { cx.k with l1 := cutWords cx.k.l1 (gone false), stash := cutWords cx.k.stash (gone true), gcache := cutWords cx.k.gcache (gone false) }
      t := { cx.t with joins := cx.t.joins.map fun j => if js.contains j then { j with joined := threadNo cx.t.level cx.e :: j.joined } else j } }

/-- Issue of an instruction: the scoreboard answers for what it reads and writes, and `f` gives its effect; one that has issued goes on. -/
def issue (s : State) (rds wrs : Cx → List RegRef) (f : Cx → Out) : Out :=
  withFrag s fun cx =>
    if (cx.k.midway? cx.x).isSome then f cx
    else match cx.hold (rds cx) (wrs cx) with
    | .wait => stall s reasonOperand
    | .stop => .next (cx.checkStop s)
    | .go => f ((cx.yieldTo (wrs cx)).join s (rds cx))

/-- Ends an instruction once the fragment's windows are closed (R61): it goes on with its operands as the window read them
(R60) and with the team after the pending writes. -/
def Cx.closing (s : State) (cx : Cx) (f : Cx → Cx → Out) : Out :=
  match cx.close with
  | none => stall s reasonOperand
  | some done => f cx done

/-- Issue of an instruction that, where it acts, waits until every earlier instruction of the fragment has written its
destination (R31, R118); `f` has the operands as read at issue, and the team after those writes. -/
def issueClosed (s : State) (len : Nat) (acts : Cx → Bool) (rds wrs : Cx → List RegRef) (f : Cx → Cx → Out) : Out :=
  issue s rds wrs fun cx => if acts cx then cx.closing s f else .next (cx.next s len)

/-! ## Freed slots (R144) -/

/-- No access of the team's own instructions is on its way. -/
def Core.slotQuiet (k : Core) (slot : Nat) : Bool :=
  !((k.reqs.any fun r => decide (r.slot = slot)) || (k.stores.any fun r => decide (r.slot = slot)) ||
    (k.puts.any fun r => decide (r.slot = slot)) || (k.dqs.any fun r => decide (r.slot = slot)) ||
    (k.tbs.any fun r => decide (r.slot = slot)) || (k.refused.any fun r => decide (r.slot = slot)) ||
    (k.midways.any fun r => decide (r.slot = slot)) || (k.hits.any fun r => decide (r.slot = slot)))

/-- Nothing of the team is on its way, sessions among it: its slot may be freed (R144). -/
def Core.slotIdle (k : Core) (slot : Nat) : Bool :=
  k.slotQuiet slot && !((k.sessions.any fun r => decide (r.slot = slot)) || (k.walks.any fun r => decide (r.slot = slot)))

/-- A slot whose team has retired, with every completion-status write to it arrived (R144). -/
def Core.slotDone (k : Core) (slot : Nat) : Bool :=
  match k.team? slot with
  | some t => decide (t.mode = .retired) && t.busy.isEmpty && k.slotIdle slot
  | none => false

/-- A block's place and, with the launch's last block on the core, its launch slot and lease windows are free (R171). -/
def Core.dropBlock (k : Core) (blk : Nat) : Core :=
  match k.block? blk with
  | none => k
  | some b =>
    let k := { k with blocks := k.blocks.set blk none }
    if k.blocks.any fun x => match x with | some x => decide (x.lslot = b.lslot) | none => false then k
    else { k with lslots := k.lslots.set b.lslot none
                  leases := k.leases.map fun (w : LeaseReg) => if w.tag = b.lslot then LeaseReg.empty else w }

/-- Retired blocks of which no team's slot is left go. -/
def Core.sweep (k : Core) : Core :=
  (List.range 32).foldl (fun k b => match k.block? b with
    | some x => if x.gone && x.ending.isNone && (k.teamsOf b).isEmpty then k.dropBlock b else k
    | none => k) k

/-- Frees the slots and split-table entries of retired teams whose completion-status writes have all arrived (R144). -/
def Core.freeSlots (k : Core) : Core :=
  let gone := (List.range 32).filter k.slotDone
  if gone.isEmpty then k
  else ({ k with
    slots := k.slots.mapIdx fun i t => if gone.contains i then none else t
    quads := k.quads.map fun q => q.map fun x => if x.st ≠ .free ∧ gone.contains x.team then Entry.empty else x } : Core).sweep

/-! ## Request tags (R328) -/

/-- The instruction sequence number is still outstanding (R328). -/
def State.outstanding (s : State) (c slot : Nat) (q : BitVec 16) : Bool :=
  let k := s.core c
  (k.reqs.any fun r => decide (r.slot = slot ∧ r.seq = q)) || (k.stores.any fun r => decide (r.slot = slot ∧ r.seq = q)) ||
  (k.puts.any fun r => decide (r.slot = slot ∧ r.seq = q)) || (k.dqs.any fun r => decide (r.slot = slot ∧ r.seq = q)) ||
  (k.tbs.any fun r => decide (r.slot = slot ∧ r.seq = q)) || (k.sessions.any fun r => decide (r.slot = slot ∧ r.seq = q)) ||
  (k.walks.any fun r => decide (r.slot = slot ∧ r.seq = q)) || (k.refused.any fun r => decide (r.slot = slot ∧ r.seq = q)) ||
  (k.midways.any fun r => decide (r.slot = slot ∧ r.seq = q)) ||
  (s.slices.any fun sl => sl.mg.any fun m => match m.drain with
    | some (c', sl', q', _) => decide (c' = c ∧ sl' = slot ∧ q' = q)
    | none => false)

/-- The next SEQ is free to take, or the instruction has taken its own (R328). -/
def Cx.seqFree (s : State) (cx : Cx) : Bool := (cx.k.midway? cx.x).isSome || !(s.outstanding cx.c cx.slot (cx.t.seq + 1))

/-- Takes the next SEQ, keeping the PC and lane set of the instruction (R328); one that has taken its own keeps it. -/
def Cx.takeSeq (s : State) (cx : Cx) (lanes : Mask) : Cx :=
  if (cx.k.midway? cx.x).isSome then cx
  else
    let q := cx.t.seq + 1
    let old := cx.t.flying.filter fun f => s.outstanding cx.c cx.slot f.seq
    { cx with t := { cx.t with seq := q, flying := old ++ [⟨q, cx.x.pc, lanes, cx.x.mask⟩] } }

/-- The SEQ that an instruction has taken (R328). -/
def Cx.seq (cx : Cx) : BitVec 16 := match cx.k.midway? cx.x with
  | some m => m.seq
  | none => cx.t.seq

/-- An access of an instruction is one of the fragment's earlier ones: some lane of the fragment that issued it is the fragment's
now (R138, R264). -/
def Cx.owns (cx : Cx) (q : BitVec 16) : Bool :=
  match cx.t.flying.find? fun f => decide (f.seq = q) with
  | some f => decide (f.frag &&& cx.x.mask ≠ 0)
  | none => true

/-- The 33-bit request tag (R328). -/
def reqTag (c quad slot : Nat) (q : BitVec 16) : BitVec 33 :=
  BitVec.ofNat 9 c ++ BitVec.ofNat 2 quad ++ BitVec.ofNat 6 slot ++ q

/-- A mask of listed lanes. -/
def maskOf (ls : List Nat) : Mask := ls.foldl (fun m L => m ||| BitVec.ofNat 1024 (2 ^ L)) 0

/-- A fresh identifier (MODEL). -/
def State.fresh (s : State) : Nat × State := (s.nextId, { s with nextId := s.nextId + 1 })

/-! ## The deferred-fault record and the operand log (R330, R333) -/

/-- How long ago an instruction took its SEQ, counted in SEQs (R328). -/
def Team.seqAge (t : Team) (q : BitVec 16) : Nat := (t.seq - q).toNat

/-- Puts an entry behind every entry of an older instruction, and of a lower or equal lane of the same one (R333). -/
def Team.insertLog (t : Team) (e : LogEntry) : List LogEntry → List LogEntry
  | [] => [e]
  | x :: xs =>
    if t.seqAge x.seq < t.seqAge e.seq ∨ (x.seq = e.seq ∧ x.lane.toNat > e.lane.toNat) then e :: x :: xs
    else x :: t.insertLog e xs

/-- Adds entries to the operand log in issue order, under the level the team has now (R336): beyond 256 they are discarded and OVF
is set (R333). -/
def Team.addLog (t : Team) (es : List LogEntry) : Team :=
  es.foldl (fun t e =>
    let e := { e with level := BitVec.ofNat 8 t.level }
    if t.log.length ≥ 256 then { t with record := { t.record with ovf := true } }
    else { t with log := t.insertLog e t.log }) (if es.isEmpty then t else { t with areaDirty := true })

/-- Writes or counts the deferred-fault record (R330). -/
def Team.recordFault (t : Team) (cls : BitVec 8) (tag : BitVec 33) (lane : BitVec 16) (va : Nat) (pc : PCWord) (sess : Bool) : Team :=
  let n := min 65535 (t.record.count + 1)
  if t.record.valid then { t with record := { t.record with count := n }, areaDirty := true }
  else { t with record := { t.record with valid := true, sess := sess, cls := cls, tag := tag, count := n, lane := lane
                                          fva := BitVec.ofNat 64 (va / 32 * 32), fpc := pc.setWidth 64 },
                areaDirty := true }

end Sys2Proof.Machine
end

