-- ==== Sys2Proof/Machine/Home.lean ====
section
/-! DEFINITION. The home side of memory: placement (R303, R404), Firn translation (R305 to R312), L2 lines with
their tags, fills and evictions (R256 to R263, R302, R361), word ownership and stash recall (R185, R261, R262). -/

namespace Sys2Proof.Machine

/-! ## Identifiers and placement -/

/-- The identity an access carries: partition, ASID and share domain with their generations, soft tenant (R258, R307, R359). -/
structure Ident where
  part : Nat
  asid : Nat
  sdom : Nat
  gen : BitVec 16
  sgen : BitVec 16
  tenant : Nat
  /-- The engine whose step makes the access; MODEL. -/
  owner : Nat
  /-- The lease identifier of the launch whose access it is: QID and CMDSEQ (R314, R316). -/
  lease : Option (Nat × Nat)
  /-- Its request tag (R328); `noTag` for an access that no core makes. -/
  tag : Nat
deriving DecidableEq, Repr

/-- The tag of accesses that no core makes: beyond the 33 bits of R328 (DESIGN CHOICE, log 32). -/
def noTag : Nat := 2 ^ 33
/-- The core that a tag names (R328). -/
def tagCore (tag : Nat) : Option Nat := if tag < 384 * 2 ^ 24 then some (tag / 2 ^ 24) else none

/-- VA bit 55: a shared address (R258). -/
def sharedVa (va : Nat) : Bool := va.testBit 55
def Ident.dom (id : Ident) (va : Nat) : Nat := if sharedVa va then id.sdom else id.asid
def Ident.genOf (id : Ident) (va : Nat) : BitVec 16 := if sharedVa va then id.sgen else id.gen

/-- Fields of PENT (R357). -/
def Part.valid (p : Part) : Bool := p.pent.getLsbD 63
def Part.first (p : Part) : Nat := (p.pent.extractLsb' 56 4).toNat
def Part.size (p : Part) : Nat := (p.pent.extractLsb' 52 4).toNat
def Part.abase (p : Part) : Nat := (p.pent.extractLsb' 27 13).toNat
def Part.alen (p : Part) : Nat := (p.pent.extractLsb' 13 14).toNat

/-- The soft tenant that holds an ASID: the lowest valid entry 1 to 15, else tenant 0 (R359, R360). -/
def Part.tenantOf (p : Part) (asid : Nat) : Nat :=
  ((List.range 16).filter fun t =>
    let e := p.tent[t]?.getD 0
    t ≠ 0 && e.getLsbD 63 && decide ((e.extractLsb' 46 13).toNat ≤ asid ∧
      asid < (e.extractLsb' 46 13).toNat + (e.extractLsb' 32 14).toNat)).headD 0

/-- Ways a tenant may fill: 0xFFFF when its entry is not valid (R360). -/
def Part.waysOf (p : Part) (t : Nat) : BitVec 16 :=
  let e := p.tent[t]?.getD 0
  if e.getLsbD 63 then e.extractLsb' 0 16 else 0xFFFF

/-- Home slice in a partition of n slices whose first is f (R303). -/
def homeSlice (f n va : Nat) : Nat :=
  let F := (va / 2 ^ 16 % 2 ^ 16) ^^^ (va / 2 ^ 32 % 2 ^ 16) ^^^ (va / 2 ^ 48 % 2 ^ 8)
  f + F % n

/-- Where an access goes: a slice of this device, or another device's partition (R404). -/
inductive Where
  | here (slice : Nat)
  | away (dev rpart : Nat)
deriving DecidableEq, Repr

/-- A valid entry of the ownership table that serves a partition's piece (R403). -/
def otServes (e : BitVec 128) (first va : Nat) : Bool :=
  e.getLsbD 127 && decide ((e.extractLsb' 88 4).toNat = first) &&
    decide ((e.extractLsb' 0 40).toNat ≤ va / 2 ^ 16 ∧ va / 2 ^ 16 ≤ (e.extractLsb' 40 40).toNat)

/-- The home of an address of a partition (R303, R404); `otable` is kept in ascending entry number. -/
def State.home (s : State) (part va : Nat) : Where :=
  let p := s.part part
  match s.otable.find? fun e => otServes e.2 p.first va with
  | some (_, e) =>
    if (e.extractLsb' 80 8).toNat = s.devnum.toNat % 256 then .here (homeSlice p.first p.size va)
    else .away (e.extractLsb' 80 8).toNat (e.extractLsb' 92 4).toNat
  | none => .here (homeSlice p.first p.size va)

/-- The valid partition that holds a slice; 12, which no partition has, for a slice of none (R356, R364). -/
def State.partOf (s : State) (slice : Nat) : Nat :=
  ((List.range 12).filter fun i =>
    let p := s.part i
    p.valid && decide (p.first ≤ slice ∧ slice < p.first + p.size)).headD 12

/-! ## Islands (R4) -/

/-- Numbers of the islands, in R4's order: cores from 0, crossbars, L2 slices, Moraine units, memory controllers, Serac groups, fabric
ports, die networks, host and management blocks, halves of the copy-engine pool. -/
def islandCrossbar : Nat := 384
def islandSlice : Nat := 432
def islandMoraine : Nat := 444
def islandStack : Nat := 456
def islandSerac : Nat := 468
def islandPort : Nat := 480
def islandNet : Nat := 504
def islandHost : Nat := 508
def islandPool : Nat := 510
/-- An island runs: it is neither gated nor in retention. -/
def State.islandOn (s : State) (i : Nat) : Bool := match s.islands[i]? with
  | some (.run _) => true
  | some _ => false
  | none => true
/-- Clock division of a core: its own, its rail's and clock source's, or the power controller's, whichever is greatest; none while the
core is gated or in retention. -/
def State.coreDiv (s : State) (c : Nat) : Option Nat := match s.islands[c]?.getD (.run 1) with
  | .run d => some (max (max d (s.rails[c / 8]?.getD 1)) (s.throttle.1 + 1))
  | _ => none
/-- The crossbar of a cluster has a clock now: its own division, or its rail's and clock source's, whichever is greater (R4). -/
def State.crossbarRuns (s : State) (cluster : Nat) : Bool := match s.islands[islandCrossbar + cluster]?.getD (.run 1) with
  | .run d => decide (s.clock % max d (s.rails[cluster]?.getD 1) = 0)
  | _ => false
/-- A request reaches a slice: the slice's island and its die's network run, and where a core makes it, its cluster's crossbar and its die's
network. -/
def State.reaches (s : State) (tag slice : Nat) : Bool :=
  s.islandOn (islandSlice + slice) && s.islandOn (islandNet + slice / 3) && match tagCore tag with
    | some c => s.islandOn (islandCrossbar + c / 8) && s.islandOn (islandNet + c / 96)
    | none => true
/-- The host and management blocks: one of them runs. -/
def State.hostUp (s : State) : Bool := s.islandOn islandHost || s.islandOn (islandHost + 1)
/-- A core has a clock of its own now. -/
def State.coreRuns (s : State) (c : Nat) : Bool := match s.coreDiv c with
  | some d => decide (s.clock % d = 0)
  | none => false

/-! ## Counters (R364 to R366) -/

/-- Adds to a partition counter; counts wrap modulo 2^63. -/
def addCtr (x : DWord) (n : Nat) : DWord := BitVec.ofNat 64 (x.toNat / 2 ^ 63 * 2 ^ 63 + (x.toNat + n) % 2 ^ 63)
def State.count (s : State) (part i n : Nat) : State :=
  let p := s.part part
  s.setPart part { p with ctr := p.ctr.modify i (addCtr · n) }
/-- Adds to counter i of a tenant. -/
def State.tcount (s : State) (part t i n : Nat) : State :=
  let p := s.part part
  s.setPart part { p with tctr := p.tctr.modify (8 * t + i) (addCtr · n) }

/-! ## Physical memory -/

/-- Bytes of one stack (R300). -/
def stackBytes : Nat := 48 * 10 ^ 9
def frameCount : Nat := 732421
/-- Physical address of a stack offset. -/
def physAddr (stack off : Nat) : Nat := stack * 2 ^ 36 + off

/-- A number read from a stack by its controller. -/
def State.stackNat (s : State) (stack off n : Nat) : Nat := memNat s.mem (physAddr stack off) n
def State.stackPut (s : State) (stack off n x : Nat) : State := { s with mem := memPutNat s.mem (physAddr stack off) n x }

/-- Telemetry record n of a partition's ring (R422); nothing while TELBASE is 0. TELBASE is
taken as a physical address (DESIGN CHOICE, assumption 30). -/
def State.telRecord (s : State) (part : Nat) (bytes : List Byte) : State :=
  let p := s.part part
  if p.telbase = 0 then s
  else
    let n := 2 ^ ((p.tellog.toNat % 16) + 4)
    let a := p.telbase.toNat + 32 * (p.telwr.toNat % n)
    (({ s with mem := memPutBytes s.mem a bytes } : State).setPart part { p with telwr := p.telwr + 1 }).count part 5 1

/-- Reads one sector from a stack, correcting or poisoning it as its ECC says (R302): data and poison. -/
def State.readStack (s : State) (part pa : Nat) : State × Sector × Bool :=
  let a := pa / 32 * 32
  let rec8 := fun ty => toLeBytes 8 a ++ [BitVec.ofNat 8 (a / 2 ^ 36)] ++ List.replicate 14 0 ++ [ty] ++ List.replicate 8 0
  if s.hardErr.contains a ∧ !(s.poison.contains a) then
    let s := ({ s with poison := a :: s.poison, hardErr := s.hardErr.filter (· ≠ a) } : State).telRecord part (rec8 3)
    (s, memSector s.mem a, true)
  else if s.softErr.contains a then
    let s := ({ s with softErr := s.softErr.filter (· ≠ a) } : State).telRecord part (rec8 1)
    (s, memSector s.mem a, s.poison.contains a)
  else (s, memSector s.mem a, s.poison.contains a)

/-! ## Requests to other devices (R400, R404, R405) -/

/-- The port a piece homed on device h travels on: plane (h + VA[20:16]) mod 24 or the next one up (R400). -/
def State.plane (s : State) (dev va : Nat) : Option Nat :=
  ((List.range 24).map fun i => (dev + va / 2 ^ 16 % 32 + i) % 24).find? fun p => match s.ports[p]? with
    | some x => x.up
    | none => false

/-- Flits of a port, counted for every partition (R364, R365). -/
def State.flits (s : State) (n : Nat) : State := (List.range 12).foldl (fun s i => s.count i 14 n) s

/-! Layout of OP and PAYLOAD as one number, which R399 leaves open (DESIGN CHOICE, log 32): bits 175:0 are OP. Bits 174:0 hold the fields of
a request or response, bit 175 says that the message goes on in the next flit, bits 255:176 the lease identifier, bits 431:256 the sender's
number of the request, and bits 1711:432 five sectors of data. -/

/-- Data bits of one flit, and how many flits a number of data needs. -/
def flitData : Nat := 1280
def flitsOf (data : Nat) : Nat := if data = 0 then 1 else Nat.log2 data / flitData + 1

/-- Flits i, i + 1, … of a message, `n` of them left. -/
def messageFlits (lseq : BitVec 16) (kind : BitVec 8) (src dst tag hdr num : Nat) : Nat → Nat → List Flit
  | 0, _ => []
  | n + 1, data =>
    Flit.make lseq kind src dst tag (hdr + (if n = 0 then 0 else 2 ^ 175) + 2 ^ 256 * (num % 2 ^ 176) + 2 ^ 432 * (data % 2 ^ flitData)) ::
      messageFlits (lseq + 1) kind src dst tag hdr num n (data / 2 ^ flitData)

/-- Puts a message into a port's replay window under the next LSEQs; a request of this device stays outstanding until its answer. Every
partition counts its flits (R364, R365, R399, R401). -/
def State.putFlit (s : State) (port : Nat) (kind : BitVec 8) (src dst tag hdr num data : Nat) : State :=
  match s.ports[port]? with
  | none => s
  | some p =>
    let fs := messageFlits p.txseq kind src dst tag hdr num (flitsOf data) data
    let p := { p with
      window := p.window ++ fs, txseq := p.txseq + BitVec.ofNat 16 fs.length
      out := if kind = 1 ∧ src = s.devnum.toNat % 256 then p.out ++ [num] else p.out }
    ({ s with ports := s.ports.set port p } : State).flits fs.length

/-- The lease identifier as a number of 73 bits: whether there is one, QID, CMDSEQ. -/
def leaseNat : Option (Nat × Nat) → Nat
  | none => 0
  | some (q, i) => 1 + 2 * (q % 2 ^ 16) + 2 ^ 17 * (i % 2 ^ 56)

/-- The core that will own the words of a store, as a number of 11 bits: whether there is one, its stash, the core. -/
def whoNat : Option (Nat × Bool) → Nat
  | none => 0
  | some (c, st) => 1 + (if st then 2 else 0) + 4 * (c % 2 ^ 9)

/-- The fields of a request (R399): operation, address, byte mask, and of the issuer the domain, the generation, the first slice of the
partition that serves it, the ASID, the core that will own what it stores, and the launch's lease identifier (R314, R359). -/
def requestHdr (op va mask dom gen rpart asid : Nat) (who : Option (Nat × Bool)) (lease : Option (Nat × Nat)) : Nat :=
  op + 2 ^ 8 * (va % 2 ^ 64) + 2 ^ 72 * (mask % 2 ^ 32) + 2 ^ 104 * (dom % 2 ^ 13) + 2 ^ 117 * (gen % 2 ^ 16) + 2 ^ 133 * (rpart % 2 ^ 4) +
    2 ^ 137 * (asid % 2 ^ 13) + 2 ^ 150 * whoNat who + 2 ^ 176 * leaseNat lease

/-- First slice of the partition of another device that serves an address (R404). -/
def State.rpartOf (s : State) (id : Ident) (va : Nat) : Nat := match s.home id.part va with
  | .away _ r => r
  | .here _ => 0

/-- Sends a request of an identity to the device that is the home of an address. -/
def State.ask (s : State) (port dev num : Nat) (id : Ident) (op va mask data : Nat) (who : Option (Nat × Bool) := none) : State :=
  s.putFlit port 1 (s.devnum.toNat % 256) dev id.tag
    (requestHdr op va mask (id.dom va) (id.genOf va).toNat (s.rpartOf id va) id.asid who id.lease) num data

/-- The answer of an engine's access to another device has not come yet, or a unit that it needs does not run. -/
def waitCls : BitVec 8 := 0xFF

/-- The name of an engine's step that waits for other devices: its kind and what tells it from the others of its kind (MODEL). -/
def ownerName (kind : Nat) (xs : List Nat) : Nat := xs.foldl (fun n x => n * 2 ^ 64 + x) (2 ^ 64 + kind)

/-- An engine's step, within itself, has met a unit whose island does not run (R4), or words that another device still owns: the step is not
taken now. -/
def State.hold (s : State) (owner : Nat) : State := { s with held := owner :: s.held }

/-- An engine still waits for answers of other devices. -/
def State.remoteWaits (s : State) (owner : Nat) : Bool := s.rbuf.any fun b => decide (b.owner = owner) && b.ans.isNone

/-- The slice through which requests to another device leave (R405). -/
def State.exitSlice (s : State) (id : Ident) (va : Nat) : Nat := let p := s.part id.part; homeSlice p.first p.size va

/-- The address by which an access of an operation is known: a sector for reads and writes. -/
def remoteAt (op va : Nat) : Nat := if op ≤ 1 then va / 32 * 32 else va

/-- An engine's access to another device: its answer, or `waitCls` after the request has left (R405). A write or a step leaves only when
the engine waits for nothing else. -/
def State.remote (s : State) (id : Ident) (dev va op : Nat) (mask : Word) (data : Sector) (who : Option (Nat × Bool) := none) :
    State × Sum Sector (BitVec 8) :=
  match s.rbuf.find? fun b => decide (b.owner = id.owner ∧ b.part = id.part ∧ b.dk = sharedVa va ∧ b.dom = id.dom va ∧
      b.va = remoteAt op va ∧ b.op = op ∧ b.mask = mask ∧ b.data = data) with
  | some b => (s, b.ans.getD (.inr waitCls))
  | none =>
    if !(s.reaches id.tag (s.exitSlice id va)) then (s.hold id.owner, .inr waitCls)
    else if op ≠ 0 && s.remoteWaits id.owner then (s, .inr waitCls)
    else match s.plane dev va with
    | none => (s, .inr 0x16)
    | some p =>
      let (num, s) := s.fresh
      let b : RemBuf := ⟨id.owner, id.part, sharedVa va, id.dom va, remoteAt op va, op, mask, data, num, none, false, false, false⟩
      (({ s with rbuf := s.rbuf ++ [b] } : State).ask p dev num id op va mask.toNat data.toNat who, .inr waitCls)

/-- Flits that have entered replay windows between two states. -/
def flitsBetween (s s' : State) : Nat := (s'.ports.map (·.window.length)).sum - (s.ports.map (·.window.length)).sum

/-- A step of an engine that ended here is not taken yet: answers are missing, or it is held. -/
def State.waitsFor (s : State) (owner : Nat) : Bool := s.remoteWaits owner || !s.held.isEmpty

/-- Of a step tried from `s` and ended in `s'` only its requests to other devices have left. -/
def State.sent (s s' : State) : State :=
  ({ s with rbuf := s'.rbuf, ports := s'.ports, nextId := s'.nextId } : State).flits (flitsBetween s s')

/-- An owner's answers have been used up. -/
def State.dropAnswers (s : State) (owner : Nat) : State := { s with rbuf := s.rbuf.filter fun (b : RemBuf) => decide (b.owner ≠ owner) }

/-- A part of a step, tried from `s` and ended in `s'`, is taken, or only its requests have left. -/
def State.kept (s s' : State) (owner : Nat) : State × Bool :=
  if s'.waitsFor owner then (s.sent s', false) else (s'.dropAnswers owner, true)

/-- An engine's step tried from `s` and ending in `s'`: while answers are missing, or it is held, only its requests have left, and it is
tried again; else it goes on with the answers used up. -/
def remoteGate (s s' : State) (owner : Nat) (idle : Out) (k : State → Out) : Out :=
  if s'.waitsFor owner then
    if s'.rbuf.length = s.rbuf.length then idle else .next (s.sent s').bump
  else k (s'.dropAnswers owner)

/-- A step of an engine that has found that it is not due: the answers of other devices it has looked at are used up, so that it asks anew. -/
def remoteIdle (s s' : State) (owner : Nat) : Out :=
  remoteGate s s' owner (.refused .eventNotDue) fun _ =>
    if s.rbuf.any fun b => decide (b.owner = owner) then .next (s.dropAnswers owner).bump else .refused .eventNotDue

/-! ## Translation (R305 to R312) -/

/-- Where the ASID table or domain table entry of an identifier stands in its stack, and the entry (R307). -/
def State.idEntryAt (s : State) (slice : Nat) (dk : Bool) (id : Nat) : Nat :=
  (if dk then (s.slice slice).dombase else (s.slice slice).asidbase).toNat + 8 * id
def State.idEntry (s : State) (slice : Nat) (dk : Bool) (id : Nat) : BitVec 64 := BitVec.ofNat 64 (s.stackNat slice (s.idEntryAt slice dk id) 8)
def idGen (e : BitVec 64) : BitVec 16 := e.extractLsb' 34 16
def idSdom (e : BitVec 64) : Nat := (e.extractLsb' 50 13).toNat

/-- Answers of a translation: physical address of the byte with its rights, a fault class, or rights that forbid the
access (R310). -/
inductive Trans
  | ok (pa : Nat) (pr pw : Bool)
  | bad (cls : BitVec 8)
  | denied (pr pw : Bool)
deriving DecidableEq, Repr

/-- Result of a table walk: a leaf's level and entry, "not present", "table malformed", or a poisoned sector. -/
inductive Walked
  | leaf (level : Nat) (e : BitVec 64)
  | absent
  | malformed
  | poisoned
deriving DecidableEq, Repr

/-- Index of a table level in an address, and the alignment of that level's table (R308). -/
def levelIndex (level va : Nat) : Nat :=
  match level with
  | 1 => va / 2 ^ 48 % 256
  | 2 => va / 2 ^ 39 % 512
  | 3 => va / 2 ^ 30 % 512
  | 4 => va / 2 ^ 21 % 512
  | _ => va / 2 ^ 16 % 32
def levelAlign (level : Nat) : Nat := if level = 1 then 2048 else if level = 5 then 256 else 4096

/-- A Firn's read of 8 bytes of table memory, through its stack's ECC (R302), counted as a sector read (R312, R365; log 69): the number, and
whether the sector is poisoned. -/
def State.firnNat (s : State) (slice off : Nat) : State × BitVec 64 × Bool :=
  let r := s.readStack (s.partOf slice) (physAddr slice off)
  (r.1.count (s.partOf slice) 4 1, BitVec.ofNat 64 (s.stackNat slice off 8), r.2.2)

/-- Reads one table entry after another from the level-1 table (R308, R310); `n` levels are left. An entry that would lie beyond
the stack's end makes the table malformed, where the manual names no outcome (DESIGN CHOICE, assumption 105). -/
def State.walkTables (s : State) (slice va : Nat) : Nat → Nat → Nat → State × Walked
  | 0, _, _ => (s, .absent)
  | n + 1, level, table =>
    if table % levelAlign level ≠ 0 ∨ table + 8 * levelIndex level va + 8 > stackBytes then (s, .malformed)
    else
      let (s, e, bad) := s.firnNat slice (table + 8 * levelIndex level va)
      let isLeaf := e.getLsbD 62
      if bad then (s, .poisoned)
      else if e.extractLsb' 36 24 ≠ 0 ∨ e.extractLsb' 0 8 ≠ 0 then (s, .malformed)
      else if isLeaf then
        if level ≤ 2 ∨ e.extractLsb' 8 8 ≠ 0 then (s, .malformed)
        else if e.getLsbD 63 then (s, .leaf level e) else (s, .absent)
      else if !(e.getLsbD 63) then (s, .absent)
      else if level = 5 then (s, .malformed)
      else s.walkTables slice va n (level + 1) ((e.extractLsb' 8 28).toNat * 256)

/-- Pieces of a leaf's page by level (R308). -/
def levelPieces (level : Nat) : Nat := if level = 3 then 16384 else if level = 4 then 32 else 1

/-- How many pieces of a page below the wanted one are homed at this slice too (R309). -/
def State.piecesBelow (s : State) (slice first va : Nat) : Nat :=
  ((List.range (va / 2 ^ 16 - first)).filter fun m => decide (s.home (s.partOf slice) ((first + m) * 2 ^ 16) = .here slice)).length

/-- The leaf of a translation, from the TLB or the tables (R312): first piece, pieces, frame base, rights. A full TLB drops the entry
filled longest ago, which R312 leaves open (DESIGN CHOICE, log 123). -/
def State.leafOf (s : State) (slice : Nat) (dk : Bool) (id va : Nat) (root : Nat) : State × Sum TlbEnt (BitVec 8) :=
  let sl := s.slice slice
  let piece := va / 2 ^ 16
  match sl.tlb.find? fun t => decide (t.dk = dk ∧ t.id = id ∧ t.vpn ≤ piece ∧ piece < t.vpn + t.size) with
  | some t => (s, .inl t)
  | none =>
    let s := s.count (s.partOf slice) 6 1
    match s.walkTables slice va 5 1 root with
    | (s, .absent) => (s, .inr 0x11)
    | (s, .malformed) => (s, .inr 0x12)
    | (s, .poisoned) => (s, .inr 0x15)
    | (s, .leaf level e) =>
      let n := levelPieces level
      let t : TlbEnt := ⟨dk, id, piece / n * n, n, (e.extractLsb' 8 28).toNat * 256, e.getLsbD 61, e.getLsbD 60⟩
      let sl := s.slice slice
      (s.setSlice slice { sl with tlb := (t :: sl.tlb).take 262144 }, .inl t)

/-- A reserved field of an identifier's entry is nonzero (R307, R310): bits 33:28, and in the domain table bits 62:50. -/
def idMalformed (dk : Bool) (e : BitVec 64) : Bool := decide (e.extractLsb' 28 6 ≠ 0) || (dk && decide (idSdom e ≠ 0))

/-- Translates an address at the Firn of a slice (R310): the first condition of the list that holds. A table sector that is poisoned refuses
the request as "poison" (R302; DEDUCED, log 131). -/
def State.translate (s : State) (slice : Nat) (dk : Bool) (id : Nat) (gen : BitVec 16) (va : Nat) (rd wr : Bool) : State × Trans :=
  let (s, e, bad) := s.firnNat slice (s.idEntryAt slice dk id)
  if bad then (s, .bad 0x15)
  else if gen ≠ idGen e then (s, .bad 0x14)
  else if !((s.slice slice).fctl.getLsbD 0) || !(e.getLsbD 63) then (s, .bad 0x11)
  else if idMalformed dk e then (s, .bad 0x12)
  else
    match s.leafOf slice dk id va ((e.extractLsb' 0 28).toNat * 256) with
    | (s, .inr cls) => (s, .bad cls)
    | (s, .inl t) =>
      let frame := t.base / 2 ^ 16 + (if t.size = 1 then 0 else s.piecesBelow slice t.vpn va)
      if frame ≥ frameCount then (s, .bad 0x12)
      else
        let (s, r, bad) := s.firnNat slice ((s.slice slice).framebase.toNat + 8 * frame)
        if bad then (s, .bad 0x15)
        else if r.extractLsb' 40 9 ≠ 0 then (s, .bad 0x12)
        else if !(r.getLsbD 63) || decide (r.getLsbD 62 ≠ dk) || decide ((r.extractLsb' 49 13).toNat ≠ id) ||
            decide ((r.extractLsb' 0 40).toNat ≠ va / 2 ^ 16) then (s, .bad 0x13)
        else if (rd && !t.pr) || (wr && !t.pw) then (s, .denied t.pr t.pw)
        else (s, .ok (physAddr slice (frame * 2 ^ 16 + va % 2 ^ 16)) t.pr t.pw)

/-! ## L2 lines -/

def setOf (va : Nat) : Nat := va / 128 % 16384
def subOf (va : Nat) : Nat := va / 32 % 4
def vtagOf (va : Nat) : BitVec 35 := BitVec.ofNat 35 (va / 2 ^ 21)
/-- The line's address without its sector bits. -/
def lineVa (key : Nat) (l : Line) : Nat := l.vtag.toNat * 2 ^ 21 + key / 16 * 128

/-- The way that holds a line of an address and domain, whatever its generation. -/
def Slice.find (sl : Slice) (dk : Bool) (dom va : Nat) : Option (Nat × Line) :=
  sl.lines.find? fun kl => decide (kl.1 / 16 = setOf va ∧ kl.2.vtag = vtagOf va ∧ kl.2.dk = dk ∧ kl.2.dom = dom)

/-- A hit by R259: tag, generation, sector valid, permission. -/
def Slice.hit (sl : Slice) (dk : Bool) (dom : Nat) (gen : BitVec 16) (va : Nat) (rd wr : Bool) : Option Nat :=
  match sl.find dk dom va with
  | none => none
  | some (key, l) =>
    if l.gen = gen.extractLsb' 0 4 ∧ l.valid.getLsbD (subOf va) ∧ (!rd || l.pr) ∧ (!wr || l.pw) then some key else none

/-- Puts a line into a way; ways stay in ascending order. -/
def putWay (ls : List (Nat × Line)) (key : Nat) (l : Line) : List (Nat × Line) :=
  (ls.filter fun kl => decide (kl.1 < key)) ++ [(key, l)] ++ (ls.filter fun kl => decide (kl.1 > key))
def dropWay (ls : List (Nat × Line)) (key : Nat) : List (Nat × Line) := ls.filter fun kl => decide (kl.1 ≠ key)
def Slice.way? (sl : Slice) (key : Nat) : Option Line := (sl.lines.find? fun kl => decide (kl.1 = key)).map (·.2)

/-- The line of an address under a generation, if the L2 holds one, takes the rights of a new translation (R259). -/
def State.newRights (s : State) (i : Nat) (dk : Bool) (dom : Nat) (gen : BitVec 16) (va : Nat) (pr pw : Bool) : State :=
  let sl := s.slice i
  match sl.find dk dom va with
  | none => s
  | some (key, l) =>
    if l.gen = gen.extractLsb' 0 4 then s.setSlice i { sl with lines := putWay sl.lines key { l with pr := pr, pw := pw } } else s

def setNib (x : BitVec 4) (i : Nat) (b : Bool) : BitVec 4 :=
  if b then x ||| BitVec.ofNat 4 (2 ^ i) else x &&& ~~~(BitVec.ofNat 4 (2 ^ i))

/-! ## Word ownership -/

/-- Words of a sector that a byte mask touches, as word addresses. -/
def wordsOf (va : Nat) (mask : Word) : List Nat :=
  ((List.range 8).filter fun w => mask.extractLsb' (4 * w) 4 ≠ 0).map fun w => va / 32 * 8 + w

/-- Drops words from a core's cached sectors. -/
def dropWords (cs : List CSector) (dk : Bool) (dom : Nat) (words : List Nat) : List CSector :=
  (cs.map fun c =>
    if c.dk = dk ∧ c.dom = dom then
      { c with valid := (List.range 8).foldl (fun v w => if words.contains (c.va / 32 * 8 + w) then setBit8 v w false else v) c.valid }
    else c).filter fun c => c.valid ≠ 0

/-- A byte mask of the words of a sector named by an 8-bit word mask. -/
def byteMask (m : BitVec 8) : Word :=
  (List.range 8).foldl (fun a w => if m.getLsbD w then a ||| ((0xF : Word) <<< (4 * w)) else a) 0

/-- The owned words of a stash sector. -/
def Core.stashSector (k : Core) (dk : Bool) (dom va : Nat) : Option CSector :=
  k.stash.find? fun c => decide (c.va = va / 32 * 32 ∧ c.dk = dk ∧ c.dom = dom)

/-- Merges bytes into a sector of a line and marks it dirty. -/
def Line.merge (l : Line) (sub : Nat) (mask : Word) (x : Sector) : Line :=
  { l with data := l.data.modify sub (mergeSector · mask x), dirty := setNib l.dirty sub true }

def State.setLine (s : State) (i key : Nat) (l : Line) : State :=
  let sl := s.slice i
  s.setSlice i { sl with lines := putWay sl.lines key l }

/-- Who may own words (R261): a core of this device, or of another one, through its L1 or its stash. -/
structure Holder where
  dev : Option Nat
  core : Nat
  stash : Bool
deriving DecidableEq, Repr
def Owner.holder (o : Owner) : Holder := ⟨o.dev, o.core, o.stash⟩

/-- The owner is one of some words of a domain. -/
def Owner.among (o : Owner) (dk : Bool) (dom : Nat) (words : List Nat) : Bool := decide (o.dk = dk ∧ o.dom = dom) && words.contains o.word

/-- Owner name of the requests that take words back from cores of other devices (MODEL). -/
def revokeOwner : Nat := 2 ^ 47

/-- Takes words of one sector back from a holder on another device: its request leaves once, and the step is held until the answer
has given them back. A device that no port reaches keeps nothing (DESIGN CHOICE, log 132). -/
def State.callOne (s : State) (i : Nat) (dk : Bool) (dom sect owner : Nat) (h : Holder) (words : List Nat) : State :=
  let dev := h.dev.getD 0
  let who := whoNat (some (h.core, h.stash))
  if s.rbuf.any fun b => decide (b.owner = revokeOwner ∧ b.dk = dk ∧ b.dom = dom ∧ b.va = 32 * sect ∧ b.data.toNat = who + 2 ^ 11 * dev) then s.hold owner
  else
    match s.plane dev (32 * sect) with
    | none =>
      let sl := s.slice i
      s.setSlice i { sl with owners := sl.owners.filter fun o => !(o.among dk dom words && decide (o.holder = h)) }
    | some p =>
      let part := s.partOf i
      let mask := (words.filter fun w => decide (w / 8 = sect)).foldl (fun m w => m ||| 2 ^ (w % 8)) 0
      let id : Ident := ⟨part, dom, dom, 0, 0, 0, revokeOwner, none, noTag⟩
      let (num, s) := s.fresh
      let b : RemBuf := ⟨revokeOwner, part, dk, dom, 32 * sect, 10, BitVec.ofNat 32 mask, BitVec.ofNat 256 (who + 2 ^ 11 * dev), num, none, false, false, false⟩
      (({ s with rbuf := s.rbuf ++ [b] } : State).ask p dev num id 10 (32 * sect) mask 0 (some (h.core, h.stash))).hold owner

/-- Words that cores of other devices own, of their stashes alone where `stash`, and but for one holder, are taken back before a step of
an engine goes on (R262, R405). -/
def State.callIn (s : State) (i : Nat) (dk : Bool) (dom : Nat) (words : List Nat) (stash : Bool) (keep : Option Holder) (owner : Nat) : State :=
  let os := (s.slice i).owners.filter fun o => o.dev.isSome && o.among dk dom words && (!stash || o.stash) && decide (keep ≠ some o.holder)
  ((os.map fun o => (o.holder, o.word / 8)).eraseDups).foldl (fun s x =>
    s.callOne i dk dom x.2 owner x.1 ((os.filter fun o => decide (o.holder = x.1)).map (·.word))) s

/-- Revokes the owners of words other than `keep`: an L1 drops its copy, a stash writes its word back and drops it (R262). -/
def State.revoke (s : State) (i key : Nat) (dk : Bool) (dom : Nat) (words : List Nat) (keep : Option Holder) (owner : Nat) : State :=
  let s := s.callIn i dk dom words false keep owner
  let gone := fun (o : Owner) => o.among dk dom words && decide (keep ≠ some o.holder) && o.dev.isNone
  let s := ((s.slice i).owners.filter gone).foldl (fun s o =>
    let k := s.core o.core
    if o.stash then
      let s := match k.stashSector dk dom (o.word * 4), (s.slice i).way? key with
        | some c, some l => s.setLine i key (l.merge (subOf (o.word * 4)) (byteMask (BitVec.ofNat 8 (2 ^ (o.word % 8)))) c.data)
        | _, _ => s
      let kept := k.stash.map fun c =>
        if c.va = o.word * 4 / 32 * 32 ∧ c.dk = dk ∧ c.dom = dom then { c with owned := setBit8 c.owned (o.word % 8) false } else c
      s.setCore o.core { k with stash := dropWords kept dk dom [o.word] }
    else s.setCore o.core { k with l1 := dropWords k.l1 dk dom [o.word] }) s
  let sl := s.slice i
  s.setSlice i { sl with owners := sl.owners.filter fun o => !(gone o) }

/-- Another agent's read recalls a sector from the stashes that own words of it, but for the reader's: they write the words back and
the L2 owns them again (R185). -/
def State.recall (s : State) (i key : Nat) (dk : Bool) (dom va : Nat) (reader : Option Holder) (owner : Nat) : State :=
  let words := (List.range 8).map fun w => va / 32 * 8 + w
  let s := s.callIn i dk dom words true reader owner
  let os := (s.slice i).owners.filter fun o => o.among dk dom words && o.stash && decide (reader ≠ some o.holder) && o.dev.isNone
  let s := os.foldl (fun s o =>
    let k := s.core o.core
    let s := match k.stashSector dk dom va, (s.slice i).way? key with
      | some c, some l => s.setLine i key (l.merge (subOf va) (byteMask (BitVec.ofNat 8 (2 ^ (o.word % 8)))) c.data)
      | _, _ => s
    s.setCore o.core { k with stash := k.stash.map fun c =>
      if c.va = va / 32 * 32 ∧ c.dk = dk ∧ c.dom = dom then { c with owned := setBit8 c.owned (o.word % 8) false } else c }) s
  let sl := s.slice i
  s.setSlice i { sl with owners := sl.owners.filter fun o => !(os.contains o) }

/-- Words that a holder owns at a slice come back with data: what it still owns enters the line, and the L2 owns it (R185, R262). -/
def State.takeBack (s : State) (i : Nat) (dk : Bool) (dom va : Nat) (mask : Word) (x : Sector) (h : Holder) : State :=
  let mine := (s.slice i).owners.filter fun o => o.among dk dom (wordsOf va mask) && decide (o.holder = h)
  let m := byteMask (mine.foldl (fun (m : BitVec 8) o => setBit8 m (o.word % 8) true) 0)
  let s := match (s.slice i).find dk dom va with
    | some (key, l) => if m = 0 then s else s.setLine i key (l.merge (subOf va) m x)
    | none => s
  let sl := s.slice i
  s.setSlice i { sl with owners := sl.owners.filter fun o => !(mine.contains o) }

/-- Words that a holder on another device has given back when asked: a stash's data enters the line, and the L2 owns them (R262). Bits 7:0
above the sector name the words whose data came. -/
def State.givenBack (s : State) (b : RemBuf) (data : Nat) : State :=
  match s.home b.part b.va with
  | .away _ _ => s
  | .here i =>
    let who := b.data.toNat
    let h : Holder := ⟨some (who / 2 ^ 11), who / 4 % 2 ^ 9, who.testBit 1⟩
    let words := ((List.range 8).filter fun w => b.mask.getLsbD w).map fun w => b.va / 32 * 8 + w
    let s := s.takeBack i b.dk b.dom b.va (byteMask (BitVec.ofNat 8 (data / 2 ^ 256))) (BitVec.ofNat 256 data) h
    let sl := s.slice i
    s.setSlice i { sl with owners := sl.owners.filter fun o => !(o.among b.dk b.dom words && decide (o.holder = h)) }

/-! ## Write-back, eviction and fill -/

/-- Writes the dirty sectors of a line to its stack (R263). At an eviction they are charged to its FILLER (R362); invalidations and
flushes count in no tenant's counters (R366). -/
def State.writeBack (s : State) (i key : Nat) (charge : Bool) : State :=
  match (s.slice i).way? key with
  | none => s
  | some l =>
    let dirty := (List.range 4).filter fun j => l.dirty.getLsbD j
    let s := dirty.foldl (fun s j =>
      let a := l.pa + 32 * j
      { s with
        mem := memPutBytes s.mem a (toLeBytes 32 (l.data[j]?.getD 0).toNat)
        poison := if l.poison.getLsbD j then s.poison else s.poison.filter fun x => decide (x ≠ a) }) s
    let n := dirty.length
    let part := s.partOf i
    let s := ((s.setLine i key { l with dirty := 0 }).count part 3 n).count part 5 n
    if charge then s.tcount part l.filler 4 n else s

/-- Every owner of a line's words is revoked and its dirty sectors are written back; the way is invalid (R263). -/
def State.evict (s : State) (i key : Nat) (charge : Bool) (owner : Nat) : State :=
  match (s.slice i).way? key with
  | none => s
  | some l =>
    let a := lineVa key l
    let s := s.revoke i key l.dk l.dom ((List.range 32).map fun w => a / 4 + w) none owner
    let s := s.writeBack i key charge
    let sl := s.slice i
    s.setSlice i { sl with lines := dropWay sl.lines key }

/-- The way a fill takes (R361): of the tenant's unpinned ways, or of every unpinned way when all of its own are pinned, the
lowest invalid one, else one that the replacement state chooses, which the manual leaves open; whether it lies outside WAYS. -/
def State.victim (s : State) (i part tenant set : Nat) : Nat × Bool × State :=
  let sl := s.slice i
  let ways := (s.part part).waysOf tenant
  let lineAt := fun w => sl.way? (16 * set + w)
  let free := fun w => match lineAt w with
    | none => true
    | some l => !l.pin
  let own := (List.range 16).filter fun w => ways.getLsbD w && free w
  let cand := if own.isEmpty then (List.range 16).filter free else own
  match cand.filter fun w => (lineAt w).isNone with
  | w :: _ => (w, own.isEmpty, s)
  | [] =>
    (cand[Config.freeWay s.free % cand.length]?.getD 0, own.isEmpty, { s with free := s.free + 1 })

/-- Fills the sector of an address whose translation gave `pa` (R259, R361): the line's rights become the
translation's; a new line evicts its victim first. Answers the way. -/
def State.fill (s : State) (i : Nat) (id : Ident) (va pa : Nat) (pr pw : Bool) : State × Nat :=
  let dk := sharedVa va
  let dom := id.dom va
  let part := s.partOf i
  let sub := subOf va
  let (s, x, bad) := s.readStack part pa
  let s := (s.count part 4 1)
  let w := s.watch.contains (pa / 32 * 32)
  match (s.slice i).find dk dom va with
  | some (key, l) =>
    if l.valid.getLsbD sub then (s.setLine i key { l with pr := pr, pw := pw }, key)
    else
      (s.setLine i key { l with pr := pr, pw := pw, valid := setNib l.valid sub true, dirty := setNib l.dirty sub false
                                poison := setNib l.poison sub bad, watch := setNib l.watch sub w, data := l.data.set sub x }, key)
  | none =>
    let (w0, out, s) := s.victim i part id.tenant (setOf va)
    let key := 16 * setOf va + w0
    let s := match (s.slice i).way? key with
      | none => s
      | some l => ((s.count part 2 1).tcount part l.filler 2 1).tcount part id.tenant 3 1
    let s := s.evict i key true id.owner
    let l : Line :=
      { vtag := vtagOf va, dk := dk, dom := dom, gen := (id.genOf va).extractLsb' 0 4, pr := pr, pw := pw, pin := false
        watch := setNib 0 sub w, valid := setNib 0 sub true, dirty := 0, filler := id.tenant, pa := pa / 128 * 128
        data := (List.replicate 4 0).set sub x, poison := setNib 0 sub bad }
    let s := (s.setLine i key l).tcount part id.tenant 0 1
    (if out then s.tcount part id.tenant 5 1 else s, key)

/-- A line with a stale generation is invalidated on a miss, its dirty sectors written back first (R259). -/
def State.dropStale (s : State) (i : Nat) (id : Ident) (va : Nat) : State :=
  match (s.slice i).find (sharedVa va) (id.dom va) va with
  | none => s
  | some (key, l) => if l.gen = (id.genOf va).extractLsb' 0 4 then s else s.evict i key false id.owner

/-- The L2's answer to an access at its home. -/
inductive Got
  | ok (s : State) (key : Nat)
  | bad (s : State) (cls : BitVec 8)

/-- Misses in flight: those not refused yet (R306). -/
def Slice.inFlight (sl : Slice) : Nat :=
  (sl.misses.filter fun m => match m.res with | some (.inl _) => false | _ => true).length

/-- A miss goes to the Firn: MISSHW keeps the highest number of misses in flight, at most 32,768 (R306, R312). -/
def Slice.addMiss (sl : Slice) : Slice :=
  { sl with misshw := BitVec.ofNat 64 (max sl.misshw.toNat (min 32768 (sl.inFlight + 1))) }

/-- Finds or fills the sector of an address at its home slice, translation and fill in one step. A slice that the request cannot reach, or
on a miss a memory controller that does not run, holds it (R4). -/
def State.ensure (s : State) (i : Nat) (id : Ident) (va : Nat) (rd wr : Bool) : Got :=
  let part := s.partOf i
  if !(s.reaches id.tag i) then .bad (s.hold id.owner) waitCls
  else match (s.slice i).hit (sharedVa va) (id.dom va) (id.genOf va) va rd wr with
  | some key => .ok ((s.count part 0 1).tcount part id.tenant 1 1) key
  | none =>
    if !(s.islandOn (islandStack + i)) then .bad (s.hold id.owner) waitCls else
    let s := ((s.setSlice i (s.slice i).addMiss).count part 1 1).dropStale i id va
    match s.translate i (sharedVa va) (id.dom va) (id.genOf va) va rd wr with
    | (s, .bad cls) => .bad s cls
    | (s, .denied pr pw) => .bad (s.newRights i (sharedVa va) (id.dom va) (id.genOf va) va pr pw) 0x10
    | (s, .ok pa pr pw) => let r := s.fill i id va pa pr pw; .ok r.1 r.2

/-- Reads a sector at a way that holds it: stashes that own words of it are recalled first; a poisoned one is refused (R302). -/
def State.readWay (s : State) (i key : Nat) (id : Ident) (va : Nat) (reader : Option Holder) : State × Sum Sector (BitVec 8) :=
  let s := s.recall i key (sharedVa va) (id.dom va) va reader id.owner
  match (s.slice i).way? key with
  | none => (s, .inr 0x11)
  | some l => if l.poison.getLsbD (subOf va) then (s, .inr 0x15) else (s, .inl (l.data[subOf va]?.getD 0))

/-- Writes masked bytes of a sector at a way that holds it, as one accepted store (R262): other owners are revoked,
the bytes enter the line, the words belong to `owner`, or to the L2. A partial store to a poisoned sector is refused. -/
def State.writeWay (s : State) (i key : Nat) (id : Ident) (va : Nat) (mask : Word) (x : Sector) (owner : Option Holder) :
    State × Option (BitVec 8) :=
  let dk := sharedVa va
  let dom := id.dom va
  match (s.slice i).way? key with
  | none => (s, some 0x11)
  | some l0 =>
    if l0.poison.getLsbD (subOf va) ∧ mask ≠ 0xFFFFFFFF then (s, some 0x15)
    else
      let words := wordsOf va mask
      let s := s.revoke i key dk dom words owner id.owner
      match (s.slice i).way? key with
      | none => (s, some 0x11)
      | some l =>
        let s := s.setLine i key { l.merge (subOf va) mask x with poison := setNib l.poison (subOf va) false }
        let sl := s.slice i
        let rest := sl.owners.filter fun o => !(o.among dk dom words)
        let mine := match owner with
          | none => []
          | some h => words.map fun w => (⟨dk, dom, w, h.dev, h.core, h.stash⟩ : Owner)
        (s.setSlice i { sl with owners := rest ++ mine }, none)

/-! ## Whole ranges at their homes -/

/-- The sectors of a byte range: address of each part and its bytes. -/
def rangeParts (va n : Nat) : List (Nat × Nat) :=
  if n = 0 then []
  else (List.range ((va + n - 1) / 32 - va / 32 + 1)).map fun i =>
    let a := max va ((va / 32 + i) * 32)
    (a, min (va + n) ((va / 32 + i + 1) * 32) - a)

/-- Reads one sector at its home, translation and fill in the same step. -/
def State.sectorRead (s : State) (id : Ident) (va : Nat) : State × Sum Sector (BitVec 8) :=
  match s.home id.part va with
  | .away dev _ => s.remote id dev va 0 0 0
  | .here i =>
    match s.ensure i id va true false with
    | .bad s cls => (s, .inr cls)
    | .ok s key => s.readWay i key id va none

/-- Reads bytes at their homes: the bytes, or the class and the address of the first refusal. -/
def State.homeReadAt (s : State) (id : Ident) (va n : Nat) : State × Sum (List Byte) (BitVec 8 × Nat) :=
  (rangeParts va n).foldl (fun (st : State × Sum (List Byte) (BitVec 8 × Nat)) p =>
    match st.2 with
    | .inr _ => st
    | .inl bs =>
      match st.1.sectorRead id p.1 with
      | (s, .inr cls) => (s, .inr (cls, p.1))
      | (s, .inl x) => (s, .inl (bs ++ toLeBytes p.2 (sectorNat x (p.1 % 32) p.2)))) (s, .inl [])

/-- Reads bytes at their homes: the bytes, or the class of the first refusal. -/
def State.homeRead (s : State) (id : Ident) (va n : Nat) : State × Sum (List Byte) (BitVec 8) :=
  match s.homeReadAt id va n with
  | (s, .inl bs) => (s, .inl bs)
  | (s, .inr bad) => (s, .inr bad.1)

/-- One sector write of an agent that owns no words, accepted or refused at its home. -/
def State.sectorWrite (s : State) (id : Ident) (va : Nat) (mask : Word) (x : Sector) : State × Option (BitVec 8) :=
  match s.home id.part va with
  | .away dev _ =>
    match s.remote id dev va 1 mask x with
    | (s, .inr cls) => (s, some cls)
    | (s, .inl _) => (s, none)
  | .here i =>
    match s.ensure i id va false true with
    | .bad s cls => (s, some cls)
    | .ok s key => s.writeWay i key id va mask x none

/-- Writes bytes at their homes as accepted sector writes of an agent that owns no words. Each sector is accepted or refused on
its own; the classes and addresses of the refusals come back. -/
def State.homeWriteAll (s : State) (id : Ident) (va : Nat) (bytes : List Byte) : State × List (BitVec 8 × Nat) :=
  (rangeParts va bytes.length).foldl (fun (st : State × List (BitVec 8 × Nat)) p =>
    let x := BitVec.ofNat 256 (leBytes ((bytes.drop (p.1 - va)).take p.2)) <<< (8 * (p.1 % 32))
    let w := st.1.sectorWrite id p.1 (BitVec.ofNat 32 ((2 ^ p.2 - 1) * 2 ^ (p.1 % 32))) x
    (w.1, st.2 ++ (w.2.map fun cls => (cls, p.1)).toList)) (s, [])

/-- Writes bytes at their homes: the first refusal's class and address come back. -/
def State.homeWrite (s : State) (id : Ident) (va : Nat) (bytes : List Byte) : State × Option (BitVec 8 × Nat) :=
  let r := s.homeWriteAll id va bytes
  (r.1, r.2.head?)

/-- A little-endian number read at its homes. -/
def State.homeNat (s : State) (id : Ident) (va n : Nat) : State × Sum Nat (BitVec 8) :=
  match s.homeRead id va n with
  | (s, .inl bs) => (s, .inl (leBytes bs))
  | (s, .inr cls) => (s, .inr cls)
def State.homePut (s : State) (id : Ident) (va n x : Nat) : State × Option (BitVec 8 × Nat) := s.homeWrite id va (toLeBytes n x)

end Sys2Proof.Machine
end

