-- ==== Sys2Proof/Machine/Access.lean ====
section
/-! DEFINITION. Memory requests of a core: lease windows (R171, R172), the L1 (R170, R177), the late-fault store
buffer (R174, R175, R329), misses on their way through the Firn, loads returning, stores accepted or refused
(R176, R262), atomics at their home (R190), and refusals reaching the team (R330, R334). -/

namespace Sys2Proof.Machine

/-- The request tag of a team's latest instruction that took a SEQ (R328). -/
def Core.teamTag (k : Core) (c slot : Nat) : Nat := match k.team? slot with
  | some t => (reqTag c t.quad slot t.seq).toNat
  | none => (reqTag c 0 slot 0).toNat

/-- The identity of a team's accesses; the agent's are those of its task's ASID in the partition of its core (R258, R359). -/
def State.identOf (s : State) (c slot : Nat) : Ident :=
  let k := s.core c
  let tag := k.teamTag c slot
  match k.lslotOf slot with
  | some l => ⟨l.part, l.asid, l.sdom, l.gen, l.sgen, (s.part l.part).tenantOf l.asid, 0, some (l.q, l.idx), tag⟩
  | none =>
    let part := s.partOf (c / 32)
    let first := (s.part part).first
    let e := s.idEntry first false k.agent.asid
    ⟨part, k.agent.asid, idSdom e, idGen e, idGen (s.idEntry first true (idSdom e)), (s.part part).tenantOf k.agent.asid, 0, none, tag⟩

/-- The identity of an engine's own accesses for a launch: its address space under the current generations. -/
def State.launchIdent (s : State) (part q idx asid sdom owner tag : Nat) : Ident :=
  let first := (s.part part).first
  ⟨part, asid, sdom, idGen (s.idEntry first false asid), idGen (s.idEntry first true sdom), (s.part part).tenantOf asid, owner, some (q, idx), tag⟩

/-- The identity with the generations a request carries. -/
def Ident.withGens (id : Ident) (g sg : BitVec 16) : Ident := { id with gen := g, sgen := sg }

/-! ## Lease windows (R171, R172) -/

/-- A range lies wholly inside one valid window of the launch slot whose rights grant the access. -/
def Core.leased (k : Core) (lslot va n : Nat) (rd wr : Bool) : Bool :=
  k.leases.any fun w => w.valid && decide (w.tag = lslot ∧ w.base ≤ va ∧ va + n ≤ w.top) &&
    (!rd || w.rights.getLsbD 0) && (!wr || w.rights.getLsbD 1)

/-- The launch slot number of a team's block. -/
def Core.lslotNo (k : Core) (slot : Nat) : Nat :=
  match (k.team? slot).bind fun t => k.block? t.block with
  | some b => b.lslot
  | none => 0

/-- A range lies in the team's own context area of 64 KiB (R346). -/
def Core.ownArea (k : Core) (slot va n : Nat) : Bool :=
  match k.team? slot with
  | some t => decide (t.ctxBase.toNat ≤ va ∧ va + n ≤ t.ctxBase.toNat + 65536)
  | none => false

/-- The lease check of an access: the agent slot (R172) and a team's own context area (R346) are not checked. -/
def Core.leaseOk (k : Core) (slot va n : Nat) (rd wr : Bool) : Bool :=
  decide (slot = agentSlot) || k.leased (k.lslotNo slot) va n rd wr || k.ownArea slot va n

/-- The access of the lowest-numbered lane, the first of equals. -/
def lowest : List Acc → Option Acc
  | [] => none
  | a :: as => match lowest as with
    | some b => if b.lane < a.lane then some b else some a
    | none => some a

/-- The failure R173 reports: the first condition that fails, in the lowest-numbered failing lane; class, lane, address. -/
def firstFail (accs : List Acc) (conds : List (BitVec 8 × (Acc → Bool))) : Option (BitVec 8 × Nat × Nat) :=
  firstSome (fun (c : BitVec 8 × (Acc → Bool)) => (lowest (accs.filter fun a => !(c.2 a))).map fun a => (c.1, a.lane, a.va)) conds

def Acc.aligned (a : Acc) : Bool := decide (a.va % a.size = 0)

/-- The lane number a frame names: none in particular for a team-wide access (R337). -/
def laneWord (L : Nat) : BitVec 16 := BitVec.ofNat 16 L

/-! ## Byte ranges of accesses -/

def teamWideLane : Nat := 0xFFFF
/-- Distinct sectors of accesses, ascending by first use. -/
def sectorsOf (accs : List Acc) : List Nat := (accs.map fun a => a.va / 32 * 32).eraseDups

/-- Byte mask of an access inside its sector. -/
def Acc.mask (a : Acc) : Word := BitVec.ofNat 32 ((2 ^ a.size - 1) * 2 ^ (a.va % 32))

/-- Bytes that the team's log leaves undone: KIND 2 and 3 entries (R334). -/
def Team.logCovers (t : Team) (va n : Nat) : Bool :=
  t.log.any fun e => decide (e.kind = 2 ∨ e.kind = 3) && overlaps e.va.toNat (2 ^ e.size.toNat) va n

/-! ## Sign and register forms of loaded values -/

/-- Writes of a loaded value (R147, R179): `sx` sign-extends a narrow value. -/
def loadWr (w sx : Bool) (L size reg : Nat) (x : Nat) : List Wr :=
  let sgn := fun (n : Nat) => if sx then wrapMod (signVal size x) n else x
  if w then [.g reg (BitVec.ofNat 64 (sgn 64))]
  else if size ≤ 4 then [.v L reg (BitVec.ofNat 32 (sgn 32))]
  else (List.range (size / 4)).map fun i => .v L (reg + i) (BitVec.ofNat 32 (x / 2 ^ (32 * i)))
where
  signVal (size x : Nat) : Int := if x ≥ 2 ^ (8 * size - 1) then (x : Int) - (2 : Int) ^ (8 * size) else x
  wrapMod (x : Int) (n : Nat) : Nat := (x % (2 : Int) ^ n).toNat

/-- Registers a load of a size writes. -/
def loadRefs (w : Bool) (L size reg : Nat) : List RegRef :=
  if w then [.g reg] else (List.range (max 1 (size / 4))).map fun i => .v L (reg + i)

/-! ## The L1 and gather cache -/

/-- The low bits of a generation, which caches compare (R259, R313). -/
def genLow (g : BitVec 16) : BitVec 4 := g.extractLsb' 0 4

/-- A valid sector by its tag (R170, R313): address, domain, low bits of the generation. -/
def findSector (cs : List CSector) (id : Ident) (va : Nat) : Option CSector :=
  cs.find? fun c => decide (c.va = va / 32 * 32 ∧ c.dk = sharedVa va ∧ c.dom = id.dom va ∧ genLow c.gen = genLow (id.genOf va))

/-- The words of a sector an access needs, as a mask. -/
def wordMask (va n : Nat) : BitVec 8 :=
  (List.range 8).foldl (fun m w => if overlaps (va / 32 * 32 + 4 * w) 4 va n then setBit8 m w true else m) 0

/-- A load is served in the L1 when every byte it needs is valid there and reading is permitted (R170, R259). -/
def Core.l1Hit (k : Core) (id : Ident) (va n : Nat) : Option CSector :=
  match findSector k.l1 id va with
  | some c => if c.pr && decide (wordMask va n &&& ~~~c.valid = 0) then some c else none
  | none => none

/-- Puts a sector into a cache list, replacing one of the same address and domain. -/
def putSector (cs : List CSector) (c : CSector) : List CSector :=
  c :: cs.filter fun x => !(decide (x.va = c.va ∧ x.dk = c.dk ∧ x.dom = c.dom))

/-- A core drops its copies of a range, L1 words, gather-cache words and stash words it does not own: its own step has written
the range at the home, or has read it there for another of its caches, and its later loads see nothing older (R175, R268). -/
def State.forget (s : State) (c : Nat) (id : Ident) (lo n : Nat) : State :=
  let k := s.core c
  let gone := fun (x : CSector) (w : Nat) =>
    decide (x.dk = sharedVa lo ∧ x.dom = id.dom lo) && overlaps (x.va + 4 * w) 4 lo n && !(x.owned.getLsbD w)
  s.setCore c { k with l1 := cutWords k.l1 gone, stash := cutWords k.stash gone, gcache := cutWords k.gcache gone }

/-- Reads of the core's fragments that other devices have been asked for, and whose answers stand ready for steps partway, are asked for
anew: they would bring into its caches what an acquire has invalidated (R225, R407). -/
def State.askAnew (s : State) (k : Core) : State :=
  { s with rbuf := s.rbuf.filter fun (b : RemBuf) => !(decide (b.op = 0) && k.midways.any fun m => decide (b.owner = 2 ^ 61 + m.id)) }

/-- An acquire invalidates every L1 and stash word that the core's L1, or its stash, does not own, and empties the gather cache
(R187, R225, R263); what other devices have been asked for before it enters no cache (R407). -/
def State.acquire (s : State) (c : Nat) : State :=
  let k := s.core c
  (s.askAnew k).setCore c { k with
    l1 := cutWords k.l1 fun x w => !(s.ownsWord c false x w)
    stash := cutWords k.stash fun x w => !(s.ownsWord c true x w)
    gcache := []
    reqs := k.reqs.map fun r => { r with past := r.away.map (·.1) } }

/-- Sectors the L1 holds: 512 KiB less the scratchpad allocations of the core rounded up to 32 KiB, never less than 64 KiB (R168). -/
def Core.l1Cap (k : Core) : Nat :=
  let used := (k.blocks.map fun b => match b with | some b => b.size | none => 0).sum
  max 2048 (16384 - (used + 32767) / 32768 * 1024)

/-- An L1 with more sectors than it has room for drops some: which, the manual leaves open (assumption 88). Its owned words
stay owned at their homes (R263). -/
def State.l1Fit (s : State) (c : Nat) : State :=
  (List.range ((s.core c).l1.length - (s.core c).l1Cap)).foldl (fun s _ =>
    let k := s.core c
    ({ s with free := s.free + 1 } : State).setCore c { k with l1 := k.l1.eraseIdx (Config.freeNat s.free % k.l1.length) }) s

/-- A sector enters the L1 (R170). -/
def State.l1Put (s : State) (c : Nat) (x : CSector) : State :=
  let k := s.core c
  (s.setCore c { k with l1 := putSector k.l1 x }).l1Fit c

/-! ## Watch hits (R415) -/

/-- Reports a watch hit of a team: counted, queued, and the team is asked to hold; a launch without a debug owner ignores it. -/
def State.watchHit (s : State) (c slot va kind : Nat) (seq : BitVec 16) (pc : PCWord) : State :=
  let k := s.core c
  match k.lslotOf slot, k.team? slot with
  | some l, some t =>
    if l.launch.dbgown = 0 then s
    else
      let h : Hit := ⟨slot, va / 32 * 32, reqTag c t.quad slot seq, kind, pc, l.launch.dbgown, decide ((k.hits.filter fun h => !h.beyond).length ≥ 16)⟩
      s.setCore c (({ k with whits := k.whits + 1, hits := k.hits ++ [h] } : Core).askStop slot .watch)
  | _, _ => s

/-! ## Requests -/

/-- Sectors a copy session of lane lists has outstanding (R210). -/
def SessKind.sectors : SessKind → Nat
  | .cpl _ w lanes => ((lanes.map fun (l : Nat × Nat × Nat) => l.2.1 / 32) ++ (lanes.map fun (l : Nat × Nat × Nat) => (l.2.1 + w - 1) / 32)).eraseDups.length
  | _ => 0

/-- Requests the core has outstanding, in sectors: each holds its slot until its response returns (R174, R210). -/
def Core.sectorsOut (k : Core) : Nat :=
  (k.reqs.map fun r => r.todo.length + r.away.length).sum + (k.sessions.map fun x => x.kind.sectors).sum

/-- A team's earlier access is outstanding. -/
def Core.behindOwn (k : Core) (id slot : Nat) : Bool :=
  (k.reqs.any fun r => decide (r.id < id ∧ r.slot = slot)) || (k.stores.any fun e => decide (e.id < id ∧ e.slot = slot)) ||
  (k.tbs.any fun e => decide (e.id < id ∧ e.slot = slot ∧ e.kind ≠ tbKindWait)) || (k.dqs.any fun e => decide (e.id < id ∧ e.slot = slot)) ||
  (k.refused.any fun r => decide (r.id < id ∧ r.slot = slot))

/-- A sector's watch bit as its line holds it at its home here (R414). -/
def State.watchedAt (s : State) (id : Ident) (va : Nat) : Bool := match s.home id.part va with
  | .away _ _ => false
  | .here i => match (s.slice i).find (sharedVa va) (id.dom va) va with
    | some (_, l) => l.watch.getLsbD (subOf va)
    | none => false

/-- An earlier outstanding access of the core to the same sector: accesses to one sector are served in issue order
(R175, R268, R329). A deque step of the access's own team stands before every later one, for its ring slot is known at its home
alone (R273). -/
def Core.earlier (k : Core) (id slot va : Nat) : Bool :=
  (k.reqs.any fun r => decide (r.id < id) && (r.todo ++ r.away.map (·.2)).any fun a => decide (a / 32 = va / 32)) ||
  (k.stores.any fun e => decide (e.id < id ∧ e.va / 32 = va / 32)) ||
  (k.tbs.any fun e => decide (e.id < id ∧ e.kind ≠ tbKindWait ∧ e.va / 32 = va / 32)) ||
  (k.dqs.any fun e => decide (e.id < id ∧ (e.slot = slot ∨ e.va / 32 = va / 32))) ||
  (k.refused.any fun r => decide (r.id < id ∧ r.va / 32 = va / 32))

/-- Adds a pending write for outstanding results: `left` followers, not yet there. -/
def Entry.await (x : Entry) (id : Nat) (dests : List RegRef) (ws : List Wr) (left : Nat) (ready : Bool) : Entry :=
  { x with pend := x.pend ++ [⟨id, dests, ws, left, ready⟩] }

/-- Adds results to the pending write of a request. -/
def Core.addResults (k : Core) (id : Nat) (ws : List Wr) (done : Bool) : Core :=
  { k with quads := k.quads.map fun q => q.map fun x =>
      { x with pend := x.pend.map fun p => if p.id = id ∧ !p.ready then { p with writes := p.writes ++ ws, ready := done } else p } }

/-- A request whose sectors are all served, and whose refusals have reached the team, is done: its results are there,
and fragments and stops that waited for it go on. -/
def State.finishReq (s : State) (c id : Nat) : State :=
  let k := s.core c
  match k.reqs.find? fun r => decide (r.id = id) with
  | none => s
  | some r =>
    if !r.todo.isEmpty || !r.away.isEmpty || (k.refused.any fun f => decide (f.slot = r.slot ∧ f.seq = r.seq)) then s
    else
      let k := { k with reqs := k.reqs.filter fun x => decide (x.id ≠ id) }
      let k := k.addResults id [] true
      let s := s.setCore c ((Core.settle settleFuel k r.quad r.slot).poll)
      match r.kind with
      | .load _ _ _ true => s.acquire c
      | .atomic _ _ _ _ true _ _ => s.acquire c
      | _ => s

/-- Where a staged access stands. -/
inductive Staged
  | hit (key : Nat)
  | refused (cls : BitVec 8)
  /-- A miss was sent. -/
  | sent
  /-- A miss is under way. -/
  | wait
deriving DecidableEq, Repr

def Miss.is (m : Miss) (id : Ident) (va : Nat) (wr : Bool) : Bool :=
  decide (m.va = va / 32 * 32 ∧ m.dk = sharedVa va ∧ m.dom = id.dom va ∧ m.gen = id.genOf va ∧ m.write = wr)

/-- An access at its home slice: a hit, or a miss that goes to the Firn (R259), which takes it while fewer than 32,768 are in
flight and else has it replayed (R312); a slice that it cannot reach holds it (R4). One that comes `again` after its miss counts no second time (R365, R366). -/
def State.stage (s : State) (i : Nat) (id : Ident) (va : Nat) (rd wr again : Bool) : State × Staged :=
  let sl := s.slice i
  if !(s.reaches id.tag i) then (s, .wait)
  else match sl.hit (sharedVa va) (id.dom va) (id.genOf va) va rd wr with
  | some key => (if again then s else (s.count (s.partOf i) 0 1).tcount (s.partOf i) id.tenant 1 1, .hit key)
  | none =>
    match sl.misses.find? fun m => m.is id va wr with
    | none =>
      if sl.inFlight ≥ 32768 then (s, .wait)
      else
        let m : Miss := ⟨va / 32 * 32, sharedVa va, id.dom va, id.genOf va, wr, id.tenant, id.part, none⟩
        let s := s.setSlice i { sl.addMiss with misses := sl.misses ++ [m] }
        (if again then s else s.count (s.partOf i) 1 1, .sent)
    | some m =>
      match m.res with
      | some (.inl cls) => (s.setSlice i { sl with misses := sl.misses.erase m }, .refused cls)
      | _ => (s, .wait)

/-- The identity of a miss in flight at its slice. -/
def Miss.ident (m : Miss) (slice : Nat) : Ident := ⟨m.part, m.dom, m.dom, m.gen, m.gen, m.tenant, 2 ^ 48 + slice, none, noTag⟩

/-- The slice and its memory controller run (R4). -/
def State.stackUp (s : State) (slice : Nat) : Bool := s.islandOn (islandSlice + slice) && s.islandOn (islandStack + slice)

/-- The Firn's answer to a miss (R310): a stale line of the address is invalidated first (R259). -/
def execL2MissTranslation (slice idx : Nat) (s : State) : Out :=
  match (s.slice slice).misses[idx]? with
  | none => .refused .eventNotDue
  | some m =>
    if m.res.isSome ∨ !(s.stackUp slice) then .refused .eventNotDue
    else
      let id := m.ident slice
      remoteGate s (s.dropStale slice id m.va) id.owner (.refused .eventNotDue) fun s =>
      let (s, res) : State × Sum (BitVec 8) (Nat × Bool × Bool) :=
        match s.translate slice m.dk m.dom m.gen m.va (!m.write) m.write with
        | (s, .bad cls) => (s, .inl cls)
        | (s, .denied pr pw) => (s.newRights slice m.dk m.dom m.gen m.va pr pw, .inl 0x10)
        | (s, .ok pa pr pw) => (s, .inr (pa, pr, pw))
      let sl := s.slice slice
      .next (s.setSlice slice { sl with misses := sl.misses.set idx { m with res := some res } }).bump

/-- A translated miss fills its sector (R361). -/
def execL2Fill (slice idx : Nat) (s : State) : Out :=
  match (s.slice slice).misses[idx]? with
  | none => .refused .eventNotDue
  | some m =>
    match m.res with
    | some (.inr (pa, pr, pw)) =>
      let id := m.ident slice
      let sl := s.slice slice
      let s' := s.setSlice slice { sl with misses := sl.misses.eraseIdx idx }
      if !(s.stackUp slice) then .refused .eventNotDue
      else remoteGate s (s'.fill slice id m.va pa pr pw).1 id.owner (.refused .eventNotDue) fun s => .next s.bump
    | _ => .refused .eventNotDue

/-- A live lease record of a launch, of another device when `dev` names one, covers the piece with the rights (R316, R326, R406). -/
def Slice.leaseCovers (sl : Slice) (dev : Option Nat) (q idx : Nat) (dk : Bool) (id va n : Nat) (rd wr : Bool) : Bool :=
  sl.leases.any fun r => decide (r.dev = dev ∧ r.qid = q ∧ r.idx = idx ∧ r.dk = dk ∧ r.id = id ∧ r.first ≤ va / 2 ^ 16 ∧ (va + n - 1) / 2 ^ 16 ≤ r.last) &&
    (!rd || r.rights.testBit 0) && (!wr || r.rights.testBit 1)

/-- A request under an older generation whose piece a live lease of its launch covers: it is re-presented before it is served or
refused (R314). The agent's has no launch. -/
def State.stale (s : State) (c slot : Nat) (gen sgen : BitVec 16) (va : Nat) (wr : Bool) : Bool :=
  let id := s.identOf c slot
  if gen = id.gen ∧ sgen = id.sgen then false
  else
    match (s.core c).lslotOf slot with
    | none => false
    | some l =>
      match s.home id.part va with
      | .here i => (s.slice i).leaseCovers none l.q l.idx (sharedVa va) (id.dom va) va 1 (!wr) wr
      | .away _ _ => false

/-! ## Loads returning (R176) -/

/-- A log entry of an access (R336); a team-wide access has LANE 0 (R397). -/
def mkLog (kind size op flags lane dreg preg : Nat) (seq : BitVec 16) (cls : BitVec 8) (level : Nat) (pc : PCWord) (va : Nat)
    (data : BitVec 128) : LogEntry :=
  ⟨BitVec.ofNat 8 kind, BitVec.ofNat 8 size, BitVec.ofNat 8 op, BitVec.ofNat 8 flags, BitVec.ofNat 16 (if flags % 2 = 1 then 0 else lane), BitVec.ofNat 8 dreg,
    BitVec.ofNat 8 preg, seq, cls, BitVec.ofNat 8 level, pc.setWidth 64, BitVec.ofNat 64 va, data⟩

def atOpNo : AtOp → Nat
  | .add => 0 | .min => 1 | .max => 2 | .and => 3 | .or => 4 | .xor => 5 | .exch => 6 | .cas => 7
def atTyNo : AtTy → Nat
  | .s32 => 0 | .n32 => 1 | .f32 => 2 | .s64 => 3 | .n64 => 4 | .f64 => 5

/-- FLAGS of a store's entry: team-wide, `.rel` (R336). -/
def storeFlags (w rel : Bool) : Nat := (if w then 1 else 0) + (if rel then 8 else 0)

/-- The log entry of one lane of a request (R334): KIND 1, 3, or 6 for a load behind a faulted store. -/
def Req.logOf (r : Req) (a : Acc) (cls : BitVec 8) (behind : Bool) : LogEntry :=
  match r.kind with
  | .atomic op ty w nr acq rel red =>
    mkLog 3 (Nat.log2 a.size) (if red then atOpNo op * 8 + atTyNo ty else atOpNo op * 8 + atTyNo ty)
      ((if w then 1 else 0) + (if nr then 2 else 0) + (if acq then 4 else 0) + (if rel then 8 else 0))
      a.lane a.reg 0 r.seq cls r.level r.pc a.va (a.cmp ++ a.data.extractLsb' 0 64)
  | .load sx w _ acq =>
    mkLog (if behind then 6 else 1) (Nat.log2 a.size) 0
      ((if w then 1 else 0) + (if acq then 4 else 0) + (if sx then 32 else 0)) a.lane a.reg 0 r.seq cls r.level r.pc a.va 0
  | .stash sx w =>
    mkLog (if behind then 6 else 1) (Nat.log2 a.size) 0 ((if w then 1 else 0) + (if sx then 32 else 0)) a.lane a.reg 0 r.seq cls
      r.level r.pc a.va 0
  | _ => mkLog 1 (Nat.log2 a.size) 0 0 a.lane a.reg 0 r.seq cls r.level r.pc a.va 0

/-- Accesses of a request inside a sector. -/
def Req.inSector (r : Req) (va : Nat) : List Acc := r.accs.filter fun a => decide (a.va / 32 = va / 32)

def Core.setReq (k : Core) (r : Req) : Core := { k with reqs := k.reqs.map fun x => if x.id = r.id then r else x }

/-- Takes the served sector from a request's list. -/
def Req.served (r : Req) (va : Nat) : Req := { r with todo := r.todo.filter fun a => decide (a / 32 ≠ va / 32) }

/-- Lowest lane of accesses. -/
def lowLane (as : List Acc) : BitVec 16 :=
  match as with
  | [] => noLane
  | a :: rest => BitVec.ofNat 16 (rest.foldl (fun m x => min m x.lane) a.lane)

/-- A refused sector of a load: its lanes get no value, and the fault returns to the core with its log entries (R176, R334). -/
def State.refuseLoad (s : State) (c : Nat) (r : Req) (va : Nat) (cls : BitVec 8) : State :=
  let k := s.core c
  let as := r.inSector va
  let f : Refused := ⟨r.id, r.slot, r.seq, r.pc, cls, va / 32 * 32, lowLane as, false, as.map fun a => r.logOf a cls false⟩
  let r := { r.served va with lost := r.lost ++ as.map (·.lane) }
  s.setCore c { (k.setReq r) with refused := k.refused ++ [f] }

/-- Values of a load's lanes from a sector. -/
def Req.values (r : Req) (va : Nat) (x : Sector) (sx w : Bool) : List Wr :=
  (r.inSector va).flatMap fun a => loadWr w sx a.lane a.size a.reg (sectorNat x (a.va % 32) a.size)

/-- Removes a request that needs nothing more and has no results to give. -/
def State.dropReq (s : State) (c id : Nat) : State :=
  let k := s.core c
  s.setCore c { k with reqs := k.reqs.filter fun x => decide (x.id ≠ id) }

/-- What a filled sector brings into a core's cache. -/
def State.cached (s : State) (i key : Nat) (id : Ident) (va : Nat) (x : Sector) : CSector :=
  match (s.slice i).way? key with
  | none => ⟨va / 32 * 32, sharedVa va, id.dom va, id.genOf va, true, false, x, 0xFF, 0, false⟩
  | some l => ⟨va / 32 * 32, sharedVa va, id.dom va, id.genOf va, l.pr, l.pw, x, 0xFF, 0, l.watch.getLsbD (subOf va)⟩

/-- What an answered read of another device's sector brings into a core's cache (R170, R405). -/
def State.cachedAway (s : State) (id : Ident) (va : Nat) (x : Sector) : CSector :=
  match s.rbuf.find? fun b => decide (b.owner = id.owner ∧ b.op = 0 ∧ b.dk = sharedVa va ∧ b.dom = id.dom va ∧ b.va = va / 32 * 32) with
  | none => ⟨va / 32 * 32, sharedVa va, id.dom va, id.genOf va, true, false, x, 0xFF, 0, false⟩
  | some b => ⟨va / 32 * 32, sharedVa va, id.dom va, id.genOf va, b.pr, b.pw, x, 0xFF, 0, b.watch⟩

/-- The core's own identity for a request, with the generations and the tag that the request carries. -/
def State.reqIdent (s : State) (c : Nat) (r : Req) : Ident :=
  { (s.identOf c r.slot).withGens r.gen r.sgen with owner := r.id, tag := (reqTag c r.quad r.slot r.seq).toNat }

/-- A request whose refused sectors are logged: every kind but a prefetch, which is dropped (R188). -/
def ReqKind.faults : ReqKind → Bool
  | .prefetch _ => false
  | _ => true

/-- A sector that the stash fills from its home: words it owns keep their data (R185). -/
def Core.stashFill (k : Core) (c : CSector) : Core × CSector :=
  match k.stashSector c.dk c.dom c.va with
  | none => ({ k with stash := putSector k.stash c }, c)
  | some old =>
    let c' := { c with data := mergeSector c.data (byteMask old.owned) old.data, owned := old.owned }
    ({ k with stash := putSector k.stash c' }, c')

/-- A refused sector of a request: logged, or dropped for a prefetch. -/
def State.refuseSector (s : State) (c : Nat) (r : Req) (va : Nat) (cls : BitVec 8) : State :=
  if r.kind.faults then s.refuseLoad c r va cls
  else (s.setCore c ((s.core c).setReq (r.served va))).finishReq c r.id

/-- Serves one sector of a load or a prefetch at its home (R170, R176, R188): a hit returns the data, a miss is sent, a
refusal goes back to the core. -/
def State.serveLoad (s : State) (c : Nat) (r : Req) (i va : Nat) : Out :=
  let id := s.reqIdent c r
  match s.stage i id va true false (r.missed.contains va) with
  | (_, .wait) => .refused .eventNotDue
  | (s, .sent) => .next (s.setCore c ((s.core c).setReq { r with missed := va :: r.missed })).bump
  | (s, .refused cls) =>
    .next (s.refuseSector c r va cls).bump
  | (s, .hit key) =>
    let got := s.readWay i key id va (match r.kind with | .stash _ _ => some ⟨none, c, true⟩ | _ => none)
    remoteGate s got.1 id.owner (.refused .eventNotDue) fun s =>
    match got.2 with
    | .inr cls => .next (s.refuseSector c r va cls).bump
    | .inl x =>
      let line := s.cached i key id va x
      let s := match r.kind with
        | .prefetch true => s
        | _ => s.forget c id (va / 32 * 32) 32
      let k := (s.core c).setReq (r.served va)
      match r.kind with
      | .load sx w na acq =>
        let s := s.setCore c (k.addResults r.id (r.values va x sx w) false)
        let s := if na || acq then s else s.l1Put c line
        let s := if line.watch then s.watchHit c r.slot va 1 r.seq r.pc else s
        .next (s.finishReq c r.id).bump
      | .stash sx w =>
        let (k, line) := k.stashFill line
        let s := s.setCore c (k.addResults r.id (r.values va line.data sx w) false)
        let s := if line.watch then s.watchHit c r.slot va 1 r.seq r.pc else s
        .next (s.finishReq c r.id).bump
      | .prefetch l2 => .next ((if l2 then s.setCore c k else (s.setCore c k).l1Put c line).finishReq c r.id).bump
      | _ => .next ((s.setCore c k).finishReq c r.id).bump

/-! ## Requests to other devices (R404, R405) -/

/-- A remote sector of a load: it leaves through the local slice that R303 names (R405); refused as "unreachable home" when no port is up, else its request leaves and the sector waits
for its answer. -/
def State.remoteLoad (s : State) (c : Nat) (r : Req) (dev va : Nat) : Out :=
  if !(s.reaches (s.reqIdent c r).tag (s.exitSlice (s.reqIdent c r) va)) then .refused .eventNotDue
  else match s.plane dev va with
  | none => .next (s.refuseSector c r va 0x16).bump
  | some p =>
    let (num, s) := s.fresh
    let s := s.setCore c ((s.core c).setReq { r.served va with away := r.away ++ [(num, va)] })
    .next (s.ask p dev num (s.reqIdent c r) 0 va 0 0 (match r.kind with | .stash _ _ => some (c, true) | _ => none)).bump

/-- One sector of a load or prefetch is served at its home; earlier accesses of the core to the sector come first. -/
def execLoadResponse (core idx sector : Nat) (s : State) : Out :=
  match (s.core core).reqs[idx]? with
  | none => .refused .eventNotDue
  | some r =>
    match r.todo[sector]?, r.kind with
    | none, _ => .refused .eventNotDue
    | _, .atomic _ _ _ _ _ _ _ => .refused .eventNotDue
    | some va, _ =>
      if (s.core core).earlier r.id r.slot va || s.stale core r.slot r.gen r.sgen va false then .refused .eventNotDue
      else
        match s.home (s.reqIdent core r).part va with
        | .here i => s.serveLoad core r i va
        | .away dev _ => s.remoteLoad core r dev va

/-! ## Stores accepted or refused (R262, R329) -/

/-- The log entries of a refused store sector: one per lane that writes it (R334). -/
def StoreEnt.logs (e : StoreEnt) (cls : BitVec 8) : List LogEntry :=
  e.accs.map fun a => mkLog 2 (Nat.log2 a.size) 0 (storeFlags e.w e.rel) a.lane a.reg 0 e.seq cls e.level e.pc a.va a.data

def State.dropStore (s : State) (c id : Nat) : State :=
  let k := s.core c
  s.setCore c ({ k with stores := k.stores.filter fun x => decide (x.id ≠ id) }).poll

/-- A refusal of a store entry goes back to the core, and the entry leaves the buffer as log entries (R329, R334). -/
def State.refuseStore (s : State) (c : Nat) (e : StoreEnt) (cls : BitVec 8) : State :=
  let k := s.core c
  let f : Refused := ⟨e.id, e.slot, e.seq, e.pc, cls, e.va, lowLane e.accs, false, e.logs cls⟩
  s.setCore c { k with stores := k.stores.filter fun x => decide (x.id ≠ e.id), refused := k.refused ++ [f] }

/-- The words an accepted store touches, as the line holds them after it, enter the storing core's L1 copy, if it has one: they
are its owned words now, equal to the L2's (R170, R261). The core's other copies of them are dropped (R268). -/
def Core.l1Store (k : Core) (id : Ident) (va : Nat) (mask : Word) (x : Sector) : Core :=
  let words := wordsOf va mask
  let whole := byteMask (words.foldl (fun m w => setBit8 m (w % 8) true) 0)
  { k with
    l1 := k.l1.map fun c =>
      if c.va = va / 32 * 32 ∧ c.dk = sharedVa va ∧ c.dom = id.dom va ∧ genLow c.gen = genLow (id.genOf va) then
        { c with data := mergeSector c.data whole x, valid := words.foldl (fun v w => setBit8 v (w % 8) true) c.valid }
      else c
    stash := dropWords k.stash (sharedVa va) (id.dom va) words
    gcache := dropWords k.gcache (sharedVa va) (id.dom va) words }

/-- A stash store registers ownership of its words at the home: other owners are revoked, and other stashes' words of the sector are
recalled for its fill, which the answer brings (R185). A poisoned sector takes a store of all 32 bytes only (R302). -/
def State.registerWay (s : State) (i key : Nat) (id : Ident) (va : Nat) (mask : Word) (h : Holder) : State × Sum Sector (BitVec 8) :=
  let dk := sharedVa va
  let dom := id.dom va
  let words := wordsOf va mask
  match (s.slice i).way? key with
  | none => (s, .inr 0x11)
  | some l0 =>
    if l0.poison.getLsbD (subOf va) ∧ mask ≠ 0xFFFFFFFF then (s, .inr 0x15)
    else
      let s := (s.revoke i key dk dom words (some h) id.owner).recall i key dk dom va (some h) id.owner
      let l := ((s.slice i).way? key).getD l0
      let s := s.setLine i key { l with poison := setNib l.poison (subOf va) false }
      let sl := s.slice i
      let rest := sl.owners.filter fun o => !(o.among dk dom words)
      (s.setSlice i { sl with owners := rest ++ words.map fun w => ⟨dk, dom, w, h.dev, h.core, h.stash⟩ }, .inl (l.data[subOf va]?.getD 0))

/-- The registered words of a stash store enter the filled sector of the stash as the only newest copy; the core's other copies of them
are dropped (R185, R268). -/
def Core.stashStore (k : Core) (line : CSector) (mask : Word) (data : Sector) : Core :=
  let words := wordsOf line.va mask
  let (k, c) := k.stashFill line
  let own := words.foldl (fun m w => setBit8 m (w % 8) true) c.owned
  { k with
    stash := putSector k.stash { c with data := mergeSector c.data mask data, owned := own }
    l1 := dropWords k.l1 line.dk line.dom words, gcache := dropWords k.gcache line.dk line.dom words }

/-- Words of another device's piece are the core's, or its stash's, from the store's acceptance on (R261, R405). -/
def Core.ownAway (k : Core) (dk : Bool) (dom core : Nat) (words : List Nat) (stash : Bool) : Core :=
  { k with rown := (k.rown.filter fun o => !(o.among dk dom words)) ++ words.map fun w => ⟨dk, dom, w, none, core, stash⟩ }

/-- The identity of a store entry. -/
def State.storeIdent (s : State) (c : Nat) (e : StoreEnt) : Ident :=
  let quad := match (s.core c).team? e.slot with | some t => t.quad | none => 0
  { (s.identOf c e.slot).withGens e.gen e.sgen with owner := e.id, tag := (reqTag c quad e.slot e.seq).toNat }

/-- One store sector is accepted at its home, or refused (R262). The store buffer holds 512 entries: those of an instruction that needs
more enter it as others leave (R162, R174; log 106). -/
def execStoreSectorAccept (core idx : Nat) (s : State) : Out :=
  match (s.core core).stores[idx]? with
  | none => .refused .eventNotDue
  | some e =>
    if idx ≥ 512 ∨ (s.core core).earlier e.id e.slot e.va ∨ e.away.isSome ∨ s.stale core e.slot e.gen e.sgen e.va true then .refused .eventNotDue
    else
      let id := s.storeIdent core e
      match s.home id.part e.va with
      | .away dev _ =>
        if !(s.reaches id.tag (s.exitSlice id e.va)) then .refused .eventNotDue
        else match s.plane dev e.va with
        | none => .next (s.refuseStore core e 0x16).bump
        | some p =>
          let (num, s) := s.fresh
          let k := s.core core
          let s := s.setCore core { k with stores := k.stores.set idx { e with away := some num, sent := true } }
          .next (s.ask p dev num id (if e.stash then 11 else 1) e.va e.mask.toNat e.data.toNat (some (core, e.stash))).bump
      | .here i =>
        match s.stage i id e.va false true e.sent with
        | (_, .wait) => .refused .eventNotDue
        | (s, .sent) =>
          let k := s.core core
          .next (s.setCore core { k with stores := k.stores.set idx { e with sent := true } }).bump
        | (s, .refused cls) => .next (s.refuseStore core e cls).bump
        | (s, .hit key) =>
          let h : Holder := ⟨none, core, e.stash⟩
          let got : State × Sum Sector (BitVec 8) :=
            if e.stash then s.registerWay i key id e.va e.mask h
            else match s.writeWay i key id e.va e.mask e.data (some h) with
              | (s, some cls) => (s, .inr cls)
              | (s, none) => (s, .inl (match (s.slice i).way? key with | some l => l.data[subOf e.va]?.getD 0 | none => e.data))
          remoteGate s got.1 id.owner (.refused .eventNotDue) fun s =>
          match got.2 with
          | .inr cls => .next (s.refuseStore core e cls).bump
          | .inl now =>
            let line := s.cached i key id e.va now
            let k := s.core core
            let s := (s.setCore core (if e.stash then k.stashStore line e.mask e.data else k.l1Store id e.va e.mask now)).dropStore core e.id
            .next (if line.watch then s.watchHit core e.slot e.va 2 e.seq e.pc else s).bump

/-! ## A refusal reaches the team (R330, R332, R334) -/

/-- Inserts a number into an ascending list. -/
def insertAsc (n : Nat) : List Nat → List Nat
  | [] => [n]
  | m :: ms => if n ≤ m then n :: m :: ms else m :: insertAsc n ms

/-- Entries of KIND 2 and 3 cover bytes of an access (R334). -/
def logHits (covers : List LogEntry) (a : Acc) : Bool :=
  covers.any fun e => decide (e.kind = 2 ∨ e.kind = 3) && overlaps e.va.toNat (2 ^ e.size.toNat) a.va a.size

/-- One access still at the core behind logged stores: its lanes that they cover are logged in place of being sent, and what a
logged store or atomic writes is covered for the accesses after it; a prefetch is none of R334's. -/
def Core.logOne (st : Core × List LogEntry × List LogEntry) (id : Nat) : Core × List LogEntry × List LogEntry :=
  let (k, covers, out) := st
  match k.stores.find? fun e => decide (e.id = id) with
  | some e =>
    let gone := e.accs.filter (logHits covers)
    let keep := e.accs.filter fun a => !(logHits covers a)
    let new := ({ e with accs := gone } : StoreEnt).logs 0
    let e' := { e with accs := keep, mask := e.mask &&& keep.foldl (fun m a => m ||| a.mask) 0 }
    ({ k with stores := (k.stores.map fun x => if x.id = id then e' else x).filter fun x => !x.accs.isEmpty }, covers ++ new, out ++ new)
  | none =>
    match k.reqs.find? fun r => decide (r.id = id) with
    | none => st
    | some r =>
      if !r.kind.faults then st
      else
        let gone := r.accs.filter fun a => logHits covers a && r.todo.any fun t => decide (t / 32 = a.va / 32)
        let keep := r.accs.filter fun a => !(gone.contains a)
        let new := gone.map fun a => r.logOf a 0 true
        (k.setReq { r with accs := keep, lost := r.lost ++ gone.map (·.lane)
                           todo := r.todo.filter fun t => keep.any fun a => decide (a.va / 32 = t / 32) }, covers ++ new, out ++ new)

/-- Accesses of the team that a new KIND 2 or 3 entry overlaps and that are still at the core are logged in place of being
sent, in issue order; loads that waited on the store become KIND 6 entries (R334). -/
def State.logBehind (s : State) (c slot : Nat) (id : Nat) (es : List LogEntry) : State :=
  let k := s.core c
  let later := (k.stores.filter fun e => decide (e.slot = slot ∧ e.id > id) && !e.sent).map (·.id) ++
    (k.reqs.filter fun r => decide (r.slot = slot ∧ r.id > id)).map (·.id)
  let (k, _, new) := (later.foldr insertAsc []).foldl Core.logOne (k, es, [])
  let k := match k.team? slot with
    | none => k
    | some t => k.setTeam slot (t.addLog new)
  later.foldl (fun s i => s.finishReq c i) (s.setCore c k)

/-- A strict stop takes its place among a team's stops: behind the exceptions it has raised, before a halt or a watch hold (R332). -/
def strictIn (stops : List StopReq) : List StopReq :=
  let first := stops.takeWhile fun x => match x with
    | .halt _ _ => false
    | .watch => false
    | _ => true
  first ++ [.strict] ++ stops.drop first.length

/-- The oldest refusal for a team of the core, those of saved teams apart (R285), reaches its team: the record is written or counted, the operands are logged, strict mode stops
the team when the record is written (R330, R332, R333); the agent has no log (R340). A refusal for a team that is gone, or that a pre-emption
has stopped in the region form, is dropped (R370). -/
def execDeferredFault (core : Nat) (s : State) : Out :=
  let k := s.core core
  match k.refused.find? fun f => decide (f.slot ≤ agentSlot) with
  | none => .refused .eventNotDue
  | some f =>
    let k := { k with refused := k.refused.erase f }
    match k.team? f.slot with
    | none => .next (s.setCore core k).bump
    | some t =>
      if t.saved = some true then .next (s.setCore core k).bump
      else
      let writes := !t.record.valid
      let entries := if f.slot = agentSlot then [] else f.entries
      let t := (t.recordFault f.cls (reqTag core t.quad f.slot f.seq) f.lane f.va f.pc f.sess).addLog entries
      let k := k.setTeam f.slot t
      let s := (s.setCore core k).count (s.partOf (core / 32)) 7 1
      let s := s.logBehind core f.slot f.id entries
      let s := ((s.core core).reqs.filter fun r => decide (r.slot = f.slot ∧ r.seq = f.seq)).foldl (fun s r => s.finishReq core r.id) s
      let k := s.core core
      let strictNow := writes && t.strict && (match t.mode with | .halted _ _ => false | .retired => false | _ => true)
        && decide (f.slot ≠ agentSlot)
      let k := match k.team? f.slot with
        | some t => if strictNow then k.setTeam f.slot { t with stops := strictIn t.stops } else k
        | none => k
      .next (s.setCore core k.poll).bump

/-- A miss sent under an old generation is no longer asked for (R314). -/
def State.dropMiss (s : State) (id : Ident) (va : Nat) (wr : Bool) : State :=
  match s.home id.part va with
  | .here i => s.setSlice i { s.slice i with misses := (s.slice i).misses.filter fun m => !(m.is id va wr) }
  | .away _ _ => s

/-- A stale request is re-presented under the current generations when a live lease of its launch covers its pieces (R314);
`idx` counts the outstanding requests, then the store buffer. -/
def execStaleRepresent (core idx : Nat) (s : State) : Out :=
  let k := s.core core
  match k.reqs[idx]? with
  | some r =>
    let id := s.identOf core r.slot
    if r.todo.any fun va => s.stale core r.slot r.gen r.sgen va false then
      let atom := match r.kind with | .atomic _ _ _ _ _ _ _ => true | _ => false
      let s := r.todo.foldl (fun s va => if s.stale core r.slot r.gen r.sgen va false then s.dropMiss (id.withGens r.gen r.sgen) va atom else s) s
      .next (s.setCore core (k.setReq { r with gen := id.gen, sgen := id.sgen })).bump
    else .refused .eventNotDue
  | none =>
    let j := idx - k.reqs.length
    match k.stores[j]? with
    | none => .refused .eventNotDue
    | some e =>
      let id := s.identOf core e.slot
      if e.away.isNone && s.stale core e.slot e.gen e.sgen e.va true then
        let s := s.dropMiss (id.withGens e.gen e.sgen) e.va true
        .next (s.setCore core { k with stores := k.stores.set j { e with gen := id.gen, sgen := id.sgen } }).bump
      else .refused .eventNotDue

end Sys2Proof.Machine
end

