-- ==== Sys2Proof/Machine/Flags.lean ====
section
/-! DEFINITION. Where flags go (R30, R31, R74, R76, R149) and how a lane fault is recorded (R74, R93). -/

namespace Sys2Proof.Machine

/-- Flags of one unit of an instruction: a lane's go to its AFL and to `fflags`, a team-wide form's to `fflags` only. -/
def flagWr (w : Bool) (L : Nat) (f : Flags) : Wr := if w then .ff f else .afl L f

/-- MORE, LF, STEP and FCODE of a lane status word after a lane fault (R74): the first fault is kept. -/
def laneFault (st : Word) (code step : Nat) : Word :=
  if st.getLsbD 12 then st ||| 0x2000
  else (st &&& 0xFFFFE000) ||| 0x1000 ||| BitVec.ofNat 32 ((step % 256) * 16 + code % 16)

/-- A W1C write to the lane status word (R74, R118): AFL and MORE bits clear, LF clears FCODE and STEP too. -/
def w1cStatus (st m : Word) : Word :=
  let keep := st &&& ~~~(m &&& 0x00FF3000)
  if m.getLsbD 12 then keep &&& ~~~(0x1FFF : Word) else keep

/-- A W1C write to `fflags` (R30, R150). -/
def w1cFflags (ff m : Word) : Word := ff &&& ~~~(m &&& 0xFF)

end Sys2Proof.Machine
end

