-- ==== Sys2Proof/Machine/Num.lean ====
section
/-! DEFINITION. Number formats and exact arithmetic (spec/02_numbers.md R21 to R33): every float operation
computes an exact value and rounds it once. -/

namespace Sys2Proof.Machine

/-- The floating-point formats of R22. -/
inductive Fmt | f64 | f32 | f19 | bf16 | f16 | e5m2 | e4m3
deriving DecidableEq, Repr

/-- Exponent field width (R22). -/
def Fmt.eb : Fmt → Nat
  | .f64 => 11 | .f32 => 8 | .f19 => 8 | .bf16 => 8 | .f16 => 5 | .e5m2 => 5 | .e4m3 => 4

/-- Fraction field width (R22). -/
def Fmt.fb : Fmt → Nat
  | .f64 => 52 | .f32 => 23 | .f19 => 10 | .bf16 => 7 | .f16 => 10 | .e5m2 => 2 | .e4m3 => 3

/-- Exponent bias (R22). -/
def Fmt.bias (f : Fmt) : Nat := 2 ^ (f.eb - 1) - 1

/-- Width of sign, exponent and fraction together. -/
def Fmt.bits (f : Fmt) : Nat := 1 + f.eb + f.fb

/-- Bits below the element in its container: 13 in the f19 container, whose low bits are ignored (R23). -/
def Fmt.pad : Fmt → Nat
  | .f19 => 13 | _ => 0

/-- The magnitude pattern of infinity; e4m3 has none and its NaN pattern stands here (R22, R23). -/
def Fmt.infPat (f : Fmt) : Nat :=
  match f with
  | .e4m3 => 0x7F
  | _ => (2 ^ f.eb - 1) * 2 ^ f.fb

/-- The magnitude pattern of the largest finite value (R22). -/
def Fmt.maxPat (f : Fmt) : Nat := f.infPat - 1

/-- The canonical quiet NaN (R24), without the container's padding. -/
def Fmt.nanPat (f : Fmt) : Nat :=
  match f with
  | .e4m3 => 0x7F
  | _ => f.infPat + 2 ^ (f.fb - 1)

/-- Exponent of the unit in the last place of subnormals. -/
def Fmt.qmin (f : Fmt) : Int := 1 - (f.bias : Int) - (f.fb : Int)

/-- A decoded float: NaN (signalling or not), infinity, or a finite value (-1)^neg * m * 2^e. -/
inductive FV
  | nan (signalling : Bool)
  | inf (neg : Bool)
  | fin (neg : Bool) (m : Nat) (e : Int)
deriving DecidableEq, Repr

/-- Decodes a container's bits (R22, R23). -/
def Fmt.decode (f : Fmt) (b : Nat) : FV :=
  let x := (b >>> f.pad) % 2 ^ f.bits
  let neg := x.testBit (f.bits - 1)
  let mag := x % 2 ^ (f.bits - 1)
  let ex := mag / 2 ^ f.fb
  let fr := mag % 2 ^ f.fb
  if f = .e4m3 then
    if mag = 0x7F then .nan false
    else if ex = 0 then .fin neg fr f.qmin
    else .fin neg (2 ^ f.fb + fr) (f.qmin + (ex : Int) - 1)
  else if mag ≥ f.infPat then
    if mag = f.infPat then .inf neg else .nan (!(fr.testBit (f.fb - 1)))
  else if ex = 0 then .fin neg fr f.qmin
  else .fin neg (2 ^ f.fb + fr) (f.qmin + (ex : Int) - 1)

/-- Puts a sign and a magnitude pattern into the container (f19 low bits are zero, R23). -/
def Fmt.pack (f : Fmt) (neg : Bool) (mag : Nat) : Nat :=
  ((if neg then 2 ^ (f.bits - 1) else 0) + mag) * 2 ^ f.pad

/-- The canonical NaN in its container (R24). -/
def Fmt.nan (f : Fmt) : Nat := f.pack false f.nanPat

/-- The flag bits of R30. -/
def fNV : Flags := 0x01
def fDZ : Flags := 0x02
def fOF : Flags := 0x04
def fUF : Flags := 0x08
def fNX : Flags := 0x10
def fIDZ : Flags := 0x20
def fIOV : Flags := 0x40
def fSAT : Flags := 0x80

/-- A result's bits and the flags it raises. -/
structure Res where
  bits : Nat
  fl : Flags
deriving DecidableEq, Repr

/-- Rounds num/den (den > 0) to an integer in the mode, for a value of the given sign; also whether it was inexact. -/
def roundInt (rm : Rm) (neg : Bool) (num den : Nat) : Nat × Bool :=
  let q := num / den
  let r := num % den
  let up : Bool :=
    match rm with
    | .rne => decide (2 * r > den) || (decide (2 * r = den) && decide (q % 2 = 1))
    | .rna => decide (2 * r ≥ den)
    | .rtz => false
    | .rup => !neg && decide (r > 0)
    | .rdn => neg && decide (r > 0)
  (if up then q + 1 else q, decide (r > 0))

/-- num/den divided by 2^q, as numerator and denominator. -/
def scaleDown (num den : Nat) (q : Int) : Nat × Nat :=
  if q ≥ 0 then (num, den * 2 ^ q.toNat) else (num * 2 ^ (-q).toNat, den)

/-- floor (log2 (num/den)) for num, den > 0. -/
def log2Frac (num den : Nat) : Int :=
  let k : Int := (Nat.log2 num : Int) - (Nat.log2 den : Int)
  let (n', d') := scaleDown num den k
  if n' < d' then k - 1 else k

/-- The rounding and saturation controls of an operation (R25 to R27). -/
structure RMode where
  rm : Rm := .rne
  ftz : Bool := false
  sat : Bool := false
deriving DecidableEq, Repr

/-- What an infinite result becomes: `.sat` and e4m3 give the largest finite value (R26). -/
def Fmt.infRes (f : Fmt) (m : RMode) (neg : Bool) : Nat :=
  if m.sat || decide (f = .e4m3) then f.pack neg f.maxPat else f.pack neg f.infPat

/-- What an overflow delivers in each mode (R26). -/
def Fmt.overflow (f : Fmt) (m : RMode) (neg : Bool) : Res :=
  let toInf : Bool :=
    match m.rm with
    | .rne => true | .rna => true | .rtz => false | .rup => !neg | .rdn => neg
  ⟨if toInf then f.infRes m neg else f.pack neg f.maxPat, fOF ||| fNX⟩

/-- One rounding of the exact magnitude num/den (num, den > 0) with its sign (R26, R27). -/
def Fmt.roundMag (f : Fmt) (m : RMode) (neg : Bool) (num den : Nat) : Res :=
  let e := log2Frac num den
  let qU := e - (f.fb : Int)
  let u := let s := scaleDown num den qU; roundInt m.rm neg s.1 s.2
  -- tiny after rounding: the value rounded with an unbounded exponent lies below the least normal (R27)
  let tiny := qU < f.qmin ∧ ¬ (qU = f.qmin - 1 ∧ u.1 = 2 ^ (f.fb + 1))
  let q := max qU f.qmin
  let r := let s := scaleDown num den q; roundInt m.rm neg s.1 s.2
  let mag := (q - f.qmin).toNat * 2 ^ f.fb + r.1
  if mag ≥ f.infPat then f.overflow m neg
  else if m.ftz ∧ mag < 2 ^ f.fb then ⟨f.pack neg 0, fUF ||| fNX⟩
  else ⟨f.pack neg mag, (if r.2 then fNX else 0) ||| (if r.2 ∧ tiny then fUF else 0)⟩

/-- Rounds the exact value (-1)^neg * m * 2^e; a zero keeps the given sign. -/
def Fmt.round (f : Fmt) (md : RMode) (neg : Bool) (m : Nat) (e : Int) : Res :=
  if m = 0 then ⟨f.pack neg 0, 0⟩
  else if e ≥ 0 then f.roundMag md neg (m * 2 ^ e.toNat) 1
  else f.roundMag md neg m (2 ^ (-e).toNat)

/-- Canonical NaN with the given flags. -/
def Fmt.nanRes (f : Fmt) (fl : Flags) : Res := ⟨f.nan, fl⟩

/-- Operand read: with `.ftz` a subnormal reads as zero of its sign (R27). -/
def Fmt.operand (f : Fmt) (ftz : Bool) (b : Nat) : FV :=
  match f.decode b with
  | .fin neg m e => if ftz ∧ m < 2 ^ f.fb ∧ e = f.qmin then .fin neg 0 e else .fin neg m e
  | v => v

/-- Signalling operands raise NV (R28). -/
def FV.sNaN : FV → Bool
  | .nan s => s
  | _ => false

/-- A NaN of either kind. -/
def FV.isNaN : FV → Bool
  | .nan _ => true
  | _ => false

/-- Sign change of a value that is not NaN. -/
def FV.negate : FV → FV
  | .nan s => .nan s
  | .inf n => .inf (!n)
  | .fin n m e => .fin (!n) m e

/-- NV when some operand is signalling. -/
def nvIf (b : Bool) : Flags := if b then fNV else 0

/-- Signed integer of a sign and a magnitude. -/
def signed (neg : Bool) (m : Nat) : Int := if neg then -(m : Int) else (m : Int)

/-- The exact sum of two finite values, with the sign of an exact zero sum (R29). -/
def addFin (rm : Rm) (n1 : Bool) (m1 : Nat) (e1 : Int) (n2 : Bool) (m2 : Nat) (e2 : Int) : Bool × Nat × Int :=
  let e := min e1 e2
  let a := m1 * 2 ^ (e1 - e).toNat
  let b := m2 * 2 ^ (e2 - e).toNat
  let s := signed n1 a + signed n2 b
  if s = 0 then ((if n1 = n2 then n1 else decide (rm = .rdn)), 0, e)
  else (decide (s < 0), s.natAbs, e)

/-- Sum of two values: specials by R28 and R29, one rounding by R26. -/
def Fmt.addV (f : Fmt) (md : RMode) (a b : FV) : Res :=
  match a, b with
  | .nan s, y => f.nanRes (nvIf (s || y.sNaN))
  | x, .nan s => f.nanRes (nvIf (s || x.sNaN))
  | .inf n1, .inf n2 => if n1 = n2 then ⟨f.infRes md n1, 0⟩ else f.nanRes fNV
  | .inf n, .fin _ _ _ => ⟨f.infRes md n, 0⟩
  | .fin _ _ _, .inf n => ⟨f.infRes md n, 0⟩
  | .fin n1 m1 e1, .fin n2 m2 e2 =>
    let r := addFin md.rm n1 m1 e1 n2 m2 e2
    f.round md r.1 r.2.1 r.2.2

/-- Product (R28, R29). -/
def Fmt.mulV (f : Fmt) (md : RMode) (a b : FV) : Res :=
  match a, b with
  | .nan s, y => f.nanRes (nvIf (s || y.sNaN))
  | x, .nan s => f.nanRes (nvIf (s || x.sNaN))
  | .inf n1, .inf n2 => ⟨f.infRes md (n1 != n2), 0⟩
  | .inf n1, .fin n2 m _ => if m = 0 then f.nanRes fNV else ⟨f.infRes md (n1 != n2), 0⟩
  | .fin n1 m _, .inf n2 => if m = 0 then f.nanRes fNV else ⟨f.infRes md (n1 != n2), 0⟩
  | .fin n1 m1 e1, .fin n2 m2 e2 => f.round md (n1 != n2) (m1 * m2) (e1 + e2)

/-- The invalid product 0 times infinity (R29). -/
def invalidProduct (a b : FV) : Bool :=
  match a, b with
  | .inf _, .fin _ m _ => decide (m = 0)
  | .fin _ m _, .inf _ => decide (m = 0)
  | _, _ => false

/-- Fused multiply-add a*b + c, rounded once; `np` negates the exact product (R29, R85). -/
def Fmt.fmaV (f : Fmt) (md : RMode) (np : Bool) (a b c : FV) : Res :=
  if a.isNaN || b.isNaN || c.isNaN then
    f.nanRes (nvIf (a.sNaN || b.sNaN || c.sNaN || invalidProduct a b))
  else if invalidProduct a b then f.nanRes fNV
  else
    match a, b with
    | .fin n1 m1 e1, .fin n2 m2 e2 => f.addV md (.fin ((n1 != n2) != np) (m1 * m2) (e1 + e2)) c
    | .inf n1, .fin n2 _ _ => f.addV md (.inf ((n1 != n2) != np)) c
    | .fin n1 _ _, .inf n2 => f.addV md (.inf ((n1 != n2) != np)) c
    | .inf n1, .inf n2 => f.addV md (.inf ((n1 != n2) != np)) c
    | _, _ => f.nanRes 0

/-- Quotient (R29). -/
def Fmt.divV (f : Fmt) (md : RMode) (a b : FV) : Res :=
  match a, b with
  | .nan s, y => f.nanRes (nvIf (s || y.sNaN))
  | x, .nan s => f.nanRes (nvIf (s || x.sNaN))
  | .inf _, .inf _ => f.nanRes fNV
  | .inf n1, .fin n2 _ _ => ⟨f.infRes md (n1 != n2), 0⟩
  | .fin n1 _ _, .inf n2 => ⟨f.pack (n1 != n2) 0, 0⟩
  | .fin n1 m1 e1, .fin n2 m2 e2 =>
    if m2 = 0 then
      if m1 = 0 then f.nanRes fNV else ⟨f.infRes md (n1 != n2), fDZ⟩
    else if m1 = 0 then ⟨f.pack (n1 != n2) 0, 0⟩
    else
      let e := e1 - e2
      if e ≥ 0 then f.roundMag md (n1 != n2) (m1 * 2 ^ e.toNat) m2
      else f.roundMag md (n1 != n2) m1 (m2 * 2 ^ (-e).toNat)

/-- Integer square root, one result bit per unit of fuel from the top. -/
def isqrtAux (n : Nat) : Nat → Nat → Nat
  | 0, r => r
  | k + 1, r =>
    let r' := r + 2 ^ k
    if r' * r' ≤ n then isqrtAux n k r' else isqrtAux n k r

/-- floor (sqrt n). -/
def isqrt (n : Nat) : Nat := isqrtAux n (Nat.log2 n / 2 + 1) 0

/-- Square root (R29): a root with enough bits and a sticky bit is rounded once. -/
def Fmt.sqrtV (f : Fmt) (md : RMode) (a : FV) : Res :=
  match a with
  | .nan s => f.nanRes (nvIf s)
  | .inf true => f.nanRes fNV
  | .inf false => ⟨f.infRes md false, 0⟩
  | .fin n m e =>
    if m = 0 then ⟨f.pack n 0, 0⟩
    else if n then f.nanRes fNV
    else
      let odd := e % 2 = 1
      let m' := if odd then 2 * m else m
      let e' := if odd then e - 1 else e
      let k := f.fb + 4
      let x := m' * 4 ^ k
      let r := isqrt x
      let sticky := if r * r = x then 0 else 1
      f.round md false (2 * r + sticky) (e' / 2 - (k : Int) - 1)

/-- Less-than on values that are not NaN. -/
def FV.ltV (a b : FV) : Bool :=
  match a, b with
  | .inf n, .inf m => n && !m
  | .inf n, .fin _ _ _ => n
  | .fin _ _ _, .inf n => !n
  | .fin n1 m1 e1, .fin n2 m2 e2 =>
    let e := min e1 e2
    decide (signed n1 (m1 * 2 ^ (e1 - e).toNat) < signed n2 (m2 * 2 ^ (e2 - e).toNat))
  | _, _ => false

/-- Equality on values that are not NaN; -0 equals +0 (R89). -/
def FV.eqV (a b : FV) : Bool := !a.isNaN && !b.isNaN && !(a.ltV b) && !(b.ltV a)

/-- Sign of a value. -/
def FV.isNeg : FV → Bool
  | .nan _ => false
  | .inf n => n
  | .fin n _ _ => n

/-- Zero of either sign. -/
def FV.isZero : FV → Bool
  | .fin _ m _ => decide (m = 0)
  | _ => false

/-- Total order used by minimumNumber and maximumNumber: -0 below +0 (R28). -/
def FV.below (a b : FV) : Bool :=
  a.ltV b || (a.eqV b && a.isNeg && !b.isNeg)

/-- The operand's bits as read: under `.ftz` a flushed operand is the signed zero (R85). -/
def Fmt.readBits (f : Fmt) (ftz : Bool) (b : Nat) : Nat :=
  match f.operand ftz b with
  | .fin n 0 _ => f.pack n 0
  | _ => ((b >>> f.pad) % 2 ^ f.bits) * 2 ^ f.pad

/-- minimumNumber (mx = false) and maximumNumber (mx = true) of R28: the chosen operand's bits. -/
def Fmt.minmax (f : Fmt) (mx ftz : Bool) (a b : Nat) : Res :=
  let x := f.operand ftz a
  let y := f.operand ftz b
  let fl := nvIf (x.sNaN || y.sNaN)
  if x.isNaN && y.isNaN then f.nanRes fl
  else if x.isNaN then ⟨f.readBits ftz b, fl⟩
  else if y.isNaN then ⟨f.readBits ftz a, fl⟩
  else
    let pickB := if mx then x.below y else y.below x
    ⟨if pickB then f.readBits ftz b else f.readBits ftz a, fl⟩

/-- The scalar float operations of R85 on operand bits. -/
inductive FOp | add | sub | mul | div | fma | fms | fnma | min | max | rcp | sqrt
deriving DecidableEq, Repr

/-- One scalar float operation: operands a, b, c as bits of the format (R85). -/
def Fmt.arith (f : Fmt) (op : FOp) (md : RMode) (a b c : Nat) : Res :=
  let x := f.operand md.ftz a
  let y := f.operand md.ftz b
  let z := f.operand md.ftz c
  match op with
  | .add => f.addV md x y
  | .sub => f.addV md x y.negate
  | .mul => f.mulV md x y
  | .div => f.divV md x y
  | .fma => f.fmaV md false x y z
  | .fms => f.fmaV md false x y z.negate
  | .fnma => f.fmaV md true x y z
  | .min => f.minmax false md.ftz a b
  | .max => f.minmax true md.ftz a b
  | .rcp => f.divV md (.fin false 1 0) y
  | .sqrt => f.sqrtV md y

/-! ## Integers (R21) -/

/-- The exact value of an n-bit pattern. -/
def intVal (sg : Sg) (n : Nat) (x : Nat) : Int :=
  let y := x % 2 ^ n
  match sg with
  | .n => (y : Int)
  | .s => if y ≥ 2 ^ (n - 1) then (y : Int) - (2 : Int) ^ n else (y : Int)

/-- Wrap: the n-bit pattern of an integer (R10). -/
def wrapN (n : Nat) (x : Int) : Nat := (x % (2 : Int) ^ n).toNat

/-- Least value of an integer type. -/
def intMin (sg : Sg) (n : Nat) : Int := match sg with | .n => 0 | .s => -((2 : Int) ^ (n - 1))
/-- Greatest value of an integer type. -/
def intMax (sg : Sg) (n : Nat) : Int := match sg with | .n => (2 : Int) ^ n - 1 | .s => (2 : Int) ^ (n - 1) - 1

/-- Saturate (R10). -/
def saturate (sg : Sg) (n : Nat) (x : Int) : Int := max (intMin sg n) (min (intMax sg n) x)

/-- The result of an integer operation: wrapped, or clamped with SAT under `.sat` (R21). -/
def intRes (sg : Sg) (n : Nat) (sat : Bool) (x : Int) : Res :=
  if sat then ⟨wrapN n (saturate sg n x), if saturate sg n x = x then 0 else fSAT⟩
  else ⟨wrapN n x, 0⟩

/-! ## Conversions (R32) -/

/-- A number type of `cvt` as a float format or an integer type with its width. -/
inductive NKind
  | flt (f : Fmt)
  | int (sg : Sg) (n : Nat)
deriving DecidableEq, Repr

/-- The kinds of the lane's number types (R88). -/
def kindOf : NumTy → NKind
  | .s8 => .int .s 8 | .n8 => .int .n 8 | .s16 => .int .s 16 | .n16 => .int .n 16
  | .s32 => .int .s 32 | .n32 => .int .n 32 | .s64 => .int .s 64 | .n64 => .int .n 64
  | .e4m3 => .flt .e4m3 | .e5m2 => .flt .e5m2 | .bf16 => .flt .bf16 | .f16 => .flt .f16
  | .f19 => .flt .f19 | .f32 => .flt .f32 | .f64 => .flt .f64

/-- Formats on which `.ftz` acts in conversions (R27, R88). -/
def Fmt.flushes : Fmt → Bool
  | .f32 => true | .f16 => true | .bf16 => true | _ => false

/-- Float to float (R32). -/
def cvtFF (src dst : Fmt) (md : RMode) (b : Nat) : Res :=
  match src.operand (md.ftz && src.flushes) b with
  | .nan s => dst.nanRes (nvIf s)
  | .inf n => ⟨dst.infRes md n, 0⟩
  | .fin n m e => dst.round { md with ftz := md.ftz && dst.flushes } n m e

/-- Float to integer: clamps to the bounds with NV, NaN gives 0 with NV (R32). -/
def cvtFI (src : Fmt) (sg : Sg) (n : Nat) (md : RMode) (b : Nat) : Res :=
  match src.operand (md.ftz && src.flushes) b with
  | .nan _ => ⟨0, fNV⟩
  | .inf neg => ⟨wrapN n (if neg then intMin sg n else intMax sg n), fNV⟩
  | .fin neg m e =>
    let s := if e ≥ 0 then (m * 2 ^ e.toNat, 1) else (m, 2 ^ (-e).toNat)
    let r := roundInt md.rm neg s.1 s.2
    let x := signed neg r.1
    if saturate sg n x = x then ⟨wrapN n x, if r.2 then fNX else 0⟩
    else ⟨wrapN n (saturate sg n x), fNV⟩

/-- Integer to float (R32). -/
def cvtIF (sg : Sg) (n : Nat) (dst : Fmt) (md : RMode) (b : Nat) : Res :=
  let x := intVal sg n b
  dst.round { md with ftz := md.ftz && dst.flushes } (decide (x < 0)) x.natAbs 0

/-- Integer to integer: modulo 2^n, or clamped with SAT under `.sat` (R32). -/
def cvtII (sg : Sg) (n : Nat) (sg' : Sg) (n' : Nat) (md : RMode) (b : Nat) : Res :=
  intRes sg' n' md.sat (intVal sg n b)

/-- Conversion between any two kinds (R32). -/
def convert (src dst : NKind) (md : RMode) (b : Nat) : Res :=
  match src, dst with
  | .flt f, .flt g => cvtFF f g md b
  | .flt f, .int sg n => cvtFI f sg n md b
  | .int sg n, .flt g => cvtIF sg n g md b
  | .int sg n, .int sg' n' => cvtII sg n sg' n' md b

/-- Float compare (R89): the condition's truth and NV on a signalling operand. -/
def Fmt.compare (f : Fmt) (ftz : Bool) (cond : Cond) (a b : Nat) : Bool × Flags :=
  let x := f.operand ftz a
  let y := f.operand ftz b
  let un := x.isNaN || y.isNaN
  let r : Bool :=
    match cond with
    | .eq => !un && x.eqV y
    | .ne => un || !(x.eqV y)
    | .lt => !un && x.ltV y
    | .le => !un && !(y.ltV x)
    | .gt => !un && y.ltV x
    | .ge => !un && !(x.ltV y)
    | .un => un
    | .ord => !un
  (r, nvIf (x.sNaN || y.sNaN))

/-- Integer compare (R89). -/
def intCompare (cond : Cond) (a b : Int) : Bool :=
  match cond with
  | .eq => decide (a = b) | .ne => decide (a ≠ b) | .lt => decide (a < b) | .le => decide (a ≤ b)
  | .gt => decide (a > b) | .ge => decide (a ≥ b) | .un => false | .ord => true

/-- The format of a float element type (R77). -/
def fmtOf : FTy → Fmt
  | .f32 => .f32 | .f16 => .f16 | .bf16 => .bf16 | .f64 => .f64

/-- A binary32 immediate or parcel read in a narrower or wider float type: rounded to nearest even, no flag;
a NaN reads as the canonical NaN (R55, R56). -/
def widenF32 (f : Fmt) (b : Nat) : Nat :=
  if f = .f32 then b else (cvtFF .f32 f {} b).bits

end Sys2Proof.Machine
end

