-- ==== Sys2Proof/Machine/Operands.lean ====
section
/-! DEFINITION. Operand forms: registers, pairs, the constant bank, immediates and literal parcels (R54 to R56,
R73, R78, R147), and destinations of the lane and team-wide forms. Values are bit patterns as numbers. -/

namespace Sys2Proof.Machine

/-- How an immediate or a parcel is read (R55, R56): signed, unsigned or bit pattern, or a float format. -/
inductive BTy
  | s | n | f (fmt : Fmt)
deriving DecidableEq, Repr

/-- How a 32-bit result is extended into a g register (R147). -/
inductive Ext | s | z | wide
deriving DecidableEq, Repr

/-- Registers a register operand reads or writes. -/
def regRefs (w : Bool) (L : Nat) (wide : Bool) (r : Reg) : List RegRef :=
  if w then [.g r.toNat] else if wide then [.v L r.toNat, .v L (r.toNat + 1)] else [.v L r.toNat]

end Sys2Proof.Machine

namespace Sys2Proof

open Sys2Proof.Machine

/-- The read of an integer type. -/
def Sg.bty : Sg → BTy
  | .s => .s
  | .n => .n

def Sg.ext : Sg → Ext
  | .s => .s
  | .n => .z

/-- Registers a B operand reads. -/
def BOp.refs (b : BOp) (w : Bool) (L : Nat) (wide : Bool) : List RegRef :=
  match b with
  | .reg r => regRefs w L wide r
  | _ => []

end Sys2Proof

namespace Sys2Proof.Machine

/-- Entry k of the launch's constant bank; an entry not set reads 0 (R54). -/
def Cx.kword (cx : Cx) (n : Nat) : Word :=
  match cx.k.lslotOf cx.slot with
  | none => 0
  | some l => l.kbank[n]?.getD 0

/-- A register operand: a g register, or lane L's register or pair (R52, R73, R147). -/
def Team.rd (t : Team) (w : Bool) (L : Nat) (wide : Bool) (r : Reg) : Nat :=
  if w then (if wide then (t.rg r.toNat).toNat else (t.rg r.toNat).toNat % 2 ^ 32)
  else if wide then ((t.lane L).r2 r.toNat).toNat else ((t.lane L).r r.toNat).toNat

/-- A 20-bit immediate (R55). -/
def immVal (ty : BTy) (v : BitVec 20) : Nat :=
  match ty with
  | .s => (v.signExtend 64).toNat
  | .n => v.toNat
  | .f fmt => widenF32 fmt (v.toNat * 2 ^ 12)

/-- A short immediate (R54): signed types extend the sign, all others zero. -/
def simmVal (ty : BTy) (v : BitVec 8) : Nat :=
  match ty with
  | .s => (v.signExtend 64).toNat
  | _ => v.toNat

/-- A literal parcel (R56). -/
def litVal (ty : BTy) (v : Word) : Nat :=
  match ty with
  | .s => (v.signExtend 64).toNat
  | .n => v.toNat
  | .f fmt => widenF32 fmt v.toNat

/-- The B operand of a unit (R54 to R56), cut to its width. -/
def Cx.bval (cx : Cx) (w : Bool) (L : Nat) (wide : Bool) (ty : BTy) (b : BOp) : Nat :=
  let x := match b with
    | .reg r => cx.v.rd w L wide r
    | .bank k => if wide then (cx.kword (k.toNat + 1) ++ cx.kword k.toNat).toNat else (cx.kword k.toNat).toNat
    | .imm v => immVal ty v
    | .simm v => simmVal ty v
    | .lit v => litVal ty v
  x % 2 ^ (if wide then 64 else 32)

/-- The predicate a field names (R148). -/
def predRef (w : Bool) (L : Nat) (r : Reg) : RegRef := if w then .gp r.toNat else .p L r.toNat
def Team.rdP (t : Team) (w : Bool) (L : Nat) (r : Reg) : Bool := if w then t.pg r.toNat else (t.lane L).pr r.toNat
def predWr (w : Bool) (L : Nat) (r : Reg) (b : Bool) : Wr := if w then .gp r.toNat b else .p L r.toNat b

/-- The writes of a result (R73, R147). -/
def dstWr (w : Bool) (L : Nat) (ext : Ext) (d : Reg) (x : Nat) : List Wr :=
  if w then
    match ext with
    | .s => [.g d.toNat ((BitVec.ofNat 32 x).signExtend 64)]
    | .z => [.g d.toNat (BitVec.ofNat 64 (x % 2 ^ 32))]
    | .wide => [.g d.toNat (BitVec.ofNat 64 x)]
  else
    match ext with
    | .wide => [.v L d.toNat (BitVec.ofNat 32 x), .v L (d.toNat + 1) (BitVec.ofNat 32 (x / 2 ^ 32))]
    | _ => [.v L d.toNat (BitVec.ofNat 32 x)]

/-- The units of an instruction: the lanes taking part, or one unit for a team-wide form that takes effect (R51). -/
def Cx.units (cx : Cx) (c : Ctl) : List Nat := if c.w then (if cx.takes c then [0] else []) else cx.part c

/-- An instruction that reads and writes registers and predicates only (R76, R147, R149): every unit reads `rds`
and writes `wrs` with what `f` gives. A long-latency one obeys its lookahead (R59, R60). -/
def regOp (c : Ctl) (late : Bool) (len : Nat) (rds wrs : Nat → List RegRef) (f : Cx → Nat → List Wr) (s : State) : Out :=
  issue s (fun cx => cx.predRefs c ++ (cx.units c).flatMap rds) (fun cx => (cx.units c).flatMap wrs) fun cx =>
    .next (cx.writeLate s len (if late then c.la.toNat else 0) ((cx.units c).flatMap wrs) ((cx.units c).flatMap (f cx)))

end Sys2Proof.Machine
end

