-- ==== Sys2Proof/Machine/IntArith.lean ====
section
/-! DEFINITION. Integer arithmetic of majors 0x01 to 0x04 (R81, R82). -/

namespace Sys2Proof.Machine

/-- A two-operand 32-bit form: D = fn A B with its flags, extended by its type in a g register (R147). -/
def intOp2 (f : IntB) (late : Bool) (bty : BTy) (ext : Ext) (fn : Nat → Nat → Res) : State → Out :=
  regOp f.c late f.b.len
    (fun L => regRefs f.c.w L false f.a ++ f.b.refs f.c.w L false)
    (fun L => regRefs f.c.w L false f.d)
    (fun cx L =>
      let r := fn (cx.v.rd f.c.w L false f.a) (cx.bval f.c.w L false bty f.b)
      dstWr f.c.w L ext f.d r.bits ++ [flagWr f.c.w L r.fl])

/-- A one-operand 32-bit form. -/
def intOp1 (f : IntU) (ext : Ext) (fn : Nat → Res) : State → Out :=
  regOp f.c false 8 (fun L => regRefs f.c.w L false f.a) (fun L => regRefs f.c.w L false f.d)
    (fun cx L =>
      let r := fn (cx.v.rd f.c.w L false f.a)
      dstWr f.c.w L ext f.d r.bits ++ [flagWr f.c.w L r.fl])

/-- `add`, `sub` with carry from and to the predicate of field C (R81). -/
def carryOp (f : IntC) (fn : Nat → Nat → Nat → Nat × Bool) : State → Out :=
  regOp f.c false f.b.len
    (fun L => predRef f.c.w L f.cc :: regRefs f.c.w L false f.a ++ f.b.refs f.c.w L false)
    (fun L => predRef f.c.w L f.cc :: regRefs f.c.w L false f.d)
    (fun cx L =>
      let r := fn (cx.v.rd f.c.w L false f.a) (cx.bval f.c.w L false f.ty.bty f.b) (if cx.v.rdP f.c.w L f.cc then 1 else 0)
      dstWr f.c.w L f.ty.ext f.d r.1 ++ [predWr f.c.w L f.cc r.2])

/-- Exact values of two operands of a type. -/
def intBin (ty : Sg) (fn : Int → Int → Res) (a b : Nat) : Res := fn (intVal ty 32 a) (intVal ty 32 b)

/-- Quotient or remainder (R82), rounded toward zero. -/
def divRem (ty : Sg) (n : Nat) (quot : Bool) (a b : Int) : Res :=
  if b = 0 then ⟨wrapN n (if quot then 0 else a), fIDZ⟩
  else if ty = .s ∧ a = intMin .s n ∧ b = -1 then ⟨wrapN n (if quot then a else 0), if quot then fIOV else 0⟩
  else ⟨wrapN n (if quot then a.tdiv b else a.tmod b), 0⟩

def execAdd (f : IntB) : State → Out := intOp2 f false f.ty.bty f.ty.ext (intBin f.ty fun a b => intRes f.ty 32 f.sat (a + b))
def execSub (f : IntB) : State → Out := intOp2 f false f.ty.bty f.ty.ext (intBin f.ty fun a b => intRes f.ty 32 f.sat (a - b))
/-- Carry out when the sum reaches 2^32. -/
def execAddc (f : IntC) : State → Out := carryOp f fun a b c => ((a + b + c) % 2 ^ 32, decide (a + b + c ≥ 2 ^ 32))
/-- Borrow out when the difference is negative. -/
def execSubb (f : IntC) : State → Out :=
  carryOp f fun a b c => (wrapN 32 ((a : Int) - b - c), decide ((a : Int) - b - c < 0))
/-- The 64-bit A plus the 32-bit B extended by the type, modulo 2^64 (R81, R148). -/
def execAdda (f : IntB) (s : State) : Out :=
  regOp f.c false f.b.len
    (fun L => regRefs f.c.w L true f.a ++ f.b.refs f.c.w L false)
    (fun L => regRefs f.c.w L true f.d)
    (fun cx L =>
      let b := cx.bval f.c.w L false f.ty.bty f.b
      dstWr f.c.w L .wide f.d (wrapN 64 ((cx.v.rd f.c.w L true f.a : Int) + intVal f.ty 32 b))) s

def execMul (f : IntB) : State → Out := intOp2 f true f.ty.bty f.ty.ext (intBin f.ty fun a b => intRes f.ty 32 f.sat (a * b))
/-- High 32 bits of the exact product. -/
def execMulh (f : IntB) : State → Out :=
  intOp2 f true f.ty.bty f.ty.ext (intBin f.ty fun a b => ⟨wrapN 32 (a * b / 2 ^ 32), 0⟩)
def execMad (f : IntC) (s : State) : Out :=
  regOp f.c true f.b.len
    (fun L => regRefs f.c.w L false f.a ++ f.b.refs f.c.w L false ++ regRefs f.c.w L false f.cc)
    (fun L => regRefs f.c.w L false f.d)
    (fun cx L =>
      let a := intVal f.ty 32 (cx.v.rd f.c.w L false f.a)
      let b := intVal f.ty 32 (cx.bval f.c.w L false f.ty.bty f.b)
      let c := intVal f.ty 32 (cx.v.rd f.c.w L false f.cc)
      let r := intRes f.ty 32 f.sat (a * b + c)
      dstWr f.c.w L f.ty.ext f.d r.bits ++ [flagWr f.c.w L r.fl]) s
def execDiv (f : IntB) : State → Out := intOp2 f true f.ty.bty f.ty.ext (intBin f.ty (divRem f.ty 32 true))
def execRem (f : IntB) : State → Out := intOp2 f true f.ty.bty f.ty.ext (intBin f.ty (divRem f.ty 32 false))
def execMin (f : IntB) : State → Out := intOp2 f false f.ty.bty f.ty.ext (intBin f.ty fun a b => ⟨wrapN 32 (if a ≤ b then a else b), 0⟩)
def execMax (f : IntB) : State → Out := intOp2 f false f.ty.bty f.ty.ext (intBin f.ty fun a b => ⟨wrapN 32 (if a ≥ b then a else b), 0⟩)
def execAbs (f : IntU) : State → Out := intOp1 f f.ty.ext fun a => intRes f.ty 32 f.sat ((intVal f.ty 32 a).natAbs)
def execNeg (f : IntU) : State → Out := intOp1 f f.ty.ext fun a => intRes f.ty 32 f.sat (-(intVal f.ty 32 a))

end Sys2Proof.Machine
end

