-- ==== Sys2Proof/Machine/Logic.lean ====
section
/-! DEFINITION. Logic, shifts and bit fields of majors 0x05 to 0x07 (R83) and the 64-bit pair forms of major
0x08 (R84). -/

namespace Sys2Proof.Machine

/-- A result without flags. -/
def plain (x : Nat) : Res := ⟨x, 0⟩

/-- Operands and results of majors 0x05 to 0x07 are bit patterns: zero-extended everywhere (R55, R147). -/
def bitOp2 (f : IntB) (fn : Nat → Nat → Nat) : State → Out := intOp2 f false .n .z fun a b => plain (fn a b)
def bitOp1 (f : IntU) (fn : Nat → Nat) : State → Out := intOp1 f .z fun a => plain (fn a)

/-- Shifts of a width: counts are not reduced (R83, R84). -/
def shlN (w a n : Nat) : Nat := if n ≥ w then 0 else (a * 2 ^ n) % 2 ^ w
def shrN (w a n : Nat) : Nat := if n ≥ w then 0 else a / 2 ^ n
def sarN (w a n : Nat) : Nat := wrapN w (intVal .s w a / (2 : Int) ^ (min n w))
/-- Rotate left by n modulo 32. -/
def rolN (a n : Nat) : Nat := let r := n % 32; (a * 2 ^ r) % 2 ^ 32 ||| a / 2 ^ (32 - r)

/-- Position and width of a bit-field descriptor (R83). -/
def bfPos (b : Nat) : Nat := b % 32
def bfWidth (b : Nat) : Nat := min (b / 256 % 64) 32

/-- Field extract (R83): bits above 31 do not exist. -/
def bfeN (ty : Sg) (a b : Nat) : Nat :=
  let pos := bfPos b
  let w := bfWidth b
  if w = 0 then 0
  else
    let e := min (pos + w) 32
    wrapN 32 (intVal ty (e - pos) (a / 2 ^ pos))

/-- Field insert of A into C (R83). -/
def bfiN (a b c : Nat) : Nat :=
  let pos := bfPos b
  let e := min (pos + bfWidth b) 32
  let m := 2 ^ e - 2 ^ pos
  (c &&& ((2 ^ 32 - 1) ^^^ m)) ||| ((a * 2 ^ pos) &&& m)

/-- Number of 1 bits among the low n bits. -/
def popN (a : Nat) : Nat → Nat
  | 0 => 0
  | n + 1 => popN a n + (if a.testBit n then 1 else 0)
/-- Trailing zero bits, up to n. -/
def ctzN (n a : Nat) : Nat := (List.range n).findIdx fun i => a.testBit i
/-- Leading zero bits of an n-bit pattern. -/
def clzN (n a : Nat) : Nat := (List.range n).findIdx fun i => a.testBit (n - 1 - i)
/-- Bit 31 - i of the operand to bit i. -/
def brevN (a : Nat) : Nat := (List.range 32).foldl (fun x i => x + (if a.testBit (31 - i) then 2 ^ i else 0)) 0

def execAnd (f : IntB) : State → Out := bitOp2 f fun a b => a &&& b
def execOr (f : IntB) : State → Out := bitOp2 f fun a b => a ||| b
def execXor (f : IntB) : State → Out := bitOp2 f fun a b => a ^^^ b
def execAndn (f : IntB) : State → Out := bitOp2 f fun a b => a &&& (b ^^^ (2 ^ 32 - 1))
def execNot (f : IntU) : State → Out := bitOp1 f fun a => a ^^^ (2 ^ 32 - 1)
def execShl (f : IntB) : State → Out := bitOp2 f (shlN 32)
def execShr (f : IntB) : State → Out := bitOp2 f (shrN 32)
def execSar (f : IntB) : State → Out := bitOp2 f (sarN 32)
def execRol (f : IntB) : State → Out := bitOp2 f rolN
def execRor (f : IntB) : State → Out := bitOp2 f fun a n => rolN a (32 - n % 32)
/-- The one bit-field result with a type: an s32 extends its sign in a g register (R147). -/
def execBfe (f : IntB) : State → Out := intOp2 f false .n f.ty.ext fun a b => plain (bfeN f.ty a b)
def execBfi (f : IntC) (s : State) : Out :=
  regOp f.c false f.b.len
    (fun L => regRefs f.c.w L false f.a ++ f.b.refs f.c.w L false ++ regRefs f.c.w L false f.cc)
    (fun L => regRefs f.c.w L false f.d)
    (fun cx L => dstWr f.c.w L .z f.d
      (bfiN (cx.v.rd f.c.w L false f.a) (cx.bval f.c.w L false .n f.b) (cx.v.rd f.c.w L false f.cc))) s
def execPopc (f : IntU) : State → Out := bitOp1 f fun a => popN a 32
def execClz (f : IntU) : State → Out := bitOp1 f (clzN 32)
def execCtz (f : IntU) : State → Out := bitOp1 f (ctzN 32)
def execBrev (f : IntU) : State → Out := bitOp1 f brevN

/-! ## Pair forms (R84) -/

/-- A pair form that reads B by `ty`; `bwide` when B is a pair too, else it is a 32-bit shift count. -/
def pairOp (f : IntB) (late bwide : Bool) (ty : BTy) (fn : Nat → Nat → Res) : State → Out :=
  regOp f.c late f.b.len
    (fun L => regRefs f.c.w L true f.a ++ f.b.refs f.c.w L bwide)
    (fun L => regRefs f.c.w L true f.d)
    (fun cx L =>
      let r := fn (cx.v.rd f.c.w L true f.a) (cx.bval f.c.w L bwide ty f.b)
      dstWr f.c.w L .wide f.d r.bits ++ [flagWr f.c.w L r.fl])

/-- Pair arithmetic reads B by its type (R55). -/
def pairArith (f : IntB) (late : Bool) (fn : Nat → Nat → Res) : State → Out := pairOp f late true f.ty.bty fn
/-- A pair shift: B is an unsigned count (R84). -/
def pairShift (f : IntB) (fn : Nat → Nat → Nat) : State → Out := pairOp f false false .n fun a n => plain (fn a n)
/-- Pair logic: B is a bit pattern under both type codes, so an immediate and a parcel extend zeros (R55, R56, R77). -/
def pairLogic (f : IntB) (fn : Nat → Nat → Nat) : State → Out := pairOp f false true .n fun a b => plain (fn a b)

/-- Exact values of two 64-bit operands of a type. -/
def pairBin (ty : Sg) (fn : Int → Int → Res) (a b : Nat) : Res := fn (intVal ty 64 a) (intVal ty 64 b)

def execPairAdd (f : IntB) : State → Out := pairArith f false (pairBin f.ty fun a b => intRes f.ty 64 f.sat (a + b))
def execPairSub (f : IntB) : State → Out := pairArith f false (pairBin f.ty fun a b => intRes f.ty 64 f.sat (a - b))
def execPairMul (f : IntB) : State → Out := pairArith f true (pairBin f.ty fun a b => intRes f.ty 64 f.sat (a * b))
def execPairMin (f : IntB) : State → Out := pairArith f false (pairBin f.ty fun a b => plain (wrapN 64 (if a ≤ b then a else b)))
def execPairMax (f : IntB) : State → Out := pairArith f false (pairBin f.ty fun a b => plain (wrapN 64 (if a ≥ b then a else b)))
def execPairShl (f : IntB) : State → Out := pairShift f (shlN 64)
def execPairShr (f : IntB) : State → Out := pairShift f (shrN 64)
def execPairSar (f : IntB) : State → Out := pairShift f (sarN 64)
def execPairAnd (f : IntB) : State → Out := pairLogic f fun a b => a &&& b
def execPairOr (f : IntB) : State → Out := pairLogic f fun a b => a ||| b
def execPairXor (f : IntB) : State → Out := pairLogic f fun a b => a ^^^ b

end Sys2Proof.Machine
end

