-- ==== Sys2Proof/Machine/Special.lean ====
section
/-! DEFINITION. Special functions (spec/02_numbers.md R47, R48). The published tables are exactly the output of
R47, so the coefficients are computed here from the functions themselves: fixed-point series with `fxBits`
fraction bits, then one rounding to binary32 each. -/

namespace Sys2Proof.Machine

/-- Fraction bits of the fixed-point numbers that stand for the exact values of R47. -/
def fxBits : Nat := 320
/-- One in fixed point. -/
def fxOne : Int := (2 : Int) ^ fxBits
/-- Product in fixed point. -/
def fxMul (a b : Int) : Int := a * b / fxOne
/-- Quotient in fixed point. -/
def fxDiv (a b : Int) : Int := a * fxOne / b

/-- Terms of the exponential series. -/
def expTerms (x : Int) : Nat → Nat → Int → Int → Int
  | 0, _, _, acc => acc
  | k + 1, i, term, acc =>
    let t := fxMul term x / (i : Int)
    expTerms x k (i + 1) t (acc + t)

/-- e^x for |x| at most 1. -/
def fxExpSmall (x : Int) : Int := expTerms x 90 1 fxOne fxOne

/-- Squares a number k times. -/
def fxSquares : Nat → Int → Int
  | 0, x => x
  | k + 1, x => fxSquares k (fxMul x x)

/-- e^x for 0 ≤ x ≤ 64: the small exponential of x/64, squared six times. -/
def fxExp (x : Int) : Int := fxSquares 6 (fxExpSmall (x / 64))

/-- Sum of x^(2i+1) / (2i+1), signs alternating when `alt`. -/
def atanTerms (x2 : Int) (alt : Bool) : Nat → Nat → Int → Int → Int
  | 0, _, _, acc => acc
  | k + 1, i, p, acc =>
    let t := p / ((2 * i + 1 : Nat) : Int)
    atanTerms x2 alt k (i + 1) (fxMul p x2) (if alt && decide (i % 2 = 1) then acc - t else acc + t)

/-- arctan x for small x. -/
def fxAtan (x : Int) : Int := atanTerms (fxMul x x) true 160 0 x 0
/-- artanh x for |x| at most 1/3. -/
def fxAtanh (x : Int) : Int := atanTerms (fxMul x x) false 160 0 x 0

/-- Pi by Machin's formula. -/
def fxPi : Int := 16 * fxAtan (fxOne / 5) - 4 * fxAtan (fxOne / 239)
/-- ln 2. -/
def fxLn2 : Int := 2 * fxAtanh (fxOne / 3)

/-- Alternating series of sine (start x, i = 1) and cosine (start 1, i = 0). -/
def trigTerms (x2 : Int) : Nat → Nat → Int → Int → Int
  | 0, _, _, acc => acc
  | k + 1, i, term, acc =>
    let t := -(fxMul term x2) / (((i + 1) * (i + 2) : Nat) : Int)
    trigTerms x2 k (i + 2) t (acc + t)

/-- sin x for 0 ≤ x ≤ pi/2. -/
def fxSin (x : Int) : Int := trigTerms (fxMul x x) 50 1 x x
/-- cos x for 0 ≤ x ≤ pi/2. -/
def fxCos (x : Int) : Int := trigTerms (fxMul x x) 50 0 fxOne fxOne

/-- Square root in fixed point. -/
def fxSqrt (x : Int) : Int := (isqrt (x.toNat * 2 ^ fxBits) : Int)

/-- Sum of x^(2i+1) / (1*3*...*(2i+1)). -/
def phiTerms (x2 : Int) : Nat → Nat → Int → Int → Int
  | 0, _, _, acc => acc
  | k + 1, i, term, acc =>
    let t := fxMul term x2 / ((2 * i + 1 : Nat) : Int)
    phiTerms x2 k (i + 1) t (acc + t)

/-- The standard normal distribution function at x, 0 ≤ x ≤ 8. -/
def fxPhi (x : Int) : Int :=
  let density := fxDiv fxOne (fxMul (fxExp (fxMul x x / 2)) (fxSqrt (2 * fxPi)))
  fxOne / 2 + fxMul density (phiTerms (fxMul x x) 300 1 x x)

/-- The table functions of R47. -/
inductive SpecialG | exp2 | log2 | sin | cos | tanh | sig | gelu
deriving DecidableEq, Repr

/-- The exact value g(s) of R47, s and the result in fixed point. -/
def SpecialG.eval (g : SpecialG) (s : Int) : Int :=
  match g with
  | .exp2 => fxExp (fxMul s fxLn2)
  | .log2 => fxDiv (2 * fxAtanh (fxDiv s (2 * fxOne + s))) fxLn2
  | .sin => fxSin (fxMul fxPi s / 2)
  | .cos => fxCos (fxMul fxPi s / 2)
  | .tanh => let e := fxExp (2 * s); fxDiv (e - fxOne) (e + fxOne)
  | .sig => fxDiv fxOne (fxOne + fxDiv fxOne (fxExp s))
  | .gelu => fxMul s (fxPhi s)

/-- 1/h, h the segment width (R47). -/
def SpecialG.inv : SpecialG → Nat
  | .exp2 => 64 | .log2 => 64 | .sin => 64 | .cos => 64 | .tanh => 8 | .sig => 4 | .gelu => 8

/-- RoundF32 to nearest even of an exact fixed-point value, as bits. -/
def fxToF32 (x : Int) : Nat := (Fmt.f32.round {} (decide (x < 0)) x.natAbs (-(fxBits : Int))).bits

/-- Coefficients c0, c1, c2 of segment i (R47 step 2). -/
def SpecialG.coeffs (g : SpecialG) (i : Nat) : Nat × Nat × Nat :=
  let at2 (j : Nat) : Int := g.eval ((j : Int) * fxOne / ((2 * g.inv : Nat) : Int))
  let y0 := at2 (2 * i)
  let ym := at2 (2 * i + 1)
  let y1 := at2 (2 * i + 2)
  (fxToF32 y0, fxToF32 (4 * ym - 3 * y0 - y1), fxToF32 (2 * y0 + 2 * y1 - 4 * ym))

/-- Steps 3 and 4 of R47 for a segment variable s = m * 2^e ≥ 0: the polynomial's value p as bits. -/
def SpecialG.poly (g : SpecialG) (m : Nat) (e : Int) : Nat :=
  let n := m * g.inv
  let i : Nat := if e ≥ 0 then n * 2 ^ e.toNat else n / 2 ^ (-e).toNat
  let t : Nat :=
    if e ≥ 0 then (Fmt.f32.pack false 0)
    else (Fmt.f32.round {} false (n % 2 ^ (-e).toNat) e).bits
  let c := g.coeffs i
  let h1 := (Fmt.f32.arith .fma {} c.2.2 t c.2.1).bits
  (Fmt.f32.arith .fma {} h1 t c.1).bits

/-- The special functions of R86. -/
inductive SpFn | exp2 | log2 | sin | cos | tanh | sig | gelu
deriving DecidableEq, Repr

def f32One : Nat := 0x3F800000
def f32Sign (b : Nat) : Nat := b ^^^ 0x80000000

/-- exp2 of the finite value (-1)^neg * m * 2^e (R47, R48). -/
def spExp2 (neg : Bool) (m : Nat) (e : Int) : Res :=
  -- x lies between -2^20 and 2^20, or its result overflows or vanishes
  if log2Frac (max m 1) 1 + e ≥ 20 then
    if neg then ⟨0, fUF⟩ else ⟨Fmt.f32.infPat, fOF⟩
  else
    let k := (max 0 (-e)).toNat
    let x : Int := signed neg (if e ≥ 0 then m * 2 ^ e.toNat else m)
    let n : Int := x / (2 : Int) ^ k
    let fr : Nat := (x % (2 : Int) ^ k).toNat
    let p := SpecialG.exp2.poly fr (-(k : Int))
    match Fmt.f32.decode p with
    | .fin _ pm pe =>
      let r := Fmt.f32.round {} false pm (pe + n)
      if r.bits = Fmt.f32.infPat then ⟨r.bits, fOF⟩
      else if log2Frac (max pm 1) 1 + (pe + n) < -149 then ⟨0, fUF⟩
      else if r.bits < 2 ^ 23 then ⟨r.bits, fUF⟩
      else ⟨r.bits, 0⟩
    | _ => ⟨p, 0⟩

/-- log2 of a positive finite value (R47). -/
def spLog2 (m : Nat) (e : Int) : Res :=
  let l := Nat.log2 m
  let p := SpecialG.log2.poly (m - 2 ^ l) (-(l : Int))
  let ex : Int := (l : Int) + e
  ⟨(Fmt.f32.addV {} (.fin (decide (ex < 0)) ex.natAbs 0) (Fmt.f32.decode p)).bits, 0⟩

/-- sin and cos in turns (R47): f = x - floor x, q the quarter turn, s the rest. -/
def spTrig (cosine neg : Bool) (m : Nat) (e : Int) : Res :=
  let k := (max 0 (-e)).toNat
  let fr : Nat := if e ≥ 0 then 0 else ((signed neg m) % (2 : Int) ^ k).toNat
  let q : Nat := 4 * fr / 2 ^ k
  let s : Nat := 4 * fr % 2 ^ k
  let quarter := if cosine then q + 1 else q
  let g : SpecialG := if quarter % 2 = 0 then .sin else .cos
  let p := g.poly s (-(k : Int))
  let r := if quarter % 4 = 0 ∨ quarter % 4 = 1 then p else f32Sign p
  ⟨if r % 2 ^ 31 = 0 then 0 else r, 0⟩

/-- s < bound for s = m * 2^e. -/
def belowNat (m : Nat) (e : Int) (bound : Nat) : Bool :=
  if e ≥ 0 then decide (m * 2 ^ e.toNat < bound) else decide (m < bound * 2 ^ (-e).toNat)

/-- A special function on binary32 bits (R47, R48); flags are those R48 lists. -/
def spF32 (fn : SpFn) (x : Nat) : Res :=
  match Fmt.f32.decode x with
  | .nan s => Fmt.f32.nanRes (nvIf s)
  | .inf neg =>
    match fn with
    | .exp2 => ⟨if neg then 0 else Fmt.f32.infPat, 0⟩
    | .log2 => if neg then Fmt.f32.nanRes fNV else ⟨Fmt.f32.infPat, 0⟩
    | .sin => Fmt.f32.nanRes fNV
    | .cos => Fmt.f32.nanRes fNV
    | .tanh => ⟨if neg then f32Sign f32One else f32One, 0⟩
    | .sig => ⟨if neg then 0 else f32One, 0⟩
    | .gelu => ⟨if neg then f32Sign 0 else x, 0⟩
  | .fin neg m e =>
    match fn with
    | .exp2 => spExp2 neg m e
    | .log2 =>
      if m = 0 then ⟨f32Sign Fmt.f32.infPat, fDZ⟩
      else if neg then Fmt.f32.nanRes fNV else spLog2 m e
    | .sin => spTrig false neg m e
    | .cos => spTrig true neg m e
    | .tanh =>
      if m = 0 then ⟨x, 0⟩
      else if belowNat m e 8 then
        let p := SpecialG.tanh.poly m e
        ⟨if neg then f32Sign p else p, 0⟩
      else ⟨if neg then f32Sign f32One else f32One, 0⟩
    | .sig =>
      if belowNat m e 16 then
        let p := SpecialG.sig.poly m e
        if neg && decide (m ≠ 0) then ⟨(Fmt.f32.arith .sub {} f32One p 0).bits, 0⟩ else ⟨p, 0⟩
      else ⟨if neg then 0 else f32One, 0⟩
    | .gelu =>
      if belowNat m e 8 then
        let p := SpecialG.gelu.poly m e
        if neg && decide (m ≠ 0) then ⟨(Fmt.f32.addV {} (Fmt.f32.decode p) (.fin true m e)).bits, 0⟩ else ⟨p, 0⟩
      else ⟨if neg then f32Sign 0 else x, 0⟩

/-- A special function in a float type (R48): f16 and bf16 widen, evaluate and round once; never NX. -/
def special (fn : SpFn) (f : Fmt) (ftz : Bool) (x : Nat) : Res :=
  match f.operand ftz x with
  | .nan s => f.nanRes (nvIf s)
  | v =>
    let wide : Nat :=
      match v with
      | .inf n => Fmt.f32.pack n Fmt.f32.infPat
      | .fin n m e => (Fmt.f32.round {} n m e).bits
      | .nan _ => Fmt.f32.nan
    let r := spF32 fn wide
    if f = .f32 then
      match Fmt.f32.decode r.bits with
      | .fin n m _ => if ftz ∧ 0 < m ∧ m < 2 ^ 23 then ⟨Fmt.f32.pack n 0, (r.fl ||| fUF) &&& ~~~fNX⟩ else ⟨r.bits, r.fl &&& ~~~fNX⟩
      | _ => ⟨r.bits, r.fl &&& ~~~fNX⟩
    else
      -- the f32 value is no operand of R27: only the result of the one rounding is flushed
      let o := match Fmt.f32.decode r.bits with
        | .fin n m e => f.round { ftz := ftz } n m e
        | _ => cvtFF .f32 f {} r.bits
      ⟨o.bits, (r.fl ||| o.fl) &&& ~~~fNX⟩

end Sys2Proof.Machine
end

