-- ==== Sys2Proof/Machine/Float.lean ====
section
/-! DEFINITION. Floating point, special functions, packed halves, conversions and compares of majors 0x09 to 0x11
(R85 to R89). -/

namespace Sys2Proof.Machine

/-- A float type is 64 bits wide. -/
def isF64 (t : FTy) : Bool := decide (t = .f64)
/-- The extension of a float result in a g register (R147). -/
def fltExt (t : FTy) : Ext := if isF64 t then .wide else .z

/-- A two-operand float form (R85). -/
def floatOp2 (f : FltB) (late : Bool) (op : FOp) (s : State) : Out :=
  let d := isF64 f.ty
  regOp f.c late f.b.len
    (fun L => regRefs f.c.w L d f.a ++ f.b.refs f.c.w L d)
    (fun L => regRefs f.c.w L d f.d)
    (fun cx L =>
      let r := (fmtOf f.ty).arith op ⟨f.rm, f.ftz, f.sat⟩ (cx.v.rd f.c.w L d f.a) (cx.bval f.c.w L d (.f (fmtOf f.ty)) f.b) 0
      dstWr f.c.w L (fltExt f.ty) f.d r.bits ++ [flagWr f.c.w L r.fl]) s

/-- A three-operand float form (R85). -/
def floatOp3 (f : FltC) (op : FOp) (s : State) : Out :=
  let d := isF64 f.ty
  regOp f.c true f.b.len
    (fun L => regRefs f.c.w L d f.a ++ f.b.refs f.c.w L d ++ regRefs f.c.w L d f.cc)
    (fun L => regRefs f.c.w L d f.d)
    (fun cx L =>
      let r := (fmtOf f.ty).arith op ⟨f.rm, f.ftz, f.sat⟩ (cx.v.rd f.c.w L d f.a)
        (cx.bval f.c.w L d (.f (fmtOf f.ty)) f.b) (cx.v.rd f.c.w L d f.cc)
      dstWr f.c.w L (fltExt f.ty) f.d r.bits ++ [flagWr f.c.w L r.fl]) s

/-- A float form whose one operand is B (R85, R86). -/
def floatOp1 (f : FltU) (fn : Nat → Res) (s : State) : Out :=
  let d := isF64 f.ty
  regOp f.c true f.b.len (fun L => f.b.refs f.c.w L d) (fun L => regRefs f.c.w L d f.d)
    (fun cx L =>
      let r := fn (cx.bval f.c.w L d (.f (fmtOf f.ty)) f.b)
      dstWr f.c.w L (fltExt f.ty) f.d r.bits ++ [flagWr f.c.w L r.fl]) s

def execFloatAdd (f : FltB) : State → Out := floatOp2 f true .add
def execFloatSub (f : FltB) : State → Out := floatOp2 f true .sub
def execFloatMul (f : FltB) : State → Out := floatOp2 f true .mul
def execFma (f : FltC) : State → Out := floatOp3 f .fma
def execFms (f : FltC) : State → Out := floatOp3 f .fms
def execFnma (f : FltC) : State → Out := floatOp3 f .fnma
def execFloatMin (f : FltB) : State → Out := floatOp2 f false .min
def execFloatMax (f : FltB) : State → Out := floatOp2 f false .max
def execFloatDiv (f : FltB) : State → Out := floatOp2 f true .div
def execRcp (f : FltU) : State → Out := floatOp1 f fun b => (fmtOf f.ty).arith .rcp ⟨f.rm, f.ftz, f.sat⟩ 0 b 0
def execSqrt (f : FltU) : State → Out := floatOp1 f fun b => (fmtOf f.ty).arith .sqrt ⟨f.rm, f.ftz, false⟩ 0 b 0
def execExp2 (f : FltU) : State → Out := floatOp1 f (special .exp2 (fmtOf f.ty) f.ftz)
def execLog2 (f : FltU) : State → Out := floatOp1 f (special .log2 (fmtOf f.ty) f.ftz)
def execSin (f : FltU) : State → Out := floatOp1 f (special .sin (fmtOf f.ty) f.ftz)
def execCos (f : FltU) : State → Out := floatOp1 f (special .cos (fmtOf f.ty) f.ftz)
def execTanh (f : FltU) : State → Out := floatOp1 f (special .tanh (fmtOf f.ty) f.ftz)
def execSig (f : FltU) : State → Out := floatOp1 f (special .sig (fmtOf f.ty) f.ftz)
def execGelu (f : FltU) : State → Out := floatOp1 f (special .gelu (fmtOf f.ty) f.ftz)

/-! ## Packed halves (R87) -/

/-- The scalar operation on both elements; the flags are OR-ed. -/
def packed (ty : FTy) (op : FOp) (md : RMode) (a b c : Nat) : Res :=
  let lo := (fmtOf ty).arith op md (a % 2 ^ 16) (b % 2 ^ 16) (c % 2 ^ 16)
  let hi := (fmtOf ty).arith op md (a / 2 ^ 16) (b / 2 ^ 16) (c / 2 ^ 16)
  ⟨lo.bits + hi.bits * 2 ^ 16, lo.fl ||| hi.fl⟩

def packedOp2 (f : FltB) (late : Bool) (op : FOp) (s : State) : Out :=
  regOp f.c late f.b.len (fun L => regRefs false L false f.a ++ f.b.refs false L false) (fun L => regRefs false L false f.d)
    (fun cx L =>
      let r := packed f.ty op ⟨f.rm, f.ftz, f.sat⟩ (cx.v.rd false L false f.a) (cx.bval false L false .n f.b) 0
      dstWr false L .z f.d r.bits ++ [flagWr false L r.fl]) s

def execAdd2 (f : FltB) : State → Out := packedOp2 f true .add
def execSub2 (f : FltB) : State → Out := packedOp2 f true .sub
def execMul2 (f : FltB) : State → Out := packedOp2 f true .mul
def execFma2 (f : FltC) (s : State) : Out :=
  regOp f.c true f.b.len
    (fun L => regRefs false L false f.a ++ f.b.refs false L false ++ regRefs false L false f.cc)
    (fun L => regRefs false L false f.d)
    (fun cx L =>
      let r := packed f.ty .fma ⟨f.rm, f.ftz, f.sat⟩ (cx.v.rd false L false f.a) (cx.bval false L false .n f.b)
        (cx.v.rd false L false f.cc)
      dstWr false L .z f.d r.bits ++ [flagWr false L r.fl]) s
def execMin2 (f : FltB) : State → Out := packedOp2 f false .min
def execMax2 (f : FltB) : State → Out := packedOp2 f false .max

/-! ## Conversions and compares (R88, R89) -/

/-- The register form of a number type's result (R88): narrow signed integers sign-extend to 32 bits. -/
def numForm (t : NumTy) (x : Nat) : Nat :=
  match kindOf t with
  | .int .s n => if n < 32 then wrapN 32 (intVal .s n x) else x
  | _ => x

/-- Its extension in a g register (R147). -/
def numExt (t : NumTy) : Ext :=
  if t.wide then .wide else match kindOf t with
    | .int .s _ => .s
    | _ => .z

def execCvt (f : CvtF) (s : State) : Out :=
  regOp f.c true 8 (fun L => regRefs f.c.w L f.src.wide f.a) (fun L => regRefs f.c.w L f.dst.wide f.d)
    (fun cx L =>
      let r := convert (kindOf f.src) (kindOf f.dst) ⟨f.rm, f.ftz, f.sat⟩ (cx.v.rd f.c.w L f.src.wide f.a)
      dstWr f.c.w L (numExt f.dst) f.d (numForm f.dst r.bits) ++ [flagWr f.c.w L r.fl]) s

/-- The float format of a compare type, or its signedness and width. -/
def cmpKind : CmpTy → NKind
  | .s32 => .int .s 32 | .n32 => .int .n 32 | .s64 => .int .s 64 | .n64 => .int .n 64
  | .f32 => .flt .f32 | .f16 => .flt .f16 | .bf16 => .flt .bf16 | .f64 => .flt .f64

/-- How its B operand is read. -/
def NKind.bty : NKind → BTy
  | .int .s _ => .s
  | .int .n _ => .n
  | .flt f => .f f

/-- A compare's truth and flags (R89). -/
def compareKind (k : NKind) (cond : Cond) (ftz : Bool) (a b : Nat) : Bool × Flags :=
  match k with
  | .int sg n => (intCompare cond (intVal sg n a) (intVal sg n b), 0)
  | .flt f => f.compare ftz cond a b

def execCmp (f : CmpF) (s : State) : Out :=
  let d := f.ty.wide
  regOp f.c false f.b.len (fun L => regRefs f.c.w L d f.a ++ f.b.refs f.c.w L d) (fun L => [predRef f.c.w L f.d])
    (fun cx L =>
      let r := compareKind (cmpKind f.ty) f.cond f.ftz (cx.v.rd f.c.w L d f.a) (cx.bval f.c.w L d (cmpKind f.ty).bty f.b)
      [predWr f.c.w L f.d r.1, flagWr f.c.w L r.2]) s

end Sys2Proof.Machine
end

