-- ==== Sys2Proof/Machine/Record.lean ====
section
/-! DEFINITION. Record and replay (R423, R424): records appended to the area of a launch's debug owner record, and the order of
atomic requests a replay follows. -/

namespace Sys2Proof.Machine

/-- Fields of a debug owner record (R409), from its 64 bytes. -/
structure DbgOwner where
  evring : Nat
  evlog : Nat
  flags : Nat
  evlost : Nat
  evwr : Nat
  evrd : Nat
  wpred : Nat
  recbase : Nat
  reclen : Nat
  recwr : Nat

def DbgOwner.ofNat (x : Nat) : DbgOwner :=
  let f := fun (off n : Nat) => x / 2 ^ (8 * off) % 2 ^ (8 * n)
  ⟨f 0 8, f 8 1, f 9 1, f 12 4, f 16 8, f 24 8, f 32 8, f 40 8, f 48 8, f 56 8⟩

/-- The debug owner record at an address of a launch; none when it cannot be read. -/
def State.dbgOwner (s : State) (id : Ident) (va : Nat) : State × Option DbgOwner :=
  if va = 0 then (s, none)
  else match s.homeNat id va 64 with
    | (s, .inl x) => (s, some (DbgOwner.ofNat x))
    | (s, .inr _) => (s, none)

/-- Rounds up to a multiple of 64. -/
def al64 (n : Nat) : Nat := (n + 63) / 64 * 64

/-- Appends one record; beyond RECLEN nothing is written and FULL is set (R423). A KIND 6 record is written with ATOMREC only. -/
def State.recAppend (s : State) (id : Ident) (dbg kind : Nat) (body : List Byte) (o : DbgOwner) : State :=
  let off := o.recwr % 2 ^ 56
  let size := al64 (16 + body.length)
  if o.recwr ≥ 2 ^ 63 ∨ (kind = 6 ∧ o.flags % 2 = 0) then s
  else if off + size > o.reclen then (s.homePut id (dbg + 56) 8 (off + 2 ^ 63)).1
  else
    let s := (s.homeWrite id (o.recbase + off)
      (toLeBytes 8 kind ++ toLeBytes 8 body.length ++ body ++ List.replicate (size - 16 - body.length) 0)).1
    (s.homePut id (dbg + 56) 8 (off + size)).1

/-- Appends an event to the ring; a full ring counts it in EVLOST (R410). -/
def State.evAppend (s : State) (id : Ident) (dbg : Nat) (body : List Byte) (o : DbgOwner) : State :=
  let n := 2 ^ (o.evlog % 16)
  if (o.evwr + 2 ^ 64 - o.evrd) % 2 ^ 64 ≥ n then (s.homePut id (dbg + 12) 4 (min (2 ^ 32 - 1) (o.evlost + 1))).1
  else ((s.homePut id (dbg + 16) 8 ((o.evwr + 1) % 2 ^ 64)).1.homeWrite id (o.evring + 64 * (o.evwr % n)) body).1

/-- One entry is appended by the agent of its core. -/
def State.dbgRun (s : State) (j : DbgJob) : State :=
  let id := s.launchIdent j.part j.q j.idx j.asid j.sdom j.num ((s.core j.core).teamTag j.core agentSlot)
  match s.dbgOwner id j.dbg, j.kind with
  | (s, none), _ => s
  | (s, some o), none => s.evAppend id j.dbg j.body o
  | (s, some o), some kind => s.recAppend id j.dbg kind j.body o

/-- An entry is appended at once, or waits behind earlier ones, or for the answers of another device; the device's entries go one at a
time, in order. -/
def State.dbgPost (s : State) (j : DbgJob) : State :=
  let (num, s) := s.fresh
  let j := { j with num := num }
  if !s.dbgq.isEmpty then { s with dbgq := s.dbgq ++ [j] }
  else
    let r := s.kept (s.dbgRun j) num
    if r.2 then r.1 else { r.1 with dbgq := [j] }

/-- The oldest waiting entry goes on, if it can. -/
def State.flushDebug (s : State) : Option State := match s.dbgq with
  | [] => none
  | j :: rest =>
    let r := s.kept (s.dbgRun j) j.num
    if r.2 then some ({ r.1 with dbgq := rest } : State).bump
    else if r.1.rbuf.length ≠ s.rbuf.length then some r.1.bump else none

/-- Kind and body of the records of an area, in order; `n` bounds their number. -/
def State.records (s : State) (id : Ident) (base stop : Nat) : Nat → State × List (Nat × List Byte)
  | 0 => (s, [])
  | n + 1 =>
    if base + 64 > stop then (s, [])
    else
      match s.homeRead id base 16 with
      | (s, .inr _) => (s, [])
      | (s, .inl h) =>
        let kind := leBytes (h.take 4)
        let len := leBytes (h.drop 8)
        if kind = 0 then (s, [])
        else
          match s.homeRead id (base + 16) len with
          | (s, .inr _) => (s, [])
          | (s, .inl b) => let r := s.records id (base + al64 (16 + len)) stop n; (r.1, (kind, b) :: r.2)

/-- Every record of a debug owner's area. -/
def State.recorded (s : State) (id : Ident) (o : DbgOwner) : State × List (Nat × List Byte) :=
  s.records id o.recbase (o.recbase + o.reclen) (o.reclen / 64)

def DbgOwner.atomrec (o : DbgOwner) : Bool := o.flags % 2 = 1
def DbgOwner.replay (o : DbgOwner) : Bool := o.flags / 2 % 2 = 1

/-- The claimed command of a launch slot. -/
def Part.cmd? (p : Part) (l : LSlot) : Option Cmd := p.cmds.find? fun m => decide (l.q % 256 = m.q ∧ l.idx = m.idx)

/-- Atomic requests of a launch applied to a word so far. -/
def Cmd.ord (m : Cmd) (va : Nat) : Nat := match m.ords.find? fun x => decide (x.1 = va) with | some x => x.2 | none => 0

/-- Under a replay with ATOMREC a request that arrives before its recorded turn is held (R424): the reads this takes are made under `owner`. -/
def State.atomMay (s : State) (c slot va tag owner : Nat) : State × Bool :=
  match (s.core c).lslotOf slot with
  | none => (s, true)
  | some l =>
    if l.launch.dbgown = 0 then (s, true)
    else
      let id := { s.identOf c slot with owner := owner }
      match s.dbgOwner id l.launch.dbgown, (s.part l.part).cmd? l with
      | (s, some o), some m =>
        if !(o.atomrec && o.replay) then (s, true)
        else
          let n := m.ord va
          let (s, rs) := s.recorded id o
          match rs.find? fun r => decide (r.1 = 6 ∧ leBytes (r.2.take 8) = va ∧ leBytes (r.2.drop 16) = n) with
          | some r => (s, decide (leBytes ((r.2.drop 8).take 8) = tag))
          | none => (s, true)
      | (s, _), _ => (s, true)

/-- The entry of a launch's slot. -/
def LSlot.job (l : LSlot) (c : Nat) (kind : Option Nat) (body : List Byte) : DbgJob :=
  ⟨0, c, l.part, l.q, l.idx, l.asid, l.sdom, l.launch.dbgown, kind, body⟩

/-- An applied atomic request of a launch with a debug owner is counted, and a recording launch records it (R423). -/
def State.atomDone (s : State) (c slot va tag : Nat) : State :=
  match (s.core c).lslotOf slot with
  | none => s
  | some l =>
    match (s.part l.part).cmd? l with
    | none => s
    | some m =>
      if l.launch.dbgown = 0 then s
      else
        let n := m.ord va
        let p := s.part l.part
        let s := s.setPart l.part { p with cmds := p.cmds.map fun x =>
          if x.q = m.q ∧ x.idx = m.idx then { x with ords := (va, n + 1) :: x.ords.filter fun y => decide (y.1 ≠ va) } else x }
        if l.launch.flags.getLsbD 3 then s.dbgPost (l.job c (some 6) (toLeBytes 8 va ++ toLeBytes 8 tag ++ toLeBytes 8 n)) else s

/-! ## Events (R410) -/

/-- Appends an event to the ring of a team's debug owner: EVENT, `brk` code, PC, sector address. -/
def State.dbgEvent (s : State) (c slot ev code : Nat) (pc : PCWord) (va : Nat) : State :=
  match (s.core c).lslotOf slot with
  | none => s
  | some l =>
    s.dbgPost (l.job c none (toLeBytes 2 l.q ++ toLeBytes 2 (1024 + c) ++ toLeBytes 4 0 ++ toLeBytes 8 l.idx ++ toLeBytes 1 ev ++ toLeBytes 1 slot ++
      toLeBytes 1 code ++ [0] ++ toLeBytes 4 (s.core c).cyc.toNat ++ toLeBytes 8 pc.toNat ++ toLeBytes 8 va ++ toLeBytes 24 0))

end Sys2Proof.Machine
end

