-- ==== Sys2Proof/Machine/Scratch.lean ====
section
/-! DEFINITION. Scratchpad: allocations (R168, R181), stash windows (R183), the range scoreboard (R207, R208),
barrier objects and their waiters (R214 to R217), modulo addressing (R182). -/

namespace Sys2Proof.Machine

/-- Reasons of R421: memory resources, release or fault-check wait, acquire, engine resources. -/
def reasonMemory : Nat := 2
def reasonRelease : Nat := 5
def reasonAcquire : Nat := 6
def reasonEngine : Nat := 8

/-- An acquire of this fragment is still on its way: no memory instruction of the fragment issues (R187, R273). -/
def Cx.acqBusy (cx : Cx) : Bool :=
  (cx.k.dqs.any fun d => decide (d.slot = cx.slot ∧ d.kind ≠ 0) && cx.owns d.seq) ||
  cx.k.reqs.any fun r => decide (r.slot = cx.slot) && cx.owns r.seq && (match r.kind with
    | .load _ _ _ acq => acq
    | .atomic _ _ _ _ acq _ _ => acq
    | _ => false)

/-- Bytes of a block's scratchpad allocation. -/
def Core.scratchSize (k : Core) (blk : Nat) : Nat :=
  match k.block? blk with
  | some b => b.size
  | none => 0

/-- A scratchpad access of n bytes at o is in range (R181). -/
def Core.inRange (k : Core) (blk : Nat) (o : Int) (n : Nat) : Bool := decide (0 ≤ o ∧ o + n ≤ k.scratchSize blk)

/-- A number read from a block's scratchpad. -/
def Core.scratchNat (k : Core) (blk off n : Nat) : Nat :=
  match k.block? blk with
  | some b => memNat b.scratch off n
  | none => 0

/-- The valid window of the block that holds a scratchpad offset (R183). -/
def Core.winAt (k : Core) (blk off : Nat) : Option StashWin :=
  k.wins.find? fun w => w.valid && decide (w.block = blk ∧ w.soff ≤ off ∧ off < w.soff + w.slen)

/-- A scratchpad extent meets a valid window of the block (R205). -/
def Core.winMeets (k : Core) (blk off n : Nat) : Bool :=
  k.wins.any fun w => w.valid && decide (w.block = blk) && overlaps off n w.soff w.slen

/-- A live session of the block holds an overlapping range entry: of kind W, or of either kind for a write (R208). -/
def Core.rangeBusy (k : Core) (blk off n : Nat) (write : Bool) : Bool :=
  k.sessions.any fun x => decide (x.block = blk) && x.ranges.any fun r => (r.1 || write) && overlaps off n r.2.1 (r.2.2 - r.2.1)

/-- Releases the waiters of a barrier object of a block with a status (R216, R217): fragments and the block's stream. -/
def Core.release (k : Core) (blk obj status : Nat) : Core :=
  let mine := fun (x : Entry) => match k.team? x.team with
    | some t => if x.team = agentSlot then decide (k.agent.lastBlock = some blk) else decide (t.block = blk)
    | none => false
  { k with
    quads := k.quads.map fun q => q.map fun x =>
      if decide (x.bw = some (obj, none)) && mine x then { x with bw := some (obj, some status) } else x
    seqs := k.seqs.map fun x => if x.block = some blk ∧ x.bw = some (obj, none) then { x with bw := some (obj, some status) } else x }

/-- Barrier objects whose bytes a write touches (R214, R217). -/
def touchedObjects (off n : Nat) : List Nat := (List.range 16).filter fun b => overlaps off n (16 * b) 16

/-- Writes bytes to a block's scratchpad without clobbering (the barrier instructions' own updates). -/
def Core.scratchPut (k : Core) (blk off : Nat) (bytes : List Byte) : Core :=
  match k.block? blk with
  | none => k
  | some b => k.setBlock blk { b with scratch := memPutBytes b.scratch off bytes }

/-- An ordinary scratchpad write: waiters of the barrier objects it touches are released with status 1 (R217). -/
def Core.scratchWrite (k : Core) (blk off : Nat) (bytes : List Byte) : Core :=
  (touchedObjects off bytes.length).foldl (fun k b => k.release blk b 1) (k.scratchPut blk off bytes)

/-! ## Barrier objects (R214, R216) -/

def Core.barField (k : Core) (blk obj i : Nat) : Nat := k.scratchNat blk (16 * obj + 4 * i) 4
def Core.barSet (k : Core) (blk obj i x : Nat) : Core := k.scratchPut blk (16 * obj + 4 * i) (toLeBytes 4 x)

/-- Complete(b): the phase ends when no arrival and no session is awaited. -/
def Core.barComplete (k : Core) (blk obj : Nat) : Core :=
  if k.barField blk obj 1 = 0 ∧ k.barField blk obj 2 = 0 then
    let k := k.barSet blk obj 3 ((k.barField blk obj 3 + 1) % 2 ^ 32)
    (k.barSet blk obj 1 (k.barField blk obj 0)).release blk obj 0
  else k

/-- `binit` (R216): waiters are clobbered. -/
def Core.barInit (k : Core) (blk obj count : Nat) : Core :=
  ((((k.release blk obj 1).barSet blk obj 0 count).barSet blk obj 1 count).barSet blk obj 2 0).barSet blk obj 3 0

/-- An arrival (R216): the phase it belongs to, with bit 63 for a count above what was awaited. -/
def Core.barArrive (k : Core) (blk obj count : Nat) : Core × DWord :=
  let pend := k.barField blk obj 1
  let ph := BitVec.ofNat 64 (k.barField blk obj 3)
  ((k.barSet blk obj 1 (pend - count)).barComplete blk obj, if count > pend then ph ||| 0x8000000000000000 else ph)

/-- A session names the object, and later ends (R216). -/
def Core.barTxStart (k : Core) (blk obj : Nat) : Core := k.barSet blk obj 2 ((k.barField blk obj 2 + 1) % 2 ^ 32)
def Core.barTxEnd (k : Core) (blk obj : Nat) : Core := (k.barSet blk obj 2 (k.barField blk obj 2 - 1)).barComplete blk obj

/-! ## Modulo addressing (R182) -/

/-- Offset of the r-th lane of a `.mod` access; none when the length is 0. -/
def ModReg.offset (m : ModReg) (r n : Nat) : Option Nat :=
  if m.len = 0 then none else some (m.base.toNat + (m.idx.toNat + r * n) % m.len.toNat)

/-- The index after an access advanced by a signed amount. -/
def ModReg.advance (m : ModReg) (b : Int) : ModReg :=
  { m with idx := BitVec.ofNat 20 (((m.idx.toNat : Int) + b) % (m.len.toNat : Int)).toNat }

end Sys2Proof.Machine
end

