-- ==== Sys2Proof/Machine/LoadStore.lean ====
section
/-! DEFINITION. Loads, stores, acquire and release, prefetch, atomics, multicast and reducing stores, modulo registers
(majors 0x24 to 0x2B: R179 to R182, R186 to R192). -/

namespace Sys2Proof.Machine

/-! ## Issue of memory instructions -/

/-- Whose earlier accesses a wait covers: the fragment's (R138), with every store of its team (R143), or of its core (R187). -/
inductive WaitFor | frag | team | core
deriving DecidableEq, Repr

/-- An earlier store, or anything that is accepted as one, is waited for. -/
def Cx.waitsStore (cx : Cx) (w : WaitFor) (slot : Nat) (seq : BitVec 16) : Bool :=
  match w with
  | .frag => decide (slot = cx.slot) && cx.owns seq
  | .team => decide (slot = cx.slot)
  | .core => true

/-- An earlier load is waited for: the fragment's own. -/
def Cx.waitsLoad (cx : Cx) (slot : Nat) (seq : BitVec 16) : Bool := decide (slot = cx.slot) && cx.owns seq

/-- Requests issued before an identifier that a wait still covers. -/
def Cx.waiting (cx : Cx) (snap : Nat) (w : WaitFor) (free : Put → Bool) : Bool :=
  let st := fun (id slot : Nat) (seq : BitVec 16) => decide (id < snap) && cx.waitsStore w slot seq
  (cx.k.stores.any fun e => st e.id e.slot e.seq) || (cx.k.refused.any fun f => st f.id f.slot f.seq) ||
  (cx.k.dqs.any fun d => st d.id d.slot d.seq) || (cx.k.tbs.any fun d => st d.id d.slot d.seq && decide (d.kind ≠ tbKindWait)) ||
  (cx.k.puts.any fun p => st p.id p.slot p.seq && !(free p)) ||
  (cx.k.reqs.any fun r => decide (r.id < snap) && match r.kind with
    | .prefetch _ => false
    | .atomic _ _ _ _ _ _ _ => cx.waitsStore w r.slot r.seq
    | _ => cx.waitsLoad r.slot r.seq)

/-- Waits for the accesses issued before this instruction that `w` names; puts that `free` names are not waited for (R290).
Then the fault check stops the team, unless this is the agent slot (R331, R353). -/
def Cx.waitPointBut (s : State) (cx : Cx) (w : WaitFor) (free : Put → Bool) (k : Out) : Out :=
  let snap := cx.x.snap.getD s.nextId
  if (cx.k.midway? cx.x).isSome then k
  else if cx.waiting snap w free then
    .next (s.setCore cx.c ((s.core cx.c).setEntry cx.q cx.e
      { (s.core cx.c).entry cx.q cx.e with snap := some snap, stall := some (s.epoch, reasonRelease) }))
  else if cx.slot ≠ agentSlot ∧ cx.t.checkStops then .next (cx.checkStop s)
  else k

def Cx.waitPoint (s : State) (cx : Cx) (w : WaitFor) (k : Out) : Out := cx.waitPointBut s w (fun _ => false) k

/-! ## Instructions that access other devices themselves (R405) -/

/-- Owner name of the accesses that an instruction's own step makes. -/
def Cx.owner (s : State) (cx : Cx) : Nat := 2 ^ 61 + match cx.k.midway? cx.x with
  | some m => m.id
  | none => s.nextId

/-- The context with what an engine-like step of the instruction has left in the core and the team. -/
def Cx.reload (s : State) (cx : Cx) : Cx :=
  let k := s.core cx.c
  { cx with k := k, x := k.entry cx.q cx.e, t := (k.team? cx.slot).getD cx.t }

/-- The context of an instruction that has issued under identifier `num` and waits for answers of other devices. -/
def Cx.hung (cx : Cx) (num : Nat) : Cx :=
  if (cx.k.midway? cx.x).isSome then cx
  else { cx with x := { cx.x with op := some num, stall := none, snap := none }
                 k := { cx.k with midways := cx.k.midways ++ [⟨num, cx.slot, cx.t.seq, cx.v, none, none⟩] } }

/-- An instruction's step tried from `s` and ended in `s'`. Answers of other devices missing, the instruction has issued: its SEQ is taken,
its operands are read, and it goes on when they have come; else it ends as `fin` says. -/
def Cx.gate (s : State) (cx : Cx) (s' : State) (fin : Cx → State → Out) : Out :=
  if (cx.k.midway? cx.x).isNone && s'.waitsFor (cx.owner s) && decide (s'.rbuf.length ≠ s.rbuf.length) then
    .next ((s.sent s').setCore cx.c (cx.hung s.nextId).core).bump
  else remoteGate s s' (cx.owner s) (stall s reasonMemory) fun s => fin (cx.reload s) s

/-- Runs the checks of R173 and the permission check of R177; the first failure traps. -/
def Cx.checked (s : State) (cx : Cx) (accs : List Acc) (conds : List (BitVec 8 × (Acc → Bool))) (k : Out) : Out :=
  match firstFail accs conds with
  | some (cls, L, va) => .next (cx.trap s cls 0 (laneWord L) (BitVec.ofNat 64 va) 0)
  | none => k

/-- Addresses of a global access: the pair or g register A plus the signed 32-bit B, modulo 2^64 (R179). -/
def Cx.globalAccs (cx : Cx) (c : Ctl) (a : Reg) (b : BOp) (size reg : Nat) : List Acc :=
  (cx.units c).map fun L =>
    ⟨if c.w then teamWideLane else L,
      wrapN 64 ((cx.v.rd c.w L true a : Int) + intVal .s 32 (cx.bval c.w L false .s b)), size, reg, 0, 0⟩

/-- Sequential end with a pending write for results that may still be outstanding. -/
def Cx.nextAwait (s : State) (cx : Cx) (len : Nat) (p : Pend) : State :=
  let x := { cx.x with pc := cx.x.pc + BitVec.ofNat 56 len, pend := tickPends cx.x.pend ++ [p], stall := none, op := none
                       snap := none, bw := none }
  (s.setCore cx.c ((({ cx with x := x } : Cx).core.meet cx.q cx.e cx.slot).over cx.x.op)).bump

/-- Where a load finds its bytes at issue: the stash through a window, or the L1; never for an acquire or behind an earlier
access to the sector (R170, R175, R187). -/
def Cx.localHit (s : State) (cx : Cx) (kind : ReqKind) (id : Ident) (a : Acc) : Option CSector :=
  if cx.k.earlier s.nextId cx.slot a.va then none
  else match kind with
    | .load _ _ _ false => cx.k.l1Hit id a.va a.size
    | .stash _ _ =>
      match findSector cx.k.stash id a.va with
      | some c => if c.pr && decide (wordMask a.va a.size &&& ~~~c.valid = 0) then some c else none
      | none => none
    | _ => none

def ReqKind.form : ReqKind → Bool × Bool
  | .load sx w _ _ => (sx, w)
  | .stash sx w => (sx, w)
  | .atomic _ ty w _ _ _ _ => (decide (ty = .s32), w)
  | _ => (false, false)

/-- Distinct words of atomics, or distinct sectors of everything else. -/
def ReqKind.parts (kind : ReqKind) (accs : List Acc) : List Nat :=
  match kind with
  | .atomic _ _ _ _ _ _ _ => (accs.map (·.va)).eraseDups
  | _ => sectorsOf accs

/-- Sends the accesses of one instruction (R174, R328): those overlapping a logged store are logged (R334), those found in the
core are served at once, the rest become a request whose results `dests` await; `pre` are results already there. -/
def Cx.send (s : State) (cx : Cx) (kind : ReqKind) (accs : List Acc) (dests : List RegRef) (pre : List Wr) (len la : Nat) : Out :=
  if accs.isEmpty then .next (cx.writeLate s len la dests pre)
  else if !(cx.seqFree s) then stall s reasonMemory
  else
    let id := s.identOf cx.c cx.slot
    let cx := cx.takeSeq s (maskOf ((accs.map (·.lane)).filter (· < 1024)))
    let (sx, w) := kind.form
    let logged := accs.filter fun a => cx.t.logCovers a.va a.size
    let sent := accs.filter fun a => !(cx.t.logCovers a.va a.size)
    let hits := sent.filterMap fun a => (cx.localHit s kind id a).map fun c => (a, c)
    let rest := sent.filter fun a => (cx.localHit s kind id a).isNone
    let r : Req := ⟨s.nextId, kind, cx.slot, cx.q, cx.e, cx.t.seq, cx.x.pc, cx.t.level, maskOf ((accs.map (·.lane)).filter (· < 1024)),
      rest, id.gen, id.sgen, [], [], kind.parts rest, [], []⟩
    let got := pre ++ hits.flatMap fun (a, c) => loadWr w sx a.lane a.size a.reg (sectorNat c.data (a.va % 32) a.size)
    if cx.k.sectorsOut + r.todo.length > 4096 ∧ cx.k.sectorsOut > 0 then stall s reasonMemory
    else
      let cx := { cx with t := cx.t.addLog (logged.map fun a => r.logOf a 0 true) }
      let watched := (hits.filter fun h => h.2.watch).map fun h => h.2.va
      let s0 := { s with nextId := s.nextId + 1 }
      let s1 :=
        if r.todo.isEmpty then
          if dests.isEmpty then cx.next s0 len else cx.writeLate s0 len la dests got
        else
          let cx := { cx with k := { cx.k with reqs := cx.k.reqs ++ [r] } }
          if dests.isEmpty then cx.next s0 len else cx.nextAwait s0 len ⟨r.id, dests, got, la, false⟩
      .next (watched.eraseDups.foldl (fun s va => s.watchHit cx.c cx.slot va 1 r.seq r.pc) s1)

/-- The store-buffer entries of accesses: one per sector; the highest lane's byte remains (R175, R329). -/
def Cx.storeEnts (s : State) (cx : Cx) (accs : List Acc) (w stash rel : Bool) : List StoreEnt :=
  let id := s.identOf cx.c cx.slot
  (sectorsOf accs).mapIdx fun i va =>
    let mine := accs.filter fun a => decide (a.va / 32 = va / 32)
    let put := fun (x : Sector) (a : Acc) => mergeSector x a.mask ((a.data.setWidth 256) <<< (8 * (a.va % 32)))
    ⟨s.nextId + i, cx.slot, cx.t.seq, cx.x.pc, cx.t.level, va, mine.foldl (fun m a => m ||| a.mask) 0, mine.foldl put 0, mine,
      w, id.gen, id.sgen, none, stash, rel, false⟩

/-- Puts stores into the late-fault store buffer (R174); those overlapping a logged store are logged instead (R334). Groups
are separate destinations of one instruction. One that alone needs more entries than the buffer has issues with the buffer empty, and its
entries beyond the 512th are accepted only as others leave: the manual does not say how it issues (DESIGN CHOICE, log 106). -/
def Cx.store (s : State) (cx : Cx) (groups : List (List Acc)) (w stash rel : Bool) (len : Nat) : Out :=
  let accs := groups.flatten
  if accs.isEmpty then .next (cx.next s len)
  else if !(cx.seqFree s) then stall s reasonMemory
  else
    let cx := cx.takeSeq s (maskOf ((accs.map (·.lane)).filter (· < 1024)))
    let logged := accs.filter fun a => cx.t.logCovers a.va a.size
    let es := groups.foldl (fun es g =>
      let sent := g.filter fun a => !(cx.t.logCovers a.va a.size)
      es ++ cx.storeEnts { s with nextId := s.nextId + es.length } sent w stash rel) []
    if cx.k.stores.length + es.length > 512 ∧ !cx.k.stores.isEmpty then stall s reasonMemory
    else
      let log := logged.map fun a => mkLog 2 (Nat.log2 a.size) 0 (storeFlags w rel) a.lane a.reg 0 cx.t.seq 0 cx.t.level cx.x.pc
        a.va a.data
      let cx := { cx with t := cx.t.addLog log, k := { cx.k with stores := cx.k.stores ++ es } }
      .next (cx.next { s with nextId := s.nextId + es.length } len)

/-- The permission check of R177: the sector is valid in the L1 under its tag with PW = 0. -/
def Cx.l1Writable (s : State) (cx : Cx) (a : Acc) : Bool :=
  match findSector cx.k.l1 (s.identOf cx.c cx.slot) a.va with
  | some c => c.pw
  | none => true

/-! ## Global loads and stores (R179, R180, R186, R187) -/

/-- A narrow size that sign-extends. -/
def sizeSigned (z : MSize) : Bool := decide (z = .s8 ∨ z = .s16)

/-- Registers a data operand of a size names. -/
def dataRefs (w : Bool) (L : Nat) (z : MSize) (r : Reg) : List RegRef := loadRefs w L z.bytes r.toNat

/-- A global load (R179): `acq` for an acquire load. -/
def loadOp (f : MemF) (acq : Bool) (s : State) : Out :=
  let w := f.c.w
  issue s
    (fun cx => cx.predRefs f.c ++ (cx.units f.c).flatMap fun L => regRefs w L true f.a ++ f.b.refs w L false)
    (fun cx => (cx.units f.c).flatMap fun L => dataRefs w L f.size f.d)
    fun cx =>
      if cx.acqBusy then stall s reasonAcquire
      else
        let accs := cx.globalAccs f.c f.a f.b f.size.bytes f.d.toNat
        cx.checked s accs [(0x03, Acc.aligned), (0x04, fun a => cx.k.leaseOk cx.slot a.va a.size true false)]
          (cx.send s (.load (sizeSigned f.size) w (acq || f.v) acq) accs
            ((cx.units f.c).flatMap fun L => dataRefs w L f.size f.d) [] f.b.len f.c.la.toNat)

/-- The data of a store: the register's low bytes. -/
def Cx.storeData (cx : Cx) (w : Bool) (L : Nat) (n : Nat) (r : Reg) : Nat :=
  (if w then (cx.v.rg r.toNat).toNat
   else if n = 16 then ((cx.v.lane L).r2 (r.toNat + 2) ++ (cx.v.lane L).r2 r.toNat).toNat
   else ((cx.v.lane L).r2 r.toNat).toNat) % 2 ^ (8 * n)

/-- A global store's accesses with their data. -/
def Cx.storeAccs (cx : Cx) (f : MemF) : List Acc :=
  (cx.globalAccs f.c f.a f.b f.size.bytes f.d.toNat).map fun a =>
    { a with data := BitVec.ofNat 128 (cx.storeData f.c.w (if f.c.w then 0 else a.lane) f.size.bytes f.d) }

/-- Registers a global store reads. -/
def storeReads (f : MemF) (cx : Cx) : List RegRef :=
  cx.predRefs f.c ++ (cx.units f.c).flatMap fun L =>
    dataRefs f.c.w L f.size f.d ++ regRefs f.c.w L true f.a ++ f.b.refs f.c.w L false

/-- The store itself, once its waits are over. -/
def Cx.storeNow (s : State) (cx : Cx) (f : MemF) (rel : Bool) : Out :=
  let accs := cx.storeAccs f
  cx.checked s accs
    [(0x03, Acc.aligned), (0x04, fun a => cx.k.leaseOk cx.slot a.va a.size false true), (0x06, cx.l1Writable s)]
    (cx.store s [accs] f.c.w false rel f.b.len)

def execLd (f : MemF) : State → Out := loadOp f false
def execSt (f : MemF) (s : State) : Out :=
  issue s (storeReads f) (fun _ => []) fun cx => if cx.acqBusy then stall s reasonAcquire else cx.storeNow s f false
def execLda (f : MemF) : State → Out := loadOp f true
/-- A release store: a fault-check point that waits for every earlier store of the core, then stores (R187). -/
def execStl (f : MemF) (s : State) : Out :=
  issue s (storeReads f) (fun _ => []) fun cx =>
    if cx.acqBusy then stall s reasonAcquire
    else if (cx.units f.c).isEmpty then .next (cx.next s f.b.len)
    else cx.waitPoint s .core (cx.storeNow s f true)

/-- `fence` (R186, R187): the release first, then the acquire's invalidation. -/
def execFence (f : FenceF) (s : State) : Out :=
  issue s (fun cx => cx.predRefs f.c) (fun _ => []) fun cx =>
    if cx.acqBusy then stall s reasonAcquire
    else if !(cx.acts f.c) then .next (cx.next s 8)
    else
      let fin := fun (_ : Unit) => Host.Outcome.next (if f.acq then (cx.next s 8).acquire cx.c else cx.next s 8)
      if f.rel then cx.waitPoint s .core (fin ()) else fin ()

/-- `pf` (R188): lanes that fail the lease check, and requests that find no slot, are dropped. -/
def execPf (f : PfF) (s : State) : Out :=
  issue s
    (fun cx => cx.predRefs f.c ++ (cx.units f.c).flatMap fun L => regRefs f.c.w L true f.a ++ f.b.refs f.c.w L false)
    (fun _ => []) fun cx =>
      if cx.acqBusy then stall s reasonAcquire
      else
        let accs := (cx.globalAccs f.c f.a f.b 1 0).filter fun a =>
          cx.k.leaseOk cx.slot a.va 1 true false && !(cx.t.logCovers a.va 1)
        let room := 4096 - cx.k.sectorsOut
        let kept := (sectorsOf accs).take room
        cx.send s (.prefetch f.l2) (accs.filter fun a => kept.contains (a.va / 32 * 32)) [] [] f.b.len 0

/-! ## Scratchpad loads and stores (R179 to R183) -/

/-- Offsets of a scratchpad access by lane: A plus B, or modulo addressing with the lanes numbered ascending. -/
def Cx.scratchAccs (cx : Cx) (f : MemF) : List Acc :=
  let n := f.size.bytes
  (cx.units f.c).mapIdx fun r L =>
    let lane := if f.c.w then teamWideLane else L
    if f.v then
      let m := cx.v.m[f.a.toNat]?.getD ModReg.zero
      ⟨lane, (m.offset r n).getD m.base.toNat, n, f.d.toNat, 0, 0⟩
    else
      ⟨lane, wrapN 64 ((cx.v.rd f.c.w L false f.a : Int) + intVal .s 32 (cx.bval f.c.w L false .s f.b)), n, f.d.toNat, 0, 0⟩

/-- Base and length of a modulo register are multiples of the access size. -/
def modAligned (m : ModReg) (n : Nat) : Bool := decide (m.base.toNat % n = 0 ∧ m.len.toNat % n = 0)

/-- The checks of a scratchpad access in the order of R173: alignment, range, stash rights. -/
def Cx.scratchConds (cx : Cx) (f : MemF) (write : Bool) : List (BitVec 8 × (Acc → Bool)) :=
  let m := cx.v.m[f.a.toNat]?.getD ModReg.zero
  [(0x03, fun a => a.aligned && (!f.v || modAligned m f.size.bytes)),
   (0x05, fun a => cx.k.inRange cx.t.block a.va a.size && (!f.v || decide (m.len ≠ 0))),
   (0x07, fun a => !write || match cx.k.winAt cx.t.block a.va with | some w => !w.ro | none => true)]

/-- The index advance of a `.mod` access in which some lane took part (R182). -/
def Cx.modAdvance (cx : Cx) (f : MemF) : Cx :=
  match f.v, cx.units f.c with
  | true, L :: _ =>
    let i := f.a.toNat
    let b := intVal .s 32 (cx.bval f.c.w L false .s f.b)
    { cx with t := { cx.t with m := cx.t.m.modify i (·.advance b) } }
  | _, _ => cx

/-- An access that falls into a stash window, at its global address (R183). -/
def Core.stashAcc (k : Core) (blk : Nat) (a : Acc) : Option Acc :=
  (k.winAt blk a.va).map fun w => { a with va := w.gbase + (a.va - w.soff) }

/-- Registers a scratchpad access reads for its offset. -/
def scratchReads (f : MemF) (cx : Cx) : List RegRef :=
  cx.predRefs f.c ++ (cx.units f.c).flatMap fun L => (if f.v then [] else regRefs f.c.w L false f.a) ++ f.b.refs f.c.w L false

def execLds (f : MemF) (s : State) : Out :=
  let w := f.c.w
  issue s (scratchReads f) (fun cx => (cx.units f.c).flatMap fun L => dataRefs w L f.size f.d) fun cx =>
    let accs := cx.scratchAccs f
    let blk := cx.t.block
    if cx.acqBusy then stall s reasonAcquire
    else cx.checked s accs (cx.scratchConds f false)
      (if accs.any fun a => cx.k.rangeBusy blk a.va a.size false then stall s reasonEngine
       else
        let plain := accs.filter fun a => (cx.k.winAt blk a.va).isNone
        let stash := accs.filterMap fun a => cx.k.stashAcc blk a
        let pre := plain.flatMap fun a => loadWr w (sizeSigned f.size) a.lane a.size a.reg (cx.k.scratchNat blk a.va a.size)
        (cx.modAdvance f).send s (.stash (sizeSigned f.size) w) stash
          ((cx.units f.c).flatMap fun L => dataRefs w L f.size f.d) pre f.b.len f.c.la.toNat)

def execSts (f : MemF) (s : State) : Out :=
  issue s (fun cx => scratchReads f cx ++ (cx.units f.c).flatMap fun L => dataRefs f.c.w L f.size f.d) (fun _ => []) fun cx =>
    let accs := (cx.scratchAccs f).map fun a =>
      { a with data := BitVec.ofNat 128 (cx.storeData f.c.w (if f.c.w then 0 else a.lane) f.size.bytes f.d) }
    let blk := cx.t.block
    if cx.acqBusy then stall s reasonAcquire
    else cx.checked s accs (cx.scratchConds f true)
      (if accs.any fun a => cx.k.rangeBusy blk a.va a.size true then stall s reasonEngine
       else
        let plain := accs.filter fun a => (cx.k.winAt blk a.va).isNone
        let stash := accs.filterMap fun a => cx.k.stashAcc blk a
        let k := plain.foldl (fun k a => k.scratchWrite blk a.va (toLeBytes a.size a.data.toNat)) cx.k
        -- the writes release waiters among the entries: the issuing entry itself is not one
        (({ cx with k := k } : Cx).modAdvance f).store s [stash] f.c.w true false f.b.len)

/-- `mset` (R182): the index is stored modulo the length. -/
def execMset (f : DB) (s : State) : Out :=
  issue s (fun cx => cx.onceReads f.c (f.b.refs true 0 true)) (fun _ => []) fun cx =>
    if !(cx.takes f.c) then .next (cx.next s f.b.len)
    else if cx.acqBusy then stall s reasonAcquire
    else
      let b := cx.bval true 0 true .n f.b
      let len := b / 2 ^ 20 % 2 ^ 20
      let idx := b / 2 ^ 40 % 2 ^ 20
      let m : ModReg := ⟨BitVec.ofNat 20 b, BitVec.ofNat 20 len, BitVec.ofNat 20 (if len = 0 then 0 else idx % len)⟩
      .next (({ cx with t := { cx.t with m := cx.t.m.set f.d.toNat m } } : Cx).next s f.b.len)

/-- The three fields of a modulo register in the layout of `mset` (R182). -/
def mgetNow (f : DA) (s : State) : Out :=
  regOp f.c false 8 (fun _ => []) (fun _ => [.g f.d.toNat])
    (fun cx _ =>
      let m := cx.v.m[f.a.toNat]?.getD ModReg.zero
      [.g f.d.toNat ((m.idx ++ m.len ++ m.base).setWidth 64)]) s

/-- `mget` (R182, R187). -/
def execMget (f : DA) (s : State) : Out :=
  withFrag s fun cx => if cx.acqBusy && cx.takes f.c then stall s reasonAcquire else mgetNow f s

/-! ## Atomics (R189, R190) -/

/-- Bytes of an atomic type. -/
def atTyBytes (t : AtTy) : Nat := if t.wide then 8 else 4
/-- B of an atomic is read by its type, under `and`, `or` and `xor` too: R189 names the type and no bit pattern (DESIGN CHOICE,
assumption 102). -/
def atTyBty (t : AtTy) : BTy :=
  match t with
  | .s32 => .s | .s64 => .s | .n32 => .n | .n64 => .n | .f32 => .f .f32 | .f64 => .f .f64
def atTyKind (t : AtTy) : NKind :=
  match t with
  | .s32 => .int .s 32 | .s64 => .int .s 64 | .n32 => .int .n 32 | .n64 => .int .n 64 | .f32 => .flt .f32 | .f64 => .flt .f64

/-- The new value of a word (R190, R42). -/
def atomNew (op : AtOp) (ty : AtTy) (old b c : Nat) : Nat :=
  match op with
  | .exch => b
  | .cas => if old = c then b else old
  | .and => old &&& b
  | .or => old ||| b
  | .xor => old ^^^ b
  | .add => match atTyKind ty with
    | .int _ n => (old + b) % 2 ^ n
    | .flt f => (f.arith .add {} old b 0).bits
  | .min => match atTyKind ty with
    | .int sg n => if intVal sg n old ≤ intVal sg n b then old else b
    | .flt f => (f.arith .min {} old b 0).bits
  | .max => match atTyKind ty with
    | .int sg n => if intVal sg n old ≥ intVal sg n b then old else b
    | .flt f => (f.arith .max {} old b 0).bits

/-- Applies the lanes of one word in ascending order: the last value, and each lane's old value. -/
def atomLanes (op : AtOp) (ty : AtTy) (as : List Acc) (old : Nat) : Nat × List (Acc × Nat) :=
  as.foldl (fun (st : Nat × List (Acc × Nat)) a =>
    (atomNew op ty st.1 (a.data.toNat % 2 ^ (8 * a.size)) (a.cmp.toNat % 2 ^ (8 * a.size)), st.2 ++ [(a, st.1)])) (old, [])

/-- Writes of returned old values. -/
def atomWrs (ty : AtTy) (w nr : Bool) (rs : List (Acc × Nat)) : List Wr :=
  if nr then [] else rs.flatMap fun (a, x) => loadWr w (decide (ty = .s32)) a.lane a.size a.reg x

/-- Accesses of an atomic: global addresses, or scratchpad offsets with `.sp` (R189). -/
def Cx.atomAccs (cx : Cx) (f : AtomF) : List Acc :=
  let w := f.c.w
  (cx.units f.c).map fun L =>
    ⟨if w then teamWideLane else L, cx.v.rd w L (!f.sp) f.a, atTyBytes f.ty, f.d.toNat,
      BitVec.ofNat 128 (cx.bval w L f.ty.wide (atTyBty f.ty) f.b), BitVec.ofNat 64 (if f.op = .cas then cx.v.rd w L f.ty.wide f.cc else 0)⟩

def atomReads (f : AtomF) (cx : Cx) : List RegRef :=
  cx.predRefs f.c ++ (cx.units f.c).flatMap fun L => regRefs f.c.w L (!f.sp) f.a ++ f.b.refs f.c.w L f.ty.wide ++
    (if f.op = .cas then regRefs f.c.w L f.ty.wide f.cc else [])
def atomDests (f : AtomF) (cx : Cx) : List RegRef :=
  if f.nr then [] else (cx.units f.c).flatMap fun L => regRefs f.c.w L f.ty.wide f.d

/-- The scratchpad part: each word's lanes are one step (R190). -/
def Core.atomScratch (k : Core) (blk : Nat) (op : AtOp) (ty : AtTy) (accs : List Acc) : Core × List (Acc × Nat) :=
  ((accs.map (·.va)).eraseDups).foldl (fun (st : Core × List (Acc × Nat)) va =>
    let mine := accs.filter fun a => decide (a.va = va)
    let r := atomLanes op ty mine (st.1.scratchNat blk va (atTyBytes ty))
    (st.1.scratchWrite blk va (toLeBytes (atTyBytes ty) r.1), st.2 ++ r.2)) (k, [])

def execAtom (f : AtomF) (s : State) : Out :=
  let w := f.c.w
  issue s (atomReads f) (atomDests f) fun cx =>
    let accs := cx.atomAccs f
    let kind := ReqKind.atomic f.op f.ty w f.nr f.acq f.rel false
    let la := if f.nr then 0 else f.c.la.toNat
    let blk := cx.t.block
    if cx.acqBusy then stall s reasonAcquire
    else if accs.isEmpty then .next (cx.writeLate s f.b.len la [] [])
    else if f.sp then
      cx.checked s accs
        [(0x03, Acc.aligned), (0x05, fun a => cx.k.inRange blk a.va a.size),
         (0x07, fun a => match cx.k.winAt blk a.va with | some x => !x.ro | none => true)]
        (if accs.any fun a => cx.k.rangeBusy blk a.va a.size true then stall s reasonEngine
         else
          let plain := accs.filter fun a => (cx.k.winAt blk a.va).isNone
          let stash := accs.filterMap fun a => cx.k.stashAcc blk a
          let r := cx.k.atomScratch blk f.op f.ty plain
          ({ cx with k := r.1 } : Cx).send s kind stash (atomDests f cx) (atomWrs f.ty w f.nr r.2) f.b.len la)
    else
      let go := fun (_ : Unit) => cx.checked s accs
        [(0x03, Acc.aligned), (0x04, fun a => cx.k.leaseOk cx.slot a.va a.size true true)]
        (cx.send s kind accs (atomDests f cx) [] f.b.len la)
      if f.rel then cx.waitPoint s .core (go ()) else go ()

/-- A word of an atomic is refused: its lanes get no value (R190, R334). -/
def State.refuseAtomic (s : State) (c : Nat) (r : Req) (va : Nat) (cls : BitVec 8) : State :=
  let k := s.core c
  let as := r.accs.filter fun a => decide (a.va = va)
  let f : Refused := ⟨r.id, r.slot, r.seq, r.pc, cls, va / 32 * 32, lowLane as, false, as.map fun a => r.logOf a cls false⟩
  let r := { r with todo := r.todo.filter fun x => decide (x ≠ va), lost := r.lost ++ as.map (·.lane) }
  s.setCore c { (k.setReq r) with refused := k.refused ++ [f] }

/-- Lanes of an atomic at a way that holds their word, in one indivisible step (R190): each lane's old value. -/
def State.atomWay (s : State) (i key : Nat) (id : Ident) (op : AtOp) (ty : AtTy) (va : Nat) (mine : List Acc) :
    State × Sum (List (Acc × Nat)) (BitVec 8) :=
  match s.readWay i key id va none with
  | (s, .inr cls) => (s, .inr cls)
  | (s, .inl x) =>
    let n := atTyBytes ty
    let res := atomLanes op ty mine (sectorNat x (va % 32) n)
    let a : Acc := ⟨0, va, n, 0, 0, 0⟩
    ((s.writeWay i key id va a.mask ((BitVec.ofNat 256 res.1) <<< (8 * (va % 32))) none).1, .inl res.2)

/-- One word of an atomic is applied at its home as one indivisible step (R190). -/
def execAtomicRequest (core idx : Nat) (s : State) : Out :=
  match (s.core core).reqs[idx]? with
  | none => .refused .eventNotDue
  | some r =>
    match r.kind, r.todo with
    | .atomic op ty w nr _ _ _, va :: _ =>
      let tag := (reqTag core r.quad r.slot r.seq).toNat
      if (s.core core).earlier r.id r.slot va || s.stale core r.slot r.gen r.sgen va true then .refused .eventNotDue
      else
        let may := s.atomMay core r.slot va tag r.id
        remoteGate s may.1 r.id (.refused .eventNotDue) fun s =>
        if !may.2 then .refused .eventNotDue
        else
        let id := s.reqIdent core r
        match s.home id.part va with
        | .away dev _ =>
          if !(s.reaches id.tag (s.exitSlice id va)) then .refused .eventNotDue
          else match s.plane dev va with
          | none => .next (s.refuseAtomic core r va 0x16).bump
          | some p =>
            let (num, s) := s.fresh
            let r' := { r with todo := r.todo.filter fun x => decide (x ≠ va), away := r.away ++ [(num, va)] }
            let mine := r.accs.filter fun a => decide (a.va = va)
            .next ((s.setCore core ((s.core core).setReq r')).ask p dev num id 2 va (atOpNo op * 8 + atTyNo ty + 64 * mine.length)
              (mine.foldl (fun x a => x * 2 ^ 128 + a.data.toNat % 2 ^ 64 + 2 ^ 64 * a.cmp.toNat) 0)).bump
        | .here i =>
          match s.stage i id va false true (r.missed.contains va) with
          | (_, .wait) => .refused .eventNotDue
          | (s, .sent) => .next (s.setCore core ((s.core core).setReq { r with missed := va :: r.missed })).bump
          | (s, .refused cls) => .next (s.refuseAtomic core r va cls).bump
          | (s, .hit key) =>
            let n := atTyBytes ty
            let mine := r.accs.filter fun a => decide (a.va = va)
            let got := s.atomWay i key id op ty va mine
            remoteGate s got.1 id.owner (.refused .eventNotDue) fun s =>
            match got.2 with
            | .inr cls => .next (s.refuseAtomic core r va cls).bump
            | .inl res =>
              let watched := match (s.slice i).way? key with
                | some l => l.watch.getLsbD (subOf va)
                | none => false
              let s := s.forget core id va n
              let s := s.atomDone core r.slot va tag
              let k := (s.core core).setReq { r with todo := r.todo.filter fun x => decide (x ≠ va) }
              let s := s.setCore core (k.addResults r.id (atomWrs ty w nr res) false)
              let s := if watched then s.watchHit core r.slot va 3 r.seq r.pc else s
              .next (s.finishReq core r.id).bump
    | _, _ => .refused .eventNotDue

/-! ## Multicast and reducing stores (R191, R192) -/

/-- Accesses of destination i: g(B + i) plus the lane offset. -/
def Cx.mcstAccs (cx : Cx) (c : Ctl) (a b d : Reg) (n i : Nat) : List Acc :=
  (cx.part c).map fun L =>
    ⟨L, wrapN 64 (((cx.v.rg (b.toNat + i)).toNat : Int) + (cx.v.rd false L false a : Int)), n, d.toNat,
      BitVec.ofNat 128 (cx.storeData false L n d), 0⟩

def mcstReads (c : Ctl) (a b d : Reg) (n cnt : Nat) (cx : Cx) : List RegRef :=
  cx.predRefs c ++ (if (cx.part c).isEmpty then [] else (List.range cnt).map fun i => RegRef.g (b.toNat + i)) ++
    (cx.part c).flatMap fun L => regRefs false L (decide (n = 8)) d ++ regRefs false L false a

def Cx.mcstConds (cx : Cx) : List (BitVec 8 × (Acc → Bool)) :=
  [(0x03, Acc.aligned), (0x04, fun a => cx.k.leaseOk cx.slot a.va a.size true true)]

def execMcst (f : McstF) (s : State) : Out :=
  let n := if f.d64 then 8 else 4
  let cnt := f.cnt.toNat + 1
  issue s (mcstReads f.c f.a f.b f.d n cnt) (fun _ => []) fun cx =>
    let groups := (List.range cnt).map (cx.mcstAccs f.c f.a f.b f.d n)
    if cx.acqBusy then stall s reasonAcquire
    else cx.checked s groups.flatten (cx.mcstConds ++ [(0x06, cx.l1Writable s)]) (cx.store s groups false false false 8)

def mredAt (o : MredOp) : AtOp := match o with | .add => .add | .min => .min | .max => .max
def mredTy (t : MredTy) : AtTy := match t with | .s32 => .s32 | .n32 => .n32 | .f32 => .f32

def execMred (f : MredF) (s : State) : Out :=
  let cnt := f.cnt.toNat + 1
  issue s (mcstReads f.c f.a f.b f.d 4 cnt) (fun _ => []) fun cx =>
    let accs := ((List.range cnt).map (cx.mcstAccs f.c f.a f.b f.d 4)).flatten
    if cx.acqBusy then stall s reasonAcquire
    else cx.checked s accs cx.mcstConds (cx.send s (.atomic (mredAt f.op) (mredTy f.ty) false true false false true) accs [] [] 8 0)

end Sys2Proof.Machine
end

