-- ==== Sys2Proof/Machine/Copies.lean ====
section
/-! DEFINITION. Sessions of the copy unit: per-lane, bulk and two-dimensional copies, 2:4 conversions and scatters (R201 to
R213, R221, R222), from their start to their end or cancellation. A session's data moves in one step, its end; a cancellation or a
pre-emption that comes first has moved some of it, to a sector boundary which the manual leaves open. -/

namespace Sys2Proof.Machine

/-! ## Transaction-barrier arithmetic at the home (R218, R220) -/

/-- An arrival on the 16 bytes of a transaction barrier: the new bytes as a number, and the phase it belongs to. -/
def tbArriveNat (x count : Nat) : Nat × DWord :=
  let expect := x % 2 ^ 32
  let pend := x / 2 ^ 32 % 2 ^ 32
  let phase := x / 2 ^ 96 % 2 ^ 32
  let pend' := pend - count
  let ph := BitVec.ofNat 64 phase
  let out := if count > pend then ph ||| 0x8000000000000000 else ph
  if pend' = 0 then (expect + expect * 2 ^ 32 + (phase + 1) % 2 ^ 32 * 2 ^ 96, out)
  else (expect + pend' * 2 ^ 32 + phase * 2 ^ 96, out)

/-- Applies an arrival at the home: the phase, or the class of a refusal. -/
def State.tbArrive (s : State) (id : Ident) (va count : Nat) : State × Sum DWord (BitVec 8) :=
  match s.home id.part va with
  | .away dev _ =>
    match s.remote id dev va 3 1 (BitVec.ofNat 256 count) with
    | (s, .inr cls) => (s, .inr cls)
    | (s, .inl x) => (s, .inl (x.setWidth 64))
  | .here _ =>
  match s.homeNat id va 16 with
  | (s, .inr cls) => (s, .inr cls)
  | (s, .inl x) =>
    match s.homePut id va 16 (tbArriveNat x count).1 with
    | (s, some (cls, _)) => (s, .inr cls)
    | (s, none) => (s, .inl (tbArriveNat x count).2)

/-! ## Extents (R205, R212) -/

/-- A byte range an instruction names. -/
structure Extent where
  lane : Nat
  va : Nat
  n : Nat
  glob : Bool
  rd : Bool
  wr : Bool

/-- The first failing check over extents, condition by condition (R173, R205): class, lane, address. -/
def Cx.extFail (cx : Cx) (unit : Nat) (es : List Extent) : Option (BitVec 8 × Nat × Nat) :=
  let find := fun (cls : BitVec 8) (bad : Extent → Bool) => (es.find? bad).map fun e => (cls, e.lane, e.va)
  let lease := fun (e : Extent) => e.glob && !(cx.k.leaseOk cx.slot e.va e.n e.rd e.wr)
  let range := fun (e : Extent) => !e.glob && !(cx.k.inRange cx.t.block e.va e.n)
  (find 0x03 fun e => decide (e.va % unit ≠ 0)).or
    (((es.find? fun e => lease e || range e).map fun e => (if e.glob then 0x04 else 0x05, e.lane, e.va)).or
      (find 0x05 fun e => !e.glob && cx.k.winMeets cx.t.block e.va e.n))

/-- The smallest range that contains all listed parts. -/
def hull : List (Nat × Nat) → Option (Nat × Nat)
  | [] => none
  | (a, n) :: rest => match hull rest with
    | none => some (a, a + n)
    | some (lo, hi) => some (min a lo, max (a + n) hi)

/-- The range-scoreboard entries of a session (R207): kind W over its scratchpad destinations, R over its sources. -/
def rangesOf (es : List Extent) : List (Bool × Nat × Nat) :=
  let of := fun (w : Bool) => match hull ((es.filter fun e => !e.glob && decide (e.n > 0) && (if w then e.wr else e.rd)).map fun e => (e.va, e.n)) with
    | some r => [(w, r)]
    | none => []
  of true ++ of false

/-- The block whose barrier objects an instruction names: the agent's are those of the block it placed last (R393). -/
def Cx.barBlock (cx : Cx) : Nat := if cx.slot = agentSlot then cx.k.agent.lastBlock.getD 99 else cx.t.block

/-! ## Starting a session (R203, R205, R207) -/

/-- Starts a session once its checks have passed: it waits for a free session, for free range entries and for the sessions
whose ranges it meets; its status destinations are busy until the end. -/
def Cx.startSession (s : State) (cx : Cx) (kind : SessKind) (major minor : Nat) (ds ss : Bool) (es : List Extent)
    (dest : List RegRef) (bar tbar : Option Nat) (lanes : List Nat) (len : Nat) : Out :=
  let ranges := rangesOf es
  let used := (cx.k.sessions.map fun x => x.ranges.length).sum
  let meets := ranges.any fun r => cx.k.rangeBusy cx.t.block r.2.1 (r.2.2 - r.2.1) r.1
  if cx.k.sessions.length ≥ 64 ∨ used + ranges.length > 64 ∨ meets then stall s reasonEngine
  else if cx.k.sectorsOut + kind.sectors > 4096 then stall s reasonMemory
  else if !(cx.seqFree s) then stall s reasonMemory
  else
    let cx := cx.takeSeq s (maskOf lanes)
    let k := match bar with
      | some b => cx.k.barTxStart cx.barBlock b
      | none => cx.k
    let x : Session :=
      { id := s.nextId, kind := kind, ds := ds, ss := ss, major := major, minor := minor, slot := cx.slot, block := cx.t.block
        lslot := cx.k.lslotNo cx.slot, seq := cx.t.seq, pc := cx.x.pc, dest := dest, bar := bar, barBlk := cx.barBlock
        tbar := tbar, mute := false, ranges := ranges, done := 0, codes := [], fault := none, wrote := [], arriving := false }
    let cx := { cx with
      k := { k with sessions := k.sessions ++ [x] }
      t := { cx.t with busy := cx.t.busy ++ dest, joins := joinsWithout cx.t.joins dest } }
    .next (cx.next { s with nextId := s.nextId + 1 } len)

/-- Traps on the first failing extent, else goes on. -/
def Cx.extChecked (s : State) (cx : Cx) (unit : Nat) (es : List Extent) (k : Out) : Out :=
  match cx.extFail unit es with
  | some (cls, L, va) => .next (cx.trap s cls 0 (laneWord L) (BitVec.ofNat 64 va) 0)
  | none => k

/-- Traps on the first extent that is not at a multiple of 4 (R211). -/
def Cx.aligned4 (s : State) (cx : Cx) (es : List Extent) (k : Out) : Out :=
  match es.find? fun e => decide (e.va % 4 ≠ 0) with
  | some e => .next (cx.trap s 0x03 0 (laneWord e.lane) (BitVec.ofNat 64 e.va) 0)
  | none => k

/-- Bytes of `cpl` (R209). -/
def cplBytes (z : CplSize) : Nat := match z with | .b32 => 4 | .b64 => 8 | .b128 => 16 | .b256 => 32
def cplMinor (z : CplSize) : Nat := match z with | .b32 => 0 | .b64 => 1 | .b128 => 2 | .b256 => 3

/-- `cpl` (R209, R210). -/
def execCpl (f : CplF) (s : State) : Out :=
  let w := cplBytes f.size
  issue s
    (fun cx => cx.predRefs f.c ++ (cx.part f.c).flatMap fun L =>
      regRefs false L true f.a ++ f.b.refs false L false ++ regRefs false L false f.cc)
    (fun cx => (cx.part f.c).map fun L => .v L f.d.toNat) fun cx =>
      let ls := cx.part f.c
      let gs := fun L => wrapN 64 ((cx.v.rd false L true f.a : Int) + intVal .s 32 (cx.bval false L false .s f.b))
      let ss := fun L => cx.v.rd false L false f.cc
      let es := ls.flatMap fun L => [(⟨L, gs L, w, true, !f.out, f.out⟩ : Extent), ⟨L, ss L, w, false, f.out, !f.out⟩]
      if ls.isEmpty then .next (cx.next s f.b.len)
      else cx.extChecked s w es
        (cx.startSession s (.cpl f.out w (ls.map fun L => (L, gs L, ss L))) 0x2C (cplMinor f.size) (!f.out) f.out es
          (ls.map fun L => .v L f.d.toNat) none none ls f.b.len)

/-- Registers a bulk copy reads: `n` words of its descriptor, the barrier word, and B (R211). -/
def copyReads (f : CopyF) (n : Nat) (cx : Cx) : List RegRef :=
  cx.onceReads f.c (((List.range (if f.tbar then n + 1 else n)).map fun i => RegRef.g (f.a.toNat + i)) ++ f.b.refs true 0 false)

/-- A team-wide copy: `parts` gives the kind of the session, its extents without the barriers, and whether a length or
stride is misaligned. -/
def copyOp (f : CopyF) (n minor : Nat) (parts : Cx → SessKind × List Extent × Bool) (s : State) : Out :=
  issue s (copyReads f n) (fun cx => if cx.takes f.c then [.g f.d.toNat] else []) fun cx =>
    if !(cx.takes f.c) then .next (cx.next s f.b.len)
    else
      let (kind, es, bad) := parts cx
      let tb := (cx.v.rg (f.a.toNat + n)).toNat
      let first := match es with
        | e :: _ => e.va
        | [] => (cx.v.rg f.a.toNat).toNat
      let tbs : List Extent := if f.tbar then [⟨teamWideLane, tb, 16, true, true, true⟩] else []
      let blk := cx.barBlock
      if bad then .next (cx.trap s 0x03 0 noLane (BitVec.ofNat 64 first) 0)
      else if f.tbar ∧ tb % 16 ≠ 0 then .next (cx.trap s 0x03 0 noLane (BitVec.ofNat 64 tb) 0)
      else cx.aligned4 s es (cx.extChecked s 1 ((es.filter fun e => decide (e.n > 0)) ++ tbs)
        (if f.bar ∧ (!(cx.k.inRange blk (16 * f.cc.toNat) 16) ∨ cx.k.winMeets blk (16 * f.cc.toNat) 16) then
          .next (cx.trap s 0x05 0 noLane (BitVec.ofNat 64 (16 * f.cc.toNat)) 0)
         else
          cx.startSession s kind 0x2D minor f.ds f.ss es [.g f.d.toNat] (if f.bar then some f.cc.toNat else none)
            (if f.tbar then some tb else none) [] f.b.len))

/-- An address of a copy: a scratchpad offset of 32 bits, or a global address (R211). -/
def copyAddr (scratch : Bool) (x : DWord) : Nat := if scratch then x.toNat % 2 ^ 32 else x.toNat

def execCp (f : CopyF) (s : State) : Out :=
  copyOp f 2 0 (fun cx =>
    let dst := copyAddr f.ds (cx.v.rg f.a.toNat)
    let src := copyAddr f.ss (cx.v.rg (f.a.toNat + 1))
    let n := cx.bval true 0 false .n f.b
    (.cp dst src n, [⟨teamWideLane, dst, n, !f.ds, false, true⟩, ⟨teamWideLane, src, n, !f.ss, true, false⟩], decide (n % 4 ≠ 0))) s

/-- Row r of a two-dimensional copy: address arithmetic wraps (R212). -/
def rowAddr (scratch : Bool) (base : Nat) (stride : Int) (r : Nat) : Nat :=
  let x := wrapN 64 ((base : Int) + r * stride)
  if scratch then x % 2 ^ 32 else x

def execCp2d (f : CopyF) (s : State) : Out :=
  copyOp f 4 1 (fun cx =>
    let dst := copyAddr f.ds (cx.v.rg f.a.toNat)
    let src := copyAddr f.ss (cx.v.rg (f.a.toNat + 1))
    let shape := (cx.v.rg (f.a.toNat + 2)).toNat
    let strides := (cx.v.rg (f.a.toNat + 3)).toNat
    let len := shape % 2 ^ 32
    let rows := shape / 2 ^ 32
    let dstr := intVal .s 32 strides
    let sstr := intVal .s 32 (strides / 2 ^ 32)
    (.cp2d dst src len rows dstr sstr,
      (List.range rows).flatMap fun r =>
        [(⟨teamWideLane, rowAddr f.ds dst dstr r, len, !f.ds, false, true⟩ : Extent),
         ⟨teamWideLane, rowAddr f.ss src sstr r, len, !f.ss, true, false⟩],
      decide (len % 4 ≠ 0 ∨ dstr % 4 ≠ 0 ∨ sstr % 4 ≠ 0 ∨ dst % 4 ≠ 0 ∨ src % 4 ≠ 0))) s

def execCpz (f : CopyF) (s : State) : Out :=
  copyOp f 3 (if f.e8 then 3 else 2) (fun cx =>
    let e := if f.e8 then 1 else 2
    let dst := copyAddr f.ds (cx.v.rg f.a.toNat)
    let mdat := copyAddr f.ds (cx.v.rg (f.a.toNat + 1))
    let src := copyAddr f.ss (cx.v.rg (f.a.toNat + 2))
    let n := cx.bval true 0 false .n f.b
    (.cpz f.e8 dst mdat src n,
      [⟨teamWideLane, dst, 2 * e * n, !f.ds, false, true⟩, ⟨teamWideLane, mdat, n / 2, !f.ds, false, true⟩,
       ⟨teamWideLane, src, 4 * e * n, !f.ss, true, false⟩], decide (n % 8 ≠ 0))) s

def execCpx (f : CopyF) (s : State) : Out :=
  copyOp f 3 (if f.e8 then 5 else 4) (fun cx =>
    let e := if f.e8 then 1 else 2
    let dst := copyAddr f.ds (cx.v.rg f.a.toNat)
    let vals := copyAddr f.ss (cx.v.rg (f.a.toNat + 1))
    let mdat := copyAddr f.ss (cx.v.rg (f.a.toNat + 2))
    let n := cx.bval true 0 false .n f.b
    (.cpx f.e8 dst vals mdat n,
      [⟨teamWideLane, dst, 4 * e * n, !f.ds, false, true⟩, ⟨teamWideLane, vals, 2 * e * n, !f.ss, true, false⟩,
       ⟨teamWideLane, mdat, n / 2, !f.ss, true, false⟩], decide (n % 8 ≠ 0))) s

/-- `scat` (R221, R222): acts once, with the operands of the lowest lane taking part. -/
def execScat (f : DAX) (s : State) : Out :=
  let w := if f.x then 8 else 4
  issue s
    (fun cx => cx.predRefs f.c ++ match cx.part f.c with
      | L :: _ => (List.range 7).map fun i => RegRef.v L (f.a.toNat + i)
      | [] => [])
    (fun cx => (cx.part f.c).map fun L => .v L f.d.toNat) fun cx =>
      match cx.part f.c with
      | [] => .next (cx.next s 8)
      | L :: rest =>
        let l := cx.v.lane L
        let a := f.a.toNat
        let idx := (l.r2 a).toNat
        let src := (l.r2 (a + 2)).toNat
        let dst := (l.r2 (a + 4)).toNat
        let n := (l.r (a + 6)).toNat
        let es : List Extent := [⟨L, idx, 4 * n, true, true, false⟩, ⟨L, src, w * n, true, true, false⟩]
        let run := cx.startSession s (.scat w idx src dst n) 0x32 (if f.x then 1 else 0) false false []
          ((L :: rest).map fun M => .v M f.d.toNat) none none (L :: rest) 8
        if idx % 4 ≠ 0 then .next (cx.trap s 0x03 0 (laneWord L) (BitVec.ofNat 64 idx) 0)
        else if src % w ≠ 0 then .next (cx.trap s 0x03 0 (laneWord L) (BitVec.ofNat 64 src) 0)
        else cx.extChecked s 1 (es.filter fun e => decide (e.n > 0)) run

/-! ## Moving the data -/

/-- First fault of a session: class and address. -/
abbrev SFault := Option (BitVec 8 × Nat)

/-- Bytes of a space, sector by sector; the bytes of a refused sector are absent. -/
def State.readSpace (s : State) (c blk : Nat) (id : Ident) (glob : Bool) (va n : Nat) : State × List (Option Byte) × SFault :=
  if glob then
    (rangeParts va n).foldl (fun (st : State × List (Option Byte) × SFault) p =>
      match st.1.homeRead id p.1 p.2 with
      | (s, .inl bs) => (s, st.2.1 ++ bs.map some, st.2.2)
      | (s, .inr cls) => (s, st.2.1 ++ List.replicate p.2 none, st.2.2.or (some (cls, p.1)))) (s, [], none)
  else
    (s, (List.range n).map (fun i => some (BitVec.ofNat 8 ((s.core c).scratchNat blk (va + i) 1))), none)

/-- Writes the bytes that are present to global memory, sector by sector: how many sectors were accepted, and the first fault. -/
def State.writeSome (s : State) (id : Ident) (va : Nat) (bs : List (Option Byte)) : State × Nat × SFault :=
  (rangeParts va bs.length).foldl (fun (st : State × Nat × SFault) p =>
    let part := (bs.drop (p.1 - va)).take p.2
    let mask := (part.foldl (fun (m : Nat × Nat) b => (m.1 + (if b.isSome then 2 ^ m.2 else 0), m.2 + 1)) (0, p.1 % 32)).1
    if mask = 0 then st
    else
      let x := BitVec.ofNat 256 (leBytes (part.map fun b => b.getD 0)) <<< (8 * (p.1 % 32))
      let w := st.1.sectorWrite id p.1 (BitVec.ofNat 32 mask) x
      (w.1, st.2.1 + (if w.2.isNone then 1 else 0), st.2.2.or (w.2.map fun cls => (cls, p.1)))) (s, 0, none)

/-- Writes the bytes that are present to a space. -/
def State.writeSpace (s : State) (c blk : Nat) (id : Ident) (glob : Bool) (va : Nat) (bs : List (Option Byte)) : State × SFault :=
  if glob then let r := s.writeSome id va bs; (r.1, r.2.2)
  else
    let k := (bs.foldl (fun (st : Core × Nat) b => (match b with
      | some x => st.1.scratchWrite blk st.2 [x]
      | none => st.1, st.2 + 1)) (s.core c, va)).1
    (s.setCore c k, none)

/-- Source bytes as an overlapped copy delivers them (R212): a destination byte inside the source range receives some source
byte, which one being left open. -/
def State.blur (s : State) (same : Bool) (dst : Nat) (src : List (Nat × Nat)) (all bs : List (Option Byte)) : State × List (Option Byte) :=
  let hit := fun i => src.any fun r => overlaps (dst + i) 1 r.1 r.2
  if !same ∨ !((List.range bs.length).any hit) then (s, bs)
  else
    ({ s with free := s.free + bs.length },
      bs.mapIdx fun i b => if hit i then all[Config.freeNat (s.free + i) % all.length]?.getD none else b)

/-- Element i of size e from bytes, when all its bytes are there. -/
def elemAt (bs : List (Option Byte)) (e i : Nat) : Option Nat :=
  let part := (bs.drop (e * i)).take e
  if part.all (·.isSome) ∧ part.length = e then some (leBytes (part.map fun b => b.getD 0)) else none

def elemBytes (e : Nat) (x : Option Nat) : List (Option Byte) :=
  match x with
  | none => List.replicate e none
  | some v => (toLeBytes e v).map some

/-- One group of `cpz` (R213): the two kept elements, the metadata nibble, and DROP. -/
def cpzGroup (es : List Nat) : (Nat × Nat) × Nat × Bool :=
  let nz := (List.range 4).filter fun i => es[i]?.getD 0 ≠ 0
  let z := (List.range 4).filter fun i => es[i]?.getD 0 = 0
  let keep := if nz.length ≥ 2 then nz.take 2 else (List.range 4).filter fun i => (nz ++ z.take (2 - nz.length)).contains i
  let k0 := keep.headD 0
  let k1 := keep[1]?.getD 1
  ((es[k0]?.getD 0, es[k1]?.getD 0), k0 + 4 * k1, decide (nz.length > 2))

/-- One group of `cpx` (R213): four elements and META. -/
def cpxGroup (v0 v1 md : Nat) : List Nat × Bool :=
  let i0 := md % 4
  let i1 := md / 4 % 4
  ((List.range 4).map fun i => if i = i1 then v1 else if i = i0 then v0 else 0, decide (i0 ≥ i1))

/-- META and DROP bits over CODE (R206). -/
def sessStatus (fault : SFault) (drop mdat : Bool) : Nat := (if fault.isSome then 1 else 0) + (if drop then 16 else 0) + (if mdat then 32 else 0)

/-- Copies rows of a source, a destination and a length: every source byte is read before any is written; where source and destination
overlap the values are open. Of destinations that overlap one another a later row's bytes remain (DESIGN CHOICE, log 126). -/
def State.copyRows (s : State) (c : Nat) (x : Session) (id : Ident) (rows : List (Nat × Nat × Nat)) : State × SFault :=
  let (s, data, f) := rows.foldl (fun (st : State × List (List (Option Byte)) × SFault) r =>
    let (s, bs, f) := st.1.readSpace c x.block id (!x.ss) r.1 r.2.2
    (s, st.2.1 ++ [bs], st.2.2.or f)) (s, [], none)
  (rows.zip data).foldl (fun (st : State × SFault) r =>
    let (s, bs) := st.1.blur (x.ds == x.ss) r.1.2.1 (rows.map fun p => (p.1, p.2.2)) data.flatten r.2
    let (s, f) := s.writeSpace c x.block id (!x.ds) r.1.2.1 bs
    (s, st.2.or f)) (s, f)

/-- A chunk's index and source elements. -/
def State.scatRead (s : State) (c : Nat) (id : Ident) (w idx src n ch : Nat) : State × List (Option Nat × Option Nat) × SFault :=
  let m := min 64 (n - 64 * ch)
  let (s, is, f1) := s.readSpace c 0 id true (idx + 4 * 64 * ch) (4 * m)
  let (s, xs, f2) := s.readSpace c 0 id true (src + w * 64 * ch) (w * m)
  (s, (List.range m).map fun i => (elemAt is 4 i, elemAt xs w i), f1.or f2)

/-- Elements read before or after the previous chunk's writes: which one is left open (R222 rule 5). -/
def State.scatPick (s : State) (before after : List (Option Nat × Option Nat)) : State × List (Option Nat × Option Nat) :=
  ({ s with free := s.free + 2 * after.length },
    after.mapIdx fun i a =>
      let b := before[i]?.getD a
      (if a.1 = b.1 ∨ Config.freeNat (s.free + 2 * i) % 2 = 0 then a.1 else b.1,
       if a.2 = b.2 ∨ Config.freeNat (s.free + 2 * i + 1) % 2 = 0 then a.2 else b.2))

/-- What a session has done so far: the state, its fields, and the address of a scatter that left the lease. -/
structure Moved where
  s : State
  x : Session
  lease : Option Nat := none

/-- Chunks of a scatter (R222): `m` are left; `before` was read ahead of the previous chunk's writes. -/
def State.scatRun (c : Nat) (id : Ident) (leased : Nat → Bool) (w idx src dst n : Nat) :
    Nat → State → Session → List (Option Nat × Option Nat) → Moved
  | 0, s, x, _ => ⟨s, x, none⟩
  | m + 1, s, x, before =>
    let (s, now, f1) := s.scatRead c id w idx src n x.done
    let (s, es) := s.scatPick before now
    let targets := es.filterMap fun e => match e.1, e.2 with
      | some i, some v => some ((dst + i * w) % 2 ^ 64, v)
      | _, _ => none
    let all := es.filterMap fun e => e.1.map fun i => (dst + i * w) % 2 ^ 64
    match all.find? fun a => decide (a % w ≠ 0) || !(leased a) with
    | some a => ⟨s, { x with codes := [3], fault := x.fault.or f1 }, some a⟩
    | none =>
      let (s, ahead, _) := s.scatRead c id w idx src n (x.done + 1)
      let (s, f2) := targets.foldl (fun (st : State × SFault) t =>
        let (s, f) := st.1.homePut id t.1 w t.2
        (s, st.2.or f)) (s, none)
      let f := x.fault.or (f1.or f2)
      State.scatRun c id leased w idx src dst n m s
        { x with done := x.done + 1, codes := [sessStatus f false false], fault := f, wrote := x.wrote ++ targets.map fun t => (t.1, w) } ahead

/-- Pieces of rows with consecutive addresses: row, offset in the row, length; a piece ends where a destination sector does. -/
def rowPieces (ds : Bool) (dst len rows : Nat) (dstr : Int) : List (Nat × Nat × Nat) :=
  (List.range rows).flatMap fun r =>
    let a := rowAddr ds dst dstr r
    (rangeParts a len).map fun p => (r, p.1 - a, p.2)

/-- The pieces a session is done in, in order: the destination bytes of each. Those of a scatter, its chunks, are known as they come. -/
def Session.pieces (x : Session) : List (List (Nat × Nat)) :=
  match x.kind with
  | .cpl out w lanes => lanes.map fun l => [(if out then l.2.1 else l.2.2, w)]
  | .cp dst _ n => (rangeParts dst n).map fun p => [p]
  | .cp2d dst _ len rows dstr _ => (rowPieces x.ds dst len rows dstr).map fun p => [(rowAddr x.ds dst dstr p.1 + p.2.1, p.2.2)]
  | .cpz e8 dst mdat _ n =>
    let e := if e8 then 1 else 2
    (List.range (n / 8)).map fun i => [(dst + 16 * e * i, 16 * e), (mdat + 4 * i, 4)]
  | .cpx e8 dst _ _ n =>
    let e := if e8 then 1 else 2
    (List.range (n / 8)).map fun i => [(dst + 32 * e * i, 32 * e)]
  | .scat _ _ _ _ n => List.replicate ((n + 63) / 64) []

/-- Pieces done, with the fault and the conditions they met, of a session with one status word (R206). -/
def Session.pass (x : Session) (n : Nat) (f : SFault) (drop mdat : Bool) : Session :=
  let f := x.fault.or f
  { x with done := n, codes := [(x.codes.headD 0) ||| sessStatus f drop mdat], fault := f }

/-- Moves a session's pieces from the first not done up to piece n (R210 to R213, R222). -/
def State.sessionMove (s : State) (c : Nat) (x : Session) (n : Nat) : Moved :=
  let id := { s.identOf c x.slot with owner := x.id }
  let m := n - x.done
  match x.kind with
  | .cpl out w lanes =>
    let r := ((lanes.drop x.done).take m).foldl (fun (st : State × List Nat × SFault) l =>
      let (s, bs, f1) := st.1.readSpace c x.block id (!out) (if out then l.2.2 else l.2.1) w
      let (s, f2) := s.writeSpace c x.block id out (if out then l.2.1 else l.2.2) bs
      let f := f1.or f2
      (s, st.2.1 ++ [if f.isSome then 1 else 0], st.2.2.or f)) (s, [], none)
    ⟨r.1, { x with done := n, codes := x.codes ++ r.2.1, fault := x.fault.or r.2.2 }, none⟩
  | .cp dst src _ =>
    let o := ((x.pieces.take x.done).flatten.map (·.2)).sum
    let k := (((x.pieces.drop x.done).take m).flatten.map (·.2)).sum
    let (s, f) := s.copyRows c x id [(src + o, dst + o, k)]
    ⟨s, x.pass n f false false, none⟩
  | .cp2d dst src len rows dstr sstr =>
    let (s, f) := s.copyRows c x id ((((rowPieces x.ds dst len rows dstr).drop x.done).take m).map fun p =>
      (rowAddr x.ss src sstr p.1 + p.2.1, rowAddr x.ds dst dstr p.1 + p.2.1, p.2.2))
    ⟨s, x.pass n f false false, none⟩
  | .cpz e8 dst mdat src _ =>
    let e := if e8 then 1 else 2
    let g0 := 8 * x.done
    let k := 8 * m
    let (s, bs, f1) := s.readSpace c x.block id (!x.ss) (src + 4 * e * g0) (4 * e * k)
    let gs := (List.range k).map fun g =>
      let es := (List.range 4).map fun i => elemAt bs e (4 * g + i)
      if es.all (·.isSome) then some (cpzGroup (es.map fun v => v.getD 0)) else none
    let vals := gs.flatMap fun g => elemBytes e (g.map (·.1.1)) ++ elemBytes e (g.map (·.1.2))
    let mds := (List.range (k / 2)).map fun i => match gs[2 * i]?.getD none, gs[2 * i + 1]?.getD none with
      | some a, some b => some (BitVec.ofNat 8 (a.2.1 + 16 * b.2.1))
      | _, _ => none
    let (s, f2) := s.writeSpace c x.block id (!x.ds) (dst + 2 * e * g0) vals
    let (s, f3) := s.writeSpace c x.block id (!x.ds) (mdat + g0 / 2) mds
    ⟨s, x.pass n (f1.or (f2.or f3)) (gs.any fun g => match g with | some g => g.2.2 | none => false) false, none⟩
  | .cpx e8 dst vals mdat _ =>
    let e := if e8 then 1 else 2
    let g0 := 8 * x.done
    let k := 8 * m
    let (s, vs, f1) := s.readSpace c x.block id (!x.ss) (vals + 2 * e * g0) (2 * e * k)
    let (s, mds, f2) := s.readSpace c x.block id (!x.ss) (mdat + g0 / 2) (k / 2)
    let gs := (List.range k).map fun g => match elemAt vs e (2 * g), elemAt vs e (2 * g + 1), elemAt mds 1 (g / 2) with
      | some a, some b, some d => some (cpxGroup a b (d / 2 ^ (4 * (g % 2)) % 16))
      | _, _, _ => none
    let out := gs.flatMap fun g => match g with
      | some g => g.1.flatMap fun v => elemBytes e (some v)
      | none => List.replicate (4 * e) none
    let (s, f3) := s.writeSpace c x.block id (!x.ds) (dst + 4 * e * g0) out
    ⟨s, x.pass n (f1.or (f2.or f3)) false (gs.any fun g => match g with | some g => g.2 | none => false), none⟩
  | .scat w idx src dst k =>
    let h := s.core c
    State.scatRun c id (fun a => decide (x.slot = agentSlot) || h.leased x.lslot a w false true || h.ownArea x.slot a w) w idx src dst k m s x []

/-! ## Progress at a sector boundary (R203, R369, R372) -/

/-- A session may stop before piece k: every destination sector is written whole or not at all (R203). -/
def Session.cutOk (x : Session) (k : Nat) : Bool :=
  let sectors := fun (ps : List (List (Nat × Nat))) => ps.flatten.flatMap fun p => (rangeParts p.1 p.2).map fun q => q.1 / 32
  let rest := sectors (x.pieces.drop k)
  !((sectors (x.pieces.take k)).any (rest.contains ·))

/-- Source and destination of a copy overlap: it is not stopped midway in the model. -/
def Session.laps (x : Session) : Bool :=
  x.ds == x.ss && match x.kind with
    | .cp dst src n => overlaps dst n src n
    | .cp2d dst src len rows dstr sstr => (List.range rows).any fun r => (List.range rows).any fun q =>
        overlaps (rowAddr x.ds dst dstr r) len (rowAddr x.ss src sstr q) len
    | .cpz _ _ _ _ _ => true
    | .cpx _ _ _ _ _ => true
    | _ => false

/-- A session stops before its end: at which boundary the manual leaves open (assumption 109). It has moved nothing more where it
waits for another device, or for a unit that does not run. -/
def State.sessionCut (s : State) (c : Nat) (x : Session) : State × Session :=
  let cuts := if x.laps then [] else (List.range (x.pieces.length - x.done)).filter fun i => x.cutOk (x.done + i)
  match cuts with
  | [] => (s, x)
  | _ :: _ =>
    let r := ({ s with free := s.free + 1 } : State).sessionMove c x (x.done + cuts[Config.freeNat s.free % cuts.length]?.getD 0)
    if r.s.rbuf.length ≠ s.rbuf.length ∨ r.s.held.length ≠ s.held.length ∨ r.lease.isSome then (s, x) else (r.s, r.x)

/-- Progress of a session record (R372): bytes, groups or elements completed, and the rows of a two-dimensional copy. -/
def Session.progress (x : Session) : Nat × Nat :=
  match x.kind with
  | .cp2d dst _ len rows dstr _ =>
    let ps := rowPieces x.ds dst len rows dstr
    (((ps.take x.done).map (·.2.2)).sum, match ps[x.done]? with | some p => p.1 | none => rows)
  | .cpz _ _ _ _ _ => (8 * x.done, 0)
  | .cpx _ _ _ _ _ => (8 * x.done, 0)
  | .scat _ _ _ _ _ => (64 * x.done, 0)
  | _ => ((((x.pieces.take x.done).flatten).map (·.2)).sum, 0)

/-- A resumed session goes on from the progress its record holds (R372). -/
def Session.resumeAt (x : Session) (p : Nat) : Session :=
  match (List.range (x.pieces.length + 1)).find? fun k => decide (({ x with done := k } : Session).progress.1 = p) with
  | some k => { x with done := k }
  | none => x

/-- The global bytes a session writes (R202); none where its destinations are scratchpad. -/
def Session.globals (x : Session) : List (Nat × Nat) :=
  match x.kind with
  | .cpl out w lanes => if out then lanes.map fun l => (l.2.1, w) else []
  | .cp dst _ n => if x.ds then [] else [(dst, n)]
  | .cp2d dst _ len rows dstr _ => if x.ds then [] else (List.range rows).map fun r => (rowAddr x.ds dst dstr r, len)
  | .cpz e8 dst mdat _ n => if x.ds then [] else [(dst, (if e8 then 2 else 4) * n), (mdat, n / 2)]
  | .cpx e8 dst _ _ n => if x.ds then [] else [(dst, (if e8 then 4 else 8) * n)]
  | .scat _ _ _ _ _ => x.wrote

/-- The global bytes a session reads (R201). -/
def Session.sources (x : Session) : List (Nat × Nat) :=
  match x.kind with
  | .cpl out w lanes => if out then [] else lanes.map fun l => (l.2.1, w)
  | .cp _ src n => if x.ss then [] else [(src, n)]
  | .cp2d _ src len rows _ sstr => if x.ss then [] else (List.range rows).map fun r => (rowAddr false src sstr r, len)
  | .cpz e8 _ _ src n => if x.ss then [] else [(src, (if e8 then 4 else 8) * n)]
  | .cpx e8 _ vals mdat n => if x.ss then [] else [(vals, (if e8 then 2 else 4) * n), (mdat, n / 2)]
  | .scat w idx src _ n => [(idx, 4 * n), (src, w * n)]

/-! ## The end of a session (R203, R206) -/

/-- Writes the statuses of a session: a retired lane or team gets none (R144); the destinations are no longer busy. -/
def Core.writeStatus (k : Core) (x : Session) (codes : List Nat) (ranges : List (Nat × Nat)) : Core :=
  match k.team? x.slot with
  | none => k
  | some t =>
    let alive := fun (r : RegRef) => match r with
      | .v L _ => (k.allLanes x.slot t).getLsbD L
      | _ => true
    let ws := (x.dest.mapIdx fun i r =>
      let code := codes[i]?.getD (codes.headD 0)
      match r with
      | .v L n => if alive r then [Wr.v L n (BitVec.ofNat 32 code)] else []
      | .g n => [Wr.g n (BitVec.ofNat 64 code)]
      | _ => []).flatten
    let busy := x.dest.foldl (fun b r => b.erase r) t.busy
    if t.mode = .retired ∨ x.mute then k.setTeam x.slot { t with busy := busy }
    else
      let t := t.put ws
      let js : List Join := if ranges.isEmpty then [] else [⟨x.dest, ranges, []⟩]
      k.setTeam x.slot { t with busy := busy, joins := t.joins ++ js }

/-- Ends a session with statuses: its ranges are released, it arrives on its barrier, then its status is written, and a fault
goes to the record of its team (R203, R206). -/
def State.endSession (s : State) (c : Nat) (x : Session) (codes : List Nat) (fault : SFault) (ranges : List (Nat × Nat)) : State :=
  let k := s.core c
  let k := { k with sessions := k.sessions.filter fun y => decide (y.id ≠ x.id) }
  let k := match x.bar with
    | some b => k.barTxEnd x.barBlk b
    | none => k
  let s := s.setCore c k
  let r : State × SFault := match x.tbar with
    | some va => match s.tbArrive { s.identOf c x.slot with owner := x.id } va 1 with
      | (s, .inr cls) => (s, if cls = waitCls then none else some (cls, va))
      | (s, .inl _) => (s, none)
    | none => (s, none)
  let s := r.1
  let fault := fault.or r.2
  let codes := if r.2.isSome then codes.map fun c => if c % 16 = 0 then c + 1 else c else codes
  let k := ((s.core c).liveStatus x.block x.id (BitVec.ofNat 32 (codes.headD 0))).writeStatus x codes ranges
  let k := match fault with
    | some (cls, va) => { k with refused := k.refused ++ [(⟨x.id, x.slot, x.seq, x.pc, cls, va / 32 * 32, noLane, true, []⟩ : Refused)] }
    | none => k
  s.setCore c k.freeSlots.poll

/-- Two instructions of a team were issued by fragments with a lane in common: the later is behind the earlier (R201, R264). -/
def Core.sameThread (k : Core) (slot : Nat) (a b : BitVec 16) : Bool :=
  let frag : Team → BitVec 16 → Option Mask := fun t q => (t.flying.find? fun f => decide (f.seq = q)).map (·.frag)
  match k.team? slot with
  | none => true
  | some t => match frag t a, frag t b with
    | some m, some n => decide (m &&& n ≠ 0)
    | _, _ => true

/-- Accesses that the fragment of a session made before it are still on their way (R201, R265, R269). -/
def Core.behind (k : Core) (id slot : Nat) (seq : BitVec 16) : Bool :=
  let before := fun (id' slot' : Nat) (seq' : BitVec 16) => decide (slot' = slot ∧ id' < id) && k.sameThread slot seq' seq
  (k.stores.any fun e => before e.id e.slot e.seq) || (k.reqs.any fun r => r.kind.faults && before r.id r.slot r.seq) ||
    (k.tbs.any fun e => decide (e.kind ≠ tbKindWait) && before e.id e.slot e.seq) || (k.dqs.any fun e => before e.id e.slot e.seq)

/-- A session follows every earlier access of its fragment (R201, R265). -/
def Core.sessionReady (k : Core) (x : Session) : Bool := !(k.behind x.id x.slot x.seq)

/-- CODE for each status destination of a session. -/
def Session.results (x : Session) : List Nat := match x.kind with
  | .cpl _ _ _ => x.codes
  | _ => x.dest.map fun _ => x.codes.headD 0

/-- The session's transaction barrier is homed on another device (R407). -/
def State.arrivesAway (s : State) (c : Nat) (x : Session) : Bool := match x.tbar with
  | none => false
  | some va => match s.home (s.identOf c x.slot).part va with
    | .away _ _ => true
    | .here _ => false

/-- A session that has moved its data ends; where it arrives at a transaction barrier of another device its data stand first, and the
arrival is a step of its own (R203, R407). -/
def State.closeSession (s : State) (c : Nat) (x : Session) : State :=
  if s.arrivesAway c x && !x.arriving then
    let k := s.core c
    s.setCore c { k with sessions := k.sessions.map fun (y : Session) => if y.id = x.id then { x with arriving := true } else y }
  else s.endSession c x x.results x.fault x.globals

/-- Cancels a session: it stops at a sector boundary, where it has not moved anything before its fragment's earlier accesses, and its
status is CODE 2 (R203). One that only arrives has nothing left to stop. -/
def State.cancelSession (s : State) (c : Nat) (x : Session) : State :=
  if x.arriving then s
  else
    let (s, x) := if (s.core c).sessionReady x then s.sessionCut c x else (s, x)
    (s.dropAnswers x.id).closeSession c { x with codes := 2 :: x.dest.map fun _ => 2, fault := none }

/-- A fragment of a block stands between two steps of an execute-vector instruction. -/
def Core.exvPartway (k : Core) (blk : Nat) : Bool :=
  k.quads.any fun q => q.any fun x => decide (x.st ≠ .free) && (match x.op with | some id => k.exvs.any fun r => decide (r.id = id) | none => false) &&
    (match k.team? x.team with | some t => decide (t.block = blk) | none => false)

/-- A session of a block that a pre-emption has stopped holds where it is; one with accesses under way on other devices goes on to its
end, a sector boundary as well (R369), and so does each while an execute-vector instruction of the block, which no stop interrupts (R120),
may stand before its ranges (DEDUCED, log 120). -/
def State.sessionHeld (s : State) (c : Nat) (x : Session) : Bool :=
  decide (x.slot ≠ agentSlot) && !x.arriving && (s.core c).blockStopping x.block && !((s.core c).exvPartway x.block) && !(s.rbuf.any fun b => decide (b.owner = x.id))

/-- A session completes: its data moves, then it ends. A scatter whose destination is not leased ends its command (R222). One whose data
has moved arrives at its transaction barrier on another device, then ends (R407). -/
def execSessionEnd (core idx : Nat) (s : State) : Out :=
  match (s.core core).sessions[idx]? with
  | none => .refused .eventNotDue
  | some x =>
    if !((s.core core).sessionReady x) || s.sessionHeld core x then .refused .eventNotDue
    else
      let s' :=
        if x.arriving then s.closeSession core x
        else
          let r := s.sessionMove core x x.pieces.length
          let s' := match r.lease with
            | some a => r.s.setCore core ((r.s.core core).endCommand x.slot 0x04 (x.pc.setWidth 64) (BitVec.ofNat 64 a))
            | none => r.s
          s'.closeSession core r.x
      remoteGate s s' x.id (.refused .eventNotDue) fun s => .next s.bump

end Sys2Proof.Machine
end

