-- ==== Sys2Proof/Machine/Stream.lean ====
section
/-! DEFINITION. A sequencer context as an issuer (R229 to R231, R237, R251): its status word, the end of an instruction and
the stop of a stream. -/

namespace Sys2Proof.Machine

/-- A stream instruction at issue: core, context, and the block that owns the context. -/
structure Sx where
  c : Nat
  i : Nat
  k : Core
  q : Seq
  blk : Nat

/-- Most operations a context has in flight: it stops issuing there (R231). -/
def maxFlight : Nat := 4

/-- The stream that issues; with four operations in flight nothing does (R231). -/
def withStream (s : State) (f : Sx → Out) : Out :=
  match s.cur with
  | .stream c i =>
    let k := s.core c
    let q := k.seqs[i]?.getD Seq.empty
    match q.block with
    | none => .refused .noIssuer
    | some b => if q.flight.length ≥ maxFlight then stall s reasonOperand else f ⟨c, i, k, q, b⟩
  | _ => .refused .noIssuer

/-- STATE of the status word (R251). -/
def seqState (st : Word) : Nat := st.toNat / 2 ^ 12 % 16
/-- The status word with STATE, CAUSE and DETAIL set and the conditions kept (R251). -/
def seqStop (st : Word) (state cause detail : Nat) : Word :=
  BitVec.ofNat 32 (st.toNat % 256 + state * 2 ^ 12 + cause * 2 ^ 20 + detail * 2 ^ 24)
/-- Conditions OR-ed into the status word (R250). -/
def seqCond (st : Word) (conds : Nat) : Word := st ||| BitVec.ofNat 32 (conds % 256)

def Core.setSeq (k : Core) (i : Nat) (q : Seq) : Core := { k with seqs := k.seqs.set i q }

/-- The instruction ends and the stream goes on at `pc`. -/
def Sx.finish (s : State) (x : Sx) (pc : PCWord) : State :=
  (s.setCore x.c (x.k.setSeq x.i { x.q with pc := pc, stall := none, bw := none })).bump

def Sx.next (s : State) (x : Sx) (len : Nat) : State := x.finish s (x.q.pc + BitVec.ofNat 56 len)

/-- The command of a block begins to end for its stream (R237, R348): slot 0xFF says that no team caused it. -/
def Core.endBlock (k : Core) (blk : Nat) (cls : BitVec 8) (fpc fva : DWord) : Core :=
  match k.block? blk with
  | none => k
  | some b => ((k.setBlock blk { b with ending := b.ending.or (some (cls, 0xFF, fpc, fva)) }).broadcast blk 0).poll

/-- A stream stops (R237): the instruction has no effect, operations in flight complete first, and the command ends. Where one of those is
refused meanwhile, its stop of R238 comes first and is the one the status shows (DESIGN CHOICE, log 127). -/
def Sx.stop (s : State) (x : Sx) (state cause detail : Nat) (cls : BitVec 8) (fva : DWord) : Out :=
  if !x.q.flight.isEmpty then stall s reasonOperand
  else
    let k := x.k.setSeq x.i { x.q with status := seqStop x.q.status state cause detail, stall := none, bw := none }
    .next (s.setCore x.c (k.endBlock x.blk cls (x.q.pc.setWidth 64) fva)).bump

/-- Illegal stream instruction (R237): CAUSE 1. -/
def Sx.illegal (s : State) (x : Sx) (d : Nat) : Out := x.stop s 3 1 d 0x01 0

/-- The identity of a block's accesses (R258, R359). Its stream has no slot and takes no SEQ (R328): its tag names slot 63, which no team
has, and SEQ 0 (DESIGN CHOICE, log 32). -/
def State.identBlk (s : State) (c blk : Nat) : Ident :=
  let k := s.core c
  match (k.block? blk).bind fun b => k.lslot? b.lslot with
  | some l => ⟨l.part, l.asid, l.sdom, l.gen, l.sgen, (s.part l.part).tenantOf l.asid, 0, some (l.q, l.idx), (reqTag c 0 63 0).toNat⟩
  | none => ⟨0, 0, 0, 0, 0, 0, 0, none, (reqTag c 0 63 0).toNat⟩

/-- The lease check of an extent of a stream instruction (R172, R237). -/
def Sx.leased (x : Sx) (va n : Nat) (rd wr : Bool) : Bool :=
  match x.k.block? x.blk with
  | some b => x.k.leased b.lslot va n rd wr
  | none => false

/-- A counter or address register. -/
def Sx.rc (x : Sx) (r : Reg) : DWord := x.q.c[r.toNat]?.getD 0
def Sx.rx (x : Sx) (r : Reg) : DWord := x.q.x[r.toNat]?.getD 0

end Sys2Proof.Machine
end

