-- ==== Sys2Proof/Machine/Barriers.lean ====
section
/-! DEFINITION. Barrier objects in team code, the agent slot and the stream (R214 to R217, R234), and transaction barriers
with their steps at the home (R218 to R220, R407). -/

namespace Sys2Proof.Machine

/-! ## Barrier objects (R215, R216) -/

/-- The instruction goes on with its operands as read at issue (R60) and, where it closes the fragment's windows, after their
pending writes: a barrier arrive or wait does, an initialisation does not (R61). -/
def Cx.closeIf (s : State) (cx : Cx) (closes : Bool) (f : Cx → Cx → Out) : Out := if closes then cx.closing s f else f cx cx

/-- A barrier-object instruction: its object lies wholly within the allocation and outside every stash window of the block (R205,
R214), and no session's range overlaps it (R208). -/
def barOp (f : BarF) (closes : Bool) (wrs : List RegRef) (act : Cx → Nat → Nat → Out) (s : State) : Out :=
  issue s (fun cx => cx.onceReads f.c (f.b.refs true 0 false)) (fun cx => if cx.takes f.c then wrs else []) fun cx =>
    if !(cx.takes f.c) then .next (cx.next s f.b.len)
    else cx.closeIf s closes fun old cx =>
      let blk := cx.barBlock
      let off := 16 * f.a.toNat
      if cx.acqBusy then stall s reasonAcquire
      else if !(cx.k.inRange blk off 16) || cx.k.winMeets blk off 16 then .next (cx.trap s 0x05 0 noLane (BitVec.ofNat 64 off) 0)
      else if cx.k.rangeBusy blk off 16 true then stall s reasonEngine
      else act cx blk (old.bval true 0 false .n f.b)

def execBinit (f : BarF) (s : State) : Out :=
  barOp f false [] (fun cx blk count => .next (({ cx with k := cx.k.barInit blk f.a.toNat count } : Cx).next s f.b.len)) s

/-- `barr`: a release and fault-check point, then the arrival. -/
def execBarr (f : BarF) (s : State) : Out :=
  barOp f true [.g f.d.toNat] (fun cx blk count =>
    cx.waitPoint s .core (
      let r := cx.k.barArrive blk f.a.toNat count
      .next (({ cx with k := r.1 } : Cx).write s f.b.len [.g f.d.toNat r.2]))) s

/-- A `bwait` ends with a status, as an acquire. -/
def Cx.bwaitEnd (s : State) (cx : Cx) (f : BarF) (st : Nat) : Out :=
  .next ((cx.write s f.b.len [.g f.d.toNat (BitVec.ofNat 64 st)]).acquire cx.c)

/-- `bwait` at its issue: it ends when the phase has passed; else it waits, or reports under `.try`. -/
def bwaitIssue (f : BarF) (s : State) : Out :=
  barOp f true [.g f.d.toNat] (fun cx blk phase =>
    if cx.k.barField blk f.a.toNat 3 ≠ phase then cx.bwaitEnd s f 0
    else if f.tr then .next (cx.write s f.b.len [.g f.d.toNat 2])
    else
      let x := { cx.x with bw := some (f.a.toNat, none), stall := none }
      .next (s.setCore cx.c ({ cx with x := x } : Cx).core).bump) s

/-- `bwait`: one that waits, and so has issued, ends once a release has come; else it issues. -/
def execBwait (f : BarF) (s : State) : Out :=
  withFrag s fun cx => match cx.x.bw with
    | some (_, some st) => cx.bwaitEnd s f st
    | _ => bwaitIssue f s

/-! ## Barrier objects in the stream (R234) -/

/-- Count or phase of a stream's barrier instruction: counter cB, or an immediate. -/
def Sx.barVal (x : Sx) (b : BOp) : Nat :=
  match b with
  | .reg r => (x.rc r).toNat % 2 ^ 32
  | .imm v => v.toNat
  | .simm v => v.toNat
  | .lit v => v.toNat
  | .bank _ => 0

/-- A counter written. -/
def Sx.setC (x : Sx) (r : Reg) (v : DWord) : Sx := { x with q := { x.q with c := x.q.c.set r.toNat v } }

/-- The range check of a stream's barrier instruction: CAUSE 7 (R237); an object inside a stash window counts as out of range, as
for team code (R205; DEDUCED, assumption 108). -/
def streamBarOp (f : BarF) (act : Sx → Out) (s : State) : Out :=
  withStream s fun x =>
    if !(x.k.inRange x.blk (16 * f.a.toNat) 16) || x.k.winMeets x.blk (16 * f.a.toNat) 16 then x.stop s 4 7 0 0x05 (BitVec.ofNat 64 (16 * f.a.toNat))
    else if x.k.rangeBusy x.blk (16 * f.a.toNat) 16 true then stall s reasonEngine
    else act x

def execStreamBinit (f : BarF) (s : State) : Out :=
  streamBarOp f (fun x => .next (({ x with k := x.k.barInit x.blk f.a.toNat (x.barVal f.b) } : Sx).next s f.b.len)) s

/-- A stream's `barr` waits for every earlier operation; the stream's own writes are accepted when made. -/
def execStreamBarr (f : BarF) (s : State) : Out :=
  streamBarOp f (fun x =>
    if !x.q.flight.isEmpty then stall s reasonEngine
    else
      let r := x.k.barArrive x.blk f.a.toNat (x.barVal f.b)
      .next ((({ x with k := r.1 } : Sx).setC f.d r.2).next s f.b.len)) s

/-- A stream's `bwait`: a release that has been given completes it whatever has become of the object (R216); it is an acquire. -/
def execStreamBwait (f : BarF) (s : State) : Out :=
  let fin := fun (x : Sx) (st : Nat) => Host.Outcome.next (((x.setC f.d (BitVec.ofNat 64 st)).next s f.b.len).acquire x.c)
  withStream s fun x => match x.q.bw with
    | some (_, some st) => fin x st
    | _ => streamBarOp f (fun x =>
        if x.k.barField x.blk f.a.toNat 3 ≠ x.barVal f.b then fin x 0
        else .next (s.setCore x.c (x.k.setSeq x.i { x.q with bw := some (f.a.toNat, none), stall := none })).bump) s

/-! ## Transaction barriers (R219, R220) -/

/-- Issue of a transaction-barrier instruction: its address is checked with w = 16 for read and write. -/
def tbOp (f : BarF) (closes : Bool) (wrs : List RegRef) (act : Cx → Nat → Nat → Out) (s : State) : Out :=
  issue s (fun cx => cx.onceReads f.c (.g f.a.toNat :: f.b.refs true 0 false)) (fun cx => if cx.takes f.c then wrs else []) fun cx =>
    if !(cx.takes f.c) then .next (cx.next s f.b.len)
    else cx.closeIf s closes fun old cx =>
      let va := (old.v.rg f.a.toNat).toNat
      if cx.acqBusy then stall s reasonAcquire
      else if va % 16 ≠ 0 then .next (cx.trap s 0x03 0 noLane (BitVec.ofNat 64 va) 0)
      else if !(cx.k.leaseOk cx.slot va 16 true true) then .next (cx.trap s 0x04 0 noLane (BitVec.ofNat 64 va) 0)
      else act cx va (old.bval true 0 false .n f.b)

/-- The g register that a step's record or log entry names: its destination, for an initialisation that of its count (R397). -/
def tbDataReg (f : BarF) (kind : Nat) : Nat :=
  if kind = tbKindInit then (match f.b with | .reg r => r.toNat | _ => 0) else f.d.toNat

/-- A step sent to the home under the next SEQ; `none` where no SEQ is free. -/
def Cx.tbSend (s : State) (cx : Cx) (f : BarF) (kind va arg : Nat) : Option (Cx × State) :=
  if !(cx.seqFree s) then none
  else
    let cx := cx.takeSeq s 0
    let r : TbReq :=
      { id := s.nextId, kind := kind, tr := f.tr, slot := cx.slot, quad := cx.q, entry := cx.e, seq := cx.t.seq, pc := cx.x.pc
        va := va, arg := BitVec.ofNat 32 arg, dreg := tbDataReg f kind, away := none, done := none }
    some ({ cx with k := { cx.k with tbs := cx.k.tbs ++ [r] } }, { s with nextId := s.nextId + 1 })

/-- `tbinit`: a release, then the step that initialises the barrier. -/
def execTbinit (f : BarF) (s : State) : Out :=
  tbOp f false [] (fun cx va count =>
    cx.waitPoint s .core (
      match cx.tbSend s f tbKindInit va count with
      | none => stall s reasonMemory
      | some (cx, s) => .next (cx.next s f.b.len))) s

/-- `tbarr`: a release, then the arrival, whose phase comes back to gD. -/
def execTbarr (f : BarF) (s : State) : Out :=
  tbOp f true [.g f.d.toNat] (fun cx va count =>
    cx.waitPoint s .core (
      match cx.tbSend s f tbKindArrive va count with
      | none => stall s reasonMemory
      | some (cx, s') => .next (cx.nextAwait s' f.b.len ⟨s.nextId, [.g f.d.toNat], [], 0, false⟩))) s

/-- The answered wait of a fragment. -/
def Cx.tbAnswer (cx : Cx) : Option (TbReq × Option DWord) :=
  firstSome (fun (r : TbReq) =>
    if r.slot = cx.slot ∧ r.quad = cx.q ∧ r.entry = cx.e ∧ r.kind = tbKindWait then r.done.map fun v => (r, v) else none) cx.k.tbs

/-- The answer of a `tbwait` is used up: it completes with the status, as an acquire with status 0; a refused wait leaves gD alone. -/
def Cx.tbEnd (s : State) (cx : Cx) (f : BarF) (r : TbReq) (v : Option DWord) : Out :=
  let cx := { cx with k := { cx.k with tbs := cx.k.tbs.filter fun y => decide (y.id ≠ r.id) } }
  match v with
  | none => .next (cx.next s f.b.len)
  | some st =>
    let s := cx.write s f.b.len [.g f.d.toNat st]
    .next (if st = 0 then s.acquire cx.c else s)

/-- `tbwait`: its wait goes to the home, and the fragment waits for the answer. -/
def tbwaitSend (f : BarF) (s : State) : Out :=
  tbOp f true [.g f.d.toNat] (fun cx va phase =>
    match cx.tbSend s f tbKindWait va phase with
    | none => stall s reasonMemory
    | some (cx, s') =>
      .next (s'.setCore cx.c ({ cx with x := { cx.x with op := some s.nextId, stall := none } } : Cx).core).bump) s

/-- `tbwait`: once its answer is there the instruction, already issued, ends with it; else it issues. -/
def execTbwait (f : BarF) (s : State) : Out :=
  withFrag s fun cx => match cx.tbAnswer with
    | some (r, v) => cx.tbEnd s f r v
    | none => tbwaitSend f s

/-! ## Steps at the home (R218, R220) -/

/-- The 16 bytes of a transaction barrier right after `tbinit`. -/
def tbInitNat (count : Nat) : Nat := count + count * 2 ^ 32

/-- A step refused at its home: the record is written; an initialisation, being a store, is logged too. The destination is
left unwritten. -/
def State.tbRefuse (s : State) (c : Nat) (r : TbReq) (cls : BitVec 8) : State :=
  let k := s.core c
  let level := match k.team? r.slot with | some t => t.level | none => 0
  let es := if r.kind = tbKindInit then
      [mkLog 2 4 0 (storeFlags true true) teamWideLane r.dreg 0 r.seq cls level r.pc r.va (BitVec.ofNat 128 (tbInitNat r.arg.toNat))]
    else []
  let f : Refused := ⟨r.id, r.slot, r.seq, r.pc, cls, r.va / 32 * 32, noLane, false, es⟩
  let k := { k with refused := k.refused ++ [f] }
  s.setCore c (if r.kind = tbKindWait then
      { k with tbs := k.tbs.map fun y => if y.id = r.id then { y with done := some none } else y }
    else ({ k with tbs := k.tbs.filter fun y => decide (y.id ≠ r.id) } : Core).addResults r.id [] true)

/-- An applied initialisation or arrival leaves, and its phase is there. -/
def Core.tbDone (k : Core) (r : TbReq) (ws : List Wr) : Core :=
  (({ k with tbs := k.tbs.filter fun y => decide (y.id ≠ r.id) } : Core).addResults r.id ws true).poll

/-- A transaction-barrier step is applied at its home as one indivisible step. A wait is answered when its phase has passed;
under `.try` it is answered at once. -/
def execTransactionBarrierStep (core idx : Nat) (s : State) : Out :=
  let k := s.core core
  match k.tbs[idx]? with
  | none => .refused .eventNotDue
  | some r =>
    if r.done.isSome || r.away.isSome || (decide (r.kind ≠ tbKindWait) && k.earlier r.id r.slot r.va) then .refused .eventNotDue
    else
      let tag := (reqTag core r.quad r.slot r.seq).toNat
      let id := { s.identOf core r.slot with owner := r.id, tag := tag }
      let gate := fun (s' : State) => remoteGate s s' r.id (.refused .eventNotDue)
      match s.home id.part r.va with
      | .away dev _ =>
        if !(s.reaches tag (s.exitSlice id r.va)) then .refused .eventNotDue
        else match s.plane dev r.va with
        | none => .next (s.tbRefuse core r 0x16).bump
        | some p =>
          let (num, s) := s.fresh
          let k := s.core core
          .next ((s.setCore core { k with tbs := k.tbs.set idx { r with away := some num } }).ask p dev num id 3 r.va (r.kind + if r.tr then 4 else 0) r.arg.toNat).bump
      | .here _ =>
        if r.kind = tbKindInit then
          let w := s.homePut id r.va 16 (tbInitNat r.arg.toNat)
          gate w.1 fun s => match w.2 with
            | some (cls, _) => .next (s.tbRefuse core r cls).bump
            | none => .next ((s.setCore core ((s.core core).tbDone r [])).forget core id r.va 16).bump
        else if r.kind = tbKindArrive then
          let w := s.tbArrive id r.va r.arg.toNat
          gate w.1 fun s => match w.2 with
            | .inr cls => .next (s.tbRefuse core r cls).bump
            | .inl ph => .next ((s.setCore core ((s.core core).tbDone r [.g r.dreg ph])).forget core id r.va 16).bump
        else
          let w := s.homeNat id r.va 16
          gate w.1 fun s => match w.2 with
            | .inr cls => .next (s.tbRefuse core r cls).bump
            | .inl x =>
              let answer := fun (v : DWord) =>
                let k := s.core core
                Host.Outcome.next (s.setCore core { k with tbs := k.tbs.set idx { r with done := some (some v) } }).bump
              if x / 2 ^ 96 % 2 ^ 32 ≠ r.arg.toNat then answer 0
              else if r.tr then answer 2
              else .refused .eventNotDue

/-- The answer of a wait reaches its fragment, which goes on. -/
def execTbwaitAnswer (core idx : Nat) (s : State) : Out :=
  let k := s.core core
  match k.tbs[idx]? with
  | none => .refused .eventNotDue
  | some r =>
    let x := k.entry r.quad r.entry
    if r.kind ≠ tbKindWait ∨ r.done.isNone ∨ x.op ≠ some r.id then .refused .eventNotDue
    else .next (s.setCore core ((k.setEntry r.quad r.entry { x with op := none, stall := none }).poll)).bump

end Sys2Proof.Machine
end

