-- ==== Sys2Proof/Machine/Blocks.lean ====
section
/-! DEFINITION. Self-describing tensor blocks (R34 to R38): format codes, scales, elements, pairings. A block is its 64
bytes as one little-endian number. -/

namespace Sys2Proof.Machine

/-- How an element's bits read (R35). -/
inductive ElemKind
  | flt (f : Fmt)
  | int (sg : Sg) (bias : Nat)
  | t2
deriving DecidableEq, Repr

/-- The role of the scale byte (R35). -/
inductive ScaleKind | none | pow2 | e4m3
deriving DecidableEq, Repr

/-- A format code's elements per block, element width, reading and scale (R34, R35). -/
structure BlkFmt where
  elems : Nat
  width : Nat
  kind : ElemKind
  scale : ScaleKind
deriving DecidableEq, Repr

def blkFmt : Nat → Option BlkFmt
  | 0x01 => some ⟨7, 64, .flt .f64, .none⟩
  | 0x02 => some ⟨15, 32, .flt .f32, .none⟩
  | 0x03 => some ⟨15, 32, .flt .f19, .none⟩
  | 0x04 => some ⟨31, 16, .flt .bf16, .none⟩
  | 0x05 => some ⟨31, 16, .flt .f16, .none⟩
  | 0x06 => some ⟨31, 16, .flt .bf16, .pow2⟩
  | 0x07 => some ⟨31, 16, .int .s 0, .none⟩
  | 0x08 => some ⟨62, 8, .flt .e4m3, .none⟩
  | 0x09 => some ⟨62, 8, .flt .e5m2, .none⟩
  | 0x0A => some ⟨62, 8, .flt .e4m3, .pow2⟩
  | 0x0B => some ⟨62, 8, .flt .e5m2, .pow2⟩
  | 0x0C => some ⟨62, 8, .int .s 0, .none⟩
  | 0x0D => some ⟨62, 8, .int .n 0, .none⟩
  | 0x0E => some ⟨62, 8, .int .s 0, .pow2⟩
  | 0x0F => some ⟨124, 4, .int .s 0, .none⟩
  | 0x10 => some ⟨124, 4, .int .s 0, .pow2⟩
  | 0x11 => some ⟨124, 4, .int .s 0, .e4m3⟩
  | 0x12 => some ⟨124, 4, .int .n 8, .pow2⟩
  | 0x13 => some ⟨124, 4, .int .n 8, .e4m3⟩
  | 0x14 => some ⟨124, 3, .int .s 0, .pow2⟩
  | 0x15 => some ⟨124, 3, .int .s 0, .e4m3⟩
  | 0x16 => some ⟨124, 3, .int .n 4, .pow2⟩
  | 0x17 => some ⟨124, 3, .int .n 4, .e4m3⟩
  | 0x18 => some ⟨124, 2, .t2, .pow2⟩
  | _ => none

/-- The multiplier m * 2^e of a scale byte, or none where it breaks R36. -/
def blkScale (k : ScaleKind) (byte : Nat) : Option (Nat × Int) :=
  match k with
  | .none => if byte = 0 then some (1, 0) else none
  | .pow2 => some (1, intVal .s 8 byte)
  | .e4m3 =>
    if byte ≤ 0x7E then
      match Fmt.e4m3.decode byte with
      | .fin _ m e => some (m, e)
      | _ => none
    else none

/-- An integer as an exact value; 0 is +0. -/
def FV.ofInt (x : Int) : FV := .fin (decide (x < 0)) x.natAbs 0

/-- Element i of a block before scaling, and whether it is the reserved t2 code (R35, R38). -/
def blkRaw (f : BlkFmt) (blk i : Nat) : FV × Bool :=
  let bits := blk / 2 ^ (16 + f.width * i) % 2 ^ f.width
  match f.kind with
  | .flt fmt => (fmt.decode bits, false)
  | .int sg bias => (FV.ofInt (intVal sg f.width bits - bias), false)
  | .t2 => (FV.ofInt (if bits = 1 then 1 else if bits = 3 then -1 else 0), decide (bits = 2))

/-- An exact product by a multiplier: the sign stays (R36, R224). -/
def FV.scale (v : FV) (m : Nat × Int) : FV :=
  match v with
  | .fin n x e => .fin n (x * m.1) (e + m.2)
  | _ => v

/-- Code and scale byte of a block. -/
def blkCode (blk : Nat) : Nat := blk % 256
def blkScaleByte (blk : Nat) : Nat := blk / 256 % 256

/-- The multiplier of a block that carries the wanted code and keeps R36. -/
def blkMult (code blk : Nat) : Option (BlkFmt × (Nat × Int)) :=
  match blkFmt code with
  | none => none
  | some f => if blkCode blk = code then (blkScale f.scale (blkScaleByte blk)).map fun m => (f, m) else none

/-- The value of element i of a block of a code (R36), or none where its header is wrong. -/
def blkElem (code blk i : Nat) : Option FV :=
  (blkMult code blk).map fun (f, m) => (blkRaw f blk i).1.scale m

/-- A value's bits in a format, rounded to nearest even, with flags; a NaN is canonical. -/
def Fmt.ofFV (f : Fmt) (md : RMode) (v : FV) : Res :=
  match v with
  | .nan _ => f.nanRes 0
  | .inf n => ⟨f.infRes md n, 0⟩
  | .fin n m e => f.round md n m e

/-! ## Pairings (R37) -/

/-- Accumulator type of a pairing. -/
inductive AccKind | f32 | s32 | f64
deriving DecidableEq, Repr

/-- Formats of the A side that go with each group of B formats. -/
def pairing (fa fb : Nat) : Option AccKind :=
  let f19s := [0x02, 0x03]
  let halfs := [0x04, 0x05, 0x06]
  let eights := [0x08, 0x09, 0x0A, 0x0B]
  if fa = 0x01 ∧ fb = 0x01 then some .f64
  else if f19s.contains fa ∧ f19s.contains fb then some .f32
  else if halfs.contains fa ∧ halfs.contains fb then some .f32
  else if eights.contains fa ∧ eights.contains fb then some .f32
  else if (fa = 0x0C ∨ fa = 0x0D) ∧ (fb = 0x0C ∨ fb = 0x0D) then some .s32
  else if fa = 0x07 ∧ fb = 0x07 then some .s32
  else if fa = 0x0E ∧ fb = 0x0E then some .f32
  else if (eights.contains fa ∨ fa = 0x04) ∧ 0x0F ≤ fb ∧ fb ≤ 0x18 then some .f32
  else none

end Sys2Proof.Machine
end

