-- ==== Sys2Proof/Machine/Gather.lean ====
section
/-! DEFINITION. Gather through tensor descriptors (R223 to R225), the search of a doubly compressed tile image (R275 to
R278), and intersect (R226). A gather's local reads are done in the step that ends it; sectors of other devices come before. -/

namespace Sys2Proof.Machine

/-! ## Reading through the gather cache (R225) -/

/-- What stops a gather's read. -/
inductive GBad
  /-- The home refused a sector: class, address and bytes of the read, address of the sector. -/
  | fault (cls : BitVec 8) (va n sect : Nat)
  /-- The read overlaps a logged store or atomic (R334): its address and bytes. -/
  | behind (va n : Nat)
  /-- An earlier access of the core to the sector is outstanding, or another device's answer is. -/
  | hold
deriving DecidableEq, Repr

/-- A gather under way: the state with the gather cache it fills, its team's slot, its place among the core's accesses, the team's log,
sectors with a watch bit that it read, and what stopped the current read. -/
structure GSt where
  s : State
  slot : Nat
  num : Nat
  log : List LogEntry
  watched : List Nat
  bad : Option GBad

/-- A sector read at its home enters the gather cache; the core's other copies of it may be older and go (R225, R268). -/
def State.gathFill (s : State) (c : Nat) (id : Ident) (x : CSector) : State :=
  let s := s.forget c id x.va 32
  let k := s.core c
  s.setCore c { k with gcache := putSector k.gcache x }

/-- Reads one sector: from the gather cache, else from its home into the cache. -/
def GSt.sector (g : GSt) (c : Nat) (id : Ident) (va : Nat) : GSt × Sector :=
  if g.bad.isSome then (g, 0)
  else
    let k := g.s.core c
    let see := fun (g : GSt) (x : CSector) => ({ g with watched := if x.watch then g.watched ++ [x.va] else g.watched }, x.data)
    if k.earlier g.num g.slot va then ({ g with bad := some .hold }, 0)
    else
      match findSector k.gcache id va with
      | some x =>
        if x.pr && decide (x.valid = 0xFF) then see g x else fetch see
      | none => fetch see
where
  fetch (see : GSt → CSector → GSt × Sector) : GSt × Sector :=
    match g.s.home id.part va with
    | .away dev _ =>
      match g.s.remote id dev va 0 0 0 with
      | (s, .inr cls) => lost { g with s := s } cls
      | (s, .inl x) =>
        let line := s.cachedAway id va x
        see { g with s := s.gathFill c id line } line
    | .here i =>
      match g.s.ensure i id va true false with
      | .bad s cls => lost { g with s := s } cls
      | .ok s key =>
        match s.readWay i key id va none with
        | (s, .inr cls) => lost { g with s := s } cls
        | (s, .inl x) =>
          let line := s.cached i key id va x
          see { g with s := s.gathFill c id line } line
  lost (g : GSt) (cls : BitVec 8) : GSt × Sector := ({ g with bad := some (if cls = waitCls then .hold else .fault cls va 0 va) }, 0)

/-- A read that has met a refused sector: the access is the read of `n` bytes at `va` (R336). -/
def GSt.at (g : GSt) (va n : Nat) : GSt :=
  match g.bad with
  | some (.fault cls _ _ sect) => { g with bad := some (.fault cls va n sect) }
  | _ => g

/-- Reads n bytes as a little-endian number; one that overlaps a logged store or atomic is not made (R334). -/
def GSt.read (g : GSt) (c : Nat) (id : Ident) (va n : Nat) : GSt × Nat :=
  if g.bad.isNone && logHits g.log ⟨0, va, n, 0, 0, 0⟩ then ({ g with bad := some (.behind va n) }, 0)
  else
    let r := (rangeParts va n).foldl (fun (st : GSt × Nat × Nat) p =>
      let (g, x) := st.1.sector c id p.1
      (g, st.2.1 + sectorNat x (p.1 % 32) p.2 * 2 ^ (8 * st.2.2), st.2.2 + p.2)) (g, 0, 0)
    (if g.bad.isSome then r.1 else r.1.at va n, r.2.1)

/-! ## Tensor descriptors (R223, R277) -/

/-- A descriptor: its 64 bytes as one number. -/
structure TDesc where
  x : Nat

def TDesc.field (d : TDesc) (at0 n : Nat) : Nat := d.x / 2 ^ (8 * at0) % 2 ^ (8 * n)
def TDesc.kind (d : TDesc) : Nat := d.field 0 1
def TDesc.ety (d : TDesc) : Nat := d.field 1 1
def TDesc.base (d : TDesc) : Nat := d.field 8 8
def TDesc.rows (d : TDesc) : Nat := d.field 16 4
def TDesc.cols (d : TDesc) : Nat := d.field 20 4
def TDesc.pitch (d : TDesc) : Nat := d.field 24 8
def TDesc.ntr (d : TDesc) : Nat := d.field 32 4
def TDesc.nt (d : TDesc) : Nat := d.field 36 4
def TDesc.nrw (d : TDesc) : Nat := d.field 40 4
def TDesc.ne (d : TDesc) : Nat := d.field 44 4
def TDesc.extent (d : TDesc) : Nat := d.field 48 8

/-- KIND names an element structure that `gath` reads. -/
def TDesc.known (d : TDesc) : Bool := decide (1 ≤ d.kind ∧ d.kind ≤ 3)
/-- ETYPE is valid for its KIND. -/
def TDesc.valid (d : TDesc) : Bool :=
  match d.kind with
  | 1 => decide (d.ety ≤ 3)
  | 2 => (blkFmt d.ety).isSome
  | 3 => decide (d.ety ≤ 2)
  | _ => false
/-- The elements have 64 bits. -/
def TDesc.wide (d : TDesc) : Bool := (decide (d.kind = 1 ∧ d.ety = 3)) || (decide ((d.kind = 2 ∨ d.kind = 3) ∧ d.ety = 1))
/-- Elements per block of a block structure. -/
def TDesc.perBlock (d : TDesc) : Nat := match blkFmt d.ety with | some f => f.elems | none => 1

/-- The extent checked at issue, in bytes from BASE (R224); 0 for none. -/
def TDesc.span (d : TDesc) : Nat :=
  if !d.known || !d.valid || decide (d.rows = 0 ∨ d.cols = 0) then 0
  else match d.kind with
    | 1 => (d.rows - 1) * d.pitch + d.cols * 2 ^ d.ety
    | 2 => (d.rows - 1) * d.pitch + 64 * ((d.cols + d.perBlock - 1) / d.perBlock)
    | _ => d.extent

/-! ## Tile images (R275 to R278) -/

/-- Al of R276. -/
def al32 (x : Nat) : Nat := (x + 31) / 32 * 32

/-- Offsets of the arrays TROW, TROWP, TCOL, TCOLP, LROW, LROWP, LCOL, VAL and the end (R276). -/
def tileOffsets (w ntr nt nrw ne : Nat) : List Nat :=
  let o1 := al32 (4 * ntr)
  let o2 := o1 + al32 (4 * (ntr + 1))
  let o3 := o2 + al32 (4 * nt)
  let o4 := o3 + al32 (4 * (nt + 1))
  let o5 := o4 + al32 nrw
  let o6 := o5 + al32 (4 * (nrw + 1))
  let o7 := o6 + al32 ne
  [0, o1, o2, o3, o4, o5, o6, o7, o7 + al32 (w * ne)]

/-- Result of a search: a value, absent, or led outside the extents. -/
inductive TileHit
  | value (x : Nat)
  | absent
  | outside
deriving DecidableEq, Repr

/-- Reads an entry of the image, unless it lies beyond EXTENT. -/
def GSt.entry (g : GSt) (c : Nat) (id : Ident) (d : TDesc) (off n : Nat) : GSt × Option Nat :=
  if off + n > d.extent then (g, none) else let r := g.read c id (d.base + off) n; (r.1, some r.2)

/-- Position of the wanted index among entries p .. p + left - 1 of a list (R278 steps 1 and 2). -/
def GSt.find (c : Nat) (id : Ident) (d : TDesc) (off n want : Nat) : Nat → Nat → GSt → GSt × Option (Option Nat)
  | 0, _, g => (g, some none)
  | left + 1, p, g =>
    match g.entry c id d (off + n * p) n with
    | (g, none) => (g, none)
    | (g, some x) =>
      if g.bad.isSome then (g, some none)
      else if x = want then (g, some (some p))
      else if x > want then (g, some none)
      else GSt.find c id d off n want left (p + 1) g

/-- One level of the search: finds the index in a range of a list, then reads the pointer pair of its position; `limit` is the
next level's count. -/
def GSt.level (g : GSt) (c : Nat) (id : Ident) (d : TDesc) (off n poff want lo hi limit : Nat) : GSt × Sum (Nat × Nat) TileHit :=
  match GSt.find c id d off n want (hi - lo) lo g with
  | (g, none) => (g, .inr .outside)
  | (g, some none) => (g, .inr .absent)
  | (g, some (some p)) =>
    match g.entry c id d (poff + 4 * p) 4 with
    | (g, none) => (g, .inr .outside)
    | (g, some a) =>
      match g.entry c id d (poff + 4 * (p + 1)) 4 with
      | (g, none) => (g, .inr .outside)
      | (g, some b) => if a > limit ∨ b > limit ∨ b < a then (g, .inr .outside) else (g, .inl (a, b))

/-- Locates element (r, c) of a tile image (R278). -/
def GSt.tile (g : GSt) (c : Nat) (id : Ident) (d : TDesc) (row col : Nat) : GSt × TileHit :=
  let w := if d.ety = 1 then 8 else 4
  let o := tileOffsets w d.ntr d.nt d.nrw d.ne
  let at' := fun i => o[i]?.getD 0
  match g.level c id d 0 4 (at' 1) (row / 32) 0 d.ntr d.nt with
  | (g, .inr h) => (g, h)
  | (g, .inl (a, b)) =>
    match g.level c id d (at' 2) 4 (at' 3) (col / 32) a b d.nrw with
    | (g, .inr h) => (g, h)
    | (g, .inl (a, b)) =>
      match g.level c id d (at' 4) 1 (at' 5) (row % 32) a b d.ne with
      | (g, .inr h) => (g, h)
      | (g, .inl (a, b)) =>
        match GSt.find c id d (at' 6) 1 (col % 32) (b - a) a g with
        | (g, none) => (g, .outside)
        | (g, some none) => (g, .absent)
        | (g, some (some e)) =>
          match g.entry c id d (at' 7 + w * e) w with
          | (g, none) => (g, .outside)
          | (g, some x) => (g, .value x)

/-! ## `gath` (R224) -/

/-- One lane's result: the value with found, whether the gather-error count rises, and the address read, for a log entry. -/
structure GLane where
  val : Nat
  found : Bool
  err : Bool
  va : Nat
  size : Nat

def GLane.absent (err : Bool) : GLane := ⟨0, false, err, 0, 4⟩

/-- One lane's element. -/
def GSt.lane (g : GSt) (c : Nat) (id : Ident) (d : TDesc) (dd : Bool) (row col : Nat) : GSt × GLane :=
  if !d.known then (g, .absent false)
  else if !d.valid then (g, .absent true)
  else if row ≥ d.rows ∨ col ≥ d.cols then (g, .absent false)
  else if d.wide ≠ dd then (g, .absent true)
  else
    match d.kind with
    | 1 =>
      let w := 2 ^ d.ety
      let va := d.base + row * d.pitch + col * w
      let r := g.read c id va w
      (r.1, ⟨r.2, true, false, va, w⟩)
    | 2 =>
      let E := d.perBlock
      let va := d.base + row * d.pitch + 64 * (col / E)
      let (g, blk) := g.read c id va 64
      match blkElem d.ety blk (col % E) with
      | none => (g, { GLane.absent false with va := va })
      | some v => (g, ⟨((if d.ety = 1 then Fmt.f64 else Fmt.f32).ofFV {} v).bits, true, false, va, if d.ety = 1 then 8 else 4⟩)
    | _ =>
      match g.tile c id d row col with
      | (g, .value x) => (g, ⟨x, true, false, d.base, if d.ety = 1 then 8 else 4⟩)
      | (g, .absent) => (g, { GLane.absent false with va := d.base })
      | (g, .outside) => (g, { GLane.absent true with va := d.base })

/-- All lanes of a gather: results, gather errors, and what stopped the lanes that get none. -/
structure GAll where
  g : GSt
  wrs : List Wr
  errs : Nat
  faults : List (Nat × GBad)

/-- The writes of a lane's result. -/
def gathWrs (f : GathF) (L : Nat) (r : GLane) : List Wr :=
  dstWr false L (if f.dd then .wide else .z) f.d r.val ++ [.p L f.cc.toNat r.found]

/-- Runs the lanes in order; a refused or logged read costs its lane, a wait stops the run. -/
def Cx.gathLanes (cx : Cx) (f : GathF) (id : Ident) (d : TDesc) (ls : List Nat) (g : GSt) : GAll :=
  ls.foldl (fun (a : GAll) L =>
    if a.g.bad.isSome then a
    else
      let (g, r) := a.g.lane cx.c id d f.dd (cx.v.rd false L false f.a) (cx.bval false L false .n f.b)
      match g.bad with
      | some .hold => { a with g := g }
      | some bad => { a with g := { g with bad := none }, faults := a.faults ++ [(L, bad)] }
      | none => { a with g := g, wrs := a.wrs ++ gathWrs f L r, errs := a.errs + if r.err then 1 else 0 }) ⟨g, [], 0, []⟩

/-- The log entry of a lane that gets no value (R176, R334): KIND 1 for a refused sector, KIND 6 behind a logged store. SIZE is that of the
read; where a descriptor's or a block's 64 bytes were refused, which SIZE has no number for, that of the result (DESIGN CHOICE, log 133). -/
def Cx.gathLog (cx : Cx) (f : GathF) (x : Nat × GBad) : LogEntry :=
  let (kind, cls, va, n) : Nat × BitVec 8 × Nat × Nat := match x.2 with
    | .fault cls va n _ => (1, cls, va, n)
    | .behind va n => (6, 0, va, n)
    | .hold => (1, 0, 0, 0)
  mkLog kind (if n ≤ 16 then Nat.log2 n else if f.dd then 3 else 2) 0 0 x.1 f.d.toNat 0 cx.seq cls cx.t.level cx.x.pc va 0

/-- A gather begins: its reads follow every access that the core has issued. -/
def Cx.gathStart (s : State) (cx : Cx) : GSt := ⟨s, cx.slot, match cx.k.midway? cx.x with | some m => m.id | none => s.nextId, cx.t.log, [], none⟩

/-- The descriptor of a handle; a handle that names none reads as zeros. -/
def Cx.gathDesc (s : State) (cx : Cx) (id : Ident) (h : Nat) : GSt × TDesc :=
  let g := cx.gathStart s
  match cx.k.lslotOf cx.slot with
  | none => (g, ⟨0⟩)
  | some l =>
    let a := l.htab[h]?.getD 0
    if a = 0 then (g, ⟨0⟩) else let r := g.read cx.c id a 64; (r.1, ⟨r.2⟩)

/-- One record for each gather error (R422): the task's QID, the gather unit as its engine (R408), its sequence. -/
def State.gathErrors (s : State) (c slot n : Nat) : State := match (s.core c).lslotOf slot with
  | none => s
  | some l => (List.range n).foldl (fun s _ =>
      s.telRecord l.part (toLeBytes 2 l.q ++ toLeBytes 2 (3072 + c) ++ toLeBytes 12 l.idx ++ List.replicate 7 0 ++ [2] ++ List.replicate 8 0)) s

/-- Ends a gather: the results that are there, the errors, the lanes logged behind stores, and the refusals on their way to the team. -/
def Cx.gathEnd (s : State) (cx : Cx) (f : GathF) (ls : List Nat) (a : GAll) : Out :=
  let s := s.gathErrors cx.c cx.slot a.errs
  let id := s.identOf cx.c cx.slot
  let k := { cx.k with gerr := cx.k.gerr + BitVec.ofNat 64 a.errs }
  let behind := a.faults.filter fun x => match x.2 with | .behind _ _ => true | _ => false
  let cx := { cx with k := k, t := cx.t.addLog (behind.map (cx.gathLog f)) }
  let dests := ls.flatMap fun L => regRefs false L f.dd f.d ++ [RegRef.p L f.cc.toNat]
  let see := fun (s : State) => (a.g.watched.eraseDups.foldr insertAsc []).foldl (fun s va => s.watchHit cx.c cx.slot va 4 cx.seq cx.x.pc) s
  let sect := (a.faults.filterMap fun x => match x.2 with | .fault cls _ _ sect => some (cls, sect / 32 * 32) | _ => none).eraseDups
  if sect.isEmpty then .next (see (cx.writeLate s f.b.len f.c.la.toNat dests a.wrs))
  else
    let rid := s.nextId
    let r : Req := ⟨rid, .gath, cx.slot, cx.q, cx.e, cx.seq, cx.x.pc, cx.t.level, maskOf ls, [], id.gen, id.sgen, [], [], [], [],
      a.faults.map (·.1)⟩
    let fs := sect.map fun (cls, va) =>
      let mine := a.faults.filter fun x => match x.2 with | .fault cls' _ _ sect => decide (cls' = cls ∧ sect / 32 * 32 = va) | _ => false
      (⟨rid, cx.slot, cx.seq, cx.x.pc, cls, va, BitVec.ofNat 16 ((mine.map (·.1)).headD 0), false, mine.map (cx.gathLog f)⟩ : Refused)
    let cx := { cx with k := { cx.k with reqs := cx.k.reqs ++ [r], refused := cx.k.refused ++ fs } }
    .next (see (cx.nextAwait { s with nextId := s.nextId + 1 } f.b.len ⟨rid, dests, a.wrs, f.c.la.toNat, false⟩))

/-- What a gather's lanes come to, once its descriptor is read: one that is lost costs every lane. -/
def Cx.gathRun (cx : Cx) (f : GathF) (id : Ident) (ls : List Nat) (g : GSt) (d : TDesc) : GAll := match g.bad with
  | none => cx.gathLanes f id d ls g
  | some .hold => ⟨g, [], 0, []⟩
  | some bad => ⟨{ g with bad := none }, [], 0, ls.map fun L => (L, bad)⟩

def execGath (f : GathF) (s : State) : Out :=
  issue s
    (fun cx => cx.predRefs f.c ++ (cx.part f.c).flatMap fun L => regRefs false L false f.a ++ f.b.refs false L false)
    (fun cx => (cx.part f.c).flatMap fun L => regRefs false L f.dd f.d ++ [RegRef.p L f.cc.toNat]) fun cx =>
      let ls := cx.part f.c
      if cx.acqBusy then stall s reasonAcquire
      else if ls.isEmpty then .next (cx.writeLate s f.b.len f.c.la.toNat [] [])
      else
        let owner := cx.owner s
        let on := cx.takeSeq s (maskOf ls)
        let s0 := s.setCore on.c on.core
        let id := { s0.identOf on.c on.slot with owner := owner, tag := (reqTag on.c on.q on.slot on.seq).toNat }
        let (g, d) := on.gathDesc s0 id f.h.toNat
        if g.bad.isNone ∧ d.span ≠ 0 ∧ !(cx.k.leaseOk cx.slot d.base d.span true false) then
          .next (cx.trap (s.dropAnswers owner) 0x04 0 noLane (BitVec.ofNat 64 d.base) 0)
        else if !(cx.seqFree s) then stall s reasonMemory
        else
          let a := on.gathRun f id ls g d
          if a.g.bad.isSome && !(a.g.s.waitsFor owner) then stall s reasonMemory
          else on.gate s a.g.s fun cx s => cx.gathEnd s f ls a

/-! ## Intersect (R226) -/

/-- Positions of a in b: for each element of a, the lowest position of an equal element. -/
def xsectMatches (as bs : List Nat) : List (Nat × Nat) :=
  ((as.mapIdx fun i a => (i, bs.findIdx? (· = a))).filterMap fun p => p.2.map fun j => (p.1, j))

/-- Elements of xs not above the last element of ys. -/
def xsectAdv (xs ys : List Nat) : Nat :=
  match ys.getLast? with
  | none => 0
  | some y => (xs.filter fun x => decide (x ≤ y)).length

def bRegs (b : BOp) (L : Nat) : List RegRef := b.refs false L false

def execXsect (f : DABC) (s : State) : Out :=
  let wrs := fun (cx : Cx) => ((cx.part f.c).flatMap fun L => regRefs false L true f.d) ++ [RegRef.g f.cc.toNat]
  issue s (fun cx => cx.predRefs f.c ++ (cx.part f.c).flatMap fun L => regRefs false L false f.a ++ bRegs f.b L) wrs fun cx =>
    let P := cx.part f.c
    let as := P.map fun L => cx.v.rd false L false f.a
    let bs := P.map fun L => cx.bval false L false .n f.b
    let out := xsectMatches as bs
    let vs := (P.mapIdx fun r L => match out[r]? with
      | some (i, j) => dstWr false L .wide f.d (i + j * 2 ^ 32)
      | none => dstWr false L .wide f.d (2 ^ 64 - 1)).flatten
    .next (cx.writeLate s f.b.len f.c.la.toNat (wrs cx)
      (vs ++ [.g f.cc.toNat (BitVec.ofNat 64 (out.length + xsectAdv as bs * 2 ^ 16 + xsectAdv bs as * 2 ^ 32))]))

end Sys2Proof.Machine
end

