-- ==== Sys2Proof/Machine/Moraine.lean ====
section
/-! DEFINITION. The Moraine merge network (R279 to R296): sessions, puts and their arrival, spills, status, and the drain
that writes a doubly compressed image (R275 to R277, R43). -/

namespace Sys2Proof.Machine

/-! ## Sessions and their units (R280) -/

/-- A session as a launch's handle names it: descriptor address, unit, launch with its address space, handle (R280). -/
structure MgRef where
  desc : Nat
  slice : Nat
  part : Nat
  q : Nat
  idx : Nat
  asid : Nat
  sdom : Nat
  h : Nat

/-- The session a handle names; none where the handle names no descriptor. -/
def State.mgRef (s : State) (l : LSlot) (h : Nat) : Option MgRef :=
  let a := l.htab[h]?.getD 0
  if a = 0 then none else some ⟨a, homeSlice (s.part l.part).first (s.part l.part).size a, l.part, l.q, l.idx, l.asid, l.sdom, h⟩

def MgSess.is (m : MgSess) (r : MgRef) : Bool := decide (m.part = r.part ∧ m.q = r.q ∧ m.idx = r.idx ∧ m.handle = r.h)

def State.mgFind (s : State) (r : MgRef) : Option MgSess := (s.slice r.slice).mg.find? (·.is r)

/-- The identity of a unit's own accesses for a session: its launch's address space under the current generations (R280). -/
def State.mgIdent (s : State) (part q idx asid sdom owner : Nat) : Ident :=
  s.launchIdent part q idx asid sdom owner noTag
def MgSess.ident (m : MgSess) (s : State) (owner : Nat) : Ident := s.mgIdent m.part m.q m.idx m.asid m.sdom owner

/-- A unit's island runs, and for a core's request the networks that lead there (R4). -/
def State.unitReached (s : State) (tag slice : Nat) : Bool :=
  s.islandOn (islandMoraine + slice) && s.islandOn (islandNet + slice / 3) && match tagCore tag with
    | some c => s.islandOn (islandCrossbar + c / 8) && s.islandOn (islandNet + c / 96)
    | none => true

/-- Puts a session's new value back, or removes it for STATE 0. -/
def State.mgSet (s : State) (r : MgRef) (m : MgSess) : State :=
  let sl := s.slice r.slice
  s.setSlice r.slice { sl with mg := sl.mg.map fun x => if x.is r then m else x }
def State.mgDrop (s : State) (r : MgRef) : State :=
  let sl := s.slice r.slice
  s.setSlice r.slice { sl with mg := sl.mg.filter fun x => !(x.is r) }

/-- A put belongs to a session. -/
def Put.isOf (p : Put) (r : MgRef) : Bool := decide (p.slice = r.slice ∧ p.part = r.part ∧ p.q = r.q ∧ p.idx = r.idx ∧ p.handle = r.h)
/-- The session a put is for. -/
def Put.ref (p : Put) : Option MgRef := if p.slice < 12 then some ⟨0, p.slice, p.part, p.q, p.idx, 0, 0, p.handle⟩ else none

/-! ## Runs (R287, R288) -/

/-- Order of entries: row, column, stream, sequence. -/
def mgKey (e : MgEnt) : List Nat := [e.row.toNat, e.col.toNat, e.stream, e.seqn]
def mgInsert (e : MgEnt) : List MgEnt → List MgEnt
  | [] => [e]
  | x :: xs => if mgKey e < mgKey x then e :: x :: xs else x :: mgInsert e xs
def mgSort (es : List MgEnt) : List MgEnt := es.foldl (fun xs e => mgInsert e xs) []

/-- Bytes of an entry in a run. -/
def mgEntBytes (wide : Bool) (e : MgEnt) : List Byte :=
  toLeBytes 4 e.row.toNat ++ toLeBytes 4 e.col.toNat ++ toLeBytes 4 (e.stream * 2 ^ 24 + e.seqn) ++
    if wide then toLeBytes 4 0 ++ toLeBytes 8 e.val.toNat else toLeBytes 4 e.val.toNat
/-- Entry size of a run. -/
def mgEntLen (wide : Bool) : Nat := if wide then 24 else 16
def mgRunLen (wide : Bool) (n : Nat) : Nat := al32 (32 + mgEntLen wide * n)

/-- A run's bytes; those behind its last entry, up to its length, are zero, which R288 leaves open (DESIGN CHOICE, log 129). -/
def mgRun (wide : Bool) (idx : Nat) (es : List MgEnt) : List Byte :=
  let bs := toLeBytes 4 0x4D470001 ++ toLeBytes 4 es.length ++ toLeBytes 4 idx ++ toLeBytes 4 (mgEntLen wide) ++
    List.replicate 16 0 ++ es.flatMap (mgEntBytes wide)
  bs ++ List.replicate (mgRunLen wide es.length - bs.length) 0

def MgSess.wide (m : MgSess) : Bool := decide (m.ety = 1)
/-- Entry units on chip. -/
def MgSess.units (m : MgSess) : Nat := m.ents.length * (if m.wide then 2 else 1)

/-- The lowest-numbered usable region with room (R288). -/
def MgSess.room (m : MgSess) (n : Nat) : Option Nat :=
  (List.range m.regions.length).find? fun i => match m.regions[i]? with
    | some r => r.ok && decide (r.used + n ≤ r.len)
    | none => false

/-- Spills every on-chip entry as one run; STATE 2 where no region has room or the write is refused. Also the refusal. -/
def State.mgSpill (s : State) (id : Ident) (m : MgSess) : State × MgSess × Option (BitVec 8 × Nat) :=
  let n := mgRunLen m.wide m.ents.length
  match m.room n with
  | none => (s, { m with state := 2 }, none)
  | some i =>
    let r := m.regions[i]?.getD ⟨0, 0, 0, false⟩
    match s.homeWrite id (r.base + r.used) (mgRun m.wide m.nruns (mgSort m.ents)) with
    | (s, some bad) => (s, { m with state := 2, regions := m.regions.set i { r with ok := false } }, some bad)
    | (s, none) =>
      (s, { m with state := 1, ents := [], nruns := m.nruns + 1, runs := m.runs ++ [(i, r.used, m.ents.length)]
                   regions := m.regions.set i { r with used := r.used + n } }, none)

/-- Entry units reserved to each session, and in the pool (R287). -/
def mgReserve : Nat := 8192
def mgPool : Nat := 131072

/-- The unit must spill before it adds an entry. -/
def Slice.mgMustSpill (sl : Slice) (m : MgSess) : Bool :=
  let w := if m.wide then 2 else 1
  let u := m.units
  let pool := ((sl.mg.filter fun x => decide (x.state ≤ 4)).map fun x => x.units - mgReserve).sum
  (decide (m.cap ≠ 0 ∧ m.ents.length ≥ m.cap)) ||
    decide (m.ents ≠ [] ∧ (max (u + w) mgReserve - max u mgReserve) + pool > mgPool)

/-! ## Arrival of puts (R285, R286) -/

/-- What becomes of a put's entries at the unit. -/
inductive PutFate
  | done
  | refused
  /-- Held with the entries that are left. -/
  | held (rest : List (Nat × Word × Word × Word × DWord))

/-- The sequence numbers a stream has given out. -/
def MgSess.seqOf (m : MgSess) (st : Nat) : Nat := match m.seqs.find? fun x => decide (x.1 = st) with | some x => x.2 | none => 0
def MgSess.setSeq (m : MgSess) (st n : Nat) : MgSess :=
  { m with seqs := (st, n) :: m.seqs.filter fun x => decide (x.1 ≠ st) }

/-- Why an entry is dropped: the flag it sets (R285). -/
def MgSess.drops (m : MgSess) (wide : Bool) (row col st : Word) : Option (BitVec 4) :=
  if st.toNat > 255 then some 1
  else if row.toNat ≥ m.rows ∨ col.toNat ≥ m.cols then some 2
  else if wide ≠ m.wide then some 4
  else if m.seqOf st.toNat ≥ 2 ^ 24 then some 8
  else none

/-- Applies entries of one put in lane order. -/
def State.mgApply (r : MgRef) (owner : Nat) (wide : Bool) :
    List (Nat × Word × Word × Word × DWord) → State → State × PutFate × Option (BitVec 8 × Nat)
  | [], s => (s, .done, none)
  | e :: rest, s =>
    match s.mgFind r with
    | none => (s, .refused, none)
    | some m =>
      if m.state = 2 then (s, .held (e :: rest), none)
      else if m.state ≠ 1 then (s, .refused, none)
      else
        let (_, row, col, st, v) := e
        match m.drops wide row col st with
        | some fl => State.mgApply r owner wide rest (s.mgSet r { m with flags := m.flags ||| fl, dropped := m.dropped + 1 })
        | none =>
          let (s, m, bad) := if (s.slice r.slice).mgMustSpill m then s.mgSpill (m.ident s owner) m else (s, m, none)
          if m.state = 2 then (s.mgSet r m, .held (e :: rest), bad)
          else
            let n := m.seqOf st.toNat
            let x : MgEnt := ⟨row, col, st.toNat, n, if m.wide then v else (v.setWidth 32).setWidth 64⟩
            let m := { (m.setSeq st.toNat (n + 1)) with ents := m.ents ++ [x], accepted := m.accepted + 1 }
            State.mgApply r owner wide rest ((s.mgSet r m).count r.part 8 1)

/-- The core's queue after a put's arrival, with the records of refusals: a refused put and a refused run write (R281, R288).
The address of a refused put is left open; its LANE is 0xFFFF, as no sector tells its lowest lane (DESIGN CHOICE, log 130). -/
def State.putDone (s : State) (c : Nat) (p : Put) (fate : PutFate) (bad : Option (BitVec 8 × Nat)) : State :=
  let k := s.core c
  let drop := k.puts.filter fun x => decide (x.id ≠ p.id)
  let fault := fun (va : Nat) => (⟨p.id, p.slot, p.seq, p.pc, 0x17, va / 32 * 32, noLane, false, []⟩ : Refused)
  match fate with
  | .done => s.setCore c { k with puts := drop }
  | .refused =>
    ({ s with free := s.free + 1 } : State).setCore c
      { k with puts := drop, refused := k.refused ++ [fault (Config.freeNat s.free)] }
  | .held rest =>
    ({ s with nextId := s.nextId + 1 } : State).setCore c
      { k with
        puts := k.puts.map fun x => if x.id = p.id then { x with ents := rest, held := x.held.or (some s.nextId) } else x
        refused := k.refused ++ match bad with | some (_, va) => [fault va] | none => [] }

/-- The oldest put of a core that is not held arrives at its unit. -/
def execMorainePutArrival (core : Nat) (s : State) : Out :=
  match (s.core core).puts.find? fun p => p.held.isNone with
  | none => .refused .eventNotDue
  | some p =>
    match p.ref with
    | none => .next (s.putDone core p .refused none).bump
    | some r =>
      if !(s.unitReached (reqTag core 0 p.slot p.seq).toNat p.slice) then .refused .eventNotDue
      else
      let (s', fate, bad) := State.mgApply r p.id p.wide p.ents s
      remoteGate s s' p.id (.refused .eventNotDue) fun s =>
        let s := s.putDone core p fate bad
        .next (s.setCore core (s.core core).freeSlots.poll).bump

/-- Held puts of a session on every core, in the order the unit held them. -/
def State.heldPuts (s : State) (r : MgRef) : List (Nat × Put) :=
  let all := (List.range s.cores.length).flatMap fun c =>
    let k := s.core c
    (k.puts.filter fun p => p.held.isSome && p.isOf r).map fun p => (c, p)
  all.foldl (fun xs x => ins x xs) []
where
  ins (x : Nat × Put) : List (Nat × Put) → List (Nat × Put)
    | [] => [x]
    | y :: ys => if x.2.held.getD 0 < y.2.held.getD 0 then x :: y :: ys else y :: ins x ys

/-- Held entries are accepted in their order once the session is in STATE 1 again (R288). -/
def State.mgResume (s : State) (r : MgRef) (owner : Nat) : State :=
  (s.heldPuts r).foldl (fun s (x : Nat × Put) =>
    match s.mgFind r with
    | none => s
    | some m =>
      if m.state ≠ 1 then s
      else
        let (s, fate, bad) := State.mgApply r owner x.2.wide x.2.ents s
        let s := s.putDone x.1 x.2 fate bad
        s.setCore x.1 (s.core x.1).freeSlots.poll) s

/-! ## Instructions (R282 to R284, R289, R290, R292) -/

/-- A team-wide instruction of major 0x38: it takes a SEQ where its handle names a descriptor (R328). -/
def mgOp (f : MgF) (rds : List RegRef) (act : Cx → Option MgRef → Out) (s : State) : Out :=
  issue s (fun cx => cx.onceReads f.c rds) (fun cx => if cx.takes f.c then [.g f.d.toNat] else []) fun cx =>
    if !(cx.takes f.c) then .next (cx.next s f.b.len)
    else act cx ((cx.k.lslotOf cx.slot).bind fun l => s.mgRef l f.h.toNat)

/-- An instruction that sends a request goes on once its SEQ is free (R328) and the unit can be reached (R4), before it changes anything. -/
def Cx.mgGo (s : State) (cx : Cx) (r : Option MgRef) (k : Out) : Out := match r with
  | some r => if !(cx.seqFree s) || !(s.unitReached (reqTag cx.c cx.q cx.slot 0).toNat r.slice) then stall s reasonMemory else k
  | none => k

/-- Ends with a result, taking the SEQ of a request sent. -/
def Cx.mgResult (s : State) (cx : Cx) (f : MgF) (sent : Bool) (r : Nat) : Out :=
  let cx := { cx with k := s.core cx.c }
  let cx := if sent then cx.takeSeq s 0 else cx
  .next (cx.write s f.b.len [.g f.d.toNat (BitVec.ofNat 64 r)])

/-- A well-formed session descriptor (R279). -/
def TDesc.mgWf (d : TDesc) : Bool :=
  decide (d.kind = 0x10 ∧ d.ety ≤ 2 ∧ d.field 2 6 = 0 ∧ d.field 28 4 = 0 ∧ d.rows ≥ 1 ∧ d.cols ≥ 1) &&
    decide (d.base % 32 = 0 ∧ d.field 40 8 % 32 = 0 ∧ d.field 48 8 % 32 = 0 ∧ d.field 56 8 % 64 = 0)

/-- The fresh session of a descriptor. -/
def mgFresh (r : MgRef) (d : TDesc) : MgSess :=
  { part := r.part, q := r.q, idx := r.idx, asid := r.asid, sdom := r.sdom, handle := r.h, state := 1, ety := d.ety
    out := d.base, outlen := d.field 32 8, rows := d.rows, cols := d.cols, cap := d.field 24 4, result := d.field 56 8, ents := []
    regions := if d.field 48 8 = 0 then [] else [⟨d.field 40 8, d.field 48 8, 0, true⟩]
    runs := [], nruns := 0, seqs := [], accepted := 0, dropped := 0, flags := 0, outcome := 0, need := 0, drain := none }

/-- The context of an instruction that traps at issue: it has taken no SEQ, unless it had to wait for other devices (R328). -/
def Cx.noSeq (cx before : Cx) : Cx :=
  if (cx.k.midway? cx.x).isSome then cx else { cx with t := { cx.t with seq := before.t.seq, flying := before.t.flying } }

/-- `mgopen`: a release, the descriptor's read with its acquire, the checks in their order. -/
def execMgopen (f : MgF) (s : State) : Out :=
  mgOp f [] (fun cx r =>
    cx.waitPoint s .core <| cx.mgGo s r (
      match r with
      | none => cx.mgResult s f false 3
      | some r =>
        let on := cx.takeSeq s 0
        let s0 := s.setCore on.c on.core
        let got := s0.homeReadAt { s0.identOf cx.c cx.slot with owner := cx.owner s } r.desc 64
        on.gate s got.1 fun on s =>
        match got.2 with
        | .inr (cls, va) =>
          let e : Refused := ⟨s.nextId, on.slot, on.seq, on.x.pc, cls, va / 32 * 32, noLane, false, []⟩
          let on := { on with k := { on.k with refused := on.k.refused ++ [e] } }
          .next (on.write { s with nextId := s.nextId + 1 } f.b.len [.g f.d.toNat 3])
        | .inl bs =>
          let d : TDesc := ⟨leBytes bs⟩
          let outlen := d.field 32 8
          let spill := d.field 40 8
          let spilllen := d.field 48 8
          let result := d.field 56 8
          let s := s.acquire cx.c
          let trap := fun (va : Nat) =>
            Host.Outcome.next ((({ on with k := s.core on.c } : Cx).noSeq cx).trap s 0x04 0 noLane (BitVec.ofNat 64 va) 0)
          if !d.mgWf then on.mgResult s f false 3
          else if outlen ≠ 0 ∧ !(cx.k.leaseOk cx.slot d.base outlen false true) then trap d.base
          else if spilllen ≠ 0 ∧ !(cx.k.leaseOk cx.slot spill spilllen true true) then trap spill
          else if result ≠ 0 ∧ !(cx.k.leaseOk cx.slot result 64 false true) then trap result
          else
            match s.mgFind r with
            | some m => if m.state = 5 then on.mgResult (s.mgSet r (mgFresh r d)) f false 0 else on.mgResult s f false 1
            | none =>
              let sl := s.slice r.slice
              if sl.mg.length ≥ 16 then on.mgResult s f false 2
              else on.mgResult (s.setSlice r.slice { sl with mg := sl.mg ++ [mgFresh r d] }) f false 0)) s

/-- `mgput` (R285): one entry per lane taking part, in one slot of the put queue until each is accepted, held or refused. -/
def execMgput (f : MgF) (s : State) : Out :=
  issue s
    (fun cx => cx.predRefs f.c ++ (cx.part f.c).flatMap fun L =>
      regRefs false L f.x f.d ++ regRefs false L false f.a ++ f.b.refs false L false ++ regRefs false L false f.cc)
    (fun _ => []) fun cx =>
      let ls := cx.part f.c
      if cx.acqBusy then stall s reasonAcquire
      else if ls.isEmpty then .next (cx.next s f.b.len)
      else if (cx.k.puts.filter fun p => p.held.isNone).length ≥ 64 then stall s reasonEngine
      else if !(cx.seqFree s) then stall s reasonMemory
      else
        let cx := cx.takeSeq s (maskOf ls)
        let ents := ls.map fun L =>
          (L, BitVec.ofNat 32 (cx.v.rd false L false f.a), BitVec.ofNat 32 (cx.bval false L false .n f.b),
            BitVec.ofNat 32 (cx.v.rd false L false f.cc), BitVec.ofNat 64 (cx.v.rd false L f.x f.d))
        let l := cx.k.lslotOf cx.slot
        let p : Put := { id := s.nextId, slot := cx.slot, seq := cx.t.seq, pc := cx.x.pc
                         slice := match l.bind fun l => s.mgRef l f.h.toNat with | some r => r.slice | none => 12
                         part := match l with | some l => l.part | none => 0, q := match l with | some l => l.q | none => 0
                         idx := match l with | some l => l.idx | none => 0, handle := f.h.toNat, wide := f.x, ents := ents, held := none }
        .next (({ cx with k := { cx.k with puts := cx.k.puts ++ [p] } } : Cx).next { s with nextId := s.nextId + 1 } f.b.len)

/-- `mgclose` (R290): the release does not wait for puts that the session itself holds in STATE 2. -/
def execMgclose (f : MgF) (s : State) : Out :=
  mgOp f [] (fun cx r =>
    let free := fun (p : Put) => match r with
      | some r => p.held.isSome && p.isOf r && (match s.mgFind r with | some m => decide (m.state = 2) | none => false)
      | none => false
    cx.waitPointBut s .core free <| cx.mgGo s r (
      let s := s.setCore cx.c cx.k
      match r with
      | none => cx.mgResult s f false 1
      | some r =>
        match s.mgFind r with
        | some m => if m.state = 1 then cx.mgResult (s.mgSet r { m with state := 3 }) f true 0 else cx.mgResult s f true 1
        | none => cx.mgResult s f true 1)) s

/-- The team of a drain is saved: its core is given as 384 plus the frame of its block, and it goes on after the resume (R295). -/
def MgSess.drainParked (m : MgSess) : Bool :=
  match m.drain with
  | some (c, _, _, _, _) => decide (c ≥ 384)
  | none => false

/-- A drain of a team has ended: the dump keeps its status (R353). -/
def Core.drainEnded (k : Core) (slot : Nat) (seq : BitVec 16) (st : Word) : Core :=
  match k.team? slot with
  | none => k
  | some t =>
    (k.setTeam slot { t with drains := t.drains.filter fun d => decide (d.1 ≠ seq) }).liveStatus t.block (drainName slot seq) st

/-- Writes the status of an ended drain to its team; one that is saved finds it when it resumes. -/
def State.drainStatus (s : State) (m : MgSess) (code : Nat) (fault : Option (BitVec 8 × Nat)) (ranges : List (Nat × Nat)) : State :=
  match m.drain with
  | none => s
  | some (c, slot, seq, pc, gd) =>
    if c ≥ 384 then
      { s with parked := s.parked.map fun (p : Parked) =>
          if p.part = m.part ∧ p.q = m.q % 256 ∧ p.idx = m.idx ∧ p.frame = c - 384 then { p with drains := p.drains ++ [(slot, gd, code)] } else p }
    else
      let k := s.core c
      let x : Session :=
        { id := 0, kind := .cp 0 0 0, ds := false, ss := false, major := 0x38, minor := 3, slot := slot, block := 0, lslot := 0
          seq := seq, pc := pc, dest := [.g gd], bar := none, barBlk := 0, tbar := none, mute := false, ranges := [], done := 0, codes := []
          fault := none, wrote := [], arriving := false }
      let k := k.drainEnded slot seq (BitVec.ofNat 32 code)
      let k := k.writeStatus x [code] ranges
      let k := match fault with
        | some (cls, va) => { k with refused := k.refused ++ [(⟨s.nextId, slot, seq, pc, cls, va / 32 * 32, noLane, true, []⟩ : Refused)] }
        | none => k
      ({ s with nextId := s.nextId + 1 } : State).setCore c k.freeSlots.poll

/-- Discards a session: its held puts count as accepted, a drain ends as cancelled (R280, R290). -/
def State.mgDiscard (s : State) (r : MgRef) (m : MgSess) : State :=
  let s := s.mgDrop r
  let s := (s.heldPuts r).foldl (fun s (x : Nat × Put) =>
    let k := s.core x.1
    s.setCore x.1 ({ k with puts := k.puts.filter fun y => decide (y.id ≠ x.2.id) } : Core).freeSlots.poll) s
  if m.state = 4 then s.drainStatus m 2 none [] else s

/-- A session of a unit, as a launch's handle names it. -/
def MgSess.ref (m : MgSess) (slice : Nat) : MgRef := ⟨0, slice, m.part, m.q, m.idx, m.asid, m.sdom, m.handle⟩

def execMgcloseAbort (f : MgF) (s : State) : Out :=
  mgOp f [] (fun cx r => cx.mgGo s r (
    match r with
    | none => cx.mgResult s f false 1
    | some r =>
      match s.mgFind r with
      | none => cx.mgResult (s.setCore cx.c cx.k) f true 1
      | some m =>
        -- the session goes first, so that a cancelled drain's status stands in the team before gD is written
        let s := (s.setCore cx.c cx.core).mgDiscard r m
        let k := s.core cx.c
        let t := (k.team? cx.slot).getD cx.t
        ({ cx with k := k, x := k.entry cx.q cx.e, t := t } : Cx).mgResult s f true 0)) s

/-- `mgadd` (R289): `x` is `.out`. -/
def execMgadd (f : MgF) (s : State) : Out :=
  mgOp f ([.g f.a.toNat] ++ f.b.refs true 0 true) (fun cx r =>
    let base := (cx.v.rg f.a.toNat).toNat
    let len := cx.bval true 0 true .n f.b
    let s := s.setCore cx.c cx.k
    if base % 32 ≠ 0 ∨ len % 32 ≠ 0 ∨ len = 0 then cx.mgGo s r (cx.mgResult s f r.isSome 5)
    else if !(cx.k.leaseOk cx.slot base len (!f.x) true) then .next (cx.trap s 0x04 0 noLane (BitVec.ofNat 64 base) 0)
    else cx.mgGo s r (
      match r with
      | none => cx.mgResult s f false 1
      | some r =>
        match s.mgFind r with
        | none => cx.mgResult s f true 1
        | some m =>
          if m.state = 4 ∨ m.state = 5 then cx.mgResult s f true 1
          else if !f.x ∧ m.regions.length ≥ 8 then cx.mgResult s f true 4
          else
            let m := if f.x then { m with out := base, outlen := len } else { m with regions := m.regions ++ [⟨base, len, 0, true⟩] }
            if m.state ≠ 2 then cx.mgResult (s.mgSet r m) f true 0
            else
              let held := s.heldPuts r
              let owner := cx.owner s
              let s0 := s
              let on := cx.takeSeq s 0
              let s := s.setCore on.c on.core
              let (s, m, bad) := s.mgSpill (m.ident s owner) m
              let s := s.mgSet r m
              let s := match bad, held with
                | some _, (c, p) :: _ => s.putDone c p (.held p.ents) bad
                | _, _ => s
              let s := if m.state = 1 then s.mgResume r owner else s
              on.gate s0 s fun on s => on.mgResult s f false 0)) s

/-- The session status word (R292). -/
def MgSess.word (m : MgSess) : Nat :=
  m.nruns % 2 ^ 16 * 2 ^ 48 + m.ents.length % 2 ^ 24 * 2 ^ 24 + m.regions.length * 2 ^ 16 + m.flags.toNat * 2 ^ 8 + m.outcome * 2 ^ 4 + m.state

/-- A value of `mgst` (R292). -/
def MgSess.select (m : MgSess) (sel : Nat) : Nat :=
  match sel with
  | 0 => m.word
  | 1 => m.accepted
  | 2 => m.dropped
  | 3 => (m.regions.map (·.used)).sum
  | 4 => ((m.regions.filter (·.ok)).map fun r => r.len - r.used).sum
  | _ => if m.outcome = 3 then m.need else 0

def execMgst (f : MgF) (s : State) : Out :=
  mgOp f [] (fun cx r =>
    let s := s.setCore cx.c cx.k
    match r with
    | none => cx.mgResult s f false 0
    | some r => cx.mgGo s (some r) <| cx.mgResult s f true (match s.mgFind r with | some m => m.select f.cc.toNat | none => 0)) s

/-- `mgdrain` (R291): a release, then the drain starts; in any state but 3 it ends at once with OUTCOME 5. -/
def execMgdrain (f : MgF) (s : State) : Out :=
  mgOp f [] (fun cx r =>
    cx.waitPoint s .core <| cx.mgGo s r (
      let s := s.setCore cx.c cx.k
      match r with
      | none => cx.mgResult s f false 0
      | some r =>
        match s.mgFind r with
        | none => cx.mgResult s f true 0
        | some m =>
          if m.state ≠ 3 then cx.mgResult (s.mgSet r { m with outcome := 5 }) f true 0
          else
            let cx := cx.takeSeq s 0
            let s := s.mgSet r { m with state := 4, drain := some (cx.c, cx.slot, cx.t.seq, cx.x.pc, f.d.toNat) }
            let dest := [RegRef.g f.d.toNat]
            let cx := { cx with
              k := s.core cx.c
              t := { cx.t with busy := cx.t.busy ++ dest, joins := joinsWithout cx.t.joins dest, drains := cx.t.drains ++ [(cx.t.seq, f.d.toNat)] } }
            .next (cx.next s f.b.len))) s

/-! ## The drain (R291) -/

/-- The entries of a run, or none where its header or order breaks R288. -/
def mgParse (wide : Bool) (idx n : Nat) (x : List Byte) : Option (List MgEnt) :=
  let num := fun at0 k => leBytes ((x.drop at0).take k)
  let s := mgEntLen wide
  let es := (List.range n).map fun i =>
    let o := 32 + s * i
    (⟨BitVec.ofNat 32 (num o 4), BitVec.ofNat 32 (num (o + 4) 4), num (o + 11) 1, num (o + 8) 3,
      if wide then BitVec.ofNat 64 (num (o + 16) 8) else BitVec.ofNat 64 (num (o + 12) 4)⟩ : MgEnt)
  let ordered := (es.zip (es.drop 1)).all fun p => decide (mgKey p.1 < mgKey p.2)
  if num 0 4 = 0x4D470001 ∧ num 4 4 = n ∧ num 8 4 = idx ∧ num 12 4 = s ∧ num 16 16 = 0 ∧ ordered then some es else none

/-- Reads every run of a session: entries by run, a malformed run, the first refusal. -/
def State.mgRuns (s : State) (id : Ident) (m : MgSess) : State × List MgEnt × Bool × Option (BitVec 8 × Nat) :=
  (m.runs.mapIdx fun i r => (i, r)).foldl (fun (st : State × List MgEnt × Bool × Option (BitVec 8 × Nat)) (x : Nat × Nat × Nat × Nat) =>
    let base := (m.regions[x.2.1]?.getD ⟨0, 0, 0, false⟩).base + x.2.2.1
    match st.1.homeReadAt id base (mgRunLen m.wide x.2.2.2) with
    | (s, .inr bad) => (s, st.2.1, st.2.2.1, st.2.2.2.or (some bad))
    | (s, .inl bs) =>
      match mgParse m.wide x.1 x.2.2.2 bs with
      | none => (s, st.2.1, true, st.2.2.2)
      | some es => (s, st.2.1 ++ es, st.2.2.1, st.2.2.2)) (s, [], false, none)

/-- Combines two values (R43). -/
def mgCombine (ety : Nat) (a b : Nat) : Nat :=
  match ety with
  | 0 => (Fmt.f32.arith .add {} a b 0).bits
  | 1 => (Fmt.f64.arith .add {} a b 0).bits
  | _ => (a + b) % 2 ^ 32
/-- The first value, with a NaN made canonical. -/
def mgFirst (ety : Nat) (a : Nat) : Nat :=
  match ety with
  | 0 => if (Fmt.f32.decode a).isNaN then Fmt.f32.nan else a
  | 1 => if (Fmt.f64.decode a).isNaN then Fmt.f64.nan else a
  | _ => a

/-- Distinct keys of sorted entries with their combined values: row, column, value. -/
def mgMerge (ety : Nat) (es : List MgEnt) : List (Nat × Nat × Nat) :=
  (es.foldl (fun (out : List (Nat × Nat × Nat)) e =>
    match out with
    | (r, c, v) :: rest =>
      if r = e.row.toNat ∧ c = e.col.toNat then (r, c, mgCombine ety v e.val.toNat) :: rest
      else (e.row.toNat, e.col.toNat, mgFirst ety e.val.toNat) :: out
    | [] => [(e.row.toNat, e.col.toNat, mgFirst ety e.val.toNat)]) []).reverse

/-- The image of a matrix's elements (R275, R276): bytes, and NTR, NT, NRW, NE. -/
def mgImage (wide : Bool) (xs : List (Nat × Nat × Nat)) : List Byte × Nat × Nat × Nat × Nat :=
  let w := if wide then 8 else 4
  let dedup := fun (l : List Nat) => l.foldl (fun o x => if o.contains x then o else o ++ [x]) []
  let asc := fun (l : List Nat) => (dedup l).foldl (fun xs x => insertAsc x xs) []
  let trow := asc (xs.map fun x => x.1 / 32)
  -- tiles by tile row, then rows by tile, then elements by row
  let tiles := trow.flatMap fun t => (asc ((xs.filter fun x => decide (x.1 / 32 = t)).map fun x => x.2.1 / 32)).map fun u => (t, u)
  let inTile := fun (p : Nat × Nat) => xs.filter fun x => decide (x.1 / 32 = p.1 ∧ x.2.1 / 32 = p.2)
  let rows := tiles.flatMap fun p => (asc ((inTile p).map fun x => x.1 % 32)).map fun r => (p, r)
  let elems := rows.flatMap fun q => (inTile q.1).filter fun x => decide (x.1 % 32 = q.2)
  let starts := fun (counts : List Nat) => counts.foldl (fun o n => o ++ [o.getLast?.getD 0 + n]) [0]
  let trowp := starts (trow.map fun t => (tiles.filter fun p => decide (p.1 = t)).length)
  let tcolp := starts (tiles.map fun p => (rows.filter fun q => decide (q.1 = p)).length)
  let lrowp := starts (rows.map fun q => ((inTile q.1).filter fun x => decide (x.1 % 32 = q.2)).length)
  let pad := fun (bs : List Byte) => bs ++ List.replicate (al32 bs.length - bs.length) 0
  let w4 := fun (l : List Nat) => pad (l.flatMap (toLeBytes 4))
  let w1 := fun (l : List Nat) => pad (l.map (BitVec.ofNat 8))
  (w4 trow ++ w4 trowp ++ w4 (tiles.map (·.2)) ++ w4 tcolp ++ w1 (rows.map (·.2)) ++ w4 lrowp ++ w1 (elems.map fun x => x.2.1 % 32) ++
    pad (elems.flatMap fun x => toLeBytes w x.2.2), trow.length, tiles.length, rows.length, elems.length)

/-- The KIND 0x03 descriptor of a result (R223, R277). -/
def mgResultDesc (m : MgSess) (ntr nt nrw ne extent : Nat) : List Byte :=
  [0x03, BitVec.ofNat 8 m.ety] ++ List.replicate 6 0 ++ toLeBytes 8 m.out ++ toLeBytes 4 m.rows ++ toLeBytes 4 m.cols ++ toLeBytes 8 0 ++
    toLeBytes 4 ntr ++ toLeBytes 4 nt ++ toLeBytes 4 nrw ++ toLeBytes 4 ne ++ toLeBytes 8 extent ++ toLeBytes 8 0

/-- What a drain leaves: the session, CODE, the refusal, the ranges written (R291). -/
def State.drainRun (s : State) (id : Ident) (m : MgSess) : State × MgSess × Nat × Option (BitVec 8 × Nat) × List (Nat × Nat) :=
  let (s, es, broken, bad) := s.mgRuns id m
  match bad with
  | some b => (s, { m with outcome := 6, state := 3 }, 1, some b, [])
  | none =>
    if broken then (s, { m with outcome := 4, state := 3 }, 0, none, [])
    else
      let (img, ntr, nt, nrw, ne) := mgImage m.wide (mgMerge m.ety (mgSort (es ++ m.ents)))
      if img.length > m.outlen then (s, { m with outcome := 3, state := 3, need := img.length }, 0, none, [])
      else
        let (s, bad) := s.homeWrite id m.out img
        let (s, bad') := if m.result = 0 then (s, none) else s.homeWrite id m.result (mgResultDesc m ntr nt nrw ne img.length)
        let wrote := (m.out, img.length) :: if m.result = 0 then [] else [(m.result, 64)]
        match bad.or bad' with
        | some b => (s, { m with outcome := 6, state := 3 }, 1, some b, wrote)
        | none => (s, { m with outcome := 1, state := 5, ents := [], regions := [], runs := [] }, 0, none, wrote)

/-- A drain ends: it reads every run, merges, writes the image and the result's descriptor, and reports. -/
def execDrainEnd (slice idx : Nat) (s : State) : Out :=
  match (s.slice slice).mg[idx]? with
  | none => .refused .eventNotDue
  | some m =>
    match m.drain with
    | none => .refused .eventNotDue
    | some (c, slot, seq, _, _) =>
      if m.state ≠ 4 ∨ m.drainParked ∨ !(s.unitReached noTag slice) then .refused .eventNotDue
      else
        let owner := 2 ^ 62 + (64 * c + slot) * 65536 + seq.toNat
        let (s', x, code, fault, ranges) := s.drainRun (m.ident s owner) m
        remoteGate s s' owner (.refused .eventNotDue) fun s =>
          let sl := s.slice slice
          let s := s.setSlice slice { sl with mg := sl.mg.set idx { x with drain := none } }
          .next (s.drainStatus m code fault ranges).bump

end Sys2Proof.Machine
end

