-- ==== Sys2Proof/Machine/Walk.lean ====
section
/-! DEFINITION. Walks of the stacks' walk engines (R320 to R326), hop by hop, and the cancellation of a block's sessions (R203,
R345). -/

namespace Sys2Proof.Machine

/-! ## Starting walks (R322, R324) -/

/-- The three destination registers of a lane. -/
def walkDest (L d : Nat) : List RegRef := [.v L d, .v L (d + 1), .v L (d + 2)]

/-- Starts one walk per lane taking part: each takes a walk slot of the core. -/
def walkOp (f : WalkF) (kind : WalkKind) (s : State) : Out :=
  issue s
    (fun cx => cx.predRefs f.c ++ (cx.part f.c).flatMap fun L =>
      regRefs false L true f.a ++ f.b.refs false L false ++ regRefs false L false f.cc)
    (fun cx => (cx.part f.c).flatMap fun L => walkDest L f.d.toNat) fun cx =>
      let ls := cx.part f.c
      if ls.isEmpty then .next (cx.next s f.b.len)
      else if cx.k.walks.length + ls.length > 1024 then stall s reasonEngine
      else if !(cx.seqFree s) then stall s reasonMemory
      else
        let cx := cx.takeSeq s (maskOf ls)
        let desc := match cx.k.lslotOf cx.slot with | some l => l.htab[f.h.toNat]?.getD 0 | none => 0
        let id := s.identOf cx.c cx.slot
        let p := s.part id.part
        let ws := ls.mapIdx fun i L =>
          let x := cx.v.rd false L true f.a
          let n := cx.v.rd false L false f.cc
          let rnd := decide (kind = .rnd)
          ({ id := s.nextId + i, kind := kind, slot := cx.slot, block := cx.t.block, lslot := cx.k.lslotNo cx.slot, lane := L
             seq := cx.t.seq, pc := cx.x.pc, dreg := f.d.toNat, x := BitVec.ofNat 64 (if rnd then x % 2 ^ 32 else x)
             wid := BitVec.ofNat 32 (x / 2 ^ 32)
             b := BitVec.ofNat 32 (cx.bval false L false (if kind = .chase then .s else .n) f.b)
             n := n, lo := 0, hi := n, last := none, h := 0, desc := desc, hdr := none, got := [], away := none
             slice := homeSlice p.first p.size (if rnd then desc else x), mute := false } : Walk)
        let dest := ls.flatMap fun L => walkDest L f.d.toNat
        let cx := { cx with
          k := { cx.k with walks := cx.k.walks ++ ws }
          t := { cx.t with busy := cx.t.busy ++ dest, joins := joinsWithout cx.t.joins dest } }
        .next (cx.next { s with nextId := s.nextId + ls.length } f.b.len)

def execWalkChase (f : WalkF) : State → Out := walkOp f .chase
def execWalkRnd (f : WalkF) : State → Out := walkOp f .rnd
def execWalkSeek (f : WalkF) : State → Out := walkOp f .seek

/-! ## Hops (R324 to R326) -/

/-- The published mixing function (R325). -/
def walkMix (seed id : Word) (h : Nat) : DWord :=
  let z := ((seed.setWidth 64) <<< 32) + id.setWidth 64 + BitVec.ofNat 64 (h + 1) * 0x9E3779B97F4A7C15
  let z := (z ^^^ (z >>> 30)) * 0xBF58476D1CE4E5B9
  let z := (z ^^^ (z >>> 27)) * 0x94D049BB133111EB
  z ^^^ (z >>> 31)

/-- The result register and the status word of a walk with a code (R323, R324). -/
def Walk.res (w : Walk) : DWord :=
  match w.kind with
  | .seek => BitVec.ofNat 64 w.lo
  | _ => w.x
def Walk.status (w : Walk) (code : Nat) : Word :=
  let found := decide (w.kind = .seek) && decide (code ≠ 4) && decide (w.last = some w.b)
  BitVec.ofNat 32 (w.h * 2 ^ 16 + (if found then 128 else 0) + code)

/-- A walk's state in a request to another device; the model's own layout (assumption 32). -/
def Walk.pack (w : Walk) : Nat :=
  let kind := match w.kind with | .chase => 0 | .rnd => 1 | .seek => 2
  let last := match w.last with | some x => x.toNat + 2 ^ 32 | none => 0
  let hdr := match w.hdr with | some x => x + 2 ^ 512 | none => 0
  kind + 2 ^ 8 * w.x.toNat + 2 ^ 72 * w.wid.toNat + 2 ^ 104 * w.b.toNat + 2 ^ 136 * w.n + 2 ^ 168 * w.lo + 2 ^ 208 * w.hi + 2 ^ 248 * last +
    2 ^ 288 * w.h + 2 ^ 320 * w.desc + 2 ^ 384 * w.got.length + 2 ^ 386 * w.got.headD 0 + 2 ^ 450 * w.got[1]?.getD 0 + 2 ^ 514 * hdr

/-- The walk of a packed state. -/
def Walk.unpack (x : Nat) : Walk :=
  let f := fun (off n : Nat) => x / 2 ^ off % 2 ^ n
  { id := 0, kind := if f 0 8 = 0 then .chase else if f 0 8 = 1 then .rnd else .seek, slot := 0, block := 0, lslot := 0, lane := 0, seq := 0, pc := 0
    dreg := 0, x := BitVec.ofNat 64 (f 8 64), wid := BitVec.ofNat 32 (f 72 32), b := BitVec.ofNat 32 (f 104 32), n := f 136 32, lo := f 168 40
    hi := f 208 40, last := if f 280 1 = 1 then some (BitVec.ofNat 32 (f 248 32)) else none, h := f 288 32, desc := f 320 64
    hdr := if f 1026 1 = 1 then some (f 514 512) else none
    got := (List.range (f 384 2)).map fun i => f (386 + 64 * i) 64, away := none, slice := 0, mute := false }

/-- What one step of a walk comes to. -/
inductive WalkStep
  | go (w : Walk)
  | stop (w : Walk) (code : Nat)
  | fault (w : Walk) (cls : BitVec 8) (va : Nat)
  /-- The next read's home: another slice, or another device. -/
  | forward (slice : Nat)
  | leave (dev va : Nat)

/-- A session read of a walk, checked against the lease records of its launch, which another device issued when `dev` names one
(R320, R326): the value, or what ends the step. -/
def State.walkRead (s : State) (dev : Option Nat) (w : Walk) (id : Ident) (va n : Nat) : State × Sum Nat WalkStep :=
  let (q, idx) := id.lease.getD (0, 0)
  match s.home id.part va with
  | .away dev _ => (s, .inr (.leave dev va))
  | .here i =>
    if !((s.slice i).leaseCovers dev q idx (sharedVa va) (id.dom va) va n true false) then (s, .inr (.stop w 7))
    else
      match s.homeNat id va n with
      | (s, .inr cls) => (s, .inr (.fault w cls va))
      | (s, .inl x) => (s, .inl x)

/-- Runs a read and goes on with its value. -/
def walkThen (r : State × Sum Nat WalkStep) (k : State → Nat → State × WalkStep) : State × WalkStep :=
  match r with
  | (s, .inr x) => (s, x)
  | (s, .inl v) => k s v

/-- A well-formed descriptor of KIND 0x20 (R321). -/
def TDesc.graphWf (d : TDesc) : Bool :=
  decide (d.kind = 0x20 ∧ d.field 1 7 = 0 ∧ d.field 20 4 = 0 ∧ d.field 40 24 = 0 ∧ d.field 8 8 % 8 = 0 ∧ d.field 24 8 % 4 = 0)

/-- The neighbour a random walk goes to, in COLIDX, from the row pointers of its vertex (R324, R325). -/
def Walk.choice (w : Walk) (a e : Nat) : Nat := a + (walkMix w.b w.wid w.h).toNat * (e - a) / 2 ^ 64

/-- What a random walk reads next at its present vertex: a row pointer, the next one, then a neighbour. -/
def Walk.vertexVa (w : Walk) (d : TDesc) : Option Nat :=
  if w.x.toNat ≥ d.field 16 4 then none
  else match w.got with
    | [] => some ((d.field 8 8 + 8 * w.x.toNat) % 2 ^ 64)
    | [_] => some ((d.field 8 8 + 8 * w.x.toNat + 8) % 2 ^ 64)
    | a :: e :: _ => if e ≤ a ∨ e > d.field 32 8 then none else some ((d.field 24 8 + 4 * w.choice a e) % 2 ^ 64)

/-- The address whose home a walk needs next; none where it reads nothing. -/
def Walk.nextVa (w : Walk) : Option Nat :=
  match w.kind with
  | .chase => if w.h < w.n ∧ w.n ≤ 65535 ∧ w.x ≠ 0 then some (w.x + w.b.signExtend 64).toNat else none
  | .rnd =>
    if w.n > 65535 ∨ w.h ≥ w.n then none
    else match w.hdr with
      | none => if w.desc = 0 then none else some w.desc
      | some x => w.vertexVa ⟨x⟩
  | .seek => if w.lo < w.hi ∧ w.x.toNat % 4 = 0 then some ((w.x.toNat + 4 * ((w.lo + w.hi) / 2)) % 2 ^ 64) else none

/-- One read (R324): a pointer, a row pointer or neighbour of a vertex, or a probe of the list; what it brings the walk to. -/
def State.walkStep (s : State) (dev : Option Nat) (w : Walk) (id : Ident) : State × WalkStep :=
  let rd := fun (s : State) (va n : Nat) => s.walkRead dev w id (va % 2 ^ 64) n
  match w.kind with
  | .chase =>
    if w.n > 65535 then (s, .stop w 6)
    else if w.h ≥ w.n then (s, .stop w 0)
    else if w.x = 0 then (s, .stop w 3)
    else
      let a := (w.x + w.b.signExtend 64).toNat
      if a % 8 ≠ 0 then (s, .stop w 4)
      else walkThen (rd s a 8) fun s v =>
        let w := { w with h := w.h + 1 }
        if v = 0 then (s, .stop w 3) else (s, .go { w with x := BitVec.ofNat 64 v })
  | .rnd =>
    if w.n > 65535 then (s, .stop w 6)
    else if w.h ≥ w.n then (s, .stop w 0)
    else
      match w.hdr with
      | none =>
        if w.desc = 0 then (s, .stop w 5)
        else walkThen (rd s w.desc 64) fun s v =>
          if (⟨v⟩ : TDesc).graphWf then (s, .go { w with hdr := some v }) else (s, .stop w 5)
      | some x =>
        let d : TDesc := ⟨x⟩
        match w.vertexVa d with
        | none =>
          match w.got with
          | [a, e] => if e = a ∧ e ≤ d.field 32 8 then (s, .stop w 3) else (s, .stop w 4)
          | _ => (s, .stop w 4)
        | some va =>
          match w.got with
          | _ :: _ :: _ => walkThen (rd s va 4) fun s v => (s, .go { w with x := BitVec.ofNat 64 v, h := w.h + 1, got := [] })
          | _ => walkThen (rd s va 8) fun s v => (s, .go { w with got := w.got ++ [v] })
  | .seek =>
    if w.n > 0 ∧ w.x.toNat % 4 ≠ 0 then (s, .stop w 4)
    else if w.lo ≥ w.hi then (s, .stop w 0)
    else
      let mid := (w.lo + w.hi) / 2
      walkThen (rd s (w.x.toNat + 4 * mid) 4) fun s y =>
        let w := { w with h := w.h + 1 }
        if y < w.b.toNat then (s, .go { w with lo := mid + 1 }) else (s, .go { w with hi := mid, last := some (BitVec.ofNat 32 y) })

/-- Ends a walk: its result and status are written together, unless its lane has retired; a fault goes to its team's record. -/
def State.endWalk (s : State) (c : Nat) (w : Walk) (res : DWord) (status : Word) (fault : Option (BitVec 8 × Nat)) : State :=
  let k := s.core c
  let k := ({ k with walks := k.walks.filter fun y => decide (y.id ≠ w.id) } : Core).liveStatus w.block w.id status
  let dest := walkDest w.lane w.dreg
  let k := match k.team? w.slot with
    | none => k
    | some t =>
      let t' := { t with busy := dest.foldl (fun b r => b.erase r) t.busy }
      if t.mode = TMode.retired ∨ w.mute ∨ !((k.allLanes w.slot t).getLsbD w.lane) then k.setTeam w.slot t'
      else k.setTeam w.slot (t'.put [.v w.lane w.dreg (res.setWidth 32), .v w.lane (w.dreg + 1) (res.extractLsb' 32 32),
        .v w.lane (w.dreg + 2) status])
  let k := match fault with
    | some (cls, va) => { k with refused := k.refused ++ [(⟨w.id, w.slot, w.seq, w.pc, cls, va / 32 * 32, noLane, true, []⟩ : Refused)] }
    | none => k
  s.setCore c k.freeSlots.poll

/-- Replaces a walk. -/
def State.setWalk (s : State) (c : Nat) (w : Walk) : State :=
  let k := s.core c
  s.setCore c { k with walks := k.walks.map fun y => if y.id = w.id then w else y }

/-- A walk follows every earlier access of its fragment (R201, R326). It makes its next hop, is forwarded to the walkers of its next home, crosses the fabric, or ends. A pre-emption stops it at a
hop's boundary (R326, R369); it stays while its Serac group is gated (R4). -/
def execWalkHop (core idx : Nat) (s : State) : Out :=
  let k := s.core core
  match k.walks[idx]? with
  | none => .refused .eventNotDue
  | some w =>
    let quad := match k.team? w.slot with | some t => t.quad | none => 0
    let id := { s.identOf core w.slot with owner := w.id, tag := (reqTag core quad w.slot w.seq).toNat }
    if w.away.isSome ∨ (k.blockStopping w.block ∧ w.got.isEmpty) ∨ k.behind w.id w.slot w.seq ∨ !(s.islandOn (islandSerac + w.slice)) then
      .refused .eventNotDue
    else
      let elsewhere := w.nextVa.bind fun va => match s.home id.part va with
        | .here i => if i = w.slice then none else some i
        | .away _ _ => none
      match elsewhere with
      | some i => .next (s.setWalk core { w with slice := i }).bump
      | none =>
        let (s', r) := s.walkStep none w id
        remoteGate s s' w.id (.refused .eventNotDue) fun s =>
        let hop := fun (w' : Walk) (s : State) => s.count id.part 9 (w'.h - w.h)
        match r with
        | .go w' => .next (hop w' (s.setWalk core w')).bump
        | .stop w' code => .next (hop w' (s.endWalk core w' w'.res (w'.status code) none)).bump
        | .fault w' cls va => .next (s.endWalk core w' w'.res (w'.status 1) (some (cls, va))).bump
        | .forward i => .next (s.setWalk core { w with slice := i }).bump
        | .leave dev va =>
          match s.plane dev va with
          | none => .next (s.endWalk core w w.res (w.status 1) (some (0x16, va))).bump
          | some p =>
            let (num, s) := s.fresh
            .next ((s.setWalk core { w with away := some num }).ask p dev num id 5 va 0 w.pack).bump

/-! ## Cancellation (R203, R345) -/

/-- Every session of a block is cancelled: copies, walks, and drains of its teams. -/
def State.cancelBlock (s : State) (c blk : Nat) : State :=
  let k := s.core c
  let s := (k.sessions.filter fun x => decide (x.block = blk ∧ x.slot ≠ agentSlot)).foldl (fun s x => s.cancelSession c x) s
  let s := (k.walks.filter fun x => decide (x.block = blk ∧ x.slot ≠ agentSlot)).foldl (fun s w => s.endWalk c w w.res (w.status 2) none) s
  let teams := k.teamsOf blk
  (List.range 12).foldl (fun s i =>
    (s.slice i).mg.foldl (fun s m =>
      match m.drain with
      | some (c', slot, _, _, _) =>
        if c' = c ∧ teams.contains slot then
          let sl := s.slice i
          let s := s.setSlice i { sl with mg := sl.mg.map fun x => if x = m then { m with state := 3, drain := none } else x }
          s.drainStatus m 2 none []
        else s
      | none => s) s) s

/-- Sessions of a block still under way: copies of a kind, walks, drains. -/
def State.blockWork (s : State) (c blk : Nat) (f : Session → Bool) : Bool :=
  let k := s.core c
  let teams := k.teamsOf blk
  (k.sessions.any fun x => decide (x.block = blk ∧ x.slot ≠ agentSlot) && f x) || (k.walks.any fun x => decide (x.block = blk ∧ x.slot ≠ agentSlot)) ||
    s.slices.any fun sl => sl.mg.any fun m => match m.drain with
      | some (c', slot, _, _, _) => decide (c' = c) && teams.contains slot
      | none => false

/-- Sessions of a block still under way. -/
def State.blockSessions (s : State) (c blk : Nat) : Bool := s.blockWork c blk fun _ => true

/-- Sessions of a block that can be cancelled: all but those that only arrive. -/
def State.blockCancels (s : State) (c blk : Nat) : Bool := s.blockWork c blk fun x => !x.arriving

/-- Sessions of a block that still run 2^20 clocks after its broadcast are cancelled (R345). -/
def execSessionCancelTimeout (core block : Nat) (s : State) : Out :=
  let k := s.core core
  match k.block? block with
  | none => .refused .eventNotDue
  | some b =>
    match b.bcast with
    | none => .refused .eventNotDue
    | some at0 =>
      if b.acked ∨ k.cyc.toNat < at0 + 2 ^ 20 ∨ !(s.blockCancels core block) then .refused .eventNotDue
      else .next (s.cancelBlock core block).bump

end Sys2Proof.Machine
end

