-- ==== Sys2Proof/Machine/Image.lean ====
section
/-! DEFINITION. Byte images: split-table entries (R127), frames (R337), the deferred-fault record (R330), the operand log
(R336), context areas (R346) and context images (R351), written and read back. -/

namespace Sys2Proof.Machine

/-- n zero bytes. -/
def zeros (n : Nat) : List Byte := List.replicate n 0
/-- The little-endian number at bytes off to off + n - 1. -/
def numAt (bs : List Byte) (off n : Nat) : Nat := leBytes ((bs.drop off).take n)

/-! ## Links, entries and fragment saves (R127, R346) -/

def linkNat : Option Link → Nat
  | none => 0
  | some l => 128 + (if l.serial then 64 else 0) + l.idx
def linkOf (x : Nat) : Option Link := if x / 128 % 2 = 1 then some ⟨decide (x / 64 % 2 = 1), x % 64⟩ else none

def stateNat : EState → Nat
  | .free => 0 | .running => 1 | .waiting => 2 | .record => 3
def stateOf (x : Nat) : EState := match x % 4 with | 0 => .free | 1 => .running | 2 => .waiting | _ => .record

/-- SUMMARY: bit i says that word mask i is not zero (R124). -/
def summary (m : Mask) : Nat := (List.range 32).foldl (fun a i => if m.extractLsb' (32 * i) 32 = 0 then a else a + 2 ^ i) 0

/-- The 160 bytes of a fragment save: entry image, 8 zero bytes, word masks. -/
def Entry.bytes (x : Entry) (slot : Nat) : List Byte :=
  toLeBytes 24 (x.pc.toNat * 2 ^ 128 + (if x.isRec then x.jaddr.toNat else 0) * 2 ^ 64 + summary x.mask * 2 ^ 32 + slot * 2 ^ 24 +
    (if x.isRec then 2 ^ 18 else 0) + stateNat x.st * 2 ^ 16 + linkNat x.outer * 2 ^ 8 + linkNat x.inner) ++
  zeros 8 ++ toLeBytes 128 x.mask.toNat

/-- The entry a fragment save describes; none for a free one. -/
def Entry.ofBytes (bs : List Byte) : Option Entry :=
  let x := numAt bs 0 24
  match stateOf (x / 2 ^ 16) with
  | .free => none
  | st => some { Entry.empty with
      st := st, pc := BitVec.ofNat 56 (x / 2 ^ 128), mask := BitVec.ofNat 1024 (numAt bs 32 128), inner := linkOf (x % 256)
      isRec := decide (x / 2 ^ 18 % 2 = 1), jaddr := BitVec.ofNat 56 (x / 2 ^ 64), outer := linkOf (x / 2 ^ 8 % 256) }

/-- 64 fragment saves, that of entry e at position e. -/
def entriesBytes (es : List (Nat × Entry)) (slot : Nat) : List Byte :=
  (List.range 64).flatMap fun e => match es.find? fun x => decide (x.1 = e) with
    | some x => x.2.bytes slot
    | none => zeros 160
def entriesOf (bs : List Byte) (off : Nat) : List (Nat × Entry) :=
  (List.range 64).filterMap fun e => (Entry.ofBytes ((bs.drop (off + 160 * e)).take 160)).map fun x => (e, x)

/-! ## Frames (R337) -/

def Frame.bytes (f : Frame) : List Byte :=
  toLeBytes 8 f.stopPc.toNat ++ toLeBytes 8 f.resumePc.toNat ++
  [f.cls, f.detail, f.level, (if f.deferred then 1 else 0) + (if f.strict then 2 else 0)] ++
  toLeBytes 2 f.seq.toNat ++ toLeBytes 2 f.lane.toNat ++ toLeBytes 2 f.logn0 ++ toLeBytes 2 f.count0 ++ [BitVec.ofNat 8 f.nfrag] ++
  zeros 3 ++ toLeBytes 8 f.faddr.toNat ++ zeros 24

def Frame.ofBytes (bs : List Byte) : Frame :=
  ⟨BitVec.ofNat 56 (numAt bs 0 8), BitVec.ofNat 56 (numAt bs 8 8), BitVec.ofNat 8 (numAt bs 16 1), BitVec.ofNat 8 (numAt bs 17 1),
    BitVec.ofNat 8 (numAt bs 18 1), decide (numAt bs 19 1 % 2 = 1), decide (numAt bs 19 1 / 2 % 2 = 1), BitVec.ofNat 16 (numAt bs 20 2),
    BitVec.ofNat 16 (numAt bs 22 2), numAt bs 24 2, numAt bs 26 2, numAt bs 28 1, BitVec.ofNat 64 (numAt bs 32 8)⟩

/-! ## The deferred-fault record (R330) -/

def DefRec.bytes (r : DefRec) (logn : Nat) : List Byte :=
  toLeBytes 64 (r.fpc.toNat + r.fva.toNat * 2 ^ 64 + r.cls.toNat * 2 ^ 208 + (if r.valid then 2 ^ 216 else 0) +
    (if r.ovf then 2 ^ 217 else 0) + (if r.sess then 2 ^ 218 else 0) + r.lane.toNat * 2 ^ 222 + logn * 2 ^ 238 + r.count * 2 ^ 247 +
    r.tag.toNat * 2 ^ 263)

def DefRec.ofBytes (bs : List Byte) : DefRec :=
  let x := numAt bs 0 64
  ⟨decide (x / 2 ^ 216 % 2 = 1), decide (x / 2 ^ 217 % 2 = 1), decide (x / 2 ^ 218 % 2 = 1), BitVec.ofNat 8 (x / 2 ^ 208),
    BitVec.ofNat 33 (x / 2 ^ 263), x / 2 ^ 247 % 2 ^ 16, BitVec.ofNat 16 (x / 2 ^ 222), BitVec.ofNat 64 (x / 2 ^ 64), BitVec.ofNat 64 x⟩

/-! ## The operand log (R336) -/

def LogEntry.bytes (e : LogEntry) : List Byte :=
  [e.kind, e.size, e.op, e.flags] ++ toLeBytes 2 e.lane.toNat ++ [e.dreg, e.preg] ++ toLeBytes 2 e.seq.toNat ++ [e.cls, e.level] ++
  zeros 4 ++ toLeBytes 8 e.pc.toNat ++ toLeBytes 8 e.va.toNat ++ toLeBytes 16 e.data.toNat ++ zeros 16

def LogEntry.ofBytes (bs : List Byte) : LogEntry :=
  let b := fun i => BitVec.ofNat 8 (numAt bs i 1)
  ⟨b 0, b 1, b 2, b 3, BitVec.ofNat 16 (numAt bs 4 2), b 6, b 7, BitVec.ofNat 16 (numAt bs 8 2), b 10, b 11,
    BitVec.ofNat 64 (numAt bs 16 8), BitVec.ofNat 64 (numAt bs 24 8), BitVec.ofNat 128 (numAt bs 32 16)⟩

/-! ## Serial records and context areas (R346) -/

def serialBytes : Option Serial → List Byte
  | none => zeros 288
  | some r => toLeBytes 8 r.jaddr.toNat ++ toLeBytes 8 r.resume.toNat ++ [BitVec.ofNat 8 (linkNat r.outer)] ++ zeros 15 ++
      toLeBytes 128 r.pending.toNat ++ toLeBytes 128 r.held.toNat
/-- A serial slot of zeros is free. -/
def serialOf (bs : List Byte) : Option Serial :=
  if bs.all (· = 0) then none
  else some ⟨BitVec.ofNat 56 (numAt bs 0 8), BitVec.ofNat 56 (numAt bs 8 8), linkOf (numAt bs 16 1), BitVec.ofNat 1024 (numAt bs 32 128),
    BitVec.ofNat 1024 (numAt bs 160 128)⟩

/-- The 64 KiB of a team's context area. -/
def Team.area (t : Team) (slot : Nat) : List Byte :=
  ((List.range 3).flatMap fun i => match t.frames[i]? with | some f => f.bytes | none => zeros 64) ++
  t.record.bytes t.log.length ++
  ((List.range 32).flatMap fun i => serialBytes (t.serials[i]?.getD none)) ++
  ((List.range 3).flatMap fun i => entriesBytes ((t.saves[i]?.getD []).map fun f => (f.idx, f.img)) slot) ++
  ((List.range 256).flatMap fun i => match t.log[i]? with | some e => e.bytes | none => zeros 64) ++ zeros 8960

/-- The team with the contents of a context area at a nesting level, on a quadrant. The manual's save names no fragment that
takes RESUMEPC: it is the lowest one stopped at STOPPC, for a precise class (DESIGN CHOICE, assumption 33). -/
def Team.ofArea (t : Team) (bs : List Byte) (level : Nat) : Team :=
  let frames := (List.range level).map fun i => Frame.ofBytes ((bs.drop (64 * i)).take 64)
  let saves := (List.range level).map fun i =>
    let es := entriesOf bs (0x2500 + 10240 * i)
    let fr := Frame.ofBytes ((bs.drop (64 * i)).take 64)
    let low : Option Nat := if fr.deferred then none else (es.find? fun x => decide (x.2.pc = fr.stopPc)).map (·.1)
    es.map fun x => (⟨t.quad, x.1, x.2, decide (low = some x.1)⟩ : FragSave)
  let rec' := (bs.drop 0xC0).take 64
  let logn := numAt rec' 0 64 / 2 ^ 238 % 512
  { t with
    level := level, frames := frames, saves := saves, record := DefRec.ofBytes rec'
    serials := (List.range 32).map fun i => serialOf ((bs.drop (0x100 + 288 * i)).take 288)
    log := (List.range (min logn 256)).map fun i => LogEntry.ofBytes ((bs.drop (0x9D00 + 64 * i)).take 64) }

/-! ## Context images (R351) -/

def Lane.bytes (l : Lane) (lid : Nat) : List Byte :=
  [l.p &&& 0x7F, BitVec.ofNat 8 l.stack.length] ++ toLeBytes 2 lid ++ toLeBytes 2 l.olid ++ zeros 2 ++ toLeBytes 4 l.status.toNat ++
  zeros 4 ++ toLeBytes 8 l.wid.toNat ++ ((List.range 8).flatMap fun i => toLeBytes 4 (l.stack[i]?.getD 0).toNat) ++ zeros 8

/-- A lane of N registers from its record and its registers' bytes; the team it started in is wid.1 (R388). Of the
lane status the image's 32 bits are kept, reserved ones too (DESIGN CHOICE, log 124). -/
def Lane.ofBytes (bs regs : List Byte) (nregs w0 w1 : Nat) : Lane :=
  let wid := numAt bs 16 8
  { v := (List.range nregs).map fun r => BitVec.ofNat 32 (numAt regs (4 * r) 4)
    p := BitVec.ofNat 8 (numAt bs 0 1 % 128)
    stack := (List.range (min 8 (numAt bs 1 1))).map fun i => BitVec.ofNat 32 (numAt bs (24 + 4 * i) 4)
    status := BitVec.ofNat 32 (numAt bs 8 4), wid := BitVec.ofNat 64 wid, olid := numAt bs 4 2, team := wid / 2 ^ w0 % 2 ^ w1 }

def ModReg.nat (m : ModReg) : Nat := m.base.toNat + m.len.toNat * 2 ^ 20 + m.idx.toNat * 2 ^ 40
def ModReg.ofNat (x : Nat) : ModReg := ⟨BitVec.ofNat 20 x, BitVec.ofNat 20 (x / 2 ^ 20), BitVec.ofNat 20 (x / 2 ^ 40)⟩

/-- The entries of a team that hold its present fragments and records. -/
def Core.present (k : Core) (slot : Nat) (t : Team) : List (Nat × Entry) :=
  (List.range 64).filterMap fun e =>
    let x := k.entry t.quad e
    if x.st ≠ .free ∧ x.team = slot ∧ !x.frozen then some (e, x) else none

/-- Size of a context image. -/
def imageSize (n nregs : Nat) (area : Bool) : Nat := 11328 + 64 * n + 4 * n * nregs + if area then 65536 else 0

/-- The context image of a team; in a save area without its context area (R369). -/
def Core.image (k : Core) (slot : Nat) (t : Team) (halted area : Bool) : List Byte :=
  let es := k.present slot t
  toLeBytes 4 0x58430001 ++ toLeBytes 4 (imageSize t.n t.nregs area) ++ toLeBytes 2 t.n ++ toLeBytes 2 t.nregs ++
  [BitVec.ofNat 8 es.length, BitVec.ofNat 8 t.level, (if t.strict then 1 else 0) + (if halted then 2 else 0), 0] ++
  toLeBytes 2 t.seq.toNat ++ zeros 46 ++
  ((List.range 64).flatMap fun i => toLeBytes 8 (t.rg i).toNat) ++ [t.gp &&& 0x7F] ++ zeros 7 ++
  ((List.range 8).flatMap fun i => toLeBytes 8 (t.m[i]?.getD ModReg.zero).nat) ++ toLeBytes 4 t.fflags.toNat ++ toLeBytes 4 t.xwin.toNat ++
  toLeBytes 8 t.regionPc.toNat ++ toLeBytes 8 t.regionMask.toNat ++ toLeBytes 8 t.ctxBase.toNat ++ zeros 408 ++
  entriesBytes es slot ++
  ((List.range t.n).flatMap fun L => (t.lane L).bytes L) ++
  ((List.range t.n).flatMap fun L => (List.range t.nregs).flatMap fun r => toLeBytes 4 ((t.lane L).r r).toNat) ++
  if area then t.area slot else []

/-- Reads an image's registers and fragments into a team of the same shape; none when it is malformed. `area` is the context
area, and `area?` says that the image ends with it. -/
def Team.ofImage (t : Team) (bs area : List Byte) (area? : Bool) (w0 w1 : Nat) : Option (Team × List (Nat × Entry)) :=
  let n := t.n
  let es := entriesOf bs 1088
  let lanes := 11328
  let regs := lanes + 64 * n
  if numAt bs 0 4 ≠ 0x58430001 ∨ numAt bs 4 4 ≠ imageSize n t.nregs area? ∨ numAt bs 8 2 ≠ n ∨ numAt bs 10 2 ≠ t.nregs ∨
      numAt bs 12 1 ≠ es.length ∨ numAt bs 13 1 > 3 ∨ (List.range n).any fun L => numAt bs (lanes + 64 * L + 1) 1 > 8 then none
  else
    let t := { t with
      lanes := (List.range n).map fun L =>
        Lane.ofBytes ((bs.drop (lanes + 64 * L)).take 64) ((bs.drop (regs + 4 * t.nregs * L)).take (4 * t.nregs)) t.nregs w0 w1
      g := (List.range 64).map fun i => BitVec.ofNat 64 (numAt bs (64 + 8 * i) 8)
      gp := BitVec.ofNat 8 (numAt bs 576 1 % 128)
      m := (List.range 8).map fun i => ModReg.ofNat (numAt bs (584 + 8 * i) 8)
      fflags := BitVec.ofNat 32 (numAt bs 648 4) &&& 0xFF, xwin := BitVec.ofNat 32 (numAt bs 652 4)
      regionPc := BitVec.ofNat 56 (numAt bs 656 8), regionMask := BitVec.ofNat 32 (numAt bs 664 8)
      seq := BitVec.ofNat 16 (numAt bs 16 2), strict := decide (numAt bs 14 1 % 2 = 1), areaDirty := true }
    some (t.ofArea area (numAt bs 13 1), es)

/-! ## Entries for a loaded team -/

def relink (f : Nat → Nat) : Option Link → Option Link
  | some l => if l.serial then some l else some { l with idx := f l.idx }
  | none => none
def Entry.relink (f : Nat → Nat) (x : Entry) : Entry := { x with inner := Machine.relink f x.inner, outer := Machine.relink f x.outer }

/-- Gives a team's fragments entries of its quadrant: the lowest free ones in ascending order of the entries they were saved
from, with every link following; none when the quadrant has too few. Entries saved at a trap level stay allocated (R337). -/
def Core.seat (k : Core) (slot : Nat) (t : Team) (es : List (Nat × Entry)) : Option Core :=
  let kept := t.saves.flatten
  let want := (List.range 64).filter fun e => (es.any fun x => decide (x.1 = e)) || kept.any fun f => decide (f.idx = e)
  let free := (List.range 64).filter fun e => decide ((k.entry t.quad e).st = .free)
  if free.length < want.length then none
  else
    let f := fun e => free[want.idxOf e]?.getD 63
    let k := want.foldl (fun k e =>
      match es.find? fun x => decide (x.1 = e) with
      | some x => k.setEntry t.quad (f e) { x.2.relink f with team := slot }
      | none =>
        match (kept.filter fun y => decide (y.idx = e)).getLast? with
        | some y => k.setEntry t.quad (f e) { y.img.relink f with team := slot, frozen := true }
        | none => k) k
    let saves := t.saves.map fun l => l.map fun y => { y with quad := t.quad, idx := f y.idx, img := { y.img.relink f with team := slot } }
    let t := { t with saves := saves, serials := t.serials.map fun r => r.map fun r => { r with outer := relink f r.outer } }
    some (k.setTeam slot t)

/-- Frees every entry of a team. -/
def Core.unseat (k : Core) (slot : Nat) (t : Team) : Core :=
  (List.range 64).foldl (fun k e =>
    let x := k.entry t.quad e
    if x.st ≠ .free ∧ x.team = slot then k.setEntry t.quad e Entry.empty else k) k

/-! ## Keeping context areas in memory -/

/-- The owner name of a core's own accesses for a slot. -/
def slotOwner (c slot : Nat) : Nat := 2 ^ 59 + 64 * c + slot

/-- The core writes a team's context area to memory (R330, R337, R346); false while the write waits for another device.
Refusals are not reported: the manual names none. -/
def State.writeArea (s : State) (c slot : Nat) : State × Bool :=
  let k := s.core c
  match k.team? slot with
  | none => (s, true)
  | some t =>
    let s' := s.setCore c (k.setTeam slot { t with areaDirty := false })
    s.kept (s'.homeWrite { s.identOf c slot with owner := slotOwner c slot } t.ctxBase.toNat (t.area slot)).1 (slotOwner c slot)

/-- The core writes the first context area that has changed, if it can go on with it. -/
def State.flushArea (s : State) (c : Nat) : Option State :=
  let k := s.core c
  firstSome (fun i =>
    match k.team? i with
    | some t =>
      if t.areaDirty then
        let r := s.writeArea c i
        if r.2 || decide (r.1.rbuf.length ≠ s.rbuf.length) then some r.1.bump else none
      else none
    | none => none) (List.range 32)

end Sys2Proof.Machine
end

