-- ==== Sys2Proof/Machine/Packet.lean ====
section
/-! DEFINITION. Queue descriptors, packets, launch descriptors and buffer lists: their fields and when they are well formed
(R376 to R380). -/

namespace Sys2Proof.Machine

/-- A queue descriptor's fields (R376). -/
structure QHead where
  ring : Nat
  logn : Nat
  prio : Nat
  devl : Bool
  asid : Nat
  wridx : Nat
  clidx : Nat
  state : Nat

def QHead.ofBytes (bs : List Byte) : QHead :=
  ⟨numAt bs 0 8, numAt bs 8 1, numAt bs 9 1, decide (numAt bs 10 1 % 2 = 1), numAt bs 12 2 % 2 ^ 13, numAt bs 16 8,
    numAt bs 24 7, numAt bs 31 1⟩

/-- Address of the slot of an index. -/
def QHead.slot (h : QHead) (i : Nat) : Nat := h.ring + 64 * (i % 2 ^ h.logn)
/-- CLAIM as one word. -/
def claimWord (state clidx : Nat) : Nat := clidx % 2 ^ 56 + state * 2 ^ 56

/-! ## Header steps (R376) -/

/-- Steps of a header: a slot reserved for an ASID (R382), a claim of an index, an error (R383), a destruction (R390). -/
def hdReserve : Nat := 0
def hdClaim : Nat := 1
def hdError : Nat := 2
def hdDestroy : Nat := 3

/-- What a step of a header answers, and the bytes it writes, by offset. A reservation answers its status in bits 7:0, then the index, RING
and LOGN; a claim answers 1 where it succeeds; an error's argument is its index and, from bit 64, its code. -/
def QHead.act (h : QHead) (kind arg : Nat) : Nat × List (Nat × List Byte) :=
  if kind = hdReserve then
    if h.state ≠ 1 ∨ !h.devl ∨ h.asid ≠ arg then (2, [])
    else if (h.wridx + 2 ^ 64 - h.clidx) % 2 ^ 64 ≥ 2 ^ h.logn then (1, [])
    else (h.wridx * 2 ^ 8 + h.ring * 2 ^ 72 + h.logn * 2 ^ 136, [(16, toLeBytes 8 ((h.wridx + 1) % 2 ^ 64))])
  else if kind = hdClaim then
    if h.state = 1 ∧ h.clidx = arg then (1, [(24, toLeBytes 8 (claimWord 1 (arg + 1)))]) else (0, [])
  else if kind = hdError then
    let code := arg / 2 ^ 64
    if code = 1 ∧ h.state ≠ 1 then (0, []) else (1, [(31, [2]), (32, toLeBytes 8 (arg % 2 ^ 64) ++ [BitVec.ofNat 8 code])])
  else (1, [(31, [3])])

/-- A step of a queue's header, indivisible at its home, which may be another device (R376, R405). -/
def State.headerStep (s : State) (id : Ident) (desc kind arg : Nat) : State × Sum Nat (BitVec 8) :=
  match s.home id.part desc with
  | .away dev _ =>
    match s.remote id dev desc 8 (BitVec.ofNat 32 kind) (BitVec.ofNat 256 arg) with
    | (s, .inr cls) => (s, .inr cls)
    | (s, .inl x) => (s, .inl x.toNat)
  | .here _ =>
    match s.homeRead id desc 32 with
    | (s, .inr cls) => (s, .inr cls)
    | (s, .inl bs) =>
      let r := (QHead.ofBytes bs).act kind arg
      r.2.foldl (fun (st : State × Sum Nat (BitVec 8)) w =>
        match st.2, st.1.homeWrite id (desc + w.1) w.2 with
        | .inr cls, _ => (st.1, .inr cls)
        | .inl x, (s, none) => (s, .inl x)
        | .inl _, (s, some (cls, _)) => (s, .inr cls)) (s, .inl r.1)

/-! ## Packets (R377) -/

def pkKind (pk : List Byte) : Nat := numAt pk 0 1
def pkFlags (pk : List Byte) : Nat := numAt pk 1 1
def pkNbuf (pk : List Byte) : Nat := numAt pk 2 1
def pkSeq (pk : List Byte) : Nat := numAt pk 4 4
def pkCmpl (pk : List Byte) : Nat := numAt pk 8 8
def pkBufl (pk : List Byte) : Nat := numAt pk 16 8
def pkArgs (pk : List Byte) : List Nat := (List.range 5).map fun i => numAt pk (24 + 8 * i) 8

def zeroAt (bs : List Byte) (off n : Nat) : Bool := decide (numAt bs off n = 0)

/-- The header and the kind's own bytes meet R377; a launch's descriptor and buffer list are checked by `launchWf`. -/
def packetWf (pk : List Byte) : Bool :=
  let kind := pkKind pk
  decide (pkFlags pk < 16) && decide (pkNbuf pk ≤ 16) && zeroAt pk 3 1 && decide (pkCmpl pk % 64 = 0) &&
    decide (pkNbuf pk = 0 ∨ pkBufl pk % 32 = 0) && decide (kind ≠ 1 ∧ kind ≠ 2 ∨ pkCmpl pk ≠ 0) &&
    match kind with
    | 1 => decide (numAt pk 24 8 % 64 = 0) && zeroAt pk 38 2 && zeroAt pk 58 6 && decide (1 ≤ numAt pk 56 1 ∧ numAt pk 56 1 ≤ 32)
    | 2 => zeroAt pk 48 16 && decide (numAt pk 24 8 % 4 = 0 ∧ numAt pk 32 8 % 4 = 0 ∧ numAt pk 40 8 % 4 = 0)
    | 3 => zeroAt pk 56 8 && ((List.range 4).all fun i => decide (numAt pk (24 + 8 * i) 8 % 64 = 0))
    | 4 => decide (numAt pk 40 1 ≤ 1) && zeroAt pk 41 23
    | 5 => zeroAt pk 24 40
    | _ => false

/-! ## Launches (R378 to R380) -/

/-- A buffer list from its bytes. -/
def bufsOf (bs : List Byte) (n : Nat) : List BufEnt :=
  (List.range n).map fun i => ⟨numAt bs (32 * i) 8, numAt bs (32 * i + 8) 8, numAt bs (32 * i + 16) 1, numAt bs (32 * i + 17) 1⟩

/-- A launch from its packet, descriptor and buffer list. -/
def launchOf (pk ld bl : List Byte) : Launch :=
  { flags := BitVec.ofNat 8 (pkFlags pk), cmpl := pkCmpl pk, ldesc := numAt pk 24 8, bufl := pkBufl pk
    w := (List.range 6).map fun i => numAt pk (32 + i) 1
    e1 := numAt pk 56 1, e2 := numAt pk 40 4, e3 := numAt pk 44 4, e4 := numAt pk 48 4, e5 := numAt pk 52 4, acc := numAt pk 57 1
    entry := BitVec.ofNat 56 (numAt ld 0 8), code := numAt ld 8 8, codelen := numAt ld 16 8, stream := numAt ld 24 8
    streamlen := numAt ld 120 8, kbank := numAt ld 32 8, lanes := numAt ld 40 2, regs := numAt ld 42 2, scratch := numAt ld 44 4
    trapent := BitVec.ofNat 56 (numAt ld 48 8), htab := numAt ld 56 8, frames := numAt ld 64 8, fmap := numAt ld 72 8
    framen := numAt ld 80 4, framesz := numAt ld 84 4, dump := numAt ld 88 8, dumplen := numAt ld 96 8, clmask := numAt ld 104 6
    dbgown := numAt ld 112 8, bufs := bufsOf bl (pkNbuf pk) }

/-- The block count B (R378). -/
def Launch.blocks (l : Launch) : Nat := l.e2 * l.e3 * l.e4 * l.e5
/-- Scratchpad bytes a block receives: a multiple of 1 KiB (R168). -/
def Launch.alloc (l : Launch) : Nat := (l.scratch + 1023) / 1024 * 1024
/-- Address of frame f (R379). -/
def Launch.frameAt (l : Launch) (f : Nat) : Nat := l.frames + 65536 * l.framesz * f
/-- Address of frame f's save area (R379). -/
def Launch.saveAt (l : Launch) (f : Nat) : Nat := l.frameAt f + 65536 * l.e1

/-- Body bytes of the sequencer section (R353, R395). -/
def seqBody (acc : Nat) : Nat := if acc = 0 then 0 else 152 + 65536 * acc
/-- Most bytes a save can take (R379). -/
def Launch.saveSize (l : Launch) : Nat :=
  l.e1 * (32 + imageSize l.lanes l.regs false) + (32 + l.scratch) + (32 + 512) + (32 + 32 * (64 + l.e1 * l.lanes)) +
    (32 + seqBody l.acc) + 32

def bufWf (bl : List Byte) (i : Nat) (b : BufEnt) : Bool :=
  decide (b.base % 32 = 0 ∧ b.len % 32 = 0 ∧ b.len > 0 ∧ b.base + b.len ≤ 2 ^ 56 ∧ 1 ≤ b.rights ∧ b.rights ≤ 3 ∧ b.mode ≤ 3) &&
    zeroAt bl (32 * i + 18) 14

/-- R378 to R380, and R409 for a recording launch. -/
def launchWf (l : Launch) (ld bl : List Byte) : Bool :=
  let w := fun i => l.w[i]?.getD 0
  let ext := fun (i e : Nat) => decide (1 ≤ e ∧ e ≤ 2 ^ w i) && decide (w i ≠ 0 ∨ e = 1)
  decide (l.w.sum ≤ 64 ∧ l.lanes ≤ 2 ^ w 0 ∧ l.e1 ≤ 2 ^ w 1) && ext 2 l.e2 && ext 3 l.e3 && ext 4 l.e4 && ext 5 l.e5 &&
    decide (if l.stream = 0 then l.acc = 0 ∧ l.streamlen = 0 else l.acc = 1 ∨ l.acc = 2 ∨ l.acc = 4) && decide (l.blocks < 2 ^ 56) &&
    decide (32 ≤ l.lanes ∧ l.lanes ≤ 1024 ∧ l.lanes % 32 = 0 ∧ 8 ≤ l.regs ∧ l.regs ≤ 256 ∧ l.regs % 8 = 0) &&
    decide (l.scratch ≤ 448 * 1024 ∧ l.frames % 65536 = 0 ∧ 1 ≤ l.framen ∧ l.framen ≤ 2 ^ 24) &&
    decide (l.framesz ≥ l.e1 + (l.saveSize + 65535) / 65536) && zeroAt ld 110 2 && zeroAt ld 128 128 &&
    decide (l.dbgown % 64 = 0) && decide (!(l.flags.getLsbD 3) ∨ l.dbgown ≠ 0) &&
    ((List.range l.bufs.length).all fun i => match l.bufs[i]? with | some b => bufWf bl i b | none => true)

/-- The implicit ranges of a lease (R380): base, bytes, rights. -/
def Launch.implicit (l : Launch) : List BufEnt :=
  ([⟨l.code, l.codelen, 1, 0⟩, ⟨l.stream, l.streamlen, 1, 0⟩, ⟨l.kbank, 1024, 1, 0⟩, ⟨l.htab, if l.htab = 0 then 0 else 128, 1, 0⟩,
    ⟨l.ldesc, 256, 1, 0⟩, ⟨l.bufl, 32 * l.bufs.length, 1, 0⟩, ⟨l.cmpl, 64, 3, 0⟩, ⟨l.frames, 65536 * l.framesz * l.framen, 3, 0⟩,
    ⟨l.fmap, (l.framen + 7) / 8, 3, 0⟩, ⟨l.dump, if l.dump = 0 then 0 else l.dumplen, 3, 0⟩] : List BufEnt).filter fun b => b.len > 0

/-- The work identifier of a lane of a team of a ticket (R388). -/
def Launch.wid (l : Launch) (ticket team lane : Nat) : DWord :=
  let w := fun i => l.w[i]?.getD 0
  let x := ticket % l.e2
  let y := ticket / l.e2 % l.e3
  let z := ticket / (l.e2 * l.e3) % l.e4
  let inst := ticket / (l.e2 * l.e3 * l.e4)
  BitVec.ofNat 64 (lane + team * 2 ^ w 0 + x * 2 ^ (w 0 + w 1) + y * 2 ^ (w 0 + w 1 + w 2) + z * 2 ^ (w 0 + w 1 + w 2 + w 3) +
    inst * 2 ^ (w 0 + w 1 + w 2 + w 3 + w 4))

end Sys2Proof.Machine
end

