-- ==== Sys2Proof/Machine/Control.lean ====
section
/-! DEFINITION. Control transfer, splits, exit, trap and trap return, regions and fault checks (R132 to R144, R338), the
illegal-instruction and fetch faults (R66, R67), lookahead completion (R60) and boosts (R166). -/

namespace Sys2Proof

open Machine

/-- A PC-relative target (R132). -/
def Tgt.target (pc : PCWord) : Tgt → PCWord
  | .rel20 v => pc + 4 * v.signExtend 56
  | .rel32 v => pc + (v &&& 0xFFFFFFFC).signExtend 56
  | .reg _ => pc

end Sys2Proof

namespace Sys2Proof.Machine

/-! ## Transfers -/

/-- A BRANCH packet, and a SYNC after one whose delta does not fit (R418). -/
def Cx.branchTrace (cx : Cx) (form : Nat) (taken : Bool) (target : PCWord) : Cx :=
  let d : Int := (target - cx.x.pc).toInt / 4
  let fits := decide (-(2 : Int) ^ 43 ≤ d ∧ d < (2 : Int) ^ 43)
  let delta : Nat := if taken && fits then wrapN 44 d else 0
  let k := cx.k.note cx.slot cx.e 2 ((if taken then 1 else 0) + 2 * form + 16 * delta)
  { cx with k := if taken && !fits then k.noteSync cx.slot cx.e target else k }

/-- A taken transfer closes the windows, then moves the PC (R61, R132). -/
def Cx.transfer (s : State) (cx : Cx) (form : Nat) (target : PCWord) (ws : List Wr) : Out :=
  match cx.close with
  | none => stall s reasonOperand
  | some cx => .next ((({ cx with t := cx.t.put ws } : Cx).branchTrace form true target).finish s target)

/-- A transfer that is not taken continues at the next instruction (R132). -/
def Cx.fallThrough (s : State) (cx : Cx) (len : Nat) (ws : List Wr) : Out :=
  .next ((({ cx with t := cx.t.put ws } : Cx).branchTrace 0 false cx.x.pc).next s len)

/-- A branch of the whole fragment on a condition (R133). -/
def branchOp (f : BraF) (cond : Cx → Bool) (s : State) : Out :=
  issue s (fun cx => cx.predRefs f.c) (fun _ => []) fun cx =>
    if cond cx then cx.transfer s 0 (f.tgt.target cx.x.pc) [] else cx.fallThrough s f.tgt.len []

/-- `bra` (R133, R140): a gp predicate when W = 1, else always or never; in a stream always. -/
def execBra (f : BraF) (s : State) : Out :=
  match s.cur with
  | .stream _ _ => withStream s fun x => .next (x.finish s (f.tgt.target x.q.pc))
  | _ => branchOp f (fun cx => if f.c.w then cx.takes f.c else !f.c.pn) s

/-- `brany` (R133). -/
def execBrany (f : BraF) (s : State) : Out := branchOp f (fun cx => !(cx.part f.c).isEmpty) s
/-- `brall` (R133). -/
def execBrall (f : BraF) (s : State) : Out := branchOp f (fun cx => decide (cx.part f.c = cx.active)) s

/-- A jump to a g register's bits 55:0; low bits that are not zero are illegal (R65, R135). -/
def jumpOp (f : BraF) (form : Nat) (s : State) : Out :=
  let r := match f.tgt with
    | .reg r => r
    | _ => 0
  issue s (fun cx => cx.onceReads f.c [.g r.toNat]) (fun _ => []) fun cx =>
    if !(cx.takes f.c) then .next (cx.next s 8)
    else
      let pc := (cx.v.rg r.toNat).setWidth 56
      if pc &&& 3 ≠ 0 then .next (cx.illegal s 0x0A) else cx.transfer s form pc []

def execJmp (f : BraF) (s : State) : Out := jumpOp f 1 s
/-- `ret` differs from `jmp` in its trace packet only (R135). -/
def execRet (f : BraF) (s : State) : Out := jumpOp f 3 s

/-- `call` (R135): gD receives the address after the instruction; a target register is read first. -/
def execCall (f : BraF) (s : State) : Out :=
  issue s (fun cx => cx.onceReads f.c (match f.tgt with | .reg r => [.g r.toNat] | _ => []))
    (fun cx => if cx.takes f.c then [.g f.d.toNat] else []) fun cx =>
      if !(cx.takes f.c) then .next (cx.next s f.tgt.len)
      else
        let pc := match f.tgt with
          | .reg r => (cx.v.rg r.toNat).setWidth 56
          | t => t.target cx.x.pc
        if f.tgt.isReg ∧ pc &&& 3 ≠ 0 then .next (cx.illegal s 0x0A)
        else cx.transfer s 2 pc [.g f.d.toNat ((cx.x.pc + BitVec.ofNat 56 f.tgt.len).setWidth 64)]

/-- `loop` of team code and the agent slot (R136). -/
def execLoop (f : BraF) (s : State) : Out :=
  issue s (fun cx => cx.onceReads f.c [.g f.d.toNat]) (fun cx => if cx.takes f.c then [.g f.d.toNat] else []) fun cx =>
    if !(cx.takes f.c) then .next (cx.next s f.tgt.len)
    else
      let x := cx.v.rg f.d.toNat - 1
      if x ≠ 0 then cx.transfer s 0 (f.tgt.target cx.x.pc) [.g f.d.toNat x] else cx.fallThrough s f.tgt.len [.g f.d.toNat x]

/-- `loop` of a stream: a counter (R136). -/
def execStreamLoop (f : BraF) (s : State) : Out :=
  withStream s fun x =>
    let n := x.rc f.d - 1
    let x' := { x with q := { x.q with c := x.q.c.set f.d.toNat n } }
    .next (if n ≠ 0 then x'.finish s (f.tgt.target x.q.pc) else x'.next s f.tgt.len)

/-! ## Divergent branch (R134, R130, R131) -/

/-- Splits the fragment: the taken lanes in a free entry of the quadrant, else serially, where the fragment goes on (R130). Two new
fragments come of a split (R134). -/
def Cx.split (s : State) (cx : Cx) (taken rest : Mask) (target join : PCWord) : Out :=
  let next := cx.x.pc + 8
  match cx.k.freeEntry cx.q (decide (cx.slot = agentSlot)) with
  | some e =>
    match cx.close with
    | none => stall s reasonOperand
    | some cx =>
      let y : Entry := { Entry.empty with st := .running, team := cx.slot, pc := target, mask := taken, inner := some ⟨false, e⟩
                                          isRec := true, jaddr := join, outer := cx.x.inner }
      let k := (cx.k.setEntry cx.q e y).note cx.slot cx.e 3 e
      .next (({ cx with k := k, t := (cx.t.newThread e).newThread cx.e, x := { cx.x with mask := rest, inner := some ⟨false, e⟩ } } : Cx).finish s next)
  | none =>
    match (List.range 32).find? fun i => (cx.t.serials[i]?.getD none).isNone with
    | none => .next (cx.trap s 0x08 0 noLane 0 0)
    | some i =>
      match cx.close with
      | none => stall s reasonOperand
      | some cx =>
        let r : Serial := ⟨join, next, cx.x.inner, rest, 0⟩
        let k := cx.k.note cx.slot cx.e 3 (i + 64)
        .next (({ cx with k := k, x := { cx.x with mask := taken, inner := some ⟨true, i⟩ }
                          t := { cx.t with serials := cx.t.serials.set i (some r), areaDirty := true } } : Cx).finish s target)

/-- `brd` (R134). -/
def execBrd (f : BrdF) (s : State) : Out :=
  issue s (fun cx => cx.predRefs f.c) (fun _ => []) fun cx =>
    let target := cx.x.pc + 4 * f.tgt.signExtend 56
    let join := cx.x.pc + 4 * f.join.signExtend 56
    let taken := maskOf (cx.part f.c)
    let rest := cx.x.mask &&& ~~~taken
    if rest = 0 then cx.transfer s 0 target []
    else if taken = 0 then cx.fallThrough s 8 []
    else cx.split s taken rest target join

/-! ## Exit (R138, R144) -/

/-- Lanes that have exited leave every saved image and serial record of the team too: no restart and no return brings
them back (R124, R138). -/
def Core.dropLanes (k : Core) (slot : Nat) (m : Mask) : Core :=
  match k.team? slot with
  | none => k
  | some t =>
    let cut := fun (x : Entry) => { x with mask := x.mask &&& ~~~m }
    let q := t.quad
    let k := (List.range 64).foldl (fun k e =>
      let x := k.entry q e
      if x.st ≠ .free ∧ x.team = slot then k.setEntry q e (cut x) else k) k
    k.setTeam slot { t with
      serials := t.serials.map fun r => r.map fun r => { r with pending := r.pending &&& ~~~m, held := r.held &&& ~~~m }
      saves := t.saves.map fun l => l.map fun f => { f with img := cut f.img } }

/-- A team whose last lane has exited retires: its slot and its entries are free once nothing is on its way (R144). -/
def Core.retireIfEmpty (k : Core) (slot e : Nat) : Core :=
  match k.team? slot with
  | none => k
  | some t =>
    if k.allLanes slot t ≠ 0 ∨ t.mode = .retired then k
    else
      ((k.note slot e 9 0).setTeam slot { t with mode := .retired, stops := [], saves := [], serials := List.replicate 32 none }).freeSlots

/-- MASK packets for the words of a mask that changed (R418). -/
def Core.noteMasks (k : Core) (slot e : Nat) (old new : Mask) : Core :=
  (List.range 32).foldl (fun k i =>
    let w := fun (m : Mask) => m.extractLsb' (32 * i) 32
    if w old = w new then k else k.note slot e 5 (i + 2 ^ 16 * (w new).toNat)) k

/-- The team is one fragment with no pending join record (R138, R143): those of its present trap level, so that what a trap
saved does not count (DESIGN CHOICE, the manual does not say). -/
def Core.single (k : Core) (q slot : Nat) : Bool :=
  decide ((k.liveOf q slot).length = 1) &&
    (k.quad q).all (fun x => !(decide (x.team = slot) && x.isRec && !x.frozen && decide (x.st ≠ .free))) &&
    (k.liveOf q slot).all fun e => ((k.entry q e).inner).isNone

/-- `exit` of team code (R138). -/
def execExit (c : Ctl) (s : State) : Out :=
  issue s (fun cx => cx.predRefs c) (fun _ => []) fun cx =>
    let lanes := if c.w then (if cx.takes c then cx.active else []) else cx.part c
    if lanes.isEmpty then .next (cx.next s 8)
    else cx.waitPoint s .frag (
      let m := maskOf lanes
      let rest := cx.x.mask &&& ~~~m
      match (if rest = 0 then cx.close else some cx) with
      | none => stall s reasonOperand
      | some cx =>
        let t := if rest ≠ 0 ∧ cx.k.single cx.q cx.slot then { cx.t with regionPc := cx.x.pc + 8 } else cx.t
        let k := (({ cx with t := t } : Cx).core.dropLanes cx.slot m).noteMasks cx.slot cx.e cx.x.mask rest
        let x := { cx.x with mask := rest, pc := cx.x.pc + 8, pend := tickPends cx.x.pend, stall := none, op := none, snap := none, bw := none }
        let k := (k.setEntry cx.q cx.e x).retireIfEmpty cx.slot cx.e
        .next (s.setCore cx.c (Core.settle settleFuel k cx.q cx.slot)).bump)

/-- `exit` of a stream waits for its operations, then STATE is 2 (R249). -/
def execStreamExit (_c : Ctl) (s : State) : Out :=
  withStream s fun x =>
    if !x.q.flight.isEmpty then stall s reasonOperand
    else .next (({ x with q := { x.q with status := seqStop x.q.status 2 0 0 } } : Sx).next s 8)

/-! ## Traps (R139, R338) -/

/-- `trap` (R139). -/
def execTrap (f : CodeF) (s : State) : Out :=
  issue s (fun cx => cx.predRefs f.c) (fun _ => []) fun cx =>
    .next (if cx.acts f.c then cx.trap s 0x0A f.code noLane 0 8 else cx.next s 8)

/-- `trap` of a stream stops its context (R237). -/
def execStreamTrap (f : CodeF) (s : State) : Out :=
  withStream s fun x => x.stop s 3 2 f.code.toNat 0x0A 0

/-- Restores the fragments saved at the current level and lowers it (R338). -/
def Core.leaveTrap (k : Core) (slot e : Nat) (t : Team) : Core :=
  match t.frames.getLast?, t.saves.getLast? with
  | some fr, some saved =>
    let k := k.setEntry t.quad e Entry.empty
    let k := saved.foldl (fun k f =>
      k.setEntry f.quad f.idx { f.img with frozen := false, pc := if f.raised then fr.resumePc else f.img.pc }) k
    let k := (k.note slot e 6 (fr.cls.toNat + 256 * t.level + 1024)).setTeam slot
      { t with level := t.level - 1, frames := t.frames.dropLast, saves := t.saves.dropLast }
    Core.settle settleFuel k t.quad slot
  | _, _ => k

/-- `tret` (R139, R338): illegal at level 0, and while the handler is not one fragment without a join record. -/
def execTret (_c : Ctl) (s : State) : Out :=
  issue s (fun _ => []) (fun _ => []) fun cx =>
    let alone := decide (cx.k.liveOf cx.q cx.slot = [cx.e]) && cx.x.inner.isNone && !cx.x.isRec
    if cx.t.level = 0 ∨ !alone then .next (cx.illegal s 0x09)
    else
      match cx.close with
      | none => stall s reasonOperand
      | some cx => .next (s.setCore cx.c ((cx.core.leaveTrap cx.slot cx.e cx.t).poll)).bump

/-! ## Regions, fault checks, lookahead waits (R141 to R143) -/

/-- An instruction of major 0x1D: acts once for the fragment after closing its windows. -/
def pointOp (c : Ctl) (len : Nat) (act : Cx → Out) : State → Out := fun s =>
  issueClosed s len (·.acts c) (fun cx => cx.predRefs c) (fun _ => []) fun _ cx => act cx

def execWaitla (c : Ctl) (s : State) : Out := pointOp c 8 (fun cx => .next (cx.next s 8)) s
def execFchk (c : Ctl) (s : State) : Out := pointOp c 8 (fun cx => cx.waitPoint s .frag (.next (cx.next s 8))) s
/-- Groups of eight registers below the declared count, as bits of a live-in mask (R143). -/
def liveGroups (nregs : Nat) : Word := BitVec.ofNat 32 (2 ^ ((nregs + 7) / 8) - 1)
/-- `rgn` (R143): bits of groups at or above the declared count do not enter the mask (DEDUCED, assumption 117). -/
def execRgn (f : DB) (s : State) : Out :=
  pointOp f.c f.b.len (fun cx =>
    cx.waitPoint s .team (
      let t :=
        if cx.k.single cx.q cx.slot then
          { cx.t with regionPc := cx.x.pc + BitVec.ofNat 56 f.b.len
                      regionMask := BitVec.ofNat 32 (cx.bval false 0 false .n f.b) &&& liveGroups cx.t.nregs }
        else cx.t
      .next (({ cx with t := t } : Cx).next s f.b.len))) s

/-! ## Faults found at decode and fetch, and the issue logic's own steps -/

/-- The illegal-instruction trap (R66): in a stream it stops the context. -/
def execIllegalInstruction (detail : BitVec 4) (s : State) : Out :=
  match s.cur with
  | .stream _ _ => withStream s fun x => x.illegal s detail.toNat
  | _ => withFrag s fun cx => .next (cx.illegal s (detail.setWidth 8))

/-- The precise fetch fault at the word's address (R67): command-ending. -/
def execFetchFault (va : Nat) (s : State) : Out :=
  match s.cur with
  | .stream _ _ => withStream s fun x => x.stop s 4 6 0 0x02 (BitVec.ofNat 64 va)
  | _ => withFrag s fun cx => .next (cx.trap s 0x02 0 noLane (BitVec.ofNat 64 va) 0)

/-- A pending write whose window has passed is done (R60). -/
def execLongLatencyWrite (core quad entry : Nat) (s : State) : Out :=
  let k := s.core core
  let x := k.entry quad entry
  let due := fun (p : Pend) => decide (p.left = 0) && p.ready
  if x.st = .free ∨ !(x.pend.any due) then .refused .eventNotDue
  else
    match k.team? x.team with
    | none => .fault .noTeam
    | some t =>
      let k := (k.setTeam x.team (t.commit (x.pend.filter due))).setEntry quad entry { x with pend := x.pend.filter fun p => !(due p) }
      .next (s.setCore core ((Core.settle settleFuel k quad x.team).poll)).bump

/-- A fragment that has waited 256 instructions of its quadrant is boosted (R166). -/
def execFragmentBoost (core quad entry : Nat) (s : State) : Out :=
  let k := s.core core
  let x := k.entry quad entry
  if x.st ≠ .running ∨ x.boost.isSome ∨ x.age < 256 then .refused .eventNotDue
  else .next (s.setCore core { (k.setEntry quad entry { x with boost := some k.nextBoost }) with nextBoost := k.nextBoost + 1 }).bump

end Sys2Proof.Machine
end

