-- ==== Sys2Proof/Machine/Deque.lean ====
section
/-! DEFINITION. Deques (R271 to R274): their headers, the instructions, and the steps at the header's home. -/

namespace Sys2Proof.Machine

/-- Kinds of a deque step, by minor (R272). -/
def dqKindPush : Nat := 0
def dqKindPop : Nat := 1
def dqKindSteal : Nat := 2

/-- A header's fields (R271). -/
structure DqHead where
  ring : Nat
  top : Nat
  bottom : Nat
  logcap : Nat

def dqHead (x : Nat) : DqHead :=
  ⟨x % 2 ^ 64, x / 2 ^ 64 % 2 ^ 32, x / 2 ^ 96 % 2 ^ 32, x / 2 ^ 128 % 256⟩

def DqHead.cap (h : DqHead) : Nat := 2 ^ h.logcap
/-- Elements held. -/
def DqHead.count (h : DqHead) : Nat := (h.bottom + 2 ^ 32 - h.top) % 2 ^ 32
/-- Address of the slot of an element index. -/
def DqHead.slot (h : DqHead) (i : Nat) : Nat := h.ring + 8 * (i % h.cap)

/-- A well-formed header at its address (R271). -/
def DqHead.wf (h : DqHead) (va : Nat) : Bool :=
  decide (h.logcap ≤ 12 ∧ h.ring % 8 = 0) &&
    decide (h.ring / 2 ^ 16 = va / 2 ^ 16 ∧ (h.ring + 8 * h.cap - 1) / 2 ^ 16 = va / 2 ^ 16) &&
    decide (h.ring + 8 * h.cap ≤ va ∨ va + 32 ≤ h.ring) && decide (h.count ≤ h.cap)

/-! ## Issue (R272, R273) -/

/-- Issue of a deque instruction: the header's address is checked, a push is a release, and the step leaves for the home. -/
def dequeOp (f : DABC) (kind : Nat) (s : State) : Out :=
  issue s (fun cx => cx.onceReads f.c (.g f.a.toNat :: if kind = dqKindPush then f.b.refs true 0 true else []))
    (fun cx => if cx.takes f.c then [.g f.d.toNat, .gp f.cc.toNat] else []) fun cx =>
      let va := (cx.v.rg f.a.toNat).toNat
      let len := f.b.len
      if !(cx.takes f.c) then .next (cx.writeLate s len f.c.la.toNat [] [])
      else if cx.acqBusy then stall s reasonAcquire
      else if va % 32 ≠ 0 then .next (cx.trap s 0x03 0 noLane (BitVec.ofNat 64 va) 0)
      else if !(cx.k.leaseOk cx.slot va 32 true true) then .next (cx.trap s 0x04 0 noLane (BitVec.ofNat 64 va) 0)
      else
        let go := fun (_ : Unit) =>
          if !(cx.seqFree s) then stall s reasonMemory
          else
            let cx := cx.takeSeq s 0
            let r : DqReq :=
              { id := s.nextId, kind := kind, slot := cx.slot, quad := cx.q, entry := cx.e, seq := cx.t.seq, pc := cx.x.pc
                level := cx.t.level, va := va, value := if kind = dqKindPush then BitVec.ofNat 64 (cx.bval true 0 true .s f.b) else 0
                dreg := f.d.toNat, preg := f.cc.toNat, away := none }
            let cx := { cx with k := { cx.k with dqs := cx.k.dqs ++ [r] } }
            .next (cx.nextAwait { s with nextId := s.nextId + 1 } len
              ⟨s.nextId, [.g f.d.toNat, .gp f.cc.toNat], [], f.c.la.toNat, false⟩)
        if kind = dqKindPush then cx.waitPoint s .core (go ()) else go ()

def execDqpush (f : DABC) : State → Out := dequeOp f dqKindPush
def execDqpop (f : DABC) : State → Out := dequeOp f dqKindPop
def execDqsteal (f : DABC) : State → Out := dequeOp f dqKindSteal

/-! ## The step at the home (R273, R274) -/

/-- What a step answers: status, and the element of a pop or steal. -/
structure DqAns where
  st : Nat
  val : Nat

/-- Address of the ring slot that an applied step has used, by the header after it. -/
def DqHead.used (h : DqHead) (kind : Nat) : Nat :=
  h.slot (if kind = dqKindPush then (h.bottom + 2 ^ 32 - 1) % 2 ^ 32 else if kind = dqKindPop then h.bottom else (h.top + 2 ^ 32 - 1) % 2 ^ 32)

/-- Sectors with a watch bit that an applied step has reached at its home here, ascending (R415). -/
def State.dqWatched (s : State) (id : Ident) (kind va : Nat) (a : DqAns) : List Nat :=
  let ring := match s.homeNat id va 32 with
    | (_, .inl x) => if a.st = 0 then [(dqHead x).used kind / 32 * 32] else []
    | _ => []
  let all := if ring.any fun x => decide (x < va) then ring ++ [va] else va :: ring
  all.filter (s.watchedAt id)

/-- An applied step's answer to another device, with the sectors whose watch bits it has reached, as a number; MODEL (log 32). -/
def dqNat (a : DqAns) (ws : List Nat) : Nat :=
  a.st % 2 ^ 8 + 2 ^ 8 * (a.val % 2 ^ 64) + 2 ^ 72 * (ws.length + 4 * ws.foldr (fun w n => w % 2 ^ 64 + 2 ^ 64 * n) 0)
/-- The answer that a number gives. -/
def dqOfNat (x : Nat) : DqAns × List Nat :=
  (⟨x % 2 ^ 8, x / 2 ^ 8 % 2 ^ 64⟩, (List.range (x / 2 ^ 72 % 4)).map fun i => x / 2 ^ (74 + 64 * i) % 2 ^ 64)

/-- Write access to a sector at its home here, asked without a write: the class of a refusal. -/
def State.mayWrite (s : State) (id : Ident) (va : Nat) : State × Option (BitVec 8) := match s.home id.part va with
  | .away _ _ => (s, none)
  | .here i => match s.ensure i id va false true with
    | .bad s cls => (s, some cls)
    | .ok s _ => (s, none)

/-- One step on a header at its home, header and slot together: the answer, or the class of a refusal that leaves all undone. -/
def State.dqApply (s : State) (id : Ident) (kind va value : Nat) : State × Sum DqAns (BitVec 8) :=
  match s.homeNat id va 32 with
  | (s, .inr cls) => (s, .inr cls)
  | (s, .inl x) =>
    let h := dqHead x
    let put := fun (s : State) (top bottom : Nat) (a : DqAns) =>
      let w := s.homePut id (va + 8) 8 (top + bottom * 2 ^ 32)
      match w.2 with
      | some (cls, _) => (w.1, Sum.inr cls)
      | none => (w.1, .inl a)
    if !(h.wf va) then (s, .inl ⟨2, 0⟩)
    else if kind = dqKindPush then
      if h.count = h.cap then (s, .inl ⟨1, 0⟩)
      else
        match s.mayWrite id va with
        | (s, some cls) => (s, .inr cls)
        | (s0, none) =>
          match s0.homePut id (h.slot h.bottom) 8 value with
          | (s, some (cls, _)) => (s, .inr cls)
          | (s, none) => match put s h.top ((h.bottom + 1) % 2 ^ 32) ⟨0, 0⟩ with
            | (_, .inr cls) => (s0, .inr cls)
            | r => r
    else if h.count = 0 then (s, .inl ⟨1, 0⟩)
    else
      let pop := decide (kind = dqKindPop)
      let b := if pop then (h.bottom + 2 ^ 32 - 1) % 2 ^ 32 else h.bottom
      match s.homeNat id (h.slot (if pop then b else h.top)) 8 with
      | (s, .inr cls) => (s, .inr cls)
      | (s, .inl v) => put s (if pop then h.top else (h.top + 1) % 2 ^ 32) b ⟨0, v⟩

/-- The writes of an answer to gD and gpC. -/
def dqWrs (kind dreg preg : Nat) (a : DqAns) : List Wr :=
  [.g dreg (BitVec.ofNat 64 (if kind ≠ dqKindPush ∧ a.st = 0 then a.val else a.st)), .gp preg (decide (a.st = 0))]

/-- An answer reaches its core: the results are there, copies of the deque's piece are dropped (R268, R271), and a pop or steal
acquires. -/
def State.dqFinish (s : State) (c : Nat) (r : DqReq) (a : DqAns) : State :=
  let k := s.core c
  let k := ({ k with dqs := k.dqs.filter fun y => decide (y.id ≠ r.id) } : Core).addResults r.id (dqWrs r.kind r.dreg r.preg a) true
  let s := (s.setCore c k.poll).forget c (s.identOf c r.slot) (r.va / 2 ^ 16 * 2 ^ 16) (2 ^ 16)
  if r.kind = dqKindPush then s else s.acquire c

/-- A refused step: the whole step is left undone, and is logged (R334). -/
def State.dqRefuse (s : State) (c : Nat) (r : DqReq) (cls : BitVec 8) : State :=
  let k := s.core c
  let e := mkLog 4 5 r.kind 1 teamWideLane r.dreg r.preg r.seq cls r.level r.pc r.va (r.value.setWidth 128)
  let f : Refused := ⟨r.id, r.slot, r.seq, r.pc, cls, r.va / 32 * 32, noLane, false, [e]⟩
  let k := { k with dqs := k.dqs.filter fun y => decide (y.id ≠ r.id), refused := k.refused ++ [f] }
  s.setCore c (k.addResults r.id [] true).poll

/-- Order of the requests that reach a header's atomic unit in one cycle (R274): pops, pushes, steals; within a kind by core,
quadrant and team slot. -/
def dqRank (kind : Nat) : Nat := if kind = dqKindPop then 0 else if kind = dqKindPush then 1 else 2
def dqBefore (a b : Nat × DqReq) : Bool :=
  let key := fun (x : Nat × DqReq) => [dqRank x.2.kind, x.1, x.2.quad, x.2.slot, x.2.id]
  decide (key a < key b)

def dqInsert (x : Nat × DqReq) : List (Nat × DqReq) → List (Nat × DqReq)
  | [] => [x]
  | y :: ys => if dqBefore x y then x :: y :: ys else y :: dqInsert x ys

/-- Steps of the device's cores that wait on a header address, and may be applied now: no earlier access of their core to the
header's sector is outstanding (R175), nor any of their team, for the ring slot is known at the home alone (R267, R268). -/
def State.dqWaiting (s : State) (header : Nat) : List (Nat × DqReq) :=
  (List.range s.cores.length).flatMap fun c =>
    let k := s.core c
    (k.dqs.filter fun r => decide (r.va = header) && r.away.isNone && !(k.earlier r.id r.slot r.va) && !(k.behindOwn r.id r.slot)).map fun r => (c, r)

/-- One waiting step is applied at its home, or leaves for another device. -/
def State.dqOne (s : State) (c : Nat) (r : DqReq) : State :=
  let tag := (reqTag c r.quad r.slot r.seq).toNat
  let id := { s.identOf c r.slot with owner := r.id, tag := tag }
  let (s, may) := s.atomMay c r.slot r.va tag r.id
  if s.waitsFor r.id then s
  else if !may then s.hold r.id
  else match s.home id.part r.va with
  | .away dev _ =>
    if !(s.reaches tag (s.exitSlice id r.va)) then s.hold r.id
    else match s.plane dev r.va with
    | none => s.dqRefuse c r 0x16
    | some p =>
      let (num, s) := s.fresh
      let k := s.core c
      (s.setCore c { k with dqs := k.dqs.map fun y => if y.id = r.id then { y with away := some num } else y }).ask p dev num id 4 r.va r.kind r.value.toNat
  | .here _ =>
    match s.dqApply id r.kind r.va r.value.toNat with
    | (s, .inr cls) => s.dqRefuse c r cls
    | (s, .inl a) =>
      (s.dqWatched id r.kind r.va a).foldl (fun s va => s.watchHit c r.slot va 3 r.seq r.pc) ((s.dqFinish c r a).atomDone c r.slot r.va tag)

/-- The requests on one header that have reached its atomic unit apply in the fixed order; one that is held stays where it is. -/
def execDequeStep (header : Nat) (s : State) : Out :=
  let rs := (s.dqWaiting header).foldl (fun xs r => dqInsert r xs) []
  let r := rs.foldl (fun (st : State × Bool) (x : Nat × DqReq) =>
    let y := st.1.kept (st.1.dqOne x.1 x.2) x.2.id
    (y.1, st.2 || y.2 || decide (y.1.rbuf.length ≠ st.1.rbuf.length))) (s, false)
  if r.2 then .next r.1.bump else .refused .eventNotDue

end Sys2Proof.Machine
end

