-- ==== Sys2Proof/Machine/Context.lean ====
section
/-! DEFINITION. The operand-log instructions and the breakpoint (R339 to R343), context save and load, halt and resume
(R349, R350), and the acknowledgement of a broadcast (R345). -/

namespace Sys2Proof.Machine

/-! ## `logrd`, `logdr`, `brk` -/

/-- The word `logrd` reads (R340). -/
def Team.logWord (t : Team) (i : Nat) : DWord :=
  let w := fun (bs : List Byte) (j : Nat) => BitVec.ofNat 64 (numAt bs (8 * j) 8)
  if i < 8 then
    if t.level = 0 then 0
    else match t.frames[t.level - 1]? with
      | some f => w f.bytes i
      | none => 0
  else if i < 16 then w (t.record.bytes t.log.length) (i - 8)
  else match t.log[(i - 16) / 8]? with
    | some e => w e.bytes ((i - 16) % 8)
    | none => 0

/-- `logrd` (R340); it orders nothing. -/
def execLogrd (f : DB) (s : State) : Out :=
  regOp f.c false f.b.len (fun _ => f.b.refs true 0 false) (fun _ => [.g f.d.toNat])
    (fun cx _ => [.g f.d.toNat (cx.v.logWord (cx.bval true 0 false .n f.b))]) s

/-- Empties the log and clears the record. -/
def Team.dropLog (t : Team) : Team := { t with log := [], record := DefRec.clear, areaDirty := true }

/-- `logdr` (R342): the number of entries discarded. -/
def execLogdr (f : DA) (s : State) : Out :=
  issue s (fun cx => cx.predRefs f.c) (fun cx => if cx.takes f.c then [.g f.d.toNat] else []) fun cx =>
    if !(cx.takes f.c) then .next (cx.next s 8)
    else .next (({ cx with t := cx.t.dropLog } : Cx).write s 8 [.g f.d.toNat (BitVec.ofNat 64 cx.t.log.length)])

/-- `brk` (R343): a halt of class 0x0B at its own PC; without a debug owner the command ends (R348). -/
def execBrk (f : CodeF) (s : State) : Out :=
  issue s (fun cx => cx.predRefs f.c) (fun _ => []) fun cx =>
    if !(cx.acts f.c) then .next (cx.next s 8)
    else
      let owned := match cx.k.lslotOf cx.slot with
        | some l => decide (l.launch.dbgown ≠ 0)
        | none => false
      if owned then
        let s := s.setCore cx.c (cx.core.askStop cx.slot (.halt 0x0B (some (cx.e, cx.x.pc + 8))))
        .next (s.dbgEvent cx.c cx.slot 1 f.code.toNat cx.x.pc 0).bump
      else .next (cx.trap s 0x0B f.code noLane 0 8)

/-! ## `logre` (R341) -/

def atOpOf : Nat → AtOp
  | 0 => .add | 1 => .min | 2 => .max | 3 => .and | 4 => .or | 5 => .xor | 6 => .exch | _ => .cas
def atTyOf : Nat → AtTy
  | 0 => .s32 | 1 => .n32 | 2 => .f32 | 3 => .s64 | 4 => .n64 | _ => .f64

/-- One atomic of one operand at the word's home: its old value, or the class of a refusal (R190). -/
def State.homeAtomic (s : State) (id : Ident) (op : AtOp) (ty : AtTy) (va b c : Nat) : State × Sum Nat (BitVec 8) :=
  let n := atTyBytes ty
  match s.home id.part va with
  | .away dev _ =>
    match s.remote id dev va 2 (BitVec.ofNat 32 (atOpNo op * 8 + atTyNo ty + 64)) (BitVec.ofNat 256 (b + 2 ^ 64 * c)) with
    | (s, .inr cls) => (s, .inr cls)
    | (s, .inl x) => (s, .inl (x.toNat % 2 ^ (8 * n)))
  | .here i =>
    match s.ensure i id va false true with
    | .bad s cls => (s, .inr cls)
    | .ok s key =>
      match s.readWay i key id va none with
      | (s, .inr cls) => (s, .inr cls)
      | (s, .inl x) =>
        let old := sectorNat x (va % 32) n
        let a : Acc := ⟨0, va, n, 0, 0, 0⟩
        let new := BitVec.ofNat 256 (atomNew op ty old (b % 2 ^ (8 * n)) (c % 2 ^ (8 * n)))
        ((s.writeWay i key id va a.mask (new <<< (8 * (va % 32))) none).1, .inl old)

/-- A deque step at its header's home, local or remote. -/
def State.dqAnywhere (s : State) (id : Ident) (kind va value : Nat) : State × Sum DqAns (BitVec 8) :=
  match s.home id.part va with
  | .here _ => s.dqApply id kind va value
  | .away dev _ =>
    match s.remote id dev va 4 (BitVec.ofNat 32 kind) (BitVec.ofNat 256 value) with
    | (s, .inr cls) => (s, .inr cls)
    | (s, .inl x) => (s, .inl (dqOfNat x.toNat).1)

/-- Performs one logged access: the writes of its destinations, or the class of its new refusal. -/
def State.replayOne (s : State) (c : Nat) (id : Ident) (e : LogEntry) : State × Sum (List Wr) (BitVec 8) :=
  let va := e.va.toNat
  let n := 2 ^ e.size.toNat
  let w := e.flags.getLsbD 0
  let cancel := e.flags.getLsbD 4
  let res : State × Sum (List Wr) (BitVec 8) :=
    if e.kind = 2 then
      match s.homeWrite id va (toLeBytes n e.data.toNat) with
      | (s, some (cls, _)) => (s, .inr cls)
      | (s, none) => (s.forget c id va n, .inl [])
    else if e.kind = 3 then
      let ty := atTyOf (e.op.toNat % 8)
      match s.homeAtomic id (atOpOf (e.op.toNat / 8)) ty va (e.data.toNat % 2 ^ 64) (e.data.toNat / 2 ^ 64) with
      | (s, .inr cls) => (s, .inr cls)
      | (s, .inl old) =>
        (s.forget c id va n, .inl (if cancel || e.flags.getLsbD 1 then []
          else loadWr w (decide (ty = .s32)) e.lane.toNat n e.dreg.toNat old))
    else if e.kind = 4 then
      match s.dqAnywhere id e.op.toNat va (e.data.toNat % 2 ^ 64) with
      | (s, .inr cls) => (s, .inr cls)
      | (s, .inl a) => (s.forget c id (va / 2 ^ 16 * 2 ^ 16) (2 ^ 16), .inl (dqWrs e.op.toNat e.dreg.toNat e.preg.toNat a))
    else
      match s.homeNat id va n with
      | (s, .inr cls) => (s, .inr cls)
      | (s, .inl x) => (s, .inl (if cancel then [] else loadWr w (e.flags.getLsbD 5) e.lane.toNat n e.dreg.toNat x))
  let acq := e.flags.getLsbD 2 || (decide (e.kind = 4) && decide (e.op.toNat ≠ dqKindPush))
  match res with
  | (s, .inl ws) => (if acq then s.acquire c else s, .inl ws)
  | r => r

/-- How a replay stops: at the end, at an entry that faults, or at one that waits for another device. -/
inductive ReplayEnd
  | done
  | bad (rest : List LogEntry) (cls : BitVec 8)
  | waits (rest : List LogEntry)
deriving DecidableEq, Repr

/-- The sectors with a watch bit that a replayed access, whose writes are `ws`, reaches (R415), as its home or the answer of another device
tells, and the kind of its hit. -/
def State.replayHits (s : State) (id : Ident) (e : LogEntry) (ws : List Wr) : List Nat × Nat :=
  let va := e.va.toNat / 32 * 32
  let kind := if e.kind = 2 then 2 else if e.kind = 3 ∨ e.kind = 4 then 3 else 1
  match s.home id.part va with
  | .away _ _ => match s.rbuf.find? fun b => decide (b.owner = id.owner) with
    | some b => (if e.kind = 4 then (match b.ans with | some (.inl x) => (dqOfNat x.toNat).2 | _ => []) else if b.watch then [va] else [], kind)
    | none => ([], kind)
  | .here _ =>
    if e.kind = 4 then
      let done := ws.any fun w => match w with | .gp _ b => b | _ => false
      (s.dqWatched id e.op.toNat va ⟨if done then 0 else 1, 0⟩, kind)
    else ([va].filter (s.watchedAt id), kind)

/-- One entry is replayed: an atomic or deque step in its recorded turn, where a debug owner asks that (R424); it is counted and recorded
(R423), and reports its hits (R415). -/
def State.replayEntry (s : State) (cx : Cx) (id : Ident) (e : LogEntry) : State × Sum (List Wr) (BitVec 8) :=
  let atom := decide (e.kind = 3 ∨ e.kind = 4)
  let (s, may) := if atom then s.atomMay cx.c cx.slot e.va.toNat id.tag id.owner else (s, true)
  if s.waitsFor id.owner then (s, .inl [])
  else if !may then (s.hold id.owner, .inl [])
  else match s.replayOne cx.c id e with
  | (s, .inr cls) => (s, .inr cls)
  | (s, .inl ws) =>
    let s := if atom then s.atomDone cx.c cx.slot e.va.toNat id.tag else s
    let h := s.replayHits id e ws
    (h.1.foldl (fun s va => s.watchHit cx.c cx.slot va h.2 cx.seq cx.x.pc) s, .inl ws)

/-- Replays entries in order up to the first that faults or waits: the writes of those done, and how it stops. Each entry's access is one of
its own, even where two are equal (R341, R406). -/
def State.replayLog (s : State) (cx : Cx) (id : Ident) : List LogEntry → State × List Wr × ReplayEnd
  | [] => (s, [], .done)
  | e :: es =>
    let r := s.replayEntry cx id e
    if r.1.waitsFor id.owner then (s.sent r.1, [], .waits (e :: es))
    else match r with
    | (s, .inr cls) => (s.dropAnswers id.owner, [], .bad ({ e with cls := if e.kind = 6 then e.cls else cls } :: es) cls)
    | (s, .inl ws) =>
      let r := (s.dropAnswers id.owner).replayLog cx id es
      (r.1, ws ++ r.2.1, r.2.2)

/-- The writes of replayed entries do not cancel other entries. -/
def Team.replayed (t : Team) (ws : List Wr) (rest : List LogEntry) : Team :=
  { ({ t with log := [] } : Team).put ws with log := rest, areaDirty := true }

/-- `logre` (R341): a release, then every logged access in order, under a SEQ of its own (R328; DEDUCED, assumption 110). -/
def execLogre (f : DA) (s : State) : Out :=
  let d := f.d.toNat
  issue s (fun cx => cx.predRefs f.c) (fun cx => if cx.takes f.c then [.g d] else []) fun cx =>
    if !(cx.takes f.c) then .next (cx.next s 8)
    else
      match cx.closeTeam with
      | none => stall s reasonOperand
      | some cx =>
        cx.waitPoint s .core (
          if cx.t.record.ovf then .next (cx.write s 8 [.g d 2])
          else if cx.t.log.isEmpty then .next (cx.write s 8 [.g d 3])
          else if !(cx.seqFree s) then stall s reasonMemory
          else
            let on := cx.takeSeq s 0
            let s0 := s.setCore on.c on.core
            let id := { s0.identOf on.c on.slot with owner := on.owner s, tag := (reqTag on.c on.q on.slot on.seq).toNat }
            let (s', ws, stop) := s0.replayLog on id on.t.log
            let cx := on.reload s'
            match stop with
            | .done => .next (({ cx with t := (cx.t.replayed ws []).dropLog } : Cx).write s' 8 [.g d 0])
            | .waits rest =>
              if ws.isEmpty ∧ rest.length = on.t.log.length ∧ s'.rbuf.length = s.rbuf.length then stall s reasonMemory
              else .next (s'.setCore cx.c (({ cx with t := cx.t.replayed ws rest } : Cx).hung s.nextId).core).bump
            | .bad [] _ => .next (cx.write s' 8 [.g d 0])
            | .bad (e :: es) cls =>
              let lane : BitVec 16 := if e.flags.getLsbD 0 then noLane else e.lane
              let t := (cx.t.replayed ws (e :: es)).recordFault cls (reqTag cx.c cx.q cx.slot e.seq) lane e.va.toNat (e.pc.setWidth 56) false
              .next (({ cx with t := t } : Cx).write (s'.count (s'.partOf (cx.c / 32)) 7 1) 8 [.g d 1]))

/-! ## Context save and load (R349 to R351) -/

/-- The team of a slot named by gC[5:0]: the agent slot and retired teams are none (R349). -/
def Core.named (k : Core) (slot : Nat) : Option Team :=
  if slot ≥ 32 then none
  else match k.team? slot with
    | some t => if t.mode = TMode.retired then none else some t
    | none => none

def Team.isHalted (t : Team) : Bool := match t.mode with
  | .halted _ _ => true
  | _ => false

/-- A refusal of an image access on its way to the issuer (R350, R330). -/
def Cx.refuseImage (cx : Cx) (s : State) (cls : BitVec 8) (va : Nat) : Cx × State :=
  let f : Refused := ⟨s.nextId, cx.slot, cx.seq, cx.x.pc, cls, va / 32 * 32, noLane, false, []⟩
  ({ cx with k := { cx.k with refused := cx.k.refused ++ [f] } }, { s with nextId := s.nextId + 1 })

/-- Writes an image: status 0, or 4 with a deferred fault where a sector is refused. -/
def Cx.putImage (s : State) (cx : Cx) (d : Reg) (va : Nat) (bytes : List Byte) : Out :=
  if !(cx.seqFree s) then stall s reasonMemory
  else
    let cx := cx.takeSeq s 0
    let s0 := s.setCore cx.c cx.core
    let id := { s0.identOf cx.c cx.slot with owner := cx.owner s, tag := (reqTag cx.c cx.q cx.slot cx.seq).toNat }
    let (s', bad) := s0.homeWrite id va bytes
    cx.gate s s' fun cx s =>
      let s := s.forget cx.c id va bytes.length
      let cx := { cx with k := s.core cx.c }
      match bad with
      | none => .next (cx.write s 8 [.g d.toNat 0])
      | some (cls, a) => let r := cx.refuseImage s cls a; .next (r.1.write r.2 8 [.g d.toNat 4])

/-- `ctxsv` (R350): the image of the issuer's own team as it stands afterwards, or with `.s` of a halted team. -/
def execCtxsv (f : DACX) (s : State) : Out :=
  let d := f.d.toNat
  issue s (fun cx => cx.onceReads f.c (.g f.a.toNat :: if f.x then [.g f.cc.toNat] else []))
    (fun cx => if cx.takes f.c then [.g d] else []) fun cx =>
      let va := (cx.v.rg f.a.toNat).toNat
      if !(cx.takes f.c) then .next (cx.next s 8)
      else if va % 64 ≠ 0 then .next (cx.trap s 0x03 0 noLane (BitVec.ofNat 64 va) 0)
      else if f.x then
        let slot := (cx.v.rg f.cc.toNat).toNat % 64
        match cx.k.named slot with
        | none => .next (cx.write s 8 [.g d 1])
        | some t => if t.isHalted then cx.putImage s f.d va (cx.k.image slot t true true) else .next (cx.write s 8 [.g d 2])
      else if !(cx.k.leaseOk cx.slot va (imageSize cx.t.n cx.t.nregs true) false true) then
        .next (cx.trap s 0x04 0 noLane (BitVec.ofNat 64 va) 0)
      else
        match cx.close with
        | none => stall s reasonOperand
        | some cx =>
          cx.waitPoint s .core (
            if !(cx.core.single cx.q cx.slot) then .next (cx.write s 8 [.g d 2])
            else
              let after := { (cx.takeSeq s 0) with x := { cx.x with pc := cx.x.pc + 8 } }
              let t := after.t.put [.g d 1]
              cx.putImage s f.d va (({ after with t := t } : Cx).core.image cx.slot t false true))

/-- Loads an image of a team into its slot: status 3 when it is malformed or the quadrant has too few entries. -/
def Core.loadImage (k : Core) (slot : Nat) (t : Team) (bs area : List Byte) (area? : Bool) : Option Core :=
  let ws := match k.lslotOf slot with
    | some l => l.launch.w
    | none => []
  match t.ofImage bs area area? (ws[0]?.getD 0) (ws[1]?.getD 0) with
  | none => none
  | some (t', es) => (k.unseat slot t).seat slot t' es

/-- Makes a halted team eligible; the fragment that `brk` stopped goes on after it (R343, R350). A traced one writes its SYNC (R418). -/
def Core.resumeTeam (k : Core) (slot : Nat) : Core :=
  match k.team? slot with
  | none => k
  | some t =>
    match t.mode with
    | .halted _ skip =>
      let k := match skip with
        | some (e, pc) => k.setEntry t.quad e { k.entry t.quad e with pc := pc }
        | none => k
      (Core.settle settleFuel (k.setTeam slot { t with mode := .run }) t.quad slot).syncTeam slot
    | _ => k

/-- The halted team goes on at the PCs of its image: what `brk` had set aside is gone (R350). -/
def Core.clearSkip (k : Core) (slot : Nat) : Core :=
  match k.team? slot with
  | none => k
  | some t => match t.mode with
    | .halted cls _ => k.setTeam slot { t with mode := .halted cls none }
    | _ => k

/-- `ctxld` (R350): a halted team's state and context area from an image, read under a SEQ of its own (R328; DEDUCED, assumption 110);
`.go` resumes it. -/
def execCtxld (f : DACX) (s : State) : Out :=
  let d := f.d.toNat
  issue s (fun cx => cx.onceReads f.c [.g f.a.toNat, .g f.cc.toNat]) (fun cx => if cx.takes f.c then [.g d] else []) fun cx =>
    let va := (cx.v.rg f.a.toNat).toNat
    let slot := (cx.v.rg f.cc.toNat).toNat % 64
    if !(cx.takes f.c) then .next (cx.next s 8)
    else if va % 64 ≠ 0 then .next (cx.trap s 0x03 0 noLane (BitVec.ofNat 64 va) 0)
    else
      match cx.k.named slot with
      | none => .next (cx.write s 8 [.g d 1])
      | some t =>
        if !t.isHalted then .next (cx.write s 8 [.g d 2])
        else if !(cx.seqFree s) then stall s reasonMemory
        else
          let cx := cx.takeSeq s 0
          let s0 := s.setCore cx.c cx.core
          let id := { s0.identOf cx.c cx.slot with owner := cx.owner s, tag := (reqTag cx.c cx.q cx.slot cx.seq).toNat }
          let (s', r) := s0.homeReadAt id va (imageSize t.n t.nregs true)
          cx.gate s s' fun cx s =>
            match r with
            | .inr (cls, a) => let r := cx.refuseImage s cls a; .next (r.1.write r.2 8 [.g d 4])
            | .inl bs =>
              match cx.k.loadImage slot t bs (bs.drop (imageSize t.n t.nregs false)) true with
              | none => .next (cx.write s 8 [.g d 3])
              | some k =>
                let k := k.clearSkip slot
                .next (({ cx with k := if f.x then k.resumeTeam slot else k } : Cx).write s 8 [.g d 0])

/-! ## Halt and resume (R344, R345, R350) -/

/-- The broadcast of a block has been acknowledged. -/
def Core.blockAcked (k : Core) (blk : Nat) : Bool := match k.block? blk with
  | some b => b.acked
  | none => true

/-- `halt` (R350): asks the stop, or the broadcast, and completes when it is acknowledged. -/
def execHalt (f : DACX) (s : State) : Out :=
  let d := f.d.toNat
  issue s (fun cx => cx.onceReads f.c [.g f.cc.toNat]) (fun cx => if cx.takes f.c then [.g d] else []) fun cx =>
    let slot := (cx.v.rg f.cc.toNat).toNat % 64
    if !(cx.takes f.c) then .next (cx.next s 8)
    else
      match cx.k.named slot with
      | none => .next (cx.write s 8 [.g d 1])
      | some t =>
        if cx.x.snap.isSome then
          if t.isHalted && (!f.x || cx.k.blockAcked t.block) then .next (cx.write s 8 [.g d 0]) else stall s reasonOperand
        else if t.isHalted then .next (cx.write s 8 [.g d 2])
        else
          let k := ({ cx with x := { cx.x with snap := some 0, stall := none } } : Cx).core
          .next (s.setCore cx.c (if f.x then (k.broadcast t.block 0).poll else k.askStop slot (.halt 0 none))).bump

/-- A block's broadcast is over: its stream goes on, and a later broadcast starts anew. -/
def Core.endBroadcast (k : Core) (blk : Nat) : Core :=
  let k := match k.block? blk with
    | some b => k.setBlock blk { b with bcast := none, acked := false, live := [] }
    | none => k
  { k with seqs := k.seqs.map fun q => if q.block = some blk then { q with hold := false } else q }

/-- `resm` (R350): every saved fragment of a halted team, or of each halted team of its block, is eligible again. -/
def execResm (f : DACX) (s : State) : Out :=
  let d := f.d.toNat
  issue s (fun cx => cx.onceReads f.c [.g f.cc.toNat]) (fun cx => if cx.takes f.c then [.g d] else []) fun cx =>
    let slot := (cx.v.rg f.cc.toNat).toNat % 64
    if !(cx.takes f.c) then .next (cx.next s 8)
    else
      match cx.k.named slot with
      | none => .next (cx.write s 8 [.g d 1])
      | some t =>
        if !t.isHalted then .next (cx.write s 8 [.g d 2])
        else
          let k := if f.x then ((cx.k.teamsOf t.block).foldl Core.resumeTeam cx.k).endBroadcast t.block else cx.k.resumeTeam slot
          .next (({ cx with k := k } : Cx).write s 8 [.g d 0])

/-- A broadcast is acknowledged when every team has stopped, every session of the block has ended and its stores have left the
buffer and its refusals have been recorded; its stream has no operation in flight (R345). -/
def execBroadcastAcknowledged (core block : Nat) (s : State) : Out :=
  let k := s.core core
  match k.block? block with
  | none => .refused .eventNotDue
  | some b =>
    let teams := k.teamsOf block
    let stopped := teams.all fun i => match k.team? i with
      | some t => t.isHalted || decide (t.mode = TMode.retired)
      | none => true
    let busy := (k.stores.any fun e => teams.contains e.slot) || (k.refused.any fun r => teams.contains r.slot) || s.blockSessions core block ||
      k.seqs.any fun q => decide (q.block = some block) && !q.flight.isEmpty
    if b.bcast.isNone ∨ b.acked ∨ !stopped ∨ busy then .refused .eventNotDue
    else .next (s.setCore core (k.setBlock block { b with acked := true })).bump

end Sys2Proof.Machine
end

