-- ==== Sys2Proof/Machine/TeamWide.lean ====
section
/-! DEFINITION. Team-wide work of majors 0x1E to 0x22: moves between the files, votes and counts, shuffles, reductions,
scans and row statistics (R150 to R156, R41). -/

namespace Sys2Proof.Machine

/-- An instruction that acts once for the fragment under its gp predicate and reads lanes or g registers. -/
def onceOp (c : Ctl) (late : Bool) (len : Nat) (rds wrs : Cx → List RegRef) (f : Cx → List Wr) (s : State) : Out :=
  issue s (fun cx => cx.onceReads c (rds cx)) (fun cx => if cx.takes c then wrs cx else []) fun cx =>
    if cx.takes c then .next (cx.writeLate s len (if late then c.la.toNat else 0) (wrs cx) (f cx))
    else .next (cx.writeLate s len (if late then c.la.toNat else 0) [] [])

/-! ## Moves between the files (R150) -/

def execGtov (f : DAX) (s : State) : Out :=
  regOp f.c false 8 (fun _ => [.g f.a.toNat]) (fun L => regRefs false L f.x f.d)
    (fun cx L => dstWr false L (if f.x then .wide else .z) f.d (cx.v.rg f.a.toNat).toNat) s

def execPbc (f : DAX) (s : State) : Out :=
  regOp f.c false 8 (fun _ => [.gp f.a.toNat]) (fun L => [.p L f.d.toNat])
    (fun cx L => [.p L f.d.toNat (cx.v.pg f.a.toNat != f.x)]) s

/-- A lane index operand names an active lane of the fragment. -/
def Cx.laneAt (cx : Cx) (i : Int) : Option Nat :=
  if 0 ≤ i ∧ i < cx.v.n ∧ cx.x.mask.getLsbD i.toNat then some i.toNat else none

/-- `vtog` reads the lane whether or not its predicate is true; a lane that is not active gives 0. -/
def execVtog (f : DABX) (s : State) : Out :=
  onceOp f.c false f.b.len
    (fun cx => f.b.refs true 0 false ++ match cx.laneAt (cx.bval true 0 false .n f.b) with
      | some i => regRefs false i f.x f.a
      | none => [])
    (fun _ => [.g f.d.toNat])
    (fun cx => match cx.laneAt (cx.bval true 0 false .n f.b) with
      | some i => [.g f.d.toNat (BitVec.ofNat 64 (cx.v.rd false i f.x f.a))]
      | none => [.g f.d.toNat 0]) s

/-- `ffr` waits until every earlier instruction of the fragment has written its destination (R31). -/
def execFfr (f : DA) (s : State) : Out :=
  issueClosed s 8 (·.takes f.c) (fun cx => cx.predRefs f.c) (fun cx => if cx.takes f.c then [.g f.d.toNat] else []) fun _ cx =>
    .next (cx.write s 8 [.g f.d.toNat (cx.t.fflags.setWidth 64)])

def execFfc (f : DB) (s : State) : Out :=
  issueClosed s f.b.len (·.takes f.c) (fun cx => cx.onceReads f.c (f.b.refs true 0 false)) (fun _ => []) fun old cx =>
    let m := BitVec.ofNat 32 (old.bval true 0 false .n f.b)
    .next (({ cx with t := { cx.t with fflags := w1cFflags cx.t.fflags m } } : Cx).next s f.b.len)

/-! ## Votes, ballots and counts (R151) -/

/-- Active lanes whose predicate holds, inverted on request. -/
def Cx.voters (cx : Cx) (a : Reg) (inv : Bool) : List Nat := cx.active.filter fun L => (cx.v.lane L).pr a.toNat != inv
/-- The predicates a vote reads. -/
def Cx.voteRefs (cx : Cx) (a : Reg) : List RegRef := if a = 7 then [] else cx.active.map fun L => .p L a.toNat

/-- A vote into a gp predicate or a g register. -/
def voteOp (f : DAX) (dst : RegRef) (fn : Cx → List Nat → Wr) (s : State) : Out :=
  onceOp f.c true 8 (fun cx => cx.voteRefs f.a) (fun _ => [dst]) (fun cx => [fn cx (cx.voters f.a f.x)]) s

def execVany (f : DAX) (s : State) : Out := voteOp f (.gp f.d.toNat) (fun _ ls => .gp f.d.toNat (!ls.isEmpty)) s
def execVall (f : DAX) (s : State) : Out := voteOp f (.gp f.d.toNat) (fun cx ls => .gp f.d.toNat (decide (ls = cx.active))) s
def execVcnt (f : DAX) (s : State) : Out := voteOp f (.g f.d.toNat) (fun _ ls => .g f.d.toNat (BitVec.ofNat 64 ls.length)) s
def execVfirst (f : DAX) (s : State) : Out :=
  voteOp f (.g f.d.toNat) (fun _ ls => .g f.d.toNat (match ls with | [] => BitVec.ofNat 64 (2 ^ 64 - 1) | L :: _ => BitVec.ofNat 64 L)) s

/-- `ballot`: 64 lanes from lane 64 b; 0 from b = 16 up. -/
def execBallot (f : DABX) (s : State) : Out :=
  onceOp f.c true f.b.len (fun cx => f.b.refs true 0 false ++ cx.voteRefs f.a) (fun _ => [.g f.d.toNat])
    (fun cx =>
      let b := cx.bval true 0 false .n f.b
      [.g f.d.toNat (if b ≥ 16 then 0 else (maskOf (cx.voters f.a f.x)).extractLsb' (64 * b) 64)]) s

/-- `vuni`: the same bits in every active lane. -/
def execVuni (f : DAX) (s : State) : Out :=
  onceOp f.c true 8 (fun cx => cx.active.flatMap fun L => regRefs false L f.x f.a) (fun _ => [.gp f.d.toNat])
    (fun cx =>
      let xs := cx.active.map fun L => cx.v.rd false L f.x f.a
      [.gp f.d.toNat (xs.all fun x => decide (x = xs.headD 0))]) s

/-- `vrank`: active lanes below with the predicate, counted whether or not they take part. -/
def execVrank (f : DAX) (s : State) : Out :=
  issue s (fun cx => cx.predRefs f.c ++ if (cx.part f.c).isEmpty then [] else cx.voteRefs f.a) (fun cx => (cx.part f.c).map fun L => .v L f.d.toNat) fun cx =>
    let vs := cx.voters f.a f.x
    .next (cx.writeLate s 8 f.c.la.toNat ((cx.part f.c).map fun L => .v L f.d.toNat)
      ((cx.part f.c).map fun L => .v L f.d.toNat (BitVec.ofNat 32 (vs.filter (· < L)).length)))

/-! ## Shuffles (R152) -/

/-- A shuffle: `src` gives the source lane from the lane id and the index operand. The predicate named is a destination of R60
also where it is p7, which discards the write (DESIGN CHOICE). -/
def shuffleOp (f : DABCX) (src : Nat → Nat → Int) (s : State) : Out :=
  let from? := fun (cx : Cx) L => cx.laneAt (src L (cx.bval false L false .n f.b))
  let wrs := fun (cx : Cx) => (cx.part f.c).flatMap fun L => regRefs false L f.x f.d ++ [RegRef.p L f.cc.toNat]
  issue s
    (fun cx => cx.predRefs f.c ++ (cx.part f.c).flatMap fun L =>
      f.b.refs false L false ++ regRefs false ((from? cx L).getD L) f.x f.a)
    wrs fun cx =>
      .next (cx.writeLate s f.b.len f.c.la.toNat (wrs cx) ((cx.part f.c).flatMap fun L =>
        dstWr false L (if f.x then .wide else .z) f.d (cx.v.rd false ((from? cx L).getD L) f.x f.a) ++
          [Wr.p L f.cc.toNat (from? cx L).isSome]))

def execShfi (f : DABCX) : State → Out := shuffleOp f fun _ b => b
def execShfx (f : DABCX) : State → Out := shuffleOp f fun L b => ((L ^^^ b : Nat) : Int)
def execShfu (f : DABCX) : State → Out := shuffleOp f fun L b => (L : Int) - b
def execShfd (f : DABCX) : State → Out := shuffleOp f fun L b => (L : Int) + b

/-! ## Reductions and scans (R41, R153, R154) -/

/-- One stride of R41: neighbours of the list combine; an absent one is passed over. -/
def strideStep (op : Nat → Nat → Res) : List (Option Nat) → List (Option Nat) × Flags
  | [] => ([], 0)
  | [a] => ([a], 0)
  | a :: b :: rest =>
    let r := strideStep op rest
    match a, b with
    | some x, some y => let z := op x y; (some z.bits :: r.1, r.2 ||| z.fl)
    | none, some y => (some y :: r.1, r.2)
    | x, none => (x :: r.1, r.2)

/-- The strides of R41 until one value is left, at most `fuel` of them. -/
def strideTree (op : Nat → Nat → Res) : Nat → List (Option Nat) → Flags → Option Nat × Flags
  | 0, xs, fl => (xs.headD none, fl)
  | n + 1, xs, fl =>
    if xs.length ≤ 1 then (xs.headD none, fl)
    else let r := strideStep op xs; strideTree op n r.1 (fl ||| r.2)

/-- R41 over the lanes 0 to n - 1 of which `inc` names the included ones. -/
def reduceLanes (op : Nat → Nat → Res) (n : Nat) (inc : Nat → Bool) (x : Nat → Nat) : Option Nat × Flags :=
  strideTree op 11 ((List.range n).map fun L => if inc L then some (x L) else none) 0

/-- The kind of a reduction type (R153). -/
def redKind : RedTy → NKind
  | .s32 => .int .s 32 | .n32 => .int .n 32 | .f32 => .flt .f32 | .f64 => .flt .f64 | .s64 => .int .s 64 | .n64 => .int .n 64

/-- Two values combined (R154). -/
def redPair (op : RedOp) (k : NKind) (md : RMode) (a b : Nat) : Res :=
  match k with
  | .flt f =>
    match op with
    | .min => f.minmax false md.ftz a b
    | .max => f.minmax true md.ftz a b
    | _ => f.arith .add md a b 0
  | .int sg n =>
    match op with
    | .add => plain ((a + b) % 2 ^ n)
    | .min => plain (if intVal sg n a ≤ intVal sg n b then a else b)
    | .max => plain (if intVal sg n a ≥ intVal sg n b then a else b)
    | .and => plain (a &&& b)
    | .or => plain (a ||| b)
    | .xor => plain (a ^^^ b)

/-- Identities (R153). -/
def redIdentity (op : RedOp) (k : NKind) : Nat :=
  match op, k with
  | .min, .flt f => f.infPat
  | .max, .flt f => f.pack true f.infPat
  | .min, .int sg n => wrapN n (intMax sg n)
  | .max, .int sg n => wrapN n (intMin sg n)
  | .and, .int _ n => 2 ^ n - 1
  | _, _ => 0

/-- The value delivered: the identity when no lane is included; a NaN is canonical (R154). -/
def redValue (op : RedOp) (k : NKind) (r : Option Nat) : Nat :=
  match r with
  | none => redIdentity op k
  | some x => match k with
    | .flt f => if (f.decode x).isNaN then f.nan else x
    | _ => x

/-- The extension of a reduction's result in a g register (R147). -/
def redExt (t : RedTy) : Ext := match t with | .s32 => .s | .n32 => .z | .f32 => .z | _ => .wide

def execRed (f : RedF) (s : State) : Out :=
  let w := f.ty.wide
  onceOp f.c true 8 (fun cx => cx.active.flatMap fun L => regRefs false L w f.a) (fun _ => [.g f.d.toNat])
    (fun cx =>
      let r := reduceLanes (redPair f.op (redKind f.ty) ⟨f.rm, f.ftz, false⟩) cx.v.n (fun L => cx.x.mask.getLsbD L)
        (fun L => cx.v.rd false L w f.a)
      dstWr true 0 (redExt f.ty) f.d (redValue f.op (redKind f.ty) r.1) ++ [.ff r.2]) s

def execScan (f : RedF) (s : State) : Out :=
  let w := f.ty.wide
  regOp f.c true 8 (fun L => regRefs false L w f.a) (fun L => regRefs false L w f.d)
    (fun cx L =>
      let ls := cx.part f.c
      let r := reduceLanes (redPair f.op (redKind f.ty) ⟨f.rm, f.ftz, false⟩) cx.v.n
        (fun M => ls.contains M && (if f.ex then decide (M < L) else decide (M ≤ L))) (fun M => cx.v.rd false M w f.a)
      dstWr false L (if w then .wide else .z) f.d (redValue f.op (redKind f.ty) r.1) ++ [.afl L r.2]) s

/-! ## Row statistics (R155, R156) -/

/-- t(L) of R156 with its flags. -/
def rowTerm (m x : Nat) : Res :=
  let f := Fmt.f32
  let vx := f.decode x
  let vm := f.decode m
  if vx.isNaN then f.nanRes (nvIf vx.sNaN)
  else if m = f.pack true f.infPat then plain 0
  else if vx.eqV vm then plain f32One
  else if m = f.infPat then plain 0
  else special .exp2 f false (f.arith .sub {} x m 0).bits

/-- M, S and the flags of one row of n lanes (R156). -/
def rowStat (n : Nat) (inc : Nat → Bool) (x : Nat → Nat) : Nat × Nat × Flags :=
  let ls := (List.range n).filter inc
  match ls with
  | [] => (0xFF800000, 0, 0)
  | L :: rest =>
    let m0 := rest.foldl (fun m M => (Fmt.f32.minmax true false m (x M)).bits) (x L)
    let m := if (Fmt.f32.decode m0).isNaN then Fmt.f32.nan else m0
    let r := reduceLanes (fun a b => Fmt.f32.arith .add {} a b 0) n inc fun M => (rowTerm m (x M)).bits
    let fl := ls.foldl (fun a M => a ||| (rowTerm m (x M)).fl) r.2
    (m, redValue .add (.flt .f32) r.1, fl)

/-- `rstat` (R155): one row of every active lane into gD, or rows of N lanes into pairs. -/
def execRstat (f : RstatF) (s : State) : Out :=
  if f.c.w then
    onceOp f.c true 8 (fun cx => cx.active.flatMap fun L => regRefs false L false f.a) (fun _ => [.g f.d.toNat])
      (fun cx =>
        let r := rowStat cx.v.n (fun L => cx.x.mask.getLsbD L) fun L => cx.v.rd false L false f.a
        [.g f.d.toNat (BitVec.ofNat 64 (r.2.1 * 2 ^ 32 + r.1)), .ff r.2.2]) s
  else
    regOp f.c true 8 (fun L => regRefs false L false f.a) (fun L => regRefs false L true f.d)
      (fun cx L =>
        let ls := cx.part f.c
        let n := 2 ^ f.wn.toNat
        let base := L / n * n
        let r := rowStat n (fun i => ls.contains (base + i)) fun i => cx.v.rd false (base + i) false f.a
        dstWr false L .wide f.d (r.2.1 * 2 ^ 32 + r.1) ++ [.afl L r.2.2]) s

end Sys2Proof.Machine
end

