-- ==== Sys2Proof/Machine/Matrix.lean ====
section
/-! DEFINITION. The matrix engine and its streams (R227 to R253): starting a stream, accumulators, matrix operations with
exact sums and audit (R36 to R46), epilogue output, row statistics, pins, and the surge arbiter. An operation reads its
operands and writes its accumulator in one step, its completion. -/

namespace Sys2Proof.Machine

/-! ## Accumulators (R227, R228) -/

def tileN : Nat := 128
/-- Word of a flat index 128 i + j. -/
def AccReg.word (a : AccReg) (i : Nat) : Word := match a.words.find? fun w => decide (w.1 = i) with | some w => w.2 | none => 0
/-- An accumulator from its words; zero words are not listed. -/
def AccReg.ofFn (tag : BitVec 2) (f : Nat → Word) : AccReg :=
  ⟨tag, (List.range (tileN * tileN)).filterMap fun i => if f i = 0 then none else some (i, f i)⟩

def Core.acc (k : Core) (p : Nat) : AccReg := k.accs[p]?.getD AccReg.empty
def Core.setAcc (k : Core) (p : Nat) (a : AccReg) : Core := { k with accs := k.accs.set p a }

/-- First physical accumulator and number of a block's grant. -/
def Core.grant (k : Core) (blk : Nat) : Nat × Nat :=
  match (k.block? blk).bind (·.seq) with
  | some (_, first, n) => (first, n)
  | none => (0, 0)

/-- Context of a block. -/
def Core.ctxOf (k : Core) (blk : Nat) : Option Nat := ((k.block? blk).bind (·.seq)).map (·.1)

/-- aD and its partner can hold an f64 accumulator. -/
def Core.f64Ok (k : Core) (blk d : Nat) : Bool := decide (d % 2 = 0 ∧ d + 1 < (k.grant blk).2)

/-- An f64 element of the pair starting at a physical accumulator. -/
def Core.pairBits (k : Core) (p i : Nat) : Nat := ((k.acc p).word i).toNat + ((k.acc (p + 1)).word i).toNat * 2 ^ 32

/-! ## Starting a stream, reading its status (R232, R233) -/

/-- Waits until every store and atomic that the team issued before this instruction has been accepted or has faulted. -/
def Cx.waitMine (s : State) (cx : Cx) (k : Out) : Out :=
  let snap := cx.x.snap.getD s.nextId
  let mine := fun (slot id : Nat) => decide (id < snap ∧ slot = cx.slot)
  if (cx.k.stores.any fun e => mine e.slot e.id) || (cx.k.refused.any fun e => mine e.slot e.id) ||
      (cx.k.reqs.any fun r => mine r.slot r.id && r.kind.faults) || (cx.k.dqs.any fun d => mine d.slot d.id) ||
      (cx.k.puts.any fun p => mine p.slot p.id) || (cx.k.tbs.any fun d => mine d.slot d.id && decide (d.kind ≠ tbKindWait)) then
    .next (s.setCore cx.c ((s.core cx.c).setEntry cx.q cx.e
      { (s.core cx.c).entry cx.q cx.e with snap := some snap, stall := some (s.epoch, reasonEngine) }))
  else k

/-- `mstart`: the fork of the stream (R232, R233). -/
def execMstart (f : DAB) (s : State) : Out :=
  issue s
    (fun cx => cx.onceReads f.c (((List.range 16).map fun i => RegRef.g (f.a.toNat + i)) ++ f.b.refs true 0 true))
    (fun cx => if cx.takes f.c then [.g f.d.toNat] else []) fun cx =>
      let entry := cx.bval true 0 true .n f.b
      if !(cx.takes f.c) then .next (cx.next s f.b.len)
      else if entry % 4 ≠ 0 then .next (cx.illegal s 0xA)
      else
        match cx.k.ctxOf cx.t.block with
        | none => .next (cx.write s f.b.len [.g f.d.toNat 2])
        | some i =>
          let q := cx.k.seqs[i]?.getD Seq.empty
          if seqState q.status = 1 then .next (cx.write s f.b.len [.g f.d.toNat 1])
          else cx.waitMine s (
            let reg := fun j => cx.v.rg (f.a.toNat + j)
            let q' := { q with
              pc := BitVec.ofNat 56 entry, x := (List.range 8).map reg, c := (List.range 8).map fun j => reg (8 + j)
              status := 0x1000, audit := none, count := 0, bw := none, stall := none, stopping := none }
            .next (({ cx with k := cx.k.setSeq i q' } : Cx).write s f.b.len [.g f.d.toNat 0]))

/-- `mstq`: the status word; reading STATE 2 joins the stream (R233). -/
def execMstq (f : DAX) (s : State) : Out :=
  issue s (fun cx => cx.predRefs f.c) (fun cx => if cx.takes f.c then [.g f.d.toNat] else []) fun cx =>
    if !(cx.takes f.c) then .next (cx.next s 8)
    else
      match cx.k.ctxOf cx.t.block with
      | none => .next (cx.write s 8 [.g f.d.toNat 0])
      | some i =>
        let q := cx.k.seqs[i]?.getD Seq.empty
        let cx := if f.x then { cx with k := cx.k.setSeq i { q with status := q.status &&& 0xFFFFFF00 } } else cx
        let s := cx.write s 8 [.g f.d.toNat (q.status.setWidth 64)]
        .next (if seqState q.status = 2 then s.acquire cx.c else s)

/-! ## Stream arithmetic (R235) -/

/-- The 64-bit B of `xadd` and `cset`: a register, or an immediate with the given extension. -/
def Sx.bWide (sgn : Bool) (reg : Reg → DWord) (b : BOp) : DWord :=
  match b with
  | .reg r => reg r
  | .imm v => if sgn then v.signExtend 64 else v.setWidth 64
  | .simm v => if sgn then v.signExtend 64 else v.setWidth 64
  | .lit v => if sgn then v.signExtend 64 else v.setWidth 64
  | .bank _ => 0

def Sx.setX (x : Sx) (r : Reg) (v : DWord) : Sx := { x with q := { x.q with x := x.q.x.set r.toNat v } }

def execXadd (f : DAB) (s : State) : Out :=
  withStream s fun x => .next ((x.setX f.d (x.rx f.a + Sx.bWide true x.rx f.b)).next s f.b.len)

def execCset (f : DB) (s : State) : Out :=
  withStream s fun x =>
    .next (({ x with q := { x.q with c := x.q.c.set f.d.toNat (Sx.bWide false x.rc f.b) } } : Sx).next s f.b.len)

/-- `maudit`: 0 to 30 enables the audit, 31 disables it (R246). -/
def execMaudit (f : CodeF) (s : State) : Out :=
  withStream s fun x =>
    .next (({ x with q := { x.q with audit := if f.code.toNat ≤ 30 then some f.code.toNat else none } } : Sx).next s 8)

/-! ## Issue of operations (R231, R236, R237) -/

/-- The accumulators an operation in flight reads and writes: an f64 one has its partner too (R227, R241). -/
def MatOp.accs (o : MatOp) : List Nat :=
  if (o.isLoad && decide (o.ty = .f64)) || (!o.isLoad && decide (pairing o.fa o.fb = some .f64)) then [o.acc, o.acc + 1]
  else [o.acc]

/-- Two operations use one accumulator, so that they take effect on it in stream order (R248). -/
def MatOp.meets (a b : MatOp) : Bool := a.accs.any (b.accs.contains ·)

/-- An operation in flight may still write the accumulator (R248). -/
def Sx.accBusy (x : Sx) (d : Nat) : Bool := x.q.flight.any fun o => o.accs.contains d

/-- Stops on the first address that is not a multiple of its unit (CAUSE 4), then on the first extent without a lease (CAUSE 3). For a
misaligned pitch, which is no address, the record's FVA holds the pitch (DESIGN CHOICE, log 127). -/
def Sx.checked (s : State) (x : Sx) (aligns : List (Nat × Nat)) (exts : List (Nat × Nat × Bool)) (k : Out) : Out :=
  match aligns.find? fun a => decide (a.1 % a.2 ≠ 0) with
  | some a => x.stop s 4 4 0 0x03 (BitVec.ofNat 64 a.1)
  | none =>
    match exts.find? fun e => !(x.leased e.1 e.2.1 (!e.2.2) e.2.2) with
    | some e => x.stop s 4 3 0 0x04 (BitVec.ofNat 64 e.1)
    | none => k

/-- Row pitch and the high half of xC. -/
def lo32 (x : DWord) : Nat := x.toNat % 2 ^ 32
def hi32 (x : DWord) : Nat := x.toNat / 2 ^ 32

/-- Addresses of the blocks of A, row by row, and of B (R236). -/
def blocksA (xa : DWord) (pa nb : Nat) : List Nat :=
  (List.range tileN).flatMap fun i => (List.range nb).map fun b => (xa.toNat + i * pa + 64 * b) % 2 ^ 64
def blocksB (xb : DWord) (pb : Nat) : List Nat := (List.range tileN).map fun j => (xb.toNat + j * pb) % 2 ^ 64

/-- Blocks of A per row for two format codes: 1 where they form no pairing (R236, R241). -/
def rowBlocks (fa fb : Nat) : Nat :=
  match pairing fa fb, blkFmt fa, blkFmt fb with
  | some _, some a, some b => b.elems / a.elems
  | _, _, _ => 1

/-- The extents an operation in flight reads (R236, R242). -/
def MatOp.reads (o : MatOp) : List (Nat × Nat) :=
  let rows := (List.range tileN).map fun i => (o.xa.toNat + i * lo32 o.xc) % 2 ^ 64
  if o.isLoad then rows.map fun a => (a, if o.ty = .f64 then 1024 else 512)
  else rows.map (fun a => (a, 64 * rowBlocks o.fa o.fb)) ++ (blocksB o.xb (hi32 o.xc)).map fun a => (a, 64)

/-- Two operations read bytes in common: they read them in stream order, for the stream is one thread (R247, R268). -/
def MatOp.readsMeet (a b : MatOp) : Bool := a.reads.any fun r => b.reads.any fun e => overlaps r.1 r.2 e.1 e.2

/-- An operation in flight still reads bytes of these extents: a later instruction of the thread reads or writes them after it (R247, R268). -/
def Sx.readsPending (x : Sx) (exts : List (Nat × Nat)) : Bool :=
  x.q.flight.any fun o => o.reads.any fun r => exts.any fun e => overlaps r.1 r.2 e.1 e.2

/-- Pin need of lines by slice, ascending: 128 bytes a line; lines homed elsewhere need none (R239). -/
def State.pinNeed (s : State) (part : Nat) (vas : List Nat) : List (Nat × Nat) :=
  let lines := (vas.map fun a => a / 128 * 128).eraseDups
  let homes := lines.filterMap fun a => match s.home part a with | .here i => some i | .away _ _ => none
  (List.range 12).filterMap fun i =>
    let n := (homes.filter (· = i)).length
    if n = 0 then none else some (i, 128 * n)

/-- Operations whose pins are there, in order: one that needs none is ready once every earlier one is (R239). -/
def readyUp (now : Nat) : List MatOp → List MatOp
  | [] => []
  | o :: os =>
    if o.ready.isSome then o :: readyUp now os
    else if o.need.isEmpty then { o with ready := some now } :: readyUp now os
    else o :: os

/-- An operation enters flight: it asks for its first pins, or is ready at once. -/
def Sx.enter (s : State) (x : Sx) (o : MatOp) (vas : List Nat) (len : Nat) : Out :=
  let id := s.identBlk x.c x.blk
  let need := s.pinNeed id.part vas
  let o := { o with id := s.nextId, need := need, ready := none }
  -- a later operation of the context asks only after the earlier ones have their pins
  let first := x.q.flight.all fun p => p.ready.isSome
  let s := { s with nextId := s.nextId + 1 }
  let s := match need with
    | (i, n) :: _ => if first then
        let sl := s.slice i
        s.setSlice i { sl with pins := sl.pins ++ [⟨x.c, x.i, o.id, n, false⟩] }
      else s
    | [] => s
  .next (({ x with q := { x.q with flight := readyUp x.k.cyc.toNat (x.q.flight ++ [o]) } } : Sx).next s len)

/-- A block's first bytes as the reference code; an unreadable one gives 0, and its operation stops later (R38, R238). -/
def State.blockCode (s : State) (id : Ident) (va : Nat) : State × Nat :=
  match s.homeNat id va 1 with
  | (s, .inl x) => (s, x)
  | (s, .inr _) => (s, 0)

/-- The name under which a stream's instruction reaches other devices. -/
def streamOwner (c i : Nat) : Nat := 2 ^ 60 + 2 * c + i

/-- `mmul` (R240): post-increments apply at issue. -/
def execMmul (f : MmulF) (s : State) : Out :=
  withStream s fun x =>
    let xa := x.rx f.a
    let xb := x.rx f.b
    let xc := x.rx f.cc
    let pa := lo32 xc
    let pb := hi32 xc
    if f.d.toNat ≥ (x.k.grant x.blk).2 then x.illegal s 7
    else
      let aligns := [(xa.toNat, 64), (xb.toNat, 64), (pa, 64), (pb, 64)]
      let extB := (blocksB xb pb).map fun a => (a, 64, false)
      x.checked s aligns [(xa.toNat, 64, false)] (x.checked s [] extB (
        let id := { s.identBlk x.c x.blk with owner := streamOwner x.c x.i }
        let (s', fa) := s.blockCode id xa.toNat
        let (s', fb) := s'.blockCode id xb.toNat
        remoteGate s s' id.owner (stall s reasonEngine) fun s =>
        let x := { x with k := s.core x.c }
        let nb := rowBlocks fa fb
        let extA := (List.range tileN).map fun i => ((xa.toNat + i * pa) % 2 ^ 64, 64 * nb, false)
        x.checked s [] extA (
          let o : MatOp := { id := 0, isLoad := false, ty := .f32, acc := f.d.toNat, xa := xa, xb := xb, xc := xc, fa := fa, fb := fb,
                             pc := x.q.pc, need := [], ready := none, started := false }
          let x := if f.ka = 0 then x else x.setX f.a (x.rx f.a + BitVec.ofNat 64 (64 * 2 ^ (f.ka.toNat - 1)))
          let x := if f.kb then x.setX f.b (x.rx f.b + 64) else x
          x.enter s o (blocksA xa pa nb ++ blocksB xb pb) 8)))

/-- The tag of an accumulator type (R227). -/
def accTag : AccTy → BitVec 2
  | .f32 => 0 | .s32 => 1 | .f64 => 2

/-- An accumulator operand of a type is usable: granted, and for f64 with its partner (R242). -/
def Core.accTyOk (k : Core) (blk : Nat) (ty : AccTy) (d : Nat) : Bool :=
  match ty with
  | .f64 => k.f64Ok blk d
  | _ => decide (d < (k.grant blk).2)

def execMzero (f : AccF) (s : State) : Out :=
  withStream s fun x =>
    let d := f.d.toNat
    let p := (x.k.grant x.blk).1 + d
    if !(x.k.accTyOk x.blk f.ty d) then x.illegal s 7
    else if x.accBusy d || (decide (f.ty = .f64) && x.accBusy (d + 1)) then stall s reasonEngine
    else
      let k := x.k.setAcc p ⟨accTag f.ty, []⟩
      let k := if f.ty = .f64 then k.setAcc (p + 1) ⟨3, []⟩ else k
      .next (({ x with k := k } : Sx).next s 8)

/-- `mld` (R242): its rows are 512 bytes, or 1,024 for f64. -/
def execMld (f : AccF) (s : State) : Out :=
  withStream s fun x =>
    let xa := x.rx f.a
    let pitch := lo32 (x.rx f.cc)
    let n := if f.ty = .f64 then 1024 else 512
    let rows := (List.range tileN).map fun i => (xa.toNat + i * pitch) % 2 ^ 64
    if !(x.k.accTyOk x.blk f.ty f.d.toNat) then x.illegal s 7
    else x.checked s [(xa.toNat, 32), (pitch, 32)] (rows.map fun a => (a, n, false)) (
      let o : MatOp := { id := 0, isLoad := true, ty := f.ty, acc := f.d.toNat, xa := xa, xb := 0, xc := x.rx f.cc, fa := 0, fb := 0,
                         pc := x.q.pc, need := [], ready := none, started := false }
      x.enter s o (rows.flatMap fun a => (List.range (n / 32)).map fun i => a + 32 * i) 8)

/-! ## Exact sums (R39, R40) -/

/-- A running exact sum: special values seen, and num * 2^exp. -/
structure ESum where
  nan : Bool := false
  bad : Bool := false
  pos : Bool := false
  neg : Bool := false
  num : Int := 0
  exp : Int := 0

/-- Adds a value. -/
def ESum.add (a : ESum) (v : FV) : ESum :=
  match v with
  | .nan _ => { a with nan := true }
  | .inf true => { a with neg := true }
  | .inf false => { a with pos := true }
  | .fin n m e =>
    if m = 0 then a
    else
      let e' := min a.exp e
      { a with num := a.num * (2 : Int) ^ (a.exp - e').toNat + signed n (m * 2 ^ (e - e').toNat), exp := e' }

/-- Adds a product. -/
def ESum.mac (s : ESum) (a b : FV) : ESum :=
  if invalidProduct a b then { s with bad := true }
  else
    match a, b with
    | .nan _, _ => { s with nan := true }
    | _, .nan _ => { s with nan := true }
    | .fin n1 m1 e1, .fin n2 m2 e2 => s.add (.fin (n1 != n2) (m1 * m2) (e1 + e2))
    | x, y => s.add (.inf (x.isNeg != y.isNeg))

def dotSum (as bs : List FV) : ESum := (as.zip bs).foldl (fun s p => s.mac p.1 p.2) {}

/-- One element of a float operation (R39, R40). -/
def macFloat (f : Fmt) (as bs : List FV) (old : FV) : Res :=
  let s := (dotSum as bs).add old
  if s.bad || (s.pos && s.neg) then f.nanRes fNV
  else if s.nan then f.nanRes 0
  else if s.pos then ⟨f.infRes {} false, 0⟩
  else if s.neg then ⟨f.infRes {} true, 0⟩
  else f.round {} (decide (s.num < 0)) s.num.natAbs s.exp

/-- One element of an s32 operation: the new bits, and whether it saturated (R39). -/
def macInt (as bs : List FV) (old : Int) : Nat × Bool :=
  let s := dotSum as bs
  let x := old + s.num * (2 : Int) ^ s.exp.toNat
  (wrapN 32 (saturate .s 32 x), decide (saturate .s 32 x ≠ x))

/-! ## Conditions of the status word (R250, R251) -/

def condELT : Nat := 128
def condHDR : Nat := 64
def condSAT : Nat := 32
/-- Float flags as conditions: NV, OF, UF, NX keep their places. -/
def condOf (f : Flags) : Nat := (f &&& 0x1D).toNat

/-! ## Reading operands (R239) -/

/-- Pins the line of an address that an operation has read, unless eight ways of its set are pinned. -/
def State.pinLine (s : State) (i : Nat) (id : Ident) (va : Nat) : State :=
  let sl := s.slice i
  match sl.find (sharedVa va) (id.dom va) va with
  | none => s
  | some (key, l) =>
    if (sl.lines.filter fun kl => decide (kl.1 / 16 = key / 16) && kl.2.pin).length ≥ 8 then s
    else s.setLine i key { l with pin := true }

/-- Unpins every line once the engine has consumed it. -/
def State.unpin (s : State) : State :=
  { s with slices := s.slices.map fun sl => { sl with lines := sl.lines.map fun kl => (kl.1, { kl.2 with pin := false }) } }

/-- Reads n bytes, no more than a line holds, at each address of a list, pinning their lines: the numbers, and the first
refusal with its sector. -/
def State.readAll (s : State) (id : Ident) (n : Nat) (vas : List Nat) : State × List Nat × Option (BitVec 8 × Nat) :=
  vas.foldl (fun (st : State × List Nat × Option (BitVec 8 × Nat)) va =>
    match st.1.homeReadAt id va n with
    | (s, .inr bad) => (s, st.2.1 ++ [0], st.2.2.or (some bad))
    | (s, .inl bs) =>
      let s := match s.home id.part va with
        | .here i => s.pinLine i id va
        | .away _ _ => s
      (s, st.2.1 ++ [leBytes bs], st.2.2)) (s, [], none)

/-- The elements of a block, as zeros where its header is wrong; whether the header is wrong, whether a reserved t2 code was
read (R38). -/
def blkElems (code blk : Nat) : List FV × Bool × Bool :=
  let n := match blkFmt code with | some f => f.elems | none => 0
  match blkMult code blk with
  | none => (List.replicate n (.fin false 0 0), true, false)
  | some (f, m) =>
    let raw := (List.range f.elems).map fun i => blkRaw f blk i
    (raw.map fun r => r.1.scale m, false, raw.any (·.2))

/-- Groups of n. -/
def chunks {α : Type} (n : Nat) : Nat → List α → List (List α)
  | 0, _ => []
  | k + 1, xs => xs.take n :: chunks n k (xs.drop n)

/-! ## Audit (R44, R45) -/

/-- RoundF32 of an exact value. -/
def roundF32 (v : FV) : FV := Fmt.f32.decode (Fmt.f32.ofFV {} v).bits

/-- The audit's reference value. -/
def auditRef (as bs : List FV) (old : FV) : FV :=
  (as.zip bs).foldl (fun r p => Fmt.f32.decode (Fmt.f32.fmaV {} false (roundF32 p.1) (roundF32 p.2) r).bits) old

/-- |x - y| of finite values as num * 2^exp. -/
def absDiff (x y : FV) : Option (Nat × Int) :=
  match x, y with
  | .fin n1 m1 e1, .fin n2 m2 e2 =>
    let e := min e1 e2
    some ((signed n1 (m1 * 2 ^ (e1 - e).toNat) - signed n2 (m2 * 2 ^ (e2 - e).toNat)).natAbs, e)
  | _, _ => none

/-- a < b for num * 2^exp. -/
def dyLt (a b : Nat × Int) : Bool :=
  let e := min a.2 b.2
  decide (a.1 * 2 ^ (a.2 - e).toNat < b.1 * 2 ^ (b.2 - e).toNat)

/-- The largest deviation with its flat index, or none where some value is NaN or infinite. -/
def auditDev (rows cols : List (List FV)) (before after : Nat → FV) : Option ((Nat × Int) × Nat) :=
  (List.range (tileN * tileN)).foldl (fun (m : Option ((Nat × Int) × Nat)) i =>
    match m with
    | none => none
    | some (d, at0) =>
      let r := auditRef (rows[i / tileN]?.getD []) (cols[i % tileN]?.getD []) (before i)
      match absDiff r (after i) with
      | none => none
      | some e => if dyLt d e then some (e, i) else some (d, at0)) (some ((0, 0), 0))

/-- The audit record (R45). With NAN set the manual gives erow, ecol and dev no value: the model writes 0 (DESIGN CHOICE). -/
def auditRecord (queue core ctx cmdseq opcount acc : Nat) (dev : Option ((Nat × Int) × Nat)) (hdr : Bool) (fa fb : Nat) : List Byte :=
  let (d, i) := dev.getD ((0, 0), 0)
  toLeBytes 2 queue ++ toLeBytes 2 (core + ctx * 512) ++ toLeBytes 4 cmdseq ++ toLeBytes 4 opcount ++
    [BitVec.ofNat 8 acc, BitVec.ofNat 8 (i / tileN), BitVec.ofNat 8 (i % tileN),
     BitVec.ofNat 8 ((if dev.isNone then 1 else 0) + (if hdr then 2 else 0)), BitVec.ofNat 8 fa, BitVec.ofNat 8 fb] ++
    List.replicate 6 0 ++ toLeBytes 8 (Fmt.f64.round {} false d.1 d.2).bits

/-! ## The operation (R241, R242) -/

/-- Joins the numbers of groups of n sectors. -/
def joinSectors (n : Nat) (xs : List Nat) : List Nat :=
  (chunks n tileN xs).map fun ys => ys.foldr (fun y a => y + a * 2 ^ 256) 0

/-- What a completed operation leaves. -/
structure MatRes where
  k : Core
  conds : Nat := 0
  audit : Option (List Byte) := none

/-- `mmul` on its operands: a pairing or an accumulator that cannot be used sets HDR and changes none. Whether it is audited
is asked with the context's count and audit exponent at its completion (DESIGN CHOICE). -/
def mmulRun (k : Core) (blk queue cmdseq core ctx : Nat) (q : Seq) (o : MatOp) (as bs : List Nat) : MatRes :=
  let (first, _) := k.grant blk
  let p := first + o.acc
  let due := match q.audit with
    | some n => decide (q.count.toNat % 2 ^ n = 0)
    | none => false
  let rec0 := fun (dev : Option ((Nat × Int) × Nat)) (hdr : Bool) =>
    auditRecord queue core ctx cmdseq q.count.toNat o.acc dev hdr o.fa o.fb
  match pairing o.fa o.fb with
  | none =>
    -- every product is zero, so that the reference is the old value too
    let old := fun i => Fmt.f32.decode ((k.acc p).word i).toNat
    { k := k, conds := condHDR, audit := if due then some (rec0 (auditDev [] [] old old) true) else none }
  | some ty =>
    let nb := rowBlocks o.fa o.fb
    let ra := as.map (blkElems o.fa)
    let rb := bs.map (blkElems o.fb)
    let rows := (chunks nb tileN ra).map fun r => r.flatMap (·.1)
    let cols := rb.map (·.1)
    let hdr := ra.any (·.2.1) || rb.any (·.2.1)
    let base := (if hdr then condHDR else 0) + (if rb.any (·.2.2) then condELT else 0)
    let row := fun i => rows[i / tileN]?.getD []
    let col := fun i => cols[i % tileN]?.getD []
    match ty with
    | .s32 =>
      let a := k.acc p
      let r := (List.range (tileN * tileN)).map fun i => macInt (row i) (col i) (intVal .s 32 (a.word i).toNat)
      { k := k.setAcc p (AccReg.ofFn 1 fun i => BitVec.ofNat 32 ((r[i]?.getD (0, false)).1))
        conds := base + if r.any (·.2) then condSAT else 0 }
    | .f64 =>
      if !(k.f64Ok blk o.acc) then { k := k, conds := condHDR }
      else
        let r := (List.range (tileN * tileN)).map fun i => macFloat .f64 (row i) (col i) (Fmt.f64.decode (k.pairBits p i))
        let w := fun i => (r[i]?.getD ⟨0, 0⟩).bits
        { k := (k.setAcc p (AccReg.ofFn 2 fun i => BitVec.ofNat 32 (w i))).setAcc (p + 1)
            (AccReg.ofFn 3 fun i => BitVec.ofNat 32 (w i / 2 ^ 32))
          conds := base + condOf (r.foldl (fun f x => f ||| x.fl) 0) }
    | .f32 =>
      let a := k.acc p
      let old := fun i => Fmt.f32.decode (a.word i).toNat
      let r := (List.range (tileN * tileN)).map fun i => macFloat .f32 (row i) (col i) (old i)
      let w := fun i => (r[i]?.getD ⟨0, 0⟩).bits
      { k := k.setAcc p (AccReg.ofFn 0 fun i => BitVec.ofNat 32 (w i))
        conds := base + condOf (r.foldl (fun f x => f ||| x.fl) 0)
        audit := if due then some (rec0 (auditDev rows cols old fun i => Fmt.f32.decode (w i)) hdr) else none }

/-- `mld` on its rows of bytes. -/
def mldRun (k : Core) (blk : Nat) (o : MatOp) (rows : List Nat) : MatRes :=
  let p := (k.grant blk).1 + o.acc
  let w := fun (n at0 i : Nat) => BitVec.ofNat 32 ((rows[i / tileN]?.getD 0) / 2 ^ (8 * (n * (i % tileN) + at0)))
  match o.ty with
  | .f64 => { k := (k.setAcc p (AccReg.ofFn 2 (w 8 0))).setAcc (p + 1) (AccReg.ofFn 3 (w 8 4)) }
  | ty => { k := k.setAcc p (AccReg.ofFn (accTag ty) (w 4 0)) }

/-- The status word once a context that is to stop has nothing left in flight (R237, R238): the command of its block ends. -/
def State.stopStream (s : State) (c i : Nat) : State :=
  let k := s.core c
  let q := k.seqs[i]?.getD Seq.empty
  match q.stopping, q.block with
  | some (cls, fpc, fva), some blk =>
    if !q.flight.isEmpty then s
    else
      let k := k.setSeq i { q with status := seqStop q.status 4 5 0, stopping := none, stall := none, bw := none }
      s.setCore c (k.endBlock blk cls fpc fva)
  | _, _ => s

/-- The operation of a context that is ready to start on the engine: its pins are reserved, and every earlier operation on the
same accumulator has started (R252). -/
def Seq.readyOp (q : Seq) : Option (Nat × MatOp) :=
  firstSome (fun j => match q.flight[j]? with
    | some o => if !o.isLoad && !o.started && o.ready.isSome && (q.flight.take j).all (fun p => !(p.meets o) || p.started)
        then some (j, o) else none
    | none => none) (List.range q.flight.length)

/-- The two contexts' turn at the engine (R252): the other one goes first when it is ready and this one started last. -/
def Core.engTurnOk (k : Core) (i : Nat) : Bool :=
  !(((k.seqs[1 - i]?.getD Seq.empty).readyOp).isSome && decide (k.engTurn = i))

/-- An operation that has started has not completed: the engine is not idle. -/
def Core.engRuns (k : Core) : Bool := k.seqs.any fun q => q.flight.any (·.started)

/-- An engine idle for 64 clocks or more starts cold (R253). -/
def Core.engCold (k : Core) : Bool := !k.engRuns && decide (k.cyc.toNat ≥ k.engBusy + 64)

/-- The oldest operation of a context that can complete: its pins are reserved, no earlier one on the same accumulator or of the same bytes is
still in flight, and an `mmul` has started, or can start warm in its turn (R247, R248, R252, R253). -/
def Core.doneOp (k : Core) (i : Nat) : Option (Nat × MatOp) :=
  let q := k.seqs[i]?.getD Seq.empty
  firstSome (fun j => match q.flight[j]? with
    | some o =>
      if o.ready.isSome && (q.flight.take j).all (fun p => !(p.meets o) && !(p.readsMeet o)) &&
          (o.isLoad || o.started || (!k.engCold && k.engTurnOk i && decide ((q.readyOp.map (·.1)) = some j)))
      then some (j, o) else none
    | none => none) (List.range q.flight.length)

/-- An operation in flight of a context completes: its operands are read, its accumulator is written, its pins are
released. A refused sector leaves the accumulator as it was and stops the context (R238). -/
def execMatrixOperationComplete (core ctx : Nat) (s : State) : Out :=
  let k := s.core core
  let q := k.seqs[ctx]?.getD Seq.empty
  match k.doneOp ctx, q.block with
  | some (j, o), some blk =>
      let id := { s.identBlk core blk with owner := o.id }
      let s0 := s
      let s := { s with slices := s.slices.map fun (sl : Slice) => { sl with pins := sl.pins.filter fun p => decide (p.op ≠ o.id) } }
      let pitch := lo32 o.xc
      let nb := rowBlocks o.fa o.fb
      let m := if o.ty = .f64 then 32 else 16
      let vas := if o.isLoad then (List.range tileN).flatMap fun i => (List.range m).map fun j => (o.xa.toNat + i * pitch + 32 * j) % 2 ^ 64
        else blocksA o.xa pitch nb ++ blocksB o.xb (hi32 o.xc)
      let (s, data, bad) := s.readAll id (if o.isLoad then 32 else 64) vas
      remoteGate s0 s.unpin o.id (.refused .eventNotDue) fun s =>
      let k := s.core core
      let q := { (k.seqs[ctx]?.getD Seq.empty) with flight := q.flight.eraseIdx j }
      let lsl := (k.block? blk).bind fun b => k.lslot? b.lslot
      let queue := match lsl with | some l => l.q | none => 0
      let cmdseq := match lsl with | some l => l.idx % 2 ^ 32 | none => 0
      let r : MatRes := if bad.isSome then { k := k }
        else if o.isLoad then mldRun k blk o (joinSectors m data)
        else mmulRun k blk queue cmdseq core ctx q o (data.take (tileN * nb)) (data.drop (tileN * nb))
      let q := { q with
        status := seqCond q.status r.conds, count := if o.isLoad then q.count else q.count + 1
        stopping := match bad with
          | some (cls, va) => q.stopping.or (some (cls, o.pc.setWidth 64, BitVec.ofNat 64 (va / 32 * 32)))
          | none => q.stopping }
      let k := r.k.setSeq ctx q
      let k := if o.isLoad then k else { k with engTurn := if o.started then k.engTurn else ctx, engBusy := k.cyc.toNat }
      let s := s.setCore core k
      let s := match r.audit with
        | some bytes => s.telRecord id.part bytes
        | none => s
      .next (s.stopStream core ctx).bump
  | _, _ => .refused .eventNotDue

/-- Asks for the next pins of a context: those of its oldest operation that lacks some. -/
def State.askPins (s : State) (c i : Nat) : State :=
  let k := s.core c
  let q := k.seqs[i]?.getD Seq.empty
  match q.flight.find? fun o => o.ready.isNone with
  | none => s
  | some o =>
    match o.need with
    | [] => s
    | (j, n) :: _ =>
      let sl := s.slice j
      if sl.pins.any fun p => decide (p.op = o.id) then s
      else s.setSlice j { sl with pins := sl.pins ++ [⟨c, i, o.id, n, false⟩] }

/-- Most bytes a slice keeps pinned (R239). -/
def pinQuota : Nat := 4 * 2 ^ 20

/-- A slice grants the reservation asked first, when it fits; its operation then asks at its next slice, or is ready. -/
def execPinReservationGrant (slice : Nat) (s : State) : Out :=
  let sl := s.slice slice
  match sl.pins.find? fun p => !p.granted with
  | none => .refused .eventNotDue
  | some p =>
    if ((sl.pins.filter (·.granted)).map (·.bytes)).sum + p.bytes > pinQuota then .refused .eventNotDue
    else
      let s := s.setSlice slice { sl with pins := sl.pins.map fun x => if x = p then { x with granted := true } else x }
      let k := s.core p.core
      let q := k.seqs[p.ctx]?.getD Seq.empty
      let q := { q with flight := q.flight.map fun (o : MatOp) =>
        if o.id = p.op then
          { o with need := o.need.drop 1 }
        else o }
      let q := { q with flight := readyUp k.cyc.toNat q.flight }
      .next ((s.setCore p.core (k.setSeq p.ctx q)).askPins p.core p.ctx).bump

/-! ## The surge arbiter (R253) -/

/-- Cores of a cluster, and its clock. -/
def clusterCores (cl : Nat) : List Nat := (List.range 8).map fun i => 8 * cl + i
def State.clusterClock (s : State) (_ : Nat) : Nat := s.clock

/-- The cold start a core waits for: context, clock at which its operation became ready. -/
def Core.coldWait (k : Core) : Option (Nat × Nat) :=
  if !k.engCold then none
  else firstSome (fun i =>
    match (k.seqs[i]?.getD Seq.empty).readyOp with
    | some (_, o) => if k.engTurnOk i then o.ready.map fun t => (i, t) else none
    | none => none) [0, 1]

/-- A tenant of the device as one number. -/
def State.tenantNo (s : State) (c blk : Nat) : Nat := let id := s.identBlk c blk; id.part * 16 + id.tenant

/-- Which of two waiting requests (core, wait, tenant) goes first by the three keys. -/
def coldFirst (grants : Nat → Nat) (a b : Nat × Nat × Nat) : Bool :=
  let oldA := decide (a.2.1 ≥ 64)
  let oldB := decide (b.2.1 ≥ 64)
  if oldA ≠ oldB then oldA
  else if oldA ∧ a.2.1 ≠ b.2.1 then decide (a.2.1 > b.2.1)
  else if grants a.2.2 ≠ grants b.2.2 then decide (grants a.2.2 < grants b.2.2)
  else decide (a.1 < b.1)

/-- A cluster's arbiter grants one cold start, at most one in any 16 clocks. Key 2 counts the tenant's grants by this arbiter, not by others of
its partition (DESIGN CHOICE, log 128). -/
def execColdStartGrant (cluster : Nat) (s : State) : Out :=
  let now := s.clusterClock cluster
  let mine := s.surge.filter fun g => decide (g.1 = cluster)
  let waits := (clusterCores cluster).filterMap fun c =>
    let k := s.core c
    k.coldWait.map fun w => (c, k.cyc.toNat - w.2, s.tenantNo c (((k.seqs[w.1]?.getD Seq.empty).block).getD 0))
  let grants := fun t => (mine.filter fun g => decide (g.2.1 + 1024 > now ∧ g.2.2 = t)).length
  if mine.any fun g => decide (g.2.1 + 16 > now) then .refused .eventNotDue
  else
    match waits with
    | [] => .refused .eventNotDue
    | w :: ws =>
      let best := ws.foldl (fun b x => if coldFirst grants x b then x else b) w
      let k := s.core best.1
      match k.coldWait with
      | none => .refused .eventNotDue
      | some (i, _) =>
        let q := k.seqs[i]?.getD Seq.empty
        let at0 := (q.readyOp.map (·.1)).getD 0
        let q := { q with flight := q.flight.mapIdx fun j o => if j = at0 then { o with started := true } else o }
        let k := { k.setSeq i q with engTurn := i, engBusy := k.cyc.toNat }
        let kept := s.surge.filter fun g => decide (g.2.1 + 1024 > now) || decide (g.1 ≠ cluster)
        .next (({ s.setCore best.1 k with surge := kept ++ [(cluster, now, best.2.2)] } : State).tcount (best.2.2 / 16)
          (best.2.2 % 16) 6 1).bump

/-! ## Epilogue output (R243, R244, R46) -/

/-- Emax of a scaled output format (R46). -/
def emaxOf (code : Nat) : Int := match code with | 0x0A => 8 | 0x0B => 15 | 0x06 => 127 | _ => 6

/-- S of a block from its inputs (R46). -/
def blockScale (code : Nat) (xs : List FV) : Int :=
  let es := xs.filterMap fun v => match v with
    | .fin _ m e => if m = 0 then none else some ((Nat.log2 m : Int) + e)
    | _ => none
  match es with
  | [] => 0
  | e :: rest => max (-128) (min 127 (rest.foldl max e - emaxOf code))

/-- One output element: its bits in the format and its flags; every clamp sets OF, and NV comes from a NaN only (R244). -/
def outElem (k : ElemKind) (width : Nat) (v : FV) : Nat × Flags :=
  match k with
  | .flt f =>
    match v with
    | .nan _ => (f.nan, 0)
    | .inf n => (f.pack n f.maxPat, fOF)
    | .fin n m e => let r := f.round { sat := true } n m e; (r.bits, r.fl)
  | .int sg _ =>
    match v with
    | .nan _ => (0, fNV)
    | .inf n => (wrapN width (if n then intMin sg width else intMax sg width), fOF)
    | .fin n m e =>
      let s := if e ≥ 0 then (m * 2 ^ e.toNat, 1) else (m, 2 ^ (-e).toNat)
      let r := roundInt .rne n s.1 s.2
      let x := signed n r.1
      if saturate sg width x = x then (wrapN width x, if r.2 then fNX else 0) else (wrapN width (saturate sg width x), fOF)
  | .t2 => (0, 0)

/-- A block of output elements: its 64 bytes as a number, and flags. -/
def outBlock (code : Nat) (f : BlkFmt) (xs : List FV) : Nat × Flags :=
  let S := if f.scale = .pow2 then blockScale code xs else 0
  let es := xs.map fun v => outElem f.kind f.width (v.scale (1, -S))
  (code + wrapN 8 S * 256 + (es.mapIdx fun i e => e.1 * 2 ^ (16 + f.width * i)).sum, es.foldl (fun a e => a ||| e.2) 0)

/-- The activation of a value that has been scaled and biased (R244): the value and flags. -/
def activate (act : Act) (f : Fmt) (t : Nat) : Fmt × Nat × Flags :=
  let fn := fun (g : SpFn) =>
    let a := cvtFF f .f32 {} t
    let r := special g .f32 false a.bits
    (Fmt.f32, r.bits, (if f = .f64 then a.fl else 0) ||| r.fl)
  match act with
  | .none => (f, t, 0)
  | .relu =>
    match f.decode t with
    | .nan _ => (f, f.nan, 0)
    | v => (f, if v.isNeg || v.isZero then 0 else t, 0)
  | .gelu => fn .gelu
  | .tanh => fn .tanh
  | .sig => fn .sig
  | .exp2 => fn .exp2
  | .silu =>
    let a := cvtFF f .f32 {} t
    let g := special .sig .f32 false a.bits
    let r := Fmt.f32.arith .mul {} a.bits g.bits 0
    (.f32, r.bits, (if f = .f64 then a.fl else 0) ||| g.fl ||| r.fl)

/-- An accumulator's element as a value with the format it is computed in (R244). -/
def Core.accValue (k : Core) (p i : Nat) : Fmt × FV :=
  let a := k.acc p
  if a.tag = 1 then (.f32, FV.ofInt (intVal .s 32 (a.word i).toNat))
  else if a.tag = 0 then (.f32, Fmt.f32.decode (a.word i).toNat)
  else (.f64, Fmt.f64.decode (k.pairBits p i))

/-- One element before conversion: value and flags. -/
def moutElem (k : Core) (p i : Nat) (sc bias : FV) (act : Act) : FV × Flags :=
  let (f, v) := k.accValue p i
  let t := f.fmaV {} false v sc bias
  let (g, x, fl) := activate act f t.bits
  (g.decode x, t.fl ||| fl)

/-- Bytes of one row of output, and its flags. -/
def moutRow (k : Core) (p i : Nat) (sc : FV) (bias : Nat → FV) (act : Act) (code : Nat) (raw : Bool) : List Byte × Flags :=
  match blkFmt code with
  | none => ([], 0)
  | some f =>
    let es := (List.range tileN).map fun j => moutElem k p (tileN * i + j) sc (bias j) act
    let fl := es.foldl (fun a e => a ||| e.2) 0
    let vs := es.map (·.1)
    if raw then
      let out := vs.map (outElem f.kind f.width)
      (out.flatMap fun o => toLeBytes (f.width / 8) o.1, out.foldl (fun a o => a ||| o.2) fl)
    else
      let out := (chunks f.elems ((tileN + f.elems - 1) / f.elems) vs).map (outBlock code f)
      (out.flatMap fun o => toLeBytes 64 o.1, out.foldl (fun a o => a ||| o.2) fl)

/-- Bytes of an output row. -/
def moutRowLen (code : Nat) (raw : Bool) : Nat :=
  match blkFmt code with
  | none => 0
  | some f => if raw then tileN * f.width / 8 else 64 * ((tileN + f.elems - 1) / f.elems)

/-- Ends a writing stream instruction: conditions, and the stop that a refusal asks (R238). -/
def Sx.wrote (s : State) (x : Sx) (conds : Nat) (bad : Option (BitVec 8 × Nat)) : Out :=
  let k := s.core x.c
  let q := { x.q with
    status := seqCond x.q.status conds
    stopping := bad.map fun b => (b.1, x.q.pc.setWidth 64, BitVec.ofNat 64 (b.2 / 32 * 32)) }
  .next ((({ x with k := k, q := q } : Sx).next s 8).stopStream x.c x.i)

/-- Writes rows at their homes in ascending order; each sector is accepted or refused on its own. -/
def State.writeRows (s : State) (id : Ident) (rows : List (Nat × List Byte)) : State × Option (BitVec 8 × Nat) :=
  rows.foldl (fun (st : State × Option (BitVec 8 × Nat)) r =>
    let w := st.1.homeWrite id r.1 r.2
    (w.1, st.2.or w.2)) (s, none)

/-- The accumulator's tag names an f64 pair that aD cannot hold (R244, R245). -/
def Sx.pairBad (x : Sx) (d : Nat) : Bool :=
  decide (2 ≤ (x.k.acc ((x.k.grant x.blk).1 + d)).tag.toNat) && !(x.k.f64Ok x.blk d)

def execMout (f : MoutF) (s : State) : Out :=
  withStream s fun x =>
    let d := f.d.toNat
    let p := (x.k.grant x.blk).1 + d
    let xa := x.rx f.a
    let xb := x.rx f.b
    let pitch := lo32 (x.rx f.cc)
    let code := f.fmt.toNat
    let rows := (List.range tileN).map fun i => (xa.toNat + i * pitch) % 2 ^ 64
    if d ≥ (x.k.grant x.blk).2 then x.illegal s 7
    else if x.accBusy d || (decide ((x.k.acc p).tag.toNat = 2) && x.accBusy (d + 1)) || 
        x.readsPending ((rows.map fun a => (a, moutRowLen code f.raw)) ++ if f.bias then [(xb.toNat, 4 * tileN)] else []) then
      stall s reasonEngine
    else x.checked s ([(xa.toNat, 32), (pitch, 32)] ++ if f.bias then [(xb.toNat, 4)] else [])
      ((rows.map fun a => (a, moutRowLen code f.raw, true)) ++ if f.bias then [(xb.toNat, 512, false)] else []) (
        if x.pairBad d then x.wrote s condHDR none
        else
          let id := { s.identBlk x.c x.blk with owner := streamOwner x.c x.i }
          let (s', bs, bad) := if f.bias then s.readAll id 4 ((List.range tileN).map fun j => xb.toNat + 4 * j)
            else (s, List.replicate tileN 0, none)
          match bad with
          | some b => remoteGate s s'.unpin id.owner (stall s reasonEngine) fun s => x.wrote s 0 (some b)
          | none =>
            let sc := Fmt.f32.decode (hi32 (x.rx f.cc))
            let out := (List.range tileN).map fun i =>
              moutRow x.k p i sc (fun j => Fmt.f32.decode (bs[j]?.getD 0)) f.act code f.raw
            let (s', bad) := s'.unpin.writeRows id (rows.zip (out.map (·.1)))
            remoteGate s s' id.owner (stall s reasonEngine) fun s =>
              x.wrote s (condOf (out.foldl (fun a o => a ||| o.2) 0)) bad)

/-- An accumulator's element as f32 (R245). -/
def Core.statElem (k : Core) (p i : Nat) : Res :=
  if (k.acc p).tag = 0 then ⟨((k.acc p).word i).toNat, 0⟩
  else if (k.acc p).tag = 1 then Fmt.f32.ofFV {} (k.accValue p i).2
  else cvtFF .f64 .f32 {} (k.pairBits p i)

/-- One row of `mstat`: its maximum, then its sum of exponentials, as bytes, and flags (R245). -/
def Core.mstatRow (k : Core) (p i : Nat) : List Byte × Flags :=
  let vs := (List.range tileN).map fun j => k.statElem p (tileN * i + j)
  let r := rowStat tileN (fun _ => true) fun j => (vs[j]?.getD ⟨0, 0⟩).bits
  (toLeBytes 4 r.1 ++ toLeBytes 4 r.2.1, vs.foldl (fun a v => a ||| v.fl) r.2.2)

/-- `mstat` (R245): maximum and sum of exponentials of every row. -/
def execMstat (f : DA) (s : State) : Out :=
  withStream s fun x =>
    let d := f.d.toNat
    let p := (x.k.grant x.blk).1 + d
    let xa := x.rx f.a
    if d ≥ (x.k.grant x.blk).2 then x.illegal s 7
    else if x.accBusy d || (decide ((x.k.acc p).tag.toNat = 2) && x.accBusy (d + 1)) || x.readsPending [(xa.toNat, 8 * tileN)] then
      stall s reasonEngine
    else x.checked s [(xa.toNat, 32)] [(xa.toNat, 8 * tileN, true)] (
      if x.pairBad d then x.wrote s condHDR none
      else
        let out := (List.range tileN).map (x.k.mstatRow p)
        let id := { s.identBlk x.c x.blk with owner := streamOwner x.c x.i }
        let (s', bad) := s.writeRows id (out.mapIdx fun i o => (xa.toNat + 8 * i, o.1))
        remoteGate s s' id.owner (stall s reasonEngine) fun s => x.wrote s (condOf (out.foldl (fun a o => a ||| o.2) 0)) bad)

end Sys2Proof.Machine
end

