-- ==== Sys2Proof/Machine/Stash.lean ====
section
/-! DEFINITION. Stash windows: map, flush and unmap (R183 to R185). -/

namespace Sys2Proof.Machine

/-- A stash sector lies in a window of an identity. -/
def StashWin.holds (w : StashWin) (id : Ident) (c : CSector) : Bool :=
  decide (w.gbase ≤ c.va ∧ c.va < w.gbase + w.slen ∧ c.dk = sharedVa c.va ∧ c.dom = id.dom c.va)

/-- A stash owns no word of a sector any more: its home on another device has accepted them (R185, R405). -/
def Core.stashGiven (k : Core) (x : CSector) : Core :=
  let words := (List.range 8).map fun i => x.va / 32 * 8 + i
  { k with
    stash := k.stash.map fun c => if c.va = x.va ∧ c.dk = x.dk ∧ c.dom = x.dom then { c with owned := 0 } else c
    rown := k.rown.filter fun o => !(o.among x.dk x.dom words && o.stash) }

/-- Writes a window's dirty sectors back to their homes: ownership returns to the L2 (R184, R185, R405). Refused write-backs come
back with their class and address. -/
def State.stashFlush (s : State) (c : Nat) (id : Ident) (w : StashWin) : State × List (BitVec 8 × Nat) :=
  ((s.core c).stash.filter fun x => w.holds id x && decide (x.owned ≠ 0)).foldl
    (fun (st : State × List (BitVec 8 × Nat)) x =>
      match st.1.home id.part x.va with
      | .away dev _ =>
        match st.1.remote id dev x.va 12 (byteMask x.owned) x.data (some (c, true)) with
        | (s, .inr cls) => (s, st.2 ++ [(cls, x.va)])
        | (s, .inl _) => (s.setCore c ((s.core c).stashGiven x), st.2)
      | .here i =>
        match st.1.ensure i id x.va false true with
        | .bad s cls => (s, st.2 ++ [(cls, x.va)])
        | .ok s key => (s.recall i key x.dk x.dom x.va none id.owner, st.2)) (s, [])

/-- Invalidates a window: its sectors leave the stash, and the scratchpad bytes it covered hold values the manual does not
state: free values. -/
def State.stashDrop (s : State) (c : Nat) (id : Ident) (n : Nat) (w : StashWin) : State :=
  let k := s.core c
  let bytes := (List.range w.slen).map fun i => Config.freeByte (s.free + i)
  let k := { k with wins := k.wins.set n StashWin.empty, stash := k.stash.filter fun x => !(w.holds id x) }
  ({ s with free := s.free + w.slen } : State).setCore c (k.scratchPut w.block w.soff bytes)

/-- The status of `stmap` (R184). Where several of 1 to 5 hold it is the lowest: R184 gives no order (DESIGN CHOICE, log 125). -/
def Core.mapStatus (k : Core) (blk n gbase soff slen : Nat) : Nat :=
  let old := k.wins[n]?.getD StashWin.empty
  let others := k.wins.filter (·.valid)
  if old.valid then 1
  else if others.any fun w => overlaps w.gbase w.slen gbase slen then 2
  else if others.any fun w => decide (w.block = blk) && overlaps w.soff w.slen soff slen then 3
  else if gbase % 32 ≠ 0 ∨ soff % 32 ≠ 0 ∨ slen % 32 ≠ 0 ∨ slen = 0 then 4
  else if soff + slen > k.scratchSize blk then 5
  else 0

/-- `stmap` (R184): the lease check of the whole range comes first. -/
def execStmap (f : StashF) (s : State) : Out :=
  issue s (fun cx => cx.onceReads f.c (.g f.a.toNat :: f.b.refs true 0 true)) (fun cx => if cx.takes f.c then [.g f.d.toNat] else [])
    fun cx =>
      if !(cx.takes f.c) then .next (cx.next s f.b.len)
      else if cx.acqBusy then stall s reasonAcquire
      else
        let b := cx.bval true 0 true .n f.b
        let soff := b % 2 ^ 20
        let slen := b / 2 ^ 20 % 2 ^ 20
        let gbase := (cx.v.rg f.a.toNat).toNat
        let n := f.win.toNat
        let blk := cx.t.block
        cx.checked s (if slen = 0 then [] else [⟨teamWideLane, gbase, slen, 0, 0, 0⟩])
          [(0x04, fun a => cx.k.leaseOk cx.slot a.va a.size true (!f.ro))]
          (let st := cx.k.mapStatus blk n gbase soff slen
           let wins := if st = 0 then cx.k.wins.set n ⟨true, f.ro, blk, soff, slen, gbase⟩ else cx.k.wins
           .next (({ cx with k := { cx.k with wins := wins } } : Cx).write s f.b.len [.g f.d.toNat (BitVec.ofNat 64 st)]))

/-- `stflush` and `stunmap` wait for the window's accesses still on their way, write back, and answer a status (R184). -/
def flushOp (f : StashF) (drop : Bool) (s : State) : Out :=
  issue s (fun cx => cx.predRefs f.c) (fun cx => if cx.takes f.c then [.g f.d.toNat] else []) fun cx =>
    if !(cx.takes f.c) then .next (cx.next s 8)
    else if cx.acqBusy then stall s reasonAcquire
    else
      let n := f.win.toNat
      let w := cx.k.wins[n]?.getD StashWin.empty
      if !w.valid ∨ w.block ≠ cx.t.block then .next (cx.write s 8 [.g f.d.toNat 1])
      else if (cx.k.stores.any fun e => e.stash && overlaps e.va 32 w.gbase w.slen) ||
          (cx.k.reqs.any fun r => r.accs.any fun a => overlaps a.va a.size w.gbase w.slen) then stall s reasonMemory
      else
        let dirty := cx.k.stash.any fun x => w.holds (s.identOf cx.c cx.slot) x && decide (x.owned ≠ 0)
        if dirty ∧ !(cx.seqFree s) then stall s reasonMemory
        else
          let cx := if dirty then cx.takeSeq s 0 else cx
          let s0 := s.setCore cx.c cx.core
          let id := { s0.identOf cx.c cx.slot with owner := cx.owner s }
          let r := s0.stashFlush cx.c id w
          cx.gate s r.1 fun cx s =>
            let s := if drop then s.stashDrop cx.c id n w else s
            let k := s.core cx.c
            let bad := r.2.map fun p => (⟨s.nextId, cx.slot, cx.seq, cx.x.pc, p.1, p.2, noLane, false, []⟩ : Refused)
            let cx := { cx with k := { k with refused := k.refused ++ bad } }
            .next (cx.write { s with nextId := s.nextId + 1 } 8 [.g f.d.toNat (if r.2.isEmpty then 0 else 6)])

def execStflush (f : StashF) (s : State) : Out := flushOp f false s
def execStunmap (f : StashF) (s : State) : Out := flushOp f true s

end Sys2Proof.Machine
end

