-- ==== Sys2Proof/Machine/Place.lean ====
section
/-! DEFINITION. Room on a core (R162, R163, R168, R171, R228, R388), the placement of a block (R72, R75, R122, R393), its
retirement and its killing (R144, R389). -/

namespace Sys2Proof.Machine

/-! ## Room -/

/-- Teams that hold a slot on a quadrant, the agent's apart. -/
def Core.residents (k : Core) (q : Nat) : List Team :=
  (k.slots.take 32).filterMap fun t => match t with
    | some t => if t.quad = q then some t else none
    | none => none

/-- Resident lanes of a quadrant; the agent slot's 32 count on quadrant 0 (R162, R163). -/
def Core.quadLanes (k : Core) (q : Nat) : Nat := (if q = 0 then 32 else 0) + ((k.residents q).map (·.n)).sum

/-- A quadrant can hold one more team of n lanes and N registers beside `more` further teams of the same shape (R163). -/
def Core.quadHolds (k : Core) (q n N more : Nat) : Bool :=
  let regs := (if q = 0 then 1024 else 0) + ((k.residents q).map fun t => t.n * t.nregs * 4).sum + (more + 1) * (n * N * 4)
  let stk := (if q = 0 then 1024 else 0) + ((k.residents q).map fun t => t.n * 32).sum + (more + 1) * (n * 32)
  let free := ((k.quad q).filter fun x => decide (x.st = .free)).length
  let kept := if q = 0 ∧ (k.team? agentSlot).isNone then 1 else 0
  decide (regs ≤ 262144 ∧ stk ≤ 32768 ∧ more + 1 + kept ≤ free)

/-- The quadrant of the next team of a block: the one with the fewest resident lanes that can hold it (R163). -/
def Core.quadFor (k : Core) (n N : Nat) (taken : List Nat) : Option Nat :=
  let more := fun q => (taken.filter (· = q)).length
  let can := (List.range 4).filter fun q => k.quadHolds q n N (more q)
  let load := fun q => k.quadLanes q + more q * n
  can.find? fun q => can.all fun r => decide (load q < load r ∨ (load q = load r ∧ q ≤ r))

/-- Quadrants of m teams, in team order. -/
def Core.quadsFor (k : Core) (n N : Nat) : Nat → List Nat → Option (List Nat)
  | 0, taken => some taken
  | m + 1, taken => match k.quadFor n N taken with
    | some q => k.quadsFor n N m (taken ++ [q])
    | none => none

/-- A free sequencer context with an aligned run of free accumulators (R228): the lowest of each. -/
def Core.seqRoom (k : Core) (acc : Nat) : Option (Nat × Nat × Nat) :=
  let used := fun p => k.blocks.any fun b => match b.bind (·.seq) with
    | some (_, f, n) => decide (f ≤ p ∧ p < f + n)
    | none => false
  let ctx := (List.range 2).find? fun i => ((k.seqs[i]?.getD Seq.empty).block).isNone
  let run := ([0, 1, 2, 3].filter fun f => decide (f % acc = 0 ∧ f + acc ≤ 4)).find? fun f => (List.range acc).all fun i => !(used (f + i))
  match ctx, run with
  | some c, some f => some (c, f, acc)
  | _, _ => none

/-- Where a block goes on a core. -/
structure Plan where
  block : Nat
  lslot : Nat
  /-- The launch has no block on the core yet. -/
  first : Bool
  slots : List Nat
  quads : List Nat
  seq : Option (Nat × Nat × Nat)

/-- The launch slot of a command on a core. -/
def Core.lslotFor (k : Core) (part qid idx : Nat) : Option Nat :=
  (List.range 32).find? fun i => match k.lslot? i with
    | some l => decide (l.part = part ∧ l.q = qid ∧ l.idx = idx)
    | none => false

/-- Room for one block of a launch (R388 step 1). -/
def Core.room (k : Core) (l : Launch) (part qid idx : Nat) : Option Plan :=
  let free := (List.range 32).filter fun i => (k.team? i).isNone
  let size := (k.blocks.map fun b => match b with | some b => b.size | none => 0).sum
  let mine := k.lslotFor part qid idx
  let slot := mine.or ((List.range 32).find? fun i => (k.lslot? i).isNone)
  let seq := if l.stream = 0 then some none else (k.seqRoom l.acc).map some
  let regs := (k.leases.filter fun w => !w.valid).length
  match (List.range 32).find? (fun i => (k.block? i).isNone), slot, k.quadsFor l.lanes l.regs l.e1 [], seq with
  | some b, some ls, some qs, some sq =>
    if free.length < l.e1 ∨ size + l.alloc > 448 * 1024 ∨ (mine.isNone ∧ regs < l.bufs.length) then none
    else some ⟨b, ls, mine.isNone, free.take l.e1, qs, sq⟩
  | _, _, _, _ => none

/-! ## Placing -/

/-- A team at its start (R72, R74, R75, R122): registers 0, predicates false, stacks empty. -/
def newTeam (l : Launch) (blk num quad age prio ticket frame : Nat) (waits : Bool) : Team :=
  { block := blk, num := num, quad := quad, n := l.lanes, nregs := l.regs
    lanes := (List.range l.lanes).map fun L => ⟨List.replicate l.regs 0, 0, [], 0, l.wid ticket num L, L, num⟩
    g := List.replicate 64 0, gp := 0, m := List.replicate 8 ModReg.zero, fflags := 0, xwin := 0, regionPc := l.entry, regionMask := 0
    level := 0, frames := [], saves := [], record := DefRec.clear, log := [], serials := List.replicate 32 none, seq := 0, flying := []
    strict := l.flags.getLsbD 1, mode := if waits then .waiting else .run, stops := [], arrival := none, busy := [], joins := []
    ctxBase := BitVec.ofNat 64 (l.frameAt frame + 65536 * num), areaDirty := false, age := age, prio := prio
    saved := none, drains := [] }

/-- A mask of the n lowest lanes. -/
def lowLanes (n : Nat) : Mask := BitVec.ofNat 1024 (2 ^ n - 1)

/-- Starts a team in a slot: one fragment of every lane in the lowest free entry of its quadrant. -/
def Core.startTeam (k : Core) (slot : Nat) (t : Team) (pc : PCWord) : Core :=
  let r := k.startFrag t.quad slot pc (lowLanes t.n)
  (r.1.setTeam slot t).noteSync slot r.2 pc

/-- Loads a launch's lease windows into free registers (R171). -/
def Core.loadLeases (k : Core) (tag : Nat) (bufs : List BufEnt) : Core :=
  bufs.foldl (fun k b =>
    match k.leases.findIdx? fun w => !w.valid with
    | some i => { k with leases := k.leases.set i ⟨true, BitVec.ofNat 2 b.mode, BitVec.ofNat 2 b.rights, b.base + b.len, tag, b.base⟩ }
    | none => k) k

/-- The block itself, its launch slot, its sequencer context with accumulators of +0 (R228), its scratchpad of zeros (R298). -/
def Core.addBlock (k : Core) (p : Plan) (ls : LSlot) (ticket frame : Nat) (coop : Bool) : Core :=
  let k := if p.first then
      ({ k with lslots := k.lslots.set p.lslot (some ls) } : Core).loadLeases p.lslot ls.launch.bufs
    else k
  let b : Block :=
    { lslot := p.lslot, ticket := ticket, frame := frame, slots := p.slots, size := ls.launch.alloc, scratch := [], seq := p.seq
      bcast := none, acked := false, ending := none, coop := coop, live := [], stopping := false, gone := false, saved := false, dumpAt := none }
  let k := { k with blocks := k.blocks.set p.block (some b), agent := { k.agent with lastBlock := some p.block } }
  match p.seq with
  | none => k
  | some (c, f, n) =>
    { k with seqs := k.seqs.set c { Seq.empty with block := some p.block }
             accs := (List.range n).foldl (fun a i => a.set (f + i) AccReg.empty) k.accs }

/-- Places a block: every team starts at ENTRY, at once or, for a cooperative launch, when every block is placed (R386, R393). -/
def Core.place (k : Core) (p : Plan) (ls : LSlot) (ticket frame prio : Nat) (coop : Bool) : Core :=
  let k := k.addBlock p ls ticket frame coop
  let k := (List.range p.slots.length).foldl (fun k i =>
    let t := newTeam ls.launch p.block i (p.quads[i]?.getD 0) (k.nextAge + i) prio ticket frame coop
    k.startTeam (p.slots[i]?.getD 0) t ls.launch.entry) k
  { k with nextAge := k.nextAge + p.slots.length }

/-- A core with a block placed: storage that passes to its scratchpad leaves the L1 (R168). -/
def State.setPlaced (s : State) (c : Nat) (k : Core) : State := (s.setCore c k).l1Fit c

/-! ## A launch's constant bank and handles -/

/-- An access of a partition's agents in an address space (R383): the generations are the current ones. -/
def State.agentIdent (s : State) (part asid owner tag : Nat) : Ident :=
  let first := (s.part part).first
  let e := s.idEntry first false asid
  ⟨part, asid, idSdom e, idGen e, idGen (s.idEntry first true (idSdom e)), (s.part part).tenantOf asid, owner, none, tag⟩
/-- The request tag of an agent's own accesses (R328). -/
def State.agentTag (s : State) (c : Nat) : Nat := (s.core c).teamTag c agentSlot

/-- Owner names of an agent's steps: its scan, the placement of a block of a command, the retirement of a block, the end of a faulting
one, and of a command's own steps. -/
def scanOwner (c : Nat) : Nat := ownerName 0 [c]
def placeOwner (c part q idx : Nat) : Nat := ownerName 1 [c, part, q, idx]
def retireOwner (c blk : Nat) : Nat := ownerName 2 [c, blk]
def faultOwner (c blk : Nat) : Nat := ownerName 3 [c, blk]
def cmdOwner (part q idx : Nat) : Nat := ownerName 4 [part, q, idx]

/-- Reads the constant bank and the handle table of a launch (R379); none when a read is refused. -/
def State.lslotOf (s : State) (id : Ident) (qid idx : Nat) (l : Launch) : State × Option LSlot :=
  match s.homeRead id l.kbank 1024 with
  | (s, .inr _) => (s, none)
  | (s, .inl kb) =>
    let r : State × Sum (List Byte) (BitVec 8) := if l.htab = 0 then (s, .inl (zeros 128)) else s.homeRead id l.htab 128
    match r with
    | (s, .inr _) => (s, none)
    | (s, .inl ht) =>
      (s, some ⟨id.part, qid, idx, id.asid, id.sdom, id.gen, id.sgen, l,
        (List.range 256).map fun i => BitVec.ofNat 32 (numAt kb (4 * i) 4), (List.range 16).map fun i => numAt ht (8 * i) 8⟩)

/-! ## Freeing -/

/-- Everything of the core that belongs to a slot goes: requests, stores, steps and refusals on their way. -/
def Core.dropSlot (k : Core) (slot : Nat) : Core :=
  let ops := ((k.quads.flatten).filter fun x => decide (x.st ≠ .free ∧ x.team = slot)).filterMap (·.op)
  { k with
    exvs := k.exvs.filter fun r => !(ops.contains r.id), midways := k.midways.filter fun r => !(ops.contains r.id)
    reqs := k.reqs.filter fun r => decide (r.slot ≠ slot), stores := k.stores.filter fun r => decide (r.slot ≠ slot)
    puts := k.puts.filter fun r => decide (r.slot ≠ slot), dqs := k.dqs.filter fun r => decide (r.slot ≠ slot)
    tbs := k.tbs.filter fun r => decide (r.slot ≠ slot), refused := k.refused.filter fun r => decide (r.slot ≠ slot)
    hits := k.hits.filter fun r => decide (r.slot ≠ slot) }

/-- A team leaves its slot and entries. -/
def Core.removeTeam (k : Core) (slot : Nat) : Core :=
  match k.team? slot with
  | none => k
  | some t => let k := (k.dropSlot slot).unseat slot t; { k with slots := k.slots.set slot none }

/-- A block's sequencer context is free, and the agent has room again (R144, R383). -/
def Core.freeSeq (k : Core) (blk : Nat) : Core :=
  { k with
    seqs := k.seqs.map fun (q : Seq) => if q.block = some blk then Seq.empty else q
    agent := { k.agent with lastBlock := if k.agent.lastBlock = some blk then none else k.agent.lastBlock, wake := true } }

/-- Everything a block holds is free (R144, R171). -/
def Core.freeBlock (k : Core) (blk : Nat) : Core := (k.freeSeq blk).dropBlock blk

/-- A block retires: its scratchpad, tile memory, barrier objects and sequencer context are free; its place stands until its teams' slots
are (R144). A session that still reads the scratchpad finds what stood there (log 134). -/
def Core.retireBlock (k : Core) (blk : Nat) : Core :=
  match k.block? blk with
  | none => k
  | some b => (({ k.freeSeq blk with blocks := k.blocks.set blk (some { b with gone := true, size := 0, seq := none }) } : Core)).sweep

/-- `stunmap` of every window a block owns (R184). -/
def State.closeWins (s : State) (c blk owner : Nat) : State :=
  let id := { s.identBlk c blk with owner := owner }
  (List.range 8).foldl (fun s n =>
    let w := (s.core c).wins[n]?.getD StashWin.empty
    if w.valid ∧ w.block = blk then (s.stashFlush c id w).1.stashDrop c id n w else s) s

/-- A block is not saved after all: its engines hold no longer (R373). -/
def Core.unstop (k : Core) (blk : Nat) : Core :=
  let k := match k.block? blk with
    | some b =>
      let k := k.setBlock blk { b with stopping := false, saved := false }
      { k with seqs := k.seqs.map fun (q : Seq) => if q.block = some blk then { q with hold := b.bcast.isSome } else q }
    | none => k
  (k.teamsOf blk).foldl (fun k i => match k.team? i with
    | some t => k.setTeam i { t with saved := none }
    | none => k) k

/-- A block's retirement has been told to another device: it goes on to its end (R405). -/
def State.retiring (s : State) (c blk : Nat) : Bool := s.rbuf.any fun b => decide (b.owner = retireOwner c blk ∧ b.op = 2)

/-- What a saved block keeps besides its save area goes with it. -/
def State.dropParked (s : State) (c blk : Nat) : State :=
  match (s.core c).block? blk, ((s.core c).block? blk).bind fun b => (s.core c).lslot? b.lslot with
  | some b, some l =>
    if b.saved then { s with parked := s.parked.filter fun y => !(decide (y.part = l.part ∧ y.q = l.q % 256 ∧ y.idx = l.idx ∧ y.frame = b.frame)) }
    else s
  | _, _ => s

/-- A kill begins: the block is broadcast without a dump, and its sessions are cancelled (R345, R389, R393). -/
def State.killStart (s : State) (c blk : Nat) : State :=
  let s := s.dropParked c blk
  let k := (s.core c).unstop blk
  let k := match k.block? blk with
    | some b => k.setBlock blk { b with ending := none }
    | none => k
  (s.setCore c (k.broadcast blk 0).poll).cancelBlock c blk

/-- A killed block whose broadcast is acknowledged: its teams leave, its room is free. -/
def State.killEnd (s : State) (c blk owner : Nat) : State :=
  let s := s.closeWins c blk owner
  let k := s.core c
  let k := (k.teamsOf blk).foldl Core.removeTeam k
  let k := { k with sessions := k.sessions.filter fun x => decide (x.block ≠ blk ∨ x.slot = agentSlot) }
  let s := s.setCore c (k.freeBlock blk)
  { s with slices := s.slices.map fun sl => { sl with pins := sl.pins.filter fun p =>
      !(decide (p.core = c) && (match k.seqs[p.ctx]? with | some q => decide (q.block = some blk) | none => false)) } }

end Sys2Proof.Machine
end

