-- ==== Sys2Proof/Machine/Save.lean ====
section
/-! DEFINITION. The sections of a dump and of a save area (R353, R369, R372), the dump (R395, R396), the save of a block at a
pre-emption (R370) and its restoration (R371). -/

namespace Sys2Proof.Machine

/-! ## Sections (R353) -/

structure Section where
  ty : Nat
  slot : Nat
  body : List Byte

/-- Slots of a block's teams that have not retired. -/
def Core.liveTeams (k : Core) (blk : Nat) : List Nat := (k.teamsOf blk).filter fun i => match k.team? i with
  | some t => decide (t.mode ≠ TMode.retired)
  | none => false

def Core.teamSections (k : Core) (blk : Nat) (area : Bool) : List Section :=
  (k.liveTeams blk).filterMap fun i => (k.team? i).map fun t => ⟨1, i, k.image i t t.isHalted area⟩

def Core.scratchSection (k : Core) (blk : Nat) : Section :=
  match k.block? blk with
  | some b => ⟨2, 0, memBytes b.scratch 0 b.size⟩
  | none => ⟨2, 0, []⟩

/-- Slots of a block's teams that wait at a barrier object. -/
def Core.barWaiters (k : Core) (blk obj : Nat) : Nat :=
  ((k.teamsOf blk).filter fun i => k.quads.any fun q => q.any fun x =>
    decide (x.st ≠ .free ∧ x.team = i ∧ x.bw = some (obj, none))).foldl (fun m i => m + 2 ^ i) 0

def Core.barSection (k : Core) (blk : Nat) : Section :=
  match k.block? blk with
  | some b => ⟨3, 0, (List.range 16).flatMap fun o =>
      memBytes b.scratch (16 * o) 16 ++ toLeBytes 4 (k.barWaiters blk o) ++ zeros 12⟩
  | none => ⟨3, 0, []⟩

/-- A session record: major, minor, request tag, status word, and 18 bytes of progress (R353, R372). -/
def sessRecord (core major minor tag status p a h : Nat) : List Byte :=
  toLeBytes 1 major ++ toLeBytes 1 minor ++ toLeBytes 8 (tag + core * 2 ^ 24) ++ toLeBytes 4 status ++ toLeBytes 8 p ++ toLeBytes 8 a ++
    toLeBytes 2 h

/-- The sessions live at the broadcast, with the statuses they have written (R353). -/
def Core.liveSection (k : Core) (core blk : Nat) : Section :=
  match k.block? blk with
  | some b => ⟨4, 0, b.live.flatMap fun x => sessRecord core x.2.1 x.2.2.1 x.2.2.2.1 x.2.2.2.2.toNat 0 0 0⟩
  | none => ⟨4, 0, []⟩

/-- The progress of a walk (R372). -/
def Walk.progress (w : Walk) : Nat × Nat :=
  match w.kind with
  | .chase => (w.x.toNat, w.b.toNat)
  | .rnd => (w.x.toNat % 2 ^ 32 + w.wid.toNat * 2 ^ 32, w.b.toNat)
  | .seek => (w.lo + w.hi * 2 ^ 32, match w.last with | some x => x.toNat + 2 ^ 32 | none => 0)

/-- A resumed walk goes on from the record at an offset of a session section (R372). -/
def Walk.resumeAt (w : Walk) (recs : List Byte) (off : Nat) : Walk :=
  let p := numAt recs (off + 14) 8
  let a := numAt recs (off + 22) 8
  let w := { w with h := numAt recs (off + 30) 2 }
  match w.kind with
  | .chase => { w with x := BitVec.ofNat 64 p, b := BitVec.ofNat 32 a }
  | .rnd => { w with x := BitVec.ofNat 64 (p % 2 ^ 32), wid := BitVec.ofNat 32 (p / 2 ^ 32), b := BitVec.ofNat 32 a }
  | .seek => { w with lo := p % 2 ^ 32, hi := p / 2 ^ 32, last := if a / 2 ^ 32 % 2 = 1 then some (BitVec.ofNat 32 a) else none }

/-- The sessions of a block under way, with their progress (R372). -/
def Core.sessSection (k : Core) (core blk : Nat) : Section :=
  let tag := fun (slot : Nat) (q : BitVec 16) => match k.team? slot with
    | some t => t.quad * 2 ^ 22 + slot * 2 ^ 16 + q.toNat
    | none => slot * 2 ^ 16 + q.toNat
  ⟨4, 0, ((k.sessions.filter fun x => decide (x.block = blk ∧ x.slot ≠ agentSlot)).flatMap fun x =>
      sessRecord core x.major x.minor (tag x.slot x.seq) 0 x.progress.1 x.progress.2 0) ++
    (k.walks.filter fun w => decide (w.block = blk)).flatMap fun w =>
      sessRecord core 0x39 (match w.kind with | .chase => 0 | .rnd => 1 | .seek => 2) (tag w.slot w.seq) 0 w.progress.1 w.progress.2 w.h⟩

def Core.seqSection (k : Core) (blk : Nat) : Section :=
  match (k.block? blk).bind (·.seq) with
  | none => ⟨5, 0, []⟩
  | some (c, f, n) =>
    let q := k.seqs[c]?.getD Seq.empty
    ⟨5, 0, toLeBytes 8 q.status.toNat ++ toLeBytes 8 q.pc.toNat ++ (q.x ++ q.c).flatMap (fun x => toLeBytes 8 x.toNat) ++
      toLeBytes 8 q.count.toNat ++ (List.range n).flatMap fun a => (List.range 16384).flatMap fun i =>
        toLeBytes 4 ((k.acc (f + a)).word i).toNat⟩

/-- A store of an agent: each sector refused is a deferred fault of the agent's (R353, R365); whether there was one. -/
def State.agentPut (s : State) (id : Ident) (va : Nat) (bytes : List Byte) : State × Bool :=
  let r := s.homeWriteAll id va bytes
  (r.1.count id.part 7 r.2.length, !r.2.isEmpty)

/-- Writes one section below a limit: its STATUS is 1 when a write is refused, the agent's record is VALID before it, or its body is cut
(R353, R396). -/
def State.writeSection (s : State) (id : Ident) (base cap off : Nat) (bad : Bool) (x : Section) : State × Bool :=
  let hdr := toLeBytes 1 x.ty ++ [0] ++ toLeBytes 1 x.slot ++ zeros 5 ++ toLeBytes 8 x.body.length ++ zeros 16
  let body := x.body.take (cap - off - 32)
  let r1 := s.agentPut id (base + off) hdr
  let r2 := r1.1.agentPut id (base + off + 32) body
  let bad := bad || r1.2 || r2.2 || decide (body.length < x.body.length)
  (if bad then (r2.1.agentPut id (base + off + 1) [1]).1 else r2.1, bad)

/-- Writes sections one after another; true when one was cut, refused or left out. `bad` says that the agent's record is VALID before
the first. -/
def State.writeSections (s : State) (id : Ident) (base cap : Nat) : Bool → Nat → List Section → State × Bool
  | _, _, [] => (s, false)
  | bad, off, x :: xs =>
    if off + 32 > cap then (s, true)
    else
      let r := s.writeSection id base cap off bad x
      let t := r.1.writeSections id base cap false (off + 32 + x.body.length) xs
      (t.1, r.2 || t.2)

/-- The agent's own deferred-fault record is VALID, and a core whose agent has cleared it (R396 step 3). -/
def Core.agentValid (k : Core) : Bool := match k.team? agentSlot with
  | some t => t.record.valid
  | none => false
def Core.clearAgentRecord (k : Core) : Core := match k.team? agentSlot with
  | some t => k.setTeam agentSlot { t with record := DefRec.clear }
  | none => k

/-- The dump of a block (R353, R395, R396), written in one step: LATE is 0. Its cycle count is that of its beginning. A refusal of the header's own stores is found after the first
section. -/
def State.writeDump (s : State) (id : Ident) (c blk : Nat) (l : LSlot) (cls : BitVec 8) (slot : Nat) : State :=
  let k := s.core c
  let base := l.launch.dump
  let cap := l.launch.dumplen
  if base = 0 ∨ cap < 64 then s
  else
    let h := s.agentPut id base (toLeBytes 4 0x44550001 ++ toLeBytes 2 c ++ toLeBytes 1 slot ++ [cls] ++ toLeBytes 8 l.idx ++
      toLeBytes 8 (((k.block? blk).bind (·.dumpAt)).getD k.cyc).toNat ++ zeros 40)
    let secs := k.teamSections blk true ++ [k.scratchSection blk, k.barSection blk, k.liveSection c blk, k.seqSection blk, ⟨0xFF, 0, []⟩]
    let r := h.1.writeSections id base cap (h.2 || k.agentValid) 64 secs
    let s := r.1.setCore c (r.1.core c).clearAgentRecord
    (s.agentPut id (base + 26) [if r.2 then 1 else 0]).1

/-! ## Saving a block (R369, R370) -/

/-- Loads are discarded, stores not yet sent are dropped, and so is every refusal on its way (R370). -/
def Core.dropUnsent (k : Core) (slot : Nat) : Core :=
  let ops := ((k.quads.flatten).filter fun x => decide (x.st ≠ .free ∧ x.team = slot)).filterMap (·.op)
  { k with
    exvs := k.exvs.filter fun r => !(ops.contains r.id), midways := k.midways.filter fun r => !(ops.contains r.id)
    reqs := k.reqs.filter fun r => decide (r.slot ≠ slot)
    stores := k.stores.filter fun r => decide (r.slot ≠ slot) || r.sent
    dqs := k.dqs.filter fun r => decide (r.slot ≠ slot), tbs := k.tbs.filter fun r => decide (r.slot ≠ slot)
    refused := k.refused.filter fun r => decide (r.slot ≠ slot), hits := k.hits.filter fun r => decide (r.slot ≠ slot) }

/-- The region form of a team: one fragment of every lane that has not exited, at the restart PC, the registers outside the
live-in groups 0, no request on its way (R370, R143). -/
def Core.regionForm (k : Core) (slot : Nat) : Core :=
  match k.team? slot with
  | none => k
  | some t =>
    let lanes := k.allLanes slot t
    let k := ((k.boundary slot t).dropUnsent slot).unseat slot t
    match k.team? slot with
    | none => k
    | some t =>
      (k.startFrag t.quad slot t.regionPc lanes).1.setTeam slot { t with
        lanes := t.lanes.map fun l => { l with v := l.v.mapIdx fun i x => if t.regionMask.getLsbD (i / 8) then x else 0 }
        serials := List.replicate 32 none, joins := t.joins.map fun j => { j with joined := [] }, saved := some true }

/-- The team number of a slot of a block; 99 for none. -/
def Core.numOf (k : Core) (blk slot : Nat) : Nat := match k.team? slot with
  | some t => if t.block = blk then t.num else 99
  | none => 99

/-- What a saved block keeps besides its save area; slots are replaced by team numbers, and of its broadcast the clocks gone by. -/
def Core.park (k : Core) (blk : Nat) (b : Block) (l : LSlot) : Parked :=
  { part := l.part, q := l.q % 256, idx := l.idx, frame := b.frame, ticket := b.ticket
    coop := b.coop, bcast := b.bcast.map fun t => k.cyc.toNat - t, acked := b.acked, live := b.live, drains := []
    sessions := (k.sessions.filter fun x => decide (x.block = blk ∧ x.slot ≠ agentSlot)).map fun x => { x with slot := k.numOf blk x.slot }
    walks := (k.walks.filter fun w => decide (w.block = blk)).map fun w => { w with slot := k.numOf blk w.slot }
    teams := (k.liveTeams blk).filterMap fun i => (k.team? i).map fun t =>
      (t.num, (match t.mode with | .halted c x => TMode.halted c x | .waiting => .waiting | _ => .run), t.stops, t.joins)
    wins := (List.range 8).filterMap fun n =>
      let w := k.wins[n]?.getD StashWin.empty
      if w.valid ∧ w.block = blk then some (n, w) else none
    audit := match b.seq with | some (c, _, _) => (k.seqs[c]?.getD Seq.empty).audit | none => none
    tags := match b.seq with | some (_, f, n) => (List.range n).map fun i => (k.acc (f + i)).tag | none => [] }

/-- The slot under which the held puts of a saved team wait: its launch by QID and CMDSEQ, its frame, its number. -/
def savedSlot (qid idx frame num : Nat) : Nat := 64 + 32 * (frame + 2 ^ 24 * (qid + 2 ^ 16 * idx)) + num
/-- The launch, and the frame, of such a slot. -/
def savedLaunch (slot : Nat) : Nat := (slot - 64) / 32 / 2 ^ 24
def savedFrame (slot : Nat) : Nat := (slot - 64) / 32 % 2 ^ 24

/-- Held puts of a block's teams, and the refusals they have met, wait under the names of the saved teams (R288). -/
def Core.keepPuts (k : Core) (blk qid idx frame : Nat) : Core :=
  let name := fun (slot : Nat) => if k.numOf blk slot = 99 then slot else savedSlot qid idx frame (k.numOf blk slot)
  let held := k.puts.map (·.id)
  { k with
    puts := k.puts.map fun (p : Put) => { p with slot := name p.slot }
    refused := k.refused.map fun (f : Refused) => if held.contains f.id then { f with slot := name f.slot } else f }

/-- The puts of a block that is restored on a core, and their refusals, are its teams' again. -/
def State.takePuts (s : State) (c qid idx frame : Nat) (slotOf : Nat → Nat) : State :=
  let mine := fun (slot : Nat) => decide (slot ≥ 64 ∧ savedLaunch slot = qid + 2 ^ 16 * idx ∧ savedFrame slot = frame)
  let moved := s.cores.flatMap fun k => (k.puts.filter fun p => mine p.slot).map fun (p : Put) => { p with slot := slotOf (p.slot % 32) }
  let bad := s.cores.flatMap fun k => (k.refused.filter fun f => mine f.slot).map fun (f : Refused) => { f with slot := slotOf (f.slot % 32) }
  let s : State := { s with cores := s.cores.map fun (k : Core) =>
    { k with puts := k.puts.filter fun p => !(mine p.slot), refused := k.refused.filter fun f => !(mine f.slot) } }
  let k := s.core c
  s.setCore c { k with puts := k.puts ++ moved, refused := k.refused ++ bad }

/-- Held puts and refusals of a launch's saved teams go with its command. -/
def State.dropSaved (s : State) (qid idx : Nat) : State :=
  let mine := fun (slot : Nat) => decide (slot ≥ 64 ∧ savedLaunch slot = qid + 2 ^ 16 * idx)
  { s with cores := s.cores.map fun (k : Core) =>
    { k with puts := k.puts.filter fun p => !(mine p.slot), refused := k.refused.filter fun f => !(mine f.slot) } }

/-- Drains of a saved block's teams wait under the core number 384 + frame and the team number (R295). -/
def State.parkDrains (s : State) (c blk frame : Nat) : State :=
  let k := s.core c
  { s with slices := s.slices.map fun (sl : Slice) => { sl with mg := sl.mg.map fun (m : MgSess) => match m.drain with
      | some (c', slot, q, pc, gd) =>
        if c' = c ∧ k.numOf blk slot ≠ 99 then { m with drain := some (384 + frame, k.numOf blk slot, q, pc, gd) } else m
      | none => m } }

/-- Saves a block whose engines have stopped: stash windows and context areas are written back, and the sections go to the frame's
save area (R368 to R370). -/
def State.saveBlock (s : State) (c blk : Nat) (id : Ident) : State :=
  match ((s.core c).block? blk), ((s.core c).block? blk).bind fun b => (s.core c).lslot? b.lslot with
  | some b, some l =>
    let pk := (s.core c).park blk b l
    let s := s.closeWins c blk id.owner
    let s := ((s.core c).liveTeams blk).foldl (fun s i => match (s.core c).team? i with
      | some t => (s.homeWrite id t.ctxBase.toNat (t.area i)).1
      | none => s) s
    let k := s.core c
    let secs := k.teamSections blk false ++ [k.scratchSection blk, k.barSection blk, k.sessSection c blk, k.seqSection blk, ⟨0xFF, 0, []⟩]
    let s := (s.writeSections id (l.launch.saveAt b.frame) (65536 * (l.launch.framesz - l.launch.e1)) false 0 secs).1
    let s := s.parkDrains c blk b.frame
    let k := s.core c
    let k := { k.keepPuts blk l.q l.idx b.frame with
      sessions := k.sessions.filter fun x => decide (x.block ≠ blk ∨ x.slot = agentSlot), walks := k.walks.filter fun w => decide (w.block ≠ blk) }
    { s.setCore c (k.setBlock blk { b with saved := true }) with parked := s.parked ++ [pk] }
  | _, _ => s

/-- The core frees everything a saved block holds, and the block waits for its restoration (R368). -/
def State.freeSaved (s : State) (c blk : Nat) : State :=
  let k := s.core c
  match k.block? blk, (k.block? blk).bind fun b => k.lslot? b.lslot with
  | some b, some l =>
    if !b.saved then s
    else
      let s := s.setCore c (((k.teamsOf blk).foldl Core.removeTeam k).freeBlock blk)
      let p := s.part l.part
      s.setPart l.part { p with cmds := p.cmds.map fun (m : Cmd) =>
        if m.q = l.q % 256 ∧ m.idx = l.idx then { m with saved := m.saved ++ [b.frame] } else m }
  | _, _ => s

/-! ## Restoring a block (R371) -/

/-- Reads sections up to the end section; none where a TYPE or a length is not one of R353. -/
def sectionsOf : Nat → List Byte → Option (List Section)
  | 0, _ => none
  | n + 1, bs =>
    let ty := numAt bs 0 1
    let len := numAt bs 8 8
    if bs.length < 32 ∨ bs.length < 32 + len then none
    else if ty = 0xFF then some []
    else if ty = 0 ∨ ty > 5 then none
    else (sectionsOf n (bs.drop (32 + len))).map fun xs => ⟨ty, numAt bs 2 1, (bs.drop 32).take len⟩ :: xs

/-- The body of the first section of a type. -/
def bodyOf (xs : List Section) (ty : Nat) : List Byte := match xs.find? fun x => decide (x.ty = ty) with
  | some x => x.body
  | none => []

/-- One saved team in its new slot: its registers, fragments and context area; busy and joins of its parked sessions, walks and drains
under way; the statuses of drains that have ended meanwhile are written (R371). -/
def Core.restoreTeam (k : Core) (slot : Nat) (t : Team) (img area : List Byte) (pk : Option Parked) (drains : List (BitVec 16 × Nat)) :
    Option Core :=
  match (k.setTeam slot t).loadImage slot t img area false with
  | none => none
  | some k =>
    match k.team? slot with
    | none => none
    | some t =>
      let halted := decide (numAt img 14 1 / 2 % 2 = 1)
      let kept := pk.bind fun p => p.teams.find? fun x => decide (x.1 = t.num)
      let busy := match pk with
        | some p => (p.sessions.filter fun x => decide (x.slot = t.num)).flatMap (·.dest) ++
            ((p.walks.filter fun w => decide (w.slot = t.num)).flatMap fun w => walkDest w.lane w.dreg) ++ drains.map fun d => .g d.2
        | none => []
      let t := match kept with
        | some (_, m, st, js) => { t with mode := m, stops := st, joins := js, busy := busy, drains := drains, areaDirty := false }
        | none => { t with mode := if halted then .halted 0 none else .run, busy := busy, drains := drains, areaDirty := false }
      let done := match pk with
        | some p => (p.drains.filter fun d => decide (d.1 = t.num)).map fun d => Wr.g d.2.1 (BitVec.ofNat 64 d.2.2)
        | none => []
      let t := if done.isEmpty then t else t.put done
      some ((k.setTeam slot t).syncTeam slot)

/-- The saved sequencer context (R369). -/
def Core.restoreSeq (k : Core) (p : Plan) (bs : List Byte) (pk : Option Parked) : Core :=
  match p.seq with
  | none => k
  | some (c, f, n) =>
    let w := fun i => BitVec.ofNat 64 (numAt bs (8 * i) 8)
    let q : Seq := { Seq.empty with
      block := some p.block, status := (w 0).setWidth 32, pc := (w 1).setWidth 56, x := (List.range 8).map fun i => w (2 + i)
      c := (List.range 8).map fun i => w (10 + i), count := (w 18).setWidth 32, audit := pk.bind (·.audit)
      hold := match pk with | some p => p.bcast.isSome | none => false }
    let tag := fun i => match pk with | some p => p.tags[i]?.getD 0 | none => 0
    let acc := fun i => AccReg.ofFn (tag i) fun j => BitVec.ofNat 32 (numAt bs (152 + 65536 * i + 4 * j) 4)
    { k with seqs := k.seqs.set c q, accs := (List.range n).foldl (fun a i => a.set (f + i) (acc i)) k.accs }

/-- Restores the teams of a plan in order; none when an image is malformed. -/
def State.restoreTeams (s : State) (id : Ident) (c : Nat) (p : Plan) (l : Launch) (ticket frame prio : Nat) (pk : Option Parked) :
    Nat → List Section → State × Option Unit
  | _, [] => (s, some ())
  | i, x :: xs =>
    let k := s.core c
    let num := (numAt x.body 672 8 - l.frameAt frame) / 65536
    let t := newTeam l p.block num (p.quads[i]?.getD 0) (k.nextAge + i) prio ticket frame false
    match s.homeRead id (l.frameAt frame + 65536 * num) 65536 with
    | (s, .inr _) => (s, none)
    | (s, .inl area) =>
      let drains := s.slices.flatMap fun sl => sl.mg.filterMap fun m => match m.drain with
        | some (c', n, q, _, gd) =>
          if c' = 384 + frame ∧ n = num ∧ pk.any fun y => decide (m.part = y.part ∧ m.q % 256 = y.q ∧ m.idx = y.idx) then some (q, gd) else none
        | none => none
      match (s.core c).restoreTeam (p.slots[i]?.getD 0) t x.body area pk drains with
      | none => (s, none)
      | some k => (s.setCore c k).restoreTeams id c p l ticket frame prio pk (i + 1) xs

/-- What `place.res` answers: placed, no room, malformed (R393). -/
inductive Placed | done (s : State) | noRoom (s : State) | bad (s : State)

/-- Restores the block saved in a frame on a core (R371): scratchpad, range entries, sessions, sequencer, teams. -/
def State.restoreBlock (s : State) (id : Ident) (c qid idx : Nat) (l : Launch) (ticket frame prio : Nat) : Placed :=
  match s.homeRead id (l.saveAt frame) (65536 * (l.framesz - l.e1)) with
  | (s, .inr _) => .bad s
  | (s, .inl bs) =>
    match sectionsOf 64 bs with
    | none => .bad s
    | some xs =>
      let teams := xs.filter fun x => decide (x.ty = 1)
      let pk := s.parked.find? fun p => decide (p.part = id.part ∧ p.q = qid % 256 ∧ p.idx = idx ∧ p.frame = frame)
      let wins := match pk with | some p => p.wins | none => []
      let recs := bodyOf xs 4
      let (ss, ws) := match pk with | some p => (p.sessions, p.walks) | none => ([], [])
      if recs.length ≠ 32 * (ss.length + ws.length) ∨ (bodyOf xs 2).length ≠ l.alloc ∨ teams.length > l.e1 ∨ (bodyOf xs 5).length ≠ (if l.stream = 0 then 0 else seqBody l.acc) then .bad s
      else
        let k := s.core c
        match k.room { l with e1 := teams.length } id.part qid idx with
        | none => .noRoom s
        | some p =>
          if wins.any fun w => (k.wins[w.1]?.getD StashWin.empty).valid then .noRoom s
          else
            match s.lslotOf id qid idx l with
            | (s, none) => .bad s
            | (s, some ls) =>
              let k := (s.core c).addBlock p ls ticket frame (match pk with | some y => y.coop | none => false)
              let k := match k.block? p.block with
                | some b =>
                  let b := { b with scratch := memPutBytes [] 0 (bodyOf xs 2) }
                  k.setBlock p.block (match pk with
                    | some y => { b with bcast := y.bcast.map fun t => k.cyc.toNat - t, acked := y.acked, live := y.live }
                    | none => b)
                | none => k
              let k := { k with wins := wins.foldl (fun (ws : List StashWin) (w : Nat × StashWin) => ws.set w.1 { w.2 with block := p.block }) k.wins }
              let k := k.restoreSeq p (bodyOf xs 5) pk
              match (s.setPlaced c k).restoreTeams id c p l ticket frame prio pk 0 teams with
              | (s, none) => .bad s
              | (s, some ()) =>
                let k := s.core c
                let slotOf := fun num => (p.slots.find? fun i => match k.team? i with
                  | some t => decide (t.block = p.block ∧ t.num = num)
                  | none => false).getD 99
                let k := { k with
                  nextAge := k.nextAge + p.slots.length
                  sessions := k.sessions ++ ss.mapIdx fun i x =>
                    { x.resumeAt (numAt recs (32 * i + 14) 8) with slot := slotOf x.slot, block := p.block, barBlk := p.block, lslot := p.lslot }
                  walks := k.walks ++ ws.mapIdx fun i w =>
                    { w.resumeAt recs (32 * (ss.length + i)) with slot := slotOf w.slot, block := p.block, lslot := p.lslot } }
                let s := (s.setCore c k).takePuts c qid idx frame slotOf
                .done { s with
                  parked := s.parked.filter fun p => !(decide (p.part = id.part ∧ p.q = qid % 256 ∧ p.idx = idx ∧ p.frame = frame))
                  slices := s.slices.map fun (sl : Slice) => { sl with mg := sl.mg.map fun (m : MgSess) => match m.drain with
                    | some (c', num, q, pc, gd) =>
                      if c' = 384 + frame ∧ m.part = id.part ∧ m.q = qid ∧ m.idx = idx then
                        { m with drain := some (c, slotOf num, q, pc, gd) } else m
                    | none => m } }

end Sys2Proof.Machine
end

