-- ==== Sys2Proof/Machine/Manage.lean ====
section
/-! DEFINITION. Management registers: their addresses (R356, R306, R375, R393, R412, R427, R428), partition and tenant entries
(R357, R360), invalidation requests (R312), queue registers (R375, R390, R411), the start of a pre-emption (R367, R368). -/

namespace Sys2Proof.Machine

/-! ## The parts of a partition -/

/-- Slices named by a partition entry's FIRST and SIZE. -/
def entrySlices (e : DWord) : List Nat :=
  let f := (e.extractLsb' 56 4).toNat
  let n := (e.extractLsb' 52 4).toNat
  (List.range 12).filter fun i => decide (f ≤ i ∧ i < f + n)
def Part.run (p : Part) : List Nat := if p.valid then entrySlices p.pent else []
/-- Cores of a partition (R355). -/
def State.coresOf (s : State) (part : Nat) : List Nat := (s.part part).run.flatMap fun i => (List.range 32).map fun c => 32 * i + c
/-- Does something to every core of a partition. -/
def State.onCores (s : State) (part : Nat) (f : Core → Core) : State :=
  { s with cores := s.cores.mapIdx fun c k => if (s.coresOf part).contains c then f k else k }
/-- Does something to every slice of a partition. -/
def State.onSlices (s : State) (part : Nat) (f : State → Nat → State) : State := (s.part part).run.foldl f s

/-- Wakes the partition's agents to scan (R375, R383). -/
def State.wakeAgents (s : State) (part : Nat) : State :=
  s.onCores part fun k => { k with agent := { k.agent with wake := true } }
/-- A note to every agent of the partition; beyond 64 it is dropped and the agent rescans (R393). -/
def State.noteAgents (s : State) (part : Nat) (v : DWord) : State :=
  s.onCores part fun k =>
    let a := k.agent
    { k with agent := if a.notes.length < 64 then { a with notes := a.notes ++ [v], wake := true } else { a with rescan := true, wake := true } }

/-! ## Partition entries (R354, R357, R358) -/

/-- SIZE and FIRST as R354 lists them: 0, or the ERR code. -/
def runErr (first size : Nat) : Nat :=
  if !([1, 2, 3, 4, 6, 12].contains size) then 1 else if first % size ≠ 0 ∨ first + size > 12 then 2 else 0

/-- Two ASID ranges share an identifier. -/
def asidsMeet (b1 l1 b2 l2 : Nat) : Bool := decide (b1 < b2 + l2 ∧ b2 < b1 + l1)

def entryCe (e : DWord) : BitVec 12 := e.extractLsb' 40 12
def entryAbase (e : DWord) : Nat := (e.extractLsb' 27 13).toNat
def entryAlen (e : DWord) : Nat := (e.extractLsb' 13 14).toNat

/-- DRAINED as it reads: a slice marked OUT reads 1 (R429). -/
def Slice.isDrained (sl : Slice) : Bool := sl.drained || sl.out

/-- Why a write of PENT is refused, the lowest ERR code that holds; 0 when it takes effect. -/
def State.pentErr (s : State) (part : Nat) (v : DWord) : Nat :=
  let old := (s.part part).run
  let new := entrySlices v
  let others := ((List.range 12).filter (· ≠ part)).filterMap fun i => if (s.part i).valid then some (s.part i).pent else none
  let run := runErr (v.extractLsb' 56 4).toNat (v.extractLsb' 52 4).toNat
  if v.getLsbD 63 && decide (run ≠ 0) then run
  else if others.any fun o => (entrySlices o).any (new.contains ·) then 3
  else if entryCe v = 0 ∨ others.any fun o => decide (entryCe o &&& entryCe v ≠ 0) then 4
  else if entryAlen v = 0 ∨ entryAbase v + entryAlen v > 8192 ∨
      others.any fun o => asidsMeet (entryAbase o) (entryAlen o) (entryAbase v) (entryAlen v) then 5
  else if (old ++ new).any fun i => !((s.slice i).isDrained) then 6
  else if (old ++ new).any fun i => (s.slice i).out then 7
  else 0

/-- Drops every Moraine session of a slice (R357). -/
def State.discardSessions (s : State) (i : Nat) : State :=
  ((s.slice i).mg).foldl (fun s m => s.mgDiscard (m.ref i) m) s

/-- Writes back and invalidates every line of a slice, as a step of an engine. -/
def State.flushSlice (s : State) (i owner : Nat) : State := ((s.slice i).lines.map (·.1)).foldl (fun s key => s.evict i key false owner) s

/-- What a slice does when a partition entry takes effect (R357). -/
def State.clearSlice (owner : Nat) (s : State) (i : Nat) : State :=
  let s := (s.flushSlice i owner).discardSessions i
  let sl := s.slice i
  s.setSlice i { sl with tlb := [] }

/-- A write of PENT (R357), as a step of an engine. -/
def State.pentWrite (s : State) (part : Nat) (v : DWord) (owner : Nat) : State :=
  let err := s.pentErr part v
  if err ≠ 0 then s.setPart part { s.part part with err := BitVec.ofNat 8 err }
  else
    let s := (((s.part part).run ++ entrySlices v).eraseDups).foldl (State.clearSlice owner) s
    s.setPart part { s.part part with pent := v &&& 0x8FFFFFFFFFFFE000, err := 0 }

/-! ## Tenant entries (R360) -/

/-- Why a write of TENT is ignored; 0 when it takes effect. -/
def Part.tentErr (p : Part) (t : Nat) (v : DWord) : Nat :=
  let base := fun (e : DWord) => (e.extractLsb' 46 13).toNat
  let len := fun (e : DWord) => (e.extractLsb' 32 14).toNat
  if !(v.getLsbD 63) ∨ t = 0 then 0
  else if base v < p.abase ∨ base v + len v > p.abase + p.alen ∨ ((List.range 16).any fun u =>
      let e := p.tent[u]?.getD 0
      decide (u ≠ 0 ∧ u ≠ t) && e.getLsbD 63 && asidsMeet (base e) (len e) (base v) (len v)) then 5
  else if v.extractLsb' 0 16 = 0 then 9
  else 0

/-- A write of TENT. -/
def State.tentWrite (s : State) (part t : Nat) (v : DWord) : State :=
  let p := s.part part
  let err := p.tentErr t v
  if err ≠ 0 then s.setPart part { p with err := BitVec.ofNat 8 err }
  else s.setPart part { p with tent := p.tent.set t (v &&& 0x87FFFFFF0000FFFF), err := 0 }

/-! ## Pre-emption requests (R367, R368) -/

/-- The tenant of an ASID is being pre-empted. -/
def Part.preempts (p : Part) (asid : Nat) : Bool := p.pbusy && (p.pall || decide (p.tenantOf asid = p.pten.toNat))

/-- The block's launch belongs to a tenant of the partition that is being pre-empted. -/
def State.blockStops (s : State) (part c blk : Nat) : Bool :=
  let k := s.core c
  match (k.block? blk).bind fun b => k.lslot? b.lslot with
  | some l => decide (l.part = part) && (s.part part).preempts l.asid
  | none => false

/-- Blocks of a core that a pre-emption stops; one that has retired, or whose retirement is under way, has nothing to save. -/
def State.stoppedBlocks (s : State) (part c : Nat) : List Nat := (List.range 32).filter fun b =>
  s.blockStops part c b && !(s.retiring c b) && match (s.core c).block? b with | some x => !x.gone | none => false

/-- The command of a block is ending: its engines acknowledge without saving (R373). Blocks of RESULT 5 run on (R394). -/
def State.blockEnds (s : State) (c blk : Nat) : Bool :=
  let k := s.core c
  match k.block? blk, (k.block? blk).bind fun b => k.lslot? b.lslot with
  | some b, some l => b.ending.isSome || (match (s.part l.part).cmds.find? fun m => decide (m.q = l.q % 256 ∧ m.idx = l.idx) with
    | some m => (match m.stage with | .ending r _ _ _ => decide (r ≠ 5) | _ => false)
    | none => true)
  | _, _ => true

/-- The engines of a core that hold the tenant's work: teams, sequencer contexts, the copy unit. -/
def State.coreEngines (s : State) (part c : Nat) : List Engine :=
  let k := s.core c
  let bs := s.stoppedBlocks part c
  let teams := (bs.flatMap k.liveTeams).map fun i => Engine.team c i
  let seqs := ((List.range 2).filter fun i => match (k.seqs[i]?.getD Seq.empty).block with
    | some b => bs.contains b
    | none => false).map fun i => Engine.sequencer c i
  let copy := if k.sessions.any fun x => decide (x.slot ≠ agentSlot) && bs.contains x.block then [Engine.copyUnit c] else []
  teams ++ seqs ++ copy

/-- The engines of a slice that hold the tenant's work. -/
def State.sliceEngines (s : State) (part i : Nat) : List Engine :=
  let p := s.part part
  let mg := if (s.slice i).mg.any fun m => decide (m.part = part ∧ m.state ≤ 4) && p.preempts m.asid then [Engine.moraine i] else []
  let walks := (s.coresOf part).any fun c => (s.core c).walks.any fun w => decide (w.slice = i) && (s.stoppedBlocks part c).contains w.block
  mg ++ if walks then [Engine.walkers i] else []

/-- Bulk copies of the tenant under way. -/
def State.poolEngines (s : State) (part : Nat) : List Engine :=
  ((List.range s.bulk.length).filter fun i => match s.bulk[i]? with
    | some (p, q, idx) => decide (p = part) && ((s.part part).cmds.any fun m => decide (m.q = q ∧ m.idx = idx) && (s.part part).preempts m.asid)
    | none => false).map Engine.poolCopy

/-- A stop reaches a block: its sessions and walks hold, its stream issues nothing more. -/
def Core.stopBlock (k : Core) (blk : Nat) : Core :=
  match k.block? blk with
  | none => k
  | some b =>
    let k := k.setBlock blk { b with stopping := true }
    { k with seqs := k.seqs.map fun (q : Seq) => if q.block = some blk then { q with hold := true } else q }

/-- The tenants a request pre-empts: the one it names, or with ALL each whose work an engine holds (R366). -/
def State.stoppedTenants (s : State) (part : Nat) : List Nat :=
  let p := s.part part
  if !p.pall then [p.pten.toNat]
  else
    let blocks := (s.coresOf part).flatMap fun c => (s.stoppedBlocks part c).filterMap fun b =>
      (((s.core c).block? b).bind fun x => (s.core c).lslot? x.lslot).map (·.asid)
    let bulks := s.bulk.filterMap fun x => if x.1 = part then (p.cmds.find? fun m => decide (m.q = x.2.1 ∧ m.idx = x.2.2)).map (·.asid) else none
    let sessions := p.run.flatMap fun i => ((s.slice i).mg.filter fun m => decide (m.part = part ∧ m.state ≤ 4)).map (·.asid)
    ((blocks ++ bulks ++ sessions).map p.tenantOf).eraseDups

/-- A pre-emption has been collected: counted, and the agents are told in a note whose value the manual leaves open (R366, R368). -/
def State.preemptDone (s : State) (part : Nat) : State :=
  let p := s.part part
  let ts := p.ptens
  let s := s.setPart part { p with pbusy := false, pall := false, ptens := [], pend := [], stops := [] }
  let s := ts.foldl (fun s t => s.tcount part t 7 1) (s.count part 13 1)
  ({ s with free := s.free + 1 } : State).noteAgents part (Config.freeWord s.free)

/-- The collector starts a request: stops go to every engine that holds the tenant's work; without any it completes at once. Each block
of the tenant is saved by a stop of its own, which is no engine of R369 (MODEL). -/
def State.collect (s : State) (part : Nat) (v : DWord) : State :=
  let p := s.part part
  let s := s.setPart part { p with pbusy := true, pall := v.getLsbD 4, pten := v.extractLsb' 0 4 }
  let s := s.setPart part { s.part part with ptens := s.stoppedTenants part }
  let es := ((s.coresOf part).flatMap (s.coreEngines part)) ++ ((s.part part).run.flatMap (s.sliceEngines part)) ++ s.poolEngines part
  if es.isEmpty then s.preemptDone part
  else
    let blocks := (s.coresOf part).flatMap fun c => (s.stoppedBlocks part c).map fun b => Engine.block c b
    let s' := { s with cores := s.cores.mapIdx fun c k => (s.stoppedBlocks part c).foldl Core.stopBlock k }
    s'.setPart part { s'.part part with pend := es, stops := es ++ blocks }

/-- A write of PREQ: one request waits behind a running one, a further one is dropped (R367). -/
def State.preqWrite (s : State) (part : Nat) (v : DWord) : State :=
  let p := s.part part
  if !p.pbusy then (s.setPart part { p with err := 0 }).collect part v
  else if p.pqueue.isNone then s.setPart part { p with pqueue := some v, err := 0 }
  else s.setPart part { p with err := 8 }

/-! ## Firn registers (R306, R312) -/

/-- Every slice of the partition that holds a slice is drained; a slice of no partition stands alone. -/
def State.allDrained (s : State) (i : Nat) : Bool :=
  match (List.range 12).find? fun p => (s.part p).run.contains i with
  | some p => (s.part p).run.all fun j => (s.slice j).isDrained
  | none => (s.slice i).isDrained

/-- A write of INVAL: one is in progress and 64 wait; none where the write is held back. -/
def State.invalWrite (s : State) (i : Nat) (v : DWord) : Option State :=
  let sl := s.slice i
  if sl.inval.length > 64 then none else some (s.setSlice i { sl with inval := sl.inval ++ [v &&& 0xFFFE00FFFFFFFFFF] })

/-- A stack-local base address: a multiple of 64 KiB below 2^36. -/
def baseMask : DWord := 0xFFFFF0000

/-- A write of a Firn register other than INVAL. -/
def State.firnWrite (s : State) (i off : Nat) (v : DWord) : State :=
  let sl := s.slice i
  if off = 0x30 then s.setSlice i { sl with misshw := sl.misshw &&& ~~~v }
  else if !(s.allDrained i) then s
  else if off = 0 then s.setSlice i { sl with fctl := v &&& 1 }
  else if off = 8 then s.setSlice i { sl with asidbase := v &&& baseMask }
  else if off = 0x10 then s.setSlice i { sl with dombase := v &&& baseMask }
  else if off = 0x18 then s.setSlice i { sl with framebase := v &&& baseMask }
  else s

/-- A read of a Firn register. -/
def Slice.firnRead (sl : Slice) (off : Nat) : DWord :=
  match off with
  | 0 => sl.fctl
  | 8 => sl.asidbase
  | 0x10 => sl.dombase
  | 0x18 => sl.framebase
  | 0x28 => if sl.inval.isEmpty then 0 else 1
  | 0x30 => sl.misshw
  | 0x38 => BitVec.ofNat 64 sl.leases.length
  | _ => 0

/-! ## Queue registers (R375, R390, R411) -/

/-- A queue slot that was never written. -/
def Queue.none (q : Nat) : Queue := ⟨q, false, false, false, 0, false, 0⟩
def Part.queue (p : Part) (q : Nat) : Queue := (p.queues.find? fun x => decide (x.q = q)).getD (Queue.none q)
def Part.setQueue (p : Part) (x : Queue) : Part :=
  { p with queues := (p.queues.filter fun y => decide (y.q < x.q)) ++ [x] ++ p.queues.filter fun y => decide (y.q > x.q) }

/-- The address space in which queue headers of a partition are read: HASID (DESIGN CHOICE, assumption 34). -/
def State.queueIdent (s : State) (part owner : Nat) (tag : Nat := noTag) : Ident :=
  s.agentIdent part ((s.part part).hasid.toNat % 2 ^ 13) owner tag

/-- Owner name of the management function's accesses of registers. -/
def regOwner : Nat := ownerName 5 []

/-- Sets STATE of a queue to 3 at its header's home, under a name of its own; the register's write does not wait for the answer of
another device (R390). -/
def State.destroyHeader (s : State) (part desc : Nat) : State :=
  let (n, s) := s.fresh
  ((s.headerStep (s.queueIdent part n) desc hdDestroy 0).1).dropAnswers n

/-- A command that is to end early, unless it already is: a block's fault or a kill ends one whose agent was reloaded and whose placed
blocks run on (R389, R394). -/
def Cmd.endWith (m : Cmd) (result : Nat) (cls : BitVec 8) (fpc fva : DWord) : Cmd :=
  match m.stage with
  | .ending r _ _ _ => if r = 5 ∧ (result = 1 ∨ result = 3) then { m with stage := .ending result cls fpc fva } else m
  | _ => { m with stage := .ending result cls fpc fva }

/-- The rights that a lease request to another device gives where it ends the launch's leases there (R319), and where it has a residency
request of the launch answered "refused" (R390); the class by which that is known (MODEL). -/
def leaseEnd : Nat := 0
def leaseCancel : Nat := 4
def leaseCancelled : BitVec 8 := 0xFE

/-- A command of a destroyed queue whose lease waits for other devices asks them to answer its residency requests (R390). -/
def State.cancelAway (s : State) (part : Nat) (m : Cmd) : State :=
  let owner := cmdOwner part m.q m.idx
  (s.rbuf.filter fun b => decide (b.owner = owner ∧ b.op = 7) && b.ans.isNone).foldl (fun s b =>
    match s.home part b.va with
    | .here _ => s
    | .away dev _ =>
      match s.plane dev b.va with
      | none => s
      | some p =>
        let (num, s) := s.fresh
        s.ask p dev num { s.agentIdent part m.asid owner (s.agentTag m.core) with lease := some (256 * part + m.q, m.idx) } 7 b.va leaseCancel 0) s

/-- A queue still has a command, or a claim whose compare-and-swap another device has been asked for (R390). -/
def State.queueBusy (s : State) (part q : Nat) : Bool :=
  (s.part part).cmds.any (fun m => decide (m.q = q)) || (s.coresOf part).any fun c => match (s.core c).agent.claim with
    | some t => decide (t.q = q)
    | none => false

/-- BUSY of a partition's destroyed queues falls with their last commands (R390). -/
def State.settleBusy (s : State) (part : Nat) : State :=
  let p := s.part part
  s.setPart part { p with queues := p.queues.map fun (x : Queue) => { x with busy := x.busy && s.queueBusy part x.q } }

/-- A residency request is for a command of this device. -/
def Cmd.awaits (m : Cmd) (r : Residency) : Bool := r.dev.isNone && decide (r.q = m.q ∧ r.idx = m.idx)

/-- A write of QCTL (R375): VALID = 1 registers the queue unless it is busy, VALID = 0 destroys it (R390). -/
def State.qctlWrite (s : State) (part q : Nat) (v : DWord) : State :=
  let p := s.part part
  let x := p.queue q
  let desc := (v.extractLsb' 6 50).toNat * 64
  let kill := v.getLsbD 62
  if v.getLsbD 63 then
    if x.busy then s else s.setPart part (p.setQueue { x with valid := true, kill := kill, desc := desc })
  else
    let s := if x.valid then s.destroyHeader part x.desc else s
    let s := (p.cmds.filter fun m => decide (m.q = q)).foldl (fun s m => s.cancelAway part m) s
    let p := s.part part
    let waits := fun (m : Cmd) => p.resid.any m.awaits
    let cmds := p.cmds.map fun m => if m.q = q ∧ (kill ∨ waits m) then m.endWith 3 0 0 0 else m
    let p := { p with cmds := cmds, resid := p.resid.filter fun r => decide (r.q ≠ q ∨ r.dev.isSome) }
    (s.setPart part (p.setQueue { x with valid := false, kill := kill, desc := desc, busy := s.queueBusy part q })).wakeAgents part

/-- A write of QSTOP; clearing EN lets scanning resume at once (R411). -/
def State.qstopWrite (s : State) (part q : Nat) (v : DWord) : State :=
  let p := s.part part
  let s := s.setPart part (p.setQueue { p.queue q with qen := v.getLsbD 63, qs := (v.extractLsb' 0 56).toNat })
  if v.getLsbD 63 then s else s.wakeAgents part

/-- REACHED: EN is 1, CLIDX = S, and no claimed command of the queue is left (R411). -/
def State.qReached (s : State) (part q : Nat) (id : Ident) : State × Bool :=
  let p := s.part part
  let x := p.queue q
  if !x.qen ∨ p.cmds.any (fun m => decide (m.q = q)) then (s, false)
  else
    match s.homeNat id (x.desc + 24) 8 with
    | (s, .inl w) => (s, decide (w % 2 ^ 56 = x.qs))
    | (s, .inr _) => (s, false)

/-- A read of the queue page, as a step of an engine. -/
def State.queueRead (s : State) (part off owner : Nat) (tag : Nat := noTag) : State × DWord :=
  let p := s.part part
  let x := p.queue (off / 8 % 256)
  let bit := fun (b : Bool) (i : Nat) => if b then 2 ^ i else 0
  if off % 8 ≠ 0 then (s, 0)
  else if off = 0x3000 then (s, p.hasid)
  else if off / 0x800 = 2 then (s, BitVec.ofNat 64 (bit x.valid 63 + bit x.kill 62 + bit x.busy 61 + x.desc % 2 ^ 56))
  else if off / 0x800 = 4 then
    let r := s.qReached part x.q (s.queueIdent part owner tag)
    (r.1, BitVec.ofNat 64 (bit x.qen 63 + bit r.2 62 + x.qs))
  else (s, 0)

/-- A write to the queue page. -/
def State.queueWrite (s : State) (part off : Nat) (v : DWord) : State :=
  let q := off / 8 % 256
  if off % 8 ≠ 0 then s
  else if off = 0x3000 then s.setPart part { s.part part with hasid := v &&& 0x1FFF }
  else if off / 0x800 = 0 then s.wakeAgents part
  else if off / 0x800 = 2 then s.qctlWrite part q v
  else if off / 0x800 = 4 then s.qstopWrite part q v
  else s

/-! ## Partition blocks (R356, R365, R366, R422) -/

/-- A write of TELBASE restarts the ring (R422). -/
def State.telbaseWrite (s : State) (part : Nat) (v : DWord) : State :=
  s.setPart part { s.part part with telbase := v / 64 * 64, telwr := 0 }

/-- Counters 14 and 15 are shared: bit 63 reads 1 (R364). -/
def sharedCtr (i : Nat) : Bool := decide (i = 14 ∨ i = 15)

/-- A read of a partition's register block. -/
def Part.read (p : Part) (off : Nat) : DWord :=
  if off % 8 ≠ 0 then 0
  else if off = 0 then p.pent
  else if off = 8 then
    BitVec.ofNat 64 (p.err.toNat * 2 ^ 24 + p.pten.toNat * 2 ^ 20 + (if p.pbusy then 2 ^ 16 else 0) + min 65535 p.pend.length)
  else if off = 0x20 then p.telbase
  else if off = 0x28 then p.tellog
  else if off = 0x30 then p.telwr
  else if 0x100 ≤ off ∧ off < 0x180 then p.tent[(off - 0x100) / 8]?.getD 0
  else if 0x200 ≤ off ∧ off < 0x280 then
    let i := (off - 0x200) / 8
    let x := p.ctr[i]?.getD 0
    if sharedCtr i then x ||| 0x8000000000000000 else x
  else if 0x400 ≤ off ∧ off < 0x800 then p.tctr[(off - 0x400) / 8]?.getD 0
  else 0

/-- A write to a partition's register block, other than PENT, TENT, PREQ and TELBASE. -/
def Part.write (p : Part) (off : Nat) (v : DWord) : Part :=
  if off % 8 ≠ 0 then p
  else if off = 0x28 then { p with tellog := v &&& 0xF }
  else if 0x200 ≤ off ∧ off < 0x280 then
    let i := (off - 0x200) / 8
    { p with ctr := p.ctr.set i (if sharedCtr i then v &&& 0x7FFFFFFFFFFFFFFF else v) }
  else if 0x400 ≤ off ∧ off < 0x800 then { p with tctr := p.tctr.set ((off - 0x400) / 8) v }
  else p

/-! ## Device control, ports, debug (R428, R401, R412) -/

/-- A bit mask over the slices. -/
def State.sliceBits (s : State) (f : Slice → Bool) : Nat :=
  (List.range 12).foldl (fun a i => if f (s.slice i) then a + 2 ^ i else a) 0

/-- A read of the device control unit. -/
def State.devRead (s : State) (off : Nat) : DWord :=
  match off with
  | 0x00 => 0x5A0C000100000000
  | 0x08 => s.devnum
  | 0x10 => BitVec.ofNat 64 (s.sliceBits (·.sdrain))
  | 0x18 => BitVec.ofNat 64 (s.sliceBits Slice.isDrained + s.sliceBits (·.out) * 2 ^ 16 + s.sliceBits (·.calbusy) * 2 ^ 32)
  | 0x28 => s.fwctl
  | 0x30 => s.fwstat
  | 0x38 => s.herr
  | 0x40 => s.plim
  | 0x48 => s.temp
  | 0x50 => if s.stopped then 0x8000000000000000 else 0
  | _ => 0

/-- A read of a port's control register. -/
def Port.read (p : Port) : DWord :=
  BitVec.ofNat 64 ((if p.up then 2 ^ 63 else 0) + min 65535 p.replays * 2 ^ 32 + p.backoff.toNat)

/-- A read of the debug unit: CSEL, then the selected core's registers. -/
def State.debugRead (s : State) (off : Nat) : DWord :=
  let k := s.core (s.csel.toNat % 512)
  if off % 8 ≠ 0 then 0
  else if off = 0 then s.csel
  else if off = 0x10 then k.ddata
  else if off = 0x18 then k.dstat
  else if off = 0x20 then k.trcbase
  else if off = 0x28 then k.trclen
  else if off = 0x30 then k.trcptr
  else if off = 0x38 then k.trcctl
  else if 0x40 ≤ off ∧ off < 0x140 then k.elig[(off - 0x40) / 8]?.getD 0
  else if 0x140 ≤ off ∧ off < 0x280 then k.stallc[(off - 0x140) / 8]?.getD 0
  else if 0x280 ≤ off ∧ off < 0x2A0 then k.issue[(off - 0x280) / 8]?.getD 0
  else if off = 0x2A0 then k.gerr
  else if off = 0x2A8 then k.whits
  else if off = 0x2B0 then k.cyc
  else 0

/-- A write to the debug unit, other than DCMD and TRCCTL. -/
def State.debugWrite (s : State) (off : Nat) (v : DWord) : State :=
  let c := s.csel.toNat % 512
  let k := s.core c
  if off % 8 ≠ 0 then s
  else if off = 0 then { s with csel := v &&& 0x1FF }
  else if off = 0x10 then s.setCore c { k with ddata := v }
  else if off = 0x20 then s.setCore c { k with trcbase := v / 64 * 64 }
  else if off = 0x28 then s.setCore c { k with trclen := v / 64 * 64 }
  else if off = 0x30 then s.setCore c { k with trcptr := v }
  else if 0x40 ≤ off ∧ off < 0x140 then s.setCore c { k with elig := k.elig.set ((off - 0x40) / 8) v }
  else if 0x140 ≤ off ∧ off < 0x280 then s.setCore c { k with stallc := k.stallc.set ((off - 0x140) / 8) v }
  else if 0x280 ≤ off ∧ off < 0x2A0 then s.setCore c { k with issue := k.issue.set ((off - 0x280) / 8) v }
  else if off = 0x2A0 then s.setCore c { k with gerr := v }
  else if off = 0x2A8 then s.setCore c { k with whits := v }
  else s

/-- One ownership table entry (R403). -/
def State.otEntry (s : State) (e : Nat) : BitVec 128 := match s.otable.find? fun x => decide (x.1 = e) with
  | some x => x.2
  | none => 0

/-- Sixteen bytes of the start journal's entry (R431). -/
def JEntry.word (j : JEntry) (hi : Bool) : DWord :=
  if hi then BitVec.ofNat 64 j.boots else BitVec.ofNat 64 (j.step + j.attempt * 2 ^ 16 + j.result * 2 ^ 24 + j.setting * 2 ^ 32)

/-- A byte of the boot store's image slots; what nothing has written there is free (R427). -/
def State.storeByte (s : State) (a : Nat) : Byte := match s.store.find? fun x => decide (x.1 = a) with
  | some x => x.2
  | none => Config.freeByte (2 ^ 64 + a)

/-- A read of a management address (R393, R427), as a step of an engine. A unit that is not assigned reads 0. -/
def State.mgmtRead (s : State) (unit off owner : Nat) (tag : Nat := noTag) : State × DWord :=
  if unit < 12 then (s, (s.part unit).read off)
  else if 0x10 ≤ unit ∧ unit < 0x1C then (s, (s.slice (unit - 0x10)).firnRead off)
  else if 0x20 ≤ unit ∧ unit < 0x2C then s.queueRead (unit - 0x20) off owner tag
  else if unit = 0x30 then (s, s.debugRead off)
  else if unit = 0x40 then (s, s.devRead off)
  else if 0x50 ≤ unit ∧ unit < 0x68 ∧ off = 0 then (s, (s.ports[unit - 0x50]?.getD Port.reset).read)
  else if unit = 0x70 then
    (s, if off % 8 ≠ 0 then 0 else (s.otEntry (off / 16)).extractLsb' (8 * (off % 16)) 64)
  else if unit = 0x80 ∧ off < 0x1000 ∧ off % 8 = 0 then
    (s, match s.journal[off / 16]? with | some j => j.word (decide (off % 16 = 8)) | none => 0)
  else if unit = 0x80 ∧ off % 8 = 0 then (s, BitVec.ofNat 64 (leBytes ((List.range 8).map fun i => s.storeByte (off + i))))
  else (s, 0)

/-- A write of a register that has no behaviour of its own (R306, R365, R366, R401, R412, R422, R428). -/
def State.plainWrite (s : State) (unit off : Nat) (v : DWord) : State :=
  if unit < 12 then s.setPart unit ((s.part unit).write off v)
  else if 0x10 ≤ unit ∧ unit < 0x1C then s.firnWrite (unit - 0x10) off v
  else if 0x20 ≤ unit ∧ unit < 0x2C then
    if off = 0x3000 then s.queueWrite (unit - 0x20) off v else s
  else if unit = 0x30 then s.debugWrite off v
  else if unit = 0x40 then
    if off = 0x38 then { s with herr := s.herr &&& ~~~v }
    else if off = 0x40 then { s with plim := v }
    else s
  else if 0x50 ≤ unit ∧ unit < 0x68 ∧ off = 0 then
    match s.ports[unit - 0x50]? with
    | none => s
    | some p =>
      let n := (BitVec.ofNat 16 (min 65535 p.replays) &&& ~~~(v.extractLsb' 32 16)).toNat
      let p : Port := { p with backoff := v.extractLsb' 0 16, replays := n }
      { s with ports := s.ports.set (unit - 0x50) p }
  else s

/-- A write of a management address (R393), as a step of an engine; none where it is held back. -/
def State.mgmtWrite (s : State) (unit off : Nat) (v : DWord) (owner : Nat) : Option State :=
  if unit < 12 then
    some (if off = 0 then s.pentWrite unit v owner
      else if off = 0x10 then s.preqWrite unit v
      else if off = 0x20 then s.telbaseWrite unit v
      else if 0x100 ≤ off ∧ off < 0x180 ∧ off % 8 = 0 then s.tentWrite unit ((off - 0x100) / 8) v
      else s.plainWrite unit off v)
  else if 0x10 ≤ unit ∧ unit < 0x1C ∧ off = 0x20 then s.invalWrite (unit - 0x10) v
  else if 0x20 ≤ unit ∧ unit < 0x2C then some (s.queueWrite (unit - 0x20) off v)
  else some (s.plainWrite unit off v)

/-- The units an agent of a partition reaches (R393). -/
def State.ownUnit (s : State) (part unit : Nat) : Bool :=
  decide (unit = part ∨ unit = 0x20 + part) || (decide (unit ≥ 0x10) && (s.part part).run.contains (unit - 0x10))

/-- Host writes discarded or refused (R426, R428, R436): HERR saturates. -/
def State.hostError (s : State) : State := { s with herr := if s.herr = 0xFFFFFFFFFFFFFFFF then s.herr else s.herr + 1 }

end Sys2Proof.Machine
end

