-- ==== Sys2Proof/Machine/Sha.lean ====
section
/-! DEFINITION. SHA-256, the hash of firmware measurements and attestation reports (R432, R434). -/

namespace Sys2Proof.Machine

/-- The 64 constants of the rounds. -/
def shaConstants : List Word :=
  ([0x428a2f98, 0x71374491, 0xb5c0fbcf, 0xe9b5dba5, 0x3956c25b, 0x59f111f1, 0x923f82a4, 0xab1c5ed5] : List Word) ++
  [0xd807aa98, 0x12835b01, 0x243185be, 0x550c7dc3, 0x72be5d74, 0x80deb1fe, 0x9bdc06a7, 0xc19bf174] ++
  [0xe49b69c1, 0xefbe4786, 0x0fc19dc6, 0x240ca1cc, 0x2de92c6f, 0x4a7484aa, 0x5cb0a9dc, 0x76f988da] ++
  [0x983e5152, 0xa831c66d, 0xb00327c8, 0xbf597fc7, 0xc6e00bf3, 0xd5a79147, 0x06ca6351, 0x14292967] ++
  [0x27b70a85, 0x2e1b2138, 0x4d2c6dfc, 0x53380d13, 0x650a7354, 0x766a0abb, 0x81c2c92e, 0x92722c85] ++
  [0xa2bfe8a1, 0xa81a664b, 0xc24b8b70, 0xc76c51a3, 0xd192e819, 0xd6990624, 0xf40e3585, 0x106aa070] ++
  [0x19a4c116, 0x1e376c08, 0x2748774c, 0x34b0bcb5, 0x391c0cb3, 0x4ed8aa4a, 0x5b9cca4f, 0x682e6ff3] ++
  [0x748f82ee, 0x78a5636f, 0x84c87814, 0x8cc70208, 0x90befffa, 0xa4506ceb, 0xbef9a3f7, 0xc67178f2]

/-- The eight working words. -/
structure ShaState where
  a : Word
  b : Word
  c : Word
  d : Word
  e : Word
  f : Word
  g : Word
  h : Word
deriving DecidableEq, Repr

def shaStart : ShaState :=
  ⟨0x6a09e667, 0xbb67ae85, 0x3c6ef372, 0xa54ff53a, 0x510e527f, 0x9b05688c, 0x1f83d9ab, 0x5be0cd19⟩

/-- One round with a constant plus schedule word. -/
def ShaState.round (x : ShaState) (kw : Word) : ShaState :=
  let s1 := x.e.rotateRight 6 ^^^ x.e.rotateRight 11 ^^^ x.e.rotateRight 25
  let ch := (x.e &&& x.f) ^^^ (~~~x.e &&& x.g)
  let t1 := x.h + s1 + ch + kw
  let s0 := x.a.rotateRight 2 ^^^ x.a.rotateRight 13 ^^^ x.a.rotateRight 22
  let maj := (x.a &&& x.b) ^^^ (x.a &&& x.c) ^^^ (x.b &&& x.c)
  ⟨t1 + (s0 + maj), x.a, x.b, x.c, x.d + t1, x.e, x.f, x.g⟩

/-- The next schedule word, of the sixteen before it. -/
def shaNext (w : List Word) : Word :=
  let at' := fun (i : Nat) => w[i]?.getD 0
  let s0 := (at' 1).rotateRight 7 ^^^ (at' 1).rotateRight 18 ^^^ ((at' 1) >>> 3)
  let s1 := (at' 14).rotateRight 17 ^^^ (at' 14).rotateRight 19 ^^^ ((at' 14) >>> 10)
  at' 0 + s0 + at' 9 + s1

/-- The rounds of one block: the constants left, and the sixteen schedule words from here on. -/
def shaRounds : List Word → List Word → ShaState → ShaState
  | k :: ks, w, x => shaRounds ks (w.drop 1 ++ [shaNext w]) (x.round (k + w.headD 0))
  | [], _, x => x

/-- One block of sixteen words. -/
def ShaState.block (x : ShaState) (w : List Word) : ShaState :=
  let y := shaRounds shaConstants w x
  ⟨x.a + y.a, x.b + y.b, x.c + y.c, x.d + y.d, x.e + y.e, x.f + y.f, x.g + y.g, x.h + y.h⟩

/-- Words of four bytes, the first byte the most significant. -/
def shaWords : List Byte → List Word
  | a :: b :: c :: d :: rest => (a ++ b ++ c ++ d) :: shaWords rest
  | _ => []

/-- The blocks of a padded message; `n` bounds their number. -/
def shaBlocks : Nat → List Word → ShaState → ShaState
  | 0, _, x => x
  | n + 1, ws, x => if ws.isEmpty then x else shaBlocks n (ws.drop 16) (x.block (ws.take 16))

/-- SHA-256 of bytes: 32 bytes, first to last. -/
def sha256 (bytes : List Byte) : List Byte :=
  let pad := (119 - bytes.length % 64) % 64
  let len : BitVec 64 := BitVec.ofNat 64 (8 * bytes.length)
  let tail : List Byte := (List.range 8).map fun i => len.extractLsb' (56 - 8 * i) 8
  let ws := shaWords (bytes ++ [0x80] ++ List.replicate pad 0 ++ tail)
  let x := shaBlocks ws.length ws shaStart
  [x.a, x.b, x.c, x.d, x.e, x.f, x.g, x.h].flatMap fun w => (List.range 4).map fun i => w.extractLsb' (24 - 8 * i) 8

end Sys2Proof.Machine
end

