-- ==== Sys2Proof/Machine/Registers.lean ====
section
/-! DEFINITION. Writes of the management function and of the virtual functions, draining and recalibration (R429, R430), thermal
stop and power (R435, R436), firmware updates and attestation (R433, R434), invalidations (R312), the debugger's registers
(R412, R413, R418). -/

namespace Sys2Proof.Machine

/-! ## Steps of the host -/

/-- Host-port bytes, counted for every partition (R364, R365). -/
def State.hostBytes (s : State) (n : Nat) : State := (List.range 12).foldl (fun s i => s.count i 15 n) s

/-- A step asked for by the host, tried from `s` with an outcome: while answers of other devices are missing, or a unit that it needs does not
run, only its requests leave, and the step keeps its place (Machine/Turn.lean). -/
def hostGate (owner : Nat) (s : State) : Out → Out
  | .next s' => remoteGate s s' owner (.refused .eventNotDue) fun s => .next s
  | o => o

/-- A host's access of one 64-bit register: 8 host-port bytes (R365). -/
def hostReg (s : State) (f : State → Out) : Out := hostGate regOwner s (f (s.hostBytes 8))

/-- A host write to a queue page: discarded while a thermal stop holds the device (R436), ignored without a partition (R425). -/
def State.pageWrite (s : State) (part : Nat) (f : State → State) : Out :=
  if s.stopped then .next s.hostError.bump
  else if !((s.part part).valid) then .next s.bump
  else .next (f s).bump

/-- A doorbell (R375). -/
def execDoorbell (part q : Nat) (s : State) : Out :=
  hostReg s fun s => s.pageWrite part fun s => s.queueWrite part (8 * (q % 256)) 0
/-- QCTL written with VALID = 1 (R375). -/
def execQueueRegister (part q : Nat) (v : DWord) (s : State) : Out :=
  hostReg s fun s => s.pageWrite part fun s => s.qctlWrite part (q % 256) (v ||| 0x8000000000000000)
/-- QCTL written with VALID = 0 (R390). -/
def execQueueDestroy (part q : Nat) (v : DWord) (s : State) : Out :=
  hostReg s fun s => s.pageWrite part fun s => s.qctlWrite part (q % 256) (v &&& 0x7FFFFFFFFFFFFFFF)
/-- QSTOP (R411). -/
def execQstop (part q : Nat) (v : DWord) (s : State) : Out :=
  hostReg s fun s => s.pageWrite part fun s => s.qstopWrite part (q % 256) v

/-- A write of PENT (R357). -/
def execPentWrite (part : Nat) (v : DWord) (s : State) : Out := hostReg s fun s => .next (s.pentWrite part v regOwner).bump
/-- A write of TENT (R360). -/
def execTentWrite (part t : Nat) (v : DWord) (s : State) : Out := hostReg s fun s => .next (s.tentWrite part t v).bump
/-- A write of PREQ (R367, R368). -/
def execPreq (part : Nat) (v : DWord) (s : State) : Out := hostReg s fun s => .next (s.preqWrite part v).bump
/-- A write of TELBASE (R422). -/
def execTelbaseWrite (part : Nat) (v : DWord) (s : State) : Out := hostReg s fun s => .next (s.telbaseWrite part v).bump
/-- A write of a register without a behaviour of its own; HASID is a register of a queue page (R425, R436). -/
def State.registerWrite (s : State) (unit off : Nat) (v : DWord) : Out :=
  if 0x20 ≤ unit ∧ unit < 0x2C then s.pageWrite (unit - 0x20) fun s => s.plainWrite unit off v else .next (s.plainWrite unit off v).bump
def execRegisterWrite (unit off : Nat) (v : DWord) (s : State) : Out := hostReg s fun s => s.registerWrite unit off v
/-- A write of DEVNUM (R428): above 191, or with a slice not drained, it is ignored and counted. -/
def State.devnumWrite (s : State) (v : DWord) : Out :=
  if v.toNat > 191 ∨ (s.slices.any fun sl => !sl.isDrained) then .next s.hostError.bump
  else .next ({ s with devnum := v } : State).bump
def execDevnumWrite (v : DWord) (s : State) : Out := hostReg s fun s => s.devnumWrite v

/-- An ownership table entry (R403): ignored with DEV above 191 or LAST below FIRST. The table keeps ascending entry numbers. -/
def State.otWrite (s : State) (e : Nat) (v : BitVec 128) : Out :=
  if e ≥ 4096 ∨ (v.extractLsb' 80 8).toNat > 191 ∨ (v.extractLsb' 40 40).toNat < (v.extractLsb' 0 40).toNat then .next s.bump
  else
    let x := v &&& 0x80000000FFFFFFFFFFFFFFFFFFFFFFFF
    .next ({ s with otable := (s.otable.filter fun y => decide (y.1 < e)) ++ [(e, x)] ++ s.otable.filter fun y => decide (y.1 > e) } : State).bump
def execOwnershipTableWrite (e : Nat) (v : BitVec 128) (s : State) : Out :=
  hostReg s fun s => (s.hostBytes 8).otWrite e v

/-! ## Invalidations (R312) -/

/-- A write of INVAL; held back while 65 are queued. -/
def execInval (stack : Nat) (v : DWord) (s : State) : Out :=
  hostReg s fun s => match s.invalWrite stack v with
    | some s => .next s.bump
    | none => .refused .eventNotDue

/-- A TLB entry or a walk that an invalidation names. -/
def invalHits (v : DWord) (dk : Bool) (id vpn size : Nat) : Bool :=
  decide (dk = v.getLsbD 63 ∧ id = (v.extractLsb' 50 13).toNat) &&
    (v.getLsbD 49 || decide (vpn ≤ (v.extractLsb' 0 40).toNat ∧ (v.extractLsb' 0 40).toNat < vpn + size))

/-- Drops what an invalidation names from a Firn: TLB entries, and the answers of walks still in flight. -/
def Slice.invalidate (sl : Slice) (v : DWord) : Slice :=
  { sl with
    tlb := sl.tlb.filter fun t => !(invalHits v t.dk t.id t.vpn t.size)
    misses := sl.misses.map fun (m : Miss) => if invalHits v m.dk m.dom (m.va / 2 ^ 16) 1 then { m with res := none } else m }

/-- The oldest invalidation ends: no TLB entry and no walk in flight can return an old entry it names; the next one begins. -/
def execInvalComplete (stack : Nat) (s : State) : Out :=
  let sl := s.slice stack
  match sl.inval with
  | [] => .refused .eventNotDue
  | v :: rest => .next (s.setSlice stack { sl.invalidate v with inval := rest }).bump

/-! ## Draining and recalibration (R429, R430) -/

/-- SDRAIN(s) set. -/
def State.drainSlice (s : State) (slice : Nat) : State := (s.setSlice slice { s.slice slice with sdrain := true }).bump
def execSliceDrain (slice : Nat) (s : State) : Out := hostReg s fun s => .next (s.drainSlice slice)
/-- SDRAIN(s) cleared: DRAINED(s) is cleared and the slice serves again. -/
def State.undrainSlice (s : State) (slice : Nat) : State :=
  let s := s.setSlice slice { s.slice slice with sdrain := false, drained := false }
  ({ s with cores := s.cores.mapIdx fun c (k : Core) =>
    if c / 32 = slice then { k with agent := { k.agent with wake := true } } else k } : State).bump
def execSliceUndrain (slice : Nat) (s : State) : Out := hostReg s fun s => .next (s.undrainSlice slice)

/-- A core's agent has asked another device for a ticket, or for the claim of a packet: it goes on with it whatever SDRAIN says (R429). -/
def State.placing (s : State) (c part q idx : Nat) : Bool := s.rbuf.any fun b => decide (b.owner = placeOwner c part q idx ∧ b.op = 2)
def State.pinned (s : State) (c : Nat) : Bool :=
  (s.core c).agent.claim.isSome || (List.range 12).any fun p => (s.part p).cmds.any fun m => s.placing c p m.q m.idx

/-- No block is on the slice's cores nor about to be placed there, no session in its Moraine unit, no walk in its walkers, no miss in
flight. -/
def State.sliceIdle (s : State) (i : Nat) : Bool :=
  ((List.range 32).all fun c => (s.core (32 * i + c)).blocks.all (·.isNone) && !(s.pinned (32 * i + c))) && (s.slice i).mg.isEmpty && (s.slice i).misses.isEmpty &&
    s.cores.all fun k => k.walks.all fun w => decide (w.slice ≠ i)

/-- A draining slice has emptied: its lines are written back and invalid, its TLB empty, DRAINED(s) is 1. -/
def execSliceDrained (slice : Nat) (s : State) : Out :=
  let sl := s.slice slice
  if !sl.sdrain ∨ sl.drained ∨ !(s.sliceIdle slice) then .refused .eventNotDue
  else
    let owner := ownerName 7 [slice]
    remoteGate s (s.flushSlice slice owner) owner (.refused .eventNotDue) fun s =>
      .next (s.setSlice slice { s.slice slice with tlb := [], drained := true }).bump

/-- SCAL(s): ignored unless DRAINED(s); the stack retrains with CALBUSY(s) set. -/
def State.recalibrate (s : State) (slice : Nat) (ok : Bool) : State :=
  let sl := s.slice slice
  if !sl.isDrained ∨ sl.calbusy then s.bump
  else (s.setSlice slice { sl with calbusy := true, calok := ok }).bump
def execScal (slice : Nat) (ok : Bool) (s : State) : Out := hostReg s fun s => .next (s.recalibrate slice ok)

/-- A retraining ends: a stack that fails is marked OUT; sectors that had been poisoned hold free values. -/
def State.calDone (s : State) (slice : Nat) : State :=
  let bad := s.poison.filter fun a => decide (a / 2 ^ 36 = slice)
  let s := bad.foldl (fun (s : State) a =>
    { s with mem := memPutBytes s.mem a ((List.range 32).map fun i => Config.freeByte (s.free + i)), free := s.free + 32 }) s
  let sl := s.slice slice
  (s.setSlice slice { sl with out := sl.out || !sl.calok, calbusy := false, calok := false }).bump

/-! ## Power and temperature (R435, R436) -/

/-- TEMP reaches 115 °C: every clock stops, which function 0 reads in THERMST. -/
def State.thermal (s : State) (temp : Nat) : State :=
  ({ s with temp := BitVec.ofNat 16 temp |>.setWidth 64, stopped := true, thermalLog := true } : State).bump
def execThermalStop (temp : Nat) (s : State) : Out := if temp < 115 * 16 then .refused .eventNotDue else .next (s.thermal temp)

/-- RESUME written: below 95 °C every clock restarts, else the write is ignored and counted. -/
def State.resumeClocks (s : State) : State :=
  if s.temp.toNat < 95 * 16 then ({ s with stopped := false } : State).bump else s.hostError.bump
def execThermalResume (s : State) : Out := hostReg s fun s => .next s.resumeClocks

/-- Sets an island, or from 512 on the highest operating point of a cluster's rail and clock source, as a division of the nominal clock
(R4); another number sets nothing. The manual names no register for it (assumption 112). -/
def State.setIsland (s : State) (i : Nat) (p : Power) : State :=
  if i < 512 then { s with islands := s.islands.set i p }
  else match p with
    | .run d => { s with rails := s.rails.set (i - 512) d }
    | _ => s

/-- What a free choice sets an island to. -/
def Power.pick (n : Nat) : Power := if n % 3 = 0 then .run (n / 3 + 1) else if n % 3 = 1 then .gated else .retention

/-- A measurement of power and of the hottest island: at 115 °C every clock stops, and beyond PLIM or 105 °C the clock of core islands is
lowered first, then of the others; no result changes (R435). Beside that the controller sets one island or rail, a free choice (R4, assumption 112). -/
def execPowerThrottle (watts temp : Nat) (s : State) : Out :=
  let beyond := decide (watts > s.plim.toNat ∨ temp > 105 * 16)
  let (a, b) := s.throttle
  let step := if !beyond then (0, 0) else if a ≤ b then (a + 1, b) else (a, b + 1)
  if temp ≥ 115 * 16 then .next (s.thermal temp)
  else .next (({ s with temp := (BitVec.ofNat 16 temp).setWidth 64, throttle := step, free := s.free + 2 } : State).setIsland
    (Config.freeNat s.free) (Power.pick (Config.freeNat (s.free + 1)))).bump

/-! ## Firmware (R433, R434) -/

/-- The cores an update names, in ascending number; cores of a slice marked out are skipped. -/
def State.updateCores (s : State) (v : DWord) : List Nat :=
  let n := (v.extractLsb' 0 9).toNat
  (List.range 384).filter fun c => decide (n = 0x1FF ∨ n = c) && !((s.slice (c / 32)).out) && !((s.core c).agent.out)

/-- FWSTAT: BUSY, the core being reloaded, cores failed. -/
def fwStatus (busy : Bool) (core failed : Nat) : DWord :=
  BitVec.ofNat 64 ((if busy then 2 ^ 63 else 0) + core % 512 + failed % 256 * 2 ^ 16)
def State.fwBusy (s : State) : Bool := s.fwstat.getLsbD 63
/-- The core being reloaded. -/
def State.fwCore (s : State) : Nat := (s.fwstat.extractLsb' 0 9).toNat
def State.fwFailed (s : State) : Nat := (s.fwstat.extractLsb' 16 8).toNat

/-- Bytes of an image slot: two of 30 KiB fill unit 0x80 from 0x1000 on (DESIGN CHOICE, log 51). -/
def State.slotBytes (s : State) (slot : Nat) : List Byte := (List.range 0x7800).map fun i => s.storeByte (0x1000 + 0x7800 * slot + i)

/-- A slot's image verifies: its key is the one whose hash the boot ROM holds, and its manifest is signed under that key (R432). -/
def State.verifies (s : State) (slot : Nat) : Bool :=
  let image := s.slotBytes slot
  decide (sha256 (Config.imageKey image) = Config.romKeyHash) && Config.signed (Config.imageKey image) (Config.manifest image)

/-- A load of a slot's agent code brings what the manifest measures (R433). -/
def State.loadMatches (s : State) (slot : Nat) : Bool :=
  let image := s.slotBytes slot
  decide (sha256 (Config.loaded (Config.agentCode image) s.free) = Config.measurement (Config.manifest image))

/-- FWCTL written: ignored while an update runs (DESIGN CHOICE, log 52). With GO the slot is verified once; where it fails, or cannot be read,
nothing is reloaded and FWSTAT records it, how the manual leaves open. Then the first core waits for its reload. -/
def State.fwctlWrite (s : State) (v : DWord) (ok : Bool) : State :=
  if s.fwBusy then s.bump
  else
    let s := { s with fwctl := v &&& 0x80000000000101FF }
    if !(v.getLsbD 63) then s.bump
    else if !(ok && s.verifies (if v.getLsbD 16 then 1 else 0)) then
      ({ s with fwstat := (Config.freeWord s.free).setWidth 63 |>.setWidth 64, free := s.free + 1 } : State).bump
    else
      match s.updateCores v with
      | [] => s.bump
      | c :: _ => ({ s with fwstat := fwStatus true c 0, fwTries := 0 } : State).bump
def execFwctlGo (v : DWord) (ok : Bool) (s : State) : Out := hostReg s fun s => .next (s.fwctlWrite v ok)

/-- The start journal as unit 0x80 reads it: 256 entries of 16 bytes. -/
def State.journalBytes (s : State) : List Byte :=
  (List.range 256).flatMap fun i => match s.journal[i]? with
    | some j => toLeBytes 8 (j.word false).toNat ++ toLeBytes 8 (j.word true).toNat
    | none => zeros 16

/-- Bytes the device writes to the host's memory. -/
def putHost (m : List Host.Cell) (a : Nat) (bytes : List Byte) : List Host.Cell :=
  (m.filter fun x => decide (x.1 < a)) ++ (bytes.mapIdx fun i b => (a + i, b)) ++ m.filter fun x => decide (a + bytes.length ≤ x.1)

/-- A report: DEVID, the identity key, the measurements of the boot ROM, of the three parts of the active image and of the
journal, the nonce; then its signature. It goes to the buffer in the host's memory; its layout is the model's (log 53). -/
def State.attest (s : State) (nonce addr : Nat) : State :=
  let image := s.slotBytes s.image
  let body := toLeBytes 8 (s.devRead 0).toNat ++ toLeBytes 32 Config.identityKey ++ toLeBytes 32 Config.romHash ++
    sha256 (Config.agentCode image) ++ sha256 (Config.controllerCode image) ++ sha256 (Config.manifest image) ++ sha256 s.journalBytes ++
    toLeBytes 32 nonce
  ({ s with hostMem := putHost s.hostMem addr (body ++ toLeBytes 7856 (Config.signature body s.boots)) } : State).bump
def execAttestationRequest (nonce addr : Nat) (s : State) : Out :=
  hostReg s fun s => .next ((s.hostBytes 32).attest nonce addr)

/-! ## The debugger (R412, R413, R418) -/

/-- A write of TRCCTL: with EN set, a SYNC packet for each traced team (R418). -/
def State.trcctlSet (s : State) (core : Nat) (v : DWord) : State :=
  let k := { s.core core with trcctl := v &&& 0xC0000001FFFFFFFF }
  let k := if v.getLsbD 63 then (List.range 33).foldl (fun k i => match k.team? i with
      | some t => if t.mode = TMode.retired then k else k.syncTeam i
      | none => k) k
    else k
  (s.setCore core k).bump
def execTrcctlWrite (core : Nat) (v : DWord) (s : State) : Out := hostReg s fun s => .next (s.trcctlSet core v)

/-- What a register command names. -/
structure DSel where
  slot : Nat
  file : Nat
  n : Nat
  lane : Nat
def DSel.of (v : DWord) : DSel :=
  ⟨(v.extractLsb' 8 6).toNat, (v.extractLsb' 16 4).toNat, (v.extractLsb' 20 10).toNat, (v.extractLsb' 30 11).toNat⟩

/-- The selector lies inside the team's declared ranges. -/
def DSel.inRange (d : DSel) (k : Core) (t : Team) : Bool :=
  match d.file with
  | 0 => decide (d.n < t.nregs ∧ d.lane < t.n)
  | 1 => decide (d.n < 64)
  | 2 => decide (d.n < 7 ∧ d.lane < t.n)
  | 3 => decide (d.n < 7)
  | 4 => decide (d.lane < t.n ∧ d.n < (t.lane d.lane).stack.length)
  | 5 => decide (d.lane < t.n)
  | 6 => true
  | 7 => decide (d.n < 64) && (k.entry t.quad d.n).live d.slot
  | _ => false

/-- The register a selector names, for statuses and logged loads. -/
def DSel.ref (d : DSel) : RegRef := match d.file with
  | 0 => .v d.lane d.n
  | 1 => .g d.n
  | 2 => .p d.lane d.n
  | _ => .gp (if d.file = 3 then d.n else 7)

/-- The value of a selector, zero-extended. -/
def DSel.read (d : DSel) (k : Core) (t : Team) : DWord :=
  let l := t.lane d.lane
  let b := fun (x : Bool) => if x then (1 : DWord) else 0
  match d.file with
  | 0 => (l.r d.n).setWidth 64
  | 1 => t.rg d.n
  | 2 => b (l.pr d.n)
  | 3 => b (t.pg d.n)
  | 4 => (l.stack[d.n]?.getD 0).setWidth 64
  | 5 => l.status.setWidth 64
  | 6 => t.fflags.setWidth 64
  | _ => (k.entry t.quad d.n).pc.setWidth 64

/-- Changes one lane. -/
def Team.onLane (t : Team) (L : Nat) (f : Lane → Lane) : Team := { t with lanes := t.lanes.modify L f }

/-- A write of DDATA to a selector. -/
def DSel.write (d : DSel) (k : Core) (t : Team) (x : DWord) : Core :=
  let w : Word := x.setWidth 32
  match d.file with
  | 0 => k.setTeam d.slot (t.put [.v d.lane d.n w])
  | 1 => k.setTeam d.slot (t.put [.g d.n x])
  | 2 => k.setTeam d.slot (t.put [.p d.lane d.n (x.getLsbD 0)])
  | 3 => k.setTeam d.slot (t.put [.gp d.n (x.getLsbD 0)])
  | 4 => k.setTeam d.slot (t.onLane d.lane fun l => { l with stack := l.stack.set d.n w })
  | 5 => k.setTeam d.slot (t.onLane d.lane fun l => { l with status := w })
  | 6 => k.setTeam d.slot { t with fflags := w &&& 0xFF }
  | _ =>
    let k := k.setEntry t.quad d.n { k.entry t.quad d.n with pc := x.setWidth 56 }
    match t.mode with
    | .halted cls (some (e, _)) => if e = d.n then k.setTeam d.slot { t with mode := .halted cls none } else k
    | _ => k

/-- The result of a register command, before it acts: 3 no team, 2 not halted, 4 selector out of range. -/
def Core.dcmdStatus (k : Core) (d : DSel) : Nat :=
  match k.team? d.slot with
  | none => 3
  | some t =>
    if t.mode = TMode.retired then 3
    else match t.mode with
      | .halted _ _ => if d.inRange k t then 0 else 4
      | _ => 2

/-- A register command on the core that CSEL names. -/
def State.dcmd (s : State) (v : DWord) (act : Core → Team → DSel → Nat × Core) : Out :=
  let c := s.csel.toNat % 512
  let k := s.core c
  let d := DSel.of v
  match k.dcmdStatus d, k.team? d.slot with
  | 0, some t => let r := act k t d; .next (s.setCore c { r.2 with dstat := BitVec.ofNat 64 r.1 }).bump
  | n, _ => .next (s.setCore c { k with dstat := BitVec.ofNat 64 n }).bump

/-- DCMD with OP 1: DDATA takes the value. -/
def State.dcmdRead (s : State) (v : DWord) : Out := s.dcmd v fun k t d => (0, { k with ddata := d.read k t })
def execDcmdRead (v : DWord) (s : State) : Out := hostReg s fun s => s.dcmdRead v

/-- A PC is written with bits 1:0 zero. -/
def DSel.pcBad (d : DSel) (x : DWord) : Bool := decide (d.file = 7) && decide (x.extractLsb' 0 2 ≠ 0)

/-- DCMD with OP 2: a pending completion status refuses it with "busy" (R352). -/
def State.dcmdWrite (s : State) (v : DWord) : Out :=
  s.dcmd v fun k t d =>
    if d.pcBad k.ddata then (4, k)
    else if t.busy.contains d.ref then (1, k)
    else (0, d.write k t k.ddata)
def execDcmdWrite (v : DWord) (s : State) : Out := hostReg s fun s => s.dcmdWrite v

/-- The pending status write to a register is cancelled; the session's data, arrivals and end still take place (R352). -/
def Core.cancelStatus (k : Core) (slot : Nat) (r : RegRef) : Core :=
  let hitW := fun (w : Walk) => decide (w.slot = slot) && (walkDest w.lane w.dreg).contains r
  let freed := r :: (k.walks.filter hitW).flatMap fun w => walkDest w.lane w.dreg
  let k := { k with
    sessions := k.sessions.map fun (x : Session) => if x.slot = slot then { x with dest := x.dest.map fun y => if y = r then .gp 7 else y } else x
    walks := k.walks.map fun (w : Walk) => if hitW w then { w with mute := true } else w }
  match k.team? slot with
  | none => k
  | some t => k.setTeam slot { t with busy := t.busy.filter fun y => !(freed.contains y) }

/-- A drain whose status goes to a g register of a team loses it. -/
def State.cancelDrain (s : State) (c slot : Nat) (r : RegRef) : State :=
  { s with slices := s.slices.map fun (sl : Slice) => { sl with mg := sl.mg.map fun (m : MgSess) => match m.drain with
    | some (c', slot', q, pc, gd) => if c' = c ∧ slot' = slot ∧ r = .g gd then { m with drain := some (c', slot', q, pc, 64) } else m
    | none => m } }

/-- DCMD with OP 3 (R352). -/
def State.dcmdForced (s : State) (v : DWord) : Out :=
  let c := s.csel.toNat % 512
  let d := DSel.of v
  let s' := if (s.core c).dcmdStatus d = 0 && !(d.pcBad (s.core c).ddata) then s.cancelDrain c d.slot d.ref else s
  s'.dcmd v fun k _ d =>
    if d.pcBad k.ddata then (4, k)
    else
      let k := k.cancelStatus d.slot d.ref
      match k.team? d.slot with
      | some t => (0, d.write k t k.ddata)
      | none => (3, k)
def execDcmdForcedWrite (v : DWord) (s : State) : Out := hostReg s fun s => s.dcmdForced v

end Sys2Proof.Machine
end

