-- ==== Sys2Proof/Machine/Debug.lean ====
section
/-! DEFINITION. Watch bits and watch hits (R414 to R416), `tmark` and `pmrd` (R420), the end of an agent's task (R394). -/

namespace Sys2Proof.Machine

/-! ## `tmark`, `pmrd` (R420) -/

/-- `tmark`: a MARK packet where tracing covers the slot. -/
def execTmark (f : DB) (s : State) : Out :=
  issue s (fun cx => cx.onceReads f.c (f.b.refs true 0 false)) (fun _ => []) fun cx =>
    if !(cx.takes f.c) then .next (cx.next s f.b.len)
    else .next (({ cx with k := cx.k.note cx.slot cx.e 7 (cx.bval true 0 false .n f.b * 2 ^ 16) } : Cx).next s f.b.len)

/-- The counter a selector of `pmrd` names. -/
def Core.counter (k : Core) (q sel : Nat) : DWord :=
  if sel = 0 then k.cyc
  else if 1 ≤ sel ∧ sel ≤ 8 then k.elig[8 * q + sel - 1]?.getD 0
  else if 16 ≤ sel ∧ sel ≤ 25 then k.stallc[10 * q + sel - 16]?.getD 0
  else if sel = 32 then k.issue[q]?.getD 0
  else if sel = 33 then k.gerr
  else if sel = 34 then k.whits
  else 0

/-- `pmrd`: gD takes a counter of the core. -/
def execPmrd (f : DB) (s : State) : Out :=
  regOp f.c false f.b.len (fun _ => f.b.refs true 0 false) (fun _ => [.g f.d.toNat])
    (fun cx _ => [.g f.d.toNat (cx.k.counter cx.q (cx.bval true 0 false .n f.b))]) s

/-! ## `wtch` (R414) -/

/-- Sets or clears the watch bit of one sector at its home, in its memory and in the L2 line that holds it; its owners lose it. A home on
another device does the same (R405). -/
def State.watchSector (s : State) (id : Ident) (va : Nat) (on : Bool) : State × Bool :=
  match s.home id.part va with
  | .away dev _ =>
    match s.remote id dev va 9 (if on then 1 else 0) 0 with
    | (s, .inr _) => (s, false)
    | (s, .inl _) => (s, true)
  | .here i =>
    if !(s.reaches id.tag i && s.islandOn (islandStack + i)) then (s.hold id.owner, false) else
    match s.translate i (sharedVa va) (id.dom va) (id.genOf va) va false false with
    | (s, .bad _) => (s, false)
    | (s, .denied _ _) => (s, false)
    | (s, .ok pa _ _) =>
      let a := pa / 32 * 32
      let s := { s with watch := if on then a :: s.watch.filter (· ≠ a) else s.watch.filter (· ≠ a) }
      match (s.slice i).find (sharedVa va) (id.dom va) va with
      | none => (s, true)
      | some (key, l) =>
        let s := s.setLine i key { l with watch := setNib l.watch (subOf va) (on && l.valid.getLsbD (subOf va)) }
        (s.revoke i key (sharedVa va) (id.dom va) ((List.range 8).map fun w => va / 32 * 8 + w) none id.owner, true)

/-- Sectors in ascending order, up to the first whose translation fails. -/
def State.watchRange (s : State) (id : Ident) (on : Bool) : Nat → Nat → State × Bool
  | 0, _ => (s, true)
  | n + 1, va =>
    match s.watchSector id va on with
    | (s, false) => (s, false)
    | (s, true) => s.watchRange id on n (va + 32)

/-- Every L1, stash and gather-cache copy of a range goes, in every core of the partition. -/
def State.dropCopies (s : State) (part : Nat) (dk : Bool) (dom lo n : Nat) : State :=
  let cut := fun (cs : List CSector) => cs.filter fun x => !(decide (x.dk = dk ∧ x.dom = dom) && overlaps x.va 32 lo n)
  s.onCores part fun k => { k with l1 := cut k.l1, stash := cut k.stash, gcache := cut k.gcache }

/-- `wtch`: status 1 for a bad range, 2 where a translation fails. It waits for the homes of other devices. -/
def execWtch (f : DABX) (s : State) : Out :=
  let d := f.d.toNat
  let len := f.b.len
  issue s (fun cx => cx.onceReads f.c (.g f.a.toNat :: f.b.refs true 0 true)) (fun cx => if cx.takes f.c then [.g d] else []) fun cx =>
    let base := (cx.v.rg f.a.toNat).toNat
    let n := cx.bval true 0 true .n f.b
    if !(cx.takes f.c) then .next (cx.next s len)
    else if base % 32 ≠ 0 ∨ n % 32 ≠ 0 ∨ n = 0 then .next (cx.write s len [.g d 1])
    else
      let s0 := s.setCore cx.c cx.core
      let id := { s0.identOf cx.c cx.slot with owner := cx.owner s }
      let r := s0.watchRange id (!f.x) (n / 32) base
      cx.gate s r.1 fun cx s =>
        let s := if r.2 then s.dropCopies id.part (sharedVa base) (id.dom base) base n else s
        .next ((cx.reload s).write s len [.g d (if r.2 then 0 else 2)])

/-! ## Tasks of the agent slot (R394, R415) -/

/-- A task of the agent slot: 32 lanes on quadrant 0 with 8 registers each (R162), the first g registers as given. -/
def agentTeam (gs : List DWord) (age : Nat) : Team :=
  { block := 99, num := 0, quad := 0, n := 32, nregs := 8
    lanes := (List.range 32).map fun L => ⟨List.replicate 8 0, 0, [], 0, 0, L, 0⟩
    g := (List.range 64).map fun i => gs[i]?.getD 0, gp := 0, m := List.replicate 8 ModReg.zero, fflags := 0, xwin := 0
    regionPc := 0, regionMask := 0, level := 0, frames := [], saves := [], record := DefRec.clear, log := []
    serials := List.replicate 32 none, seq := 0, flying := [], strict := false, mode := .run, stops := [], arrival := none, busy := []
    joins := [], ctxBase := 0, areaDirty := false, age := age, prio := 0, saved := none, drains := [] }

/-- Starts a task in the agent slot, in an address space. -/
def Core.startAgent (k : Core) (asid : Nat) (pc : PCWord) (gs : List DWord) : Core :=
  let k := { k with agent := { k.agent with asid := asid }, nextAge := k.nextAge + 1 }
  k.startTeam agentSlot (agentTeam gs k.nextAge) pc

/-- Ends the task: the slot and its entries are free. -/
def Core.endAgent (k : Core) : Core :=
  match k.team? agentSlot with
  | none => k
  | some t => let k := k.unseat agentSlot t; { k with slots := k.slots.set agentSlot none }

/-- `exit` in the agent slot: the agent's task ends and it scans again; a predicate task leaves gp0 as its outcome. -/
def execAgentExit (c : Ctl) (s : State) : Out :=
  issue s (fun cx => cx.predRefs c) (fun _ => []) fun cx =>
    if !(cx.takes c) then .next (cx.next s 8)
    else cx.waitPoint s .frag (
      match cx.close with
      | none => stall s reasonOperand
      | some cx =>
        let k := cx.core.note cx.slot cx.e 9 0
        let a := k.agent
        let a := { a with wake := true, verdict := if a.pred.isSome then some (cx.t.pg 0, 2) else a.verdict }
        .next (s.setCore cx.c ({ k with agent := a } : Core).endAgent).bump)

/-! ## Watch hits (R415, R416) -/

/-- What tells a hit from the others: its request tag and sector. -/
def Hit.key (h : Hit) : Nat := h.tag.toNat * 2 ^ 64 + h.va

/-- The hit a core serves next: of the oldest hit's instruction, the one with the lowest address. -/
def Core.nextHit (k : Core) : Option (Nat × Hit) :=
  match k.hits with
  | [] => none
  | h :: _ =>
    let same := (List.range k.hits.length).filterMap fun i => match k.hits[i]? with
      | some x => if x.tag = h.tag ∧ x.slot = h.slot then some (i, x) else none
      | none => none
    match same with
    | [] => none
    | x :: xs => some (xs.foldl (fun m y => if y.2.va < m.2.va then y else m) x)

def Core.isHeld (k : Core) (slot : Nat) : Bool := match k.team? slot with
  | some t => decide (t.mode = TMode.held)
  | none => false

/-- An outcome: a true one halts the team with class 0x0B and appends an event, and its further hits are void; after a false one
the team goes on, with its SYNC where it is traced (R418), when no hit of it is left. A hit of a team that is no longer held is discarded. -/
def State.hitOutcome (s : State) (c i : Nat) (h : Hit) (verdict : Bool) (ev : Nat) : State :=
  let k := s.core c
  if !(k.isHeld h.slot) then s.setCore c ({ k with hits := k.hits.eraseIdx i } : Core).freeSlots
  else if verdict then
    let k := ({ k with hits := k.hits.filter fun x => decide (x.slot ≠ h.slot) } : Core).haltTeam h.slot 0x0B none
    (s.setCore c k).dbgEvent c h.slot ev 0 h.pc h.va
  else
    let k := { k with hits := k.hits.eraseIdx i }
    let k := match k.team? h.slot with
      | some t => if k.hits.any fun x => decide (x.slot = h.slot) then k else (k.setTeam h.slot { t with mode := .run }).syncTeam h.slot
      | none => k
    s.setCore c k

/-- Owner name of an agent's read of the debug owner record for a watch hit. -/
def hitOwner (c : Nat) : Nat := ownerName 9 [c]

/-- A core takes up its next watch hit once the team holds: without a predicate the outcome is true, else a predicate task starts
in the agent slot as soon as that is free. The debug owner record may stand on another device (R405). -/
def execWatchHit (core : Nat) (s : State) : Out :=
  let k := s.core core
  match k.nextHit with
  | none => .refused .eventNotDue
  | some (i, h) =>
    let waits : Bool := match k.team? h.slot with
      | some t => t.stops.contains .watch
      | none => false
    if k.agent.pred.isSome || waits then .refused .eventNotDue
    else if !(k.isHeld h.slot) then .next (s.hitOutcome core i h true 2).bump
    else
      let r := s.dbgOwner { s.identOf core h.slot with owner := hitOwner core } h.dbg
      remoteGate s r.1 (hitOwner core) (.refused .eventNotDue) fun s =>
        match r.2, k.lslotOf h.slot with
        | some o, some l =>
          if h.beyond ∨ o.wpred = 0 then .next (s.hitOutcome core i h true 2).bump
          else if (k.team? agentSlot).isSome ∨ k.agent.dead ∨ k.agent.out then .refused .eventNotDue
          else
            let gs : List DWord := [BitVec.ofNat 64 h.va, h.tag.setWidth 64, BitVec.ofNat 64 h.kind, h.pc.setWidth 64, BitVec.ofNat 64 h.dbg]
            let k := (s.core core).startAgent l.asid (BitVec.ofNat 56 o.wpred) gs
            .next (s.setCore core { k with agent := { k.agent with pred := some (h.key, 0) } }).bump
        | _, _ => .next (s.hitOutcome core i h true 2).bump

/-- Ends the service of a hit with an outcome. -/
def State.predicateDone (s : State) (core : Nat) (verdict : Bool) (ev : Nat) : Out :=
  let k := s.core core
  match k.agent.pred with
  | none => .refused .eventNotDue
  | some (key, _) =>
    let s := s.setCore core { k with agent := { k.agent with pred := none, verdict := none } }
    match k.hits.findIdx? fun h => decide (h.key = key) with
    | none => .next s.bump
    | some i =>
      match k.hits[i]? with
      | none => .next s.bump
      | some h => .next (s.hitOutcome core i h verdict ev).bump

/-- The predicate task has exited: its outcome is gp0. -/
def execWatchPredicateExit (core : Nat) (s : State) : Out :=
  match (s.core core).agent.verdict with
  | none => .refused .eventNotDue
  | some (v, ev) => s.predicateDone core v ev

/-- A predicate task that has run 65,536 instructions ends there with outcome true and EVENT 3. -/
def execWatchPredicateLimit (core : Nat) (s : State) : Out :=
  let k := s.core core
  match k.agent.pred with
  | none => .refused .eventNotDue
  | some (_, n) =>
    if n < 65536 ∨ k.agent.verdict.isSome then .refused .eventNotDue
    else (s.setCore core (k.dropSlot agentSlot).endAgent).predicateDone core true 3

end Sys2Proof.Machine
end

