-- ==== Sys2Proof/Machine/Lease.lean ====
section
/-! DEFINITION. Claimed commands and their numbers, leases (R316 to R319), residency answers (R318), the acquire at a launch's
start and the release at its end (R386), generation bumps (R260, R314). -/

namespace Sys2Proof.Machine

/-! ## Claimed commands -/

/-- The command of a number: 65,536 times the partition, plus its place among the partition's claimed commands (MODEL). -/
def cmdPart (n : Nat) : Nat := n / 65536
def State.cmd? (s : State) (n : Nat) : Option Cmd := (s.part (cmdPart n)).cmds[n % 65536]?
/-- Changes the claimed command of a queue and index. -/
def State.onCmd (s : State) (part q idx : Nat) (f : Cmd → Cmd) : State :=
  let p := s.part part
  s.setPart part { p with cmds := p.cmds.map fun (m : Cmd) => if m.q = q ∧ m.idx = idx then f m else m }
/-- QID (R375). -/
def Cmd.qid (m : Cmd) (part : Nat) : Nat := 256 * part + m.q
/-- The identity of the accesses that a command's agent makes for it. -/
def State.cmdIdent (s : State) (part : Nat) (m : Cmd) (owner : Nat := cmdOwner part m.q m.idx) : Ident :=
  { s.agentIdent part m.asid owner (s.agentTag m.core) with lease := some (m.qid part, m.idx) }

/-- Every range of a command's lease: the buffer list, and for a launch the implicit ranges (R380). -/
def Cmd.ranges (m : Cmd) : List BufEnt := m.launch.bufs ++ m.launch.implicit

/-! ## Pieces (R309) -/

/-- First and last piece number of a range. -/
def BufEnt.firstPiece (b : BufEnt) : Nat := b.base / 2 ^ 16
def BufEnt.lastPiece (b : BufEnt) : Nat := (b.base + b.len - 1) / 2 ^ 16
/-- The pieces of a range, in ascending address. -/
def BufEnt.pieces (b : BufEnt) : List Nat := (List.range (b.lastPiece - b.firstPiece + 1)).map fun i => b.firstPiece + i

/-- A piece is homed at a slice of this device. -/
def State.pieceHere (s : State) (part slice vpn : Nat) : Bool := decide (s.home part (vpn * 2 ^ 16) = .here slice)

/-! ## Lease requests (R317) -/

/-- What a Firn answers for its part of one range. -/
inductive Grant
  | ok (s : State)
  | wait (s : State) (vpn : Nat)
  | refuse (s : State) (cls : BitVec 8) (vpn : Nat)

/-- Translates pieces homed at a slice, in order, up to the first that does not succeed. -/
def State.grantPieces (s : State) (slice : Nat) (id : Ident) (rights : Nat) : List Nat → Grant
  | [] => .ok s
  | v :: vs =>
    let va := v * 2 ^ 16
    match s.translate slice (sharedVa va) (id.dom va) (id.genOf va) va (rights.testBit 0) (rights.testBit 1) with
    | (s, .ok _ _ _) => s.grantPieces slice id rights vs
    | (s, .bad cls) => if cls = 0x11 then .wait s v else .refuse s cls v
    | (s, .denied _ _) => .refuse s 0x10 v

/-- The ranges of a lease, one after another. -/
def State.grantRanges (s : State) (part slice : Nat) (id : Ident) : List BufEnt → Grant
  | [] => .ok s
  | b :: bs =>
    match s.grantPieces slice id b.rights (b.pieces.filter (s.pieceHere part slice)) with
    | .ok s => s.grantRanges part slice id bs
    | g => g

/-- The lease records of a launch at a Firn: for each range with pieces homed there, the pieces from its first to its last. -/
def State.leaseRecs (s : State) (part slice : Nat) (m : Cmd) : List LeaseRec :=
  m.ranges.filterMap fun b =>
    let here := b.pieces.filter (s.pieceHere part slice)
    match here with
    | [] => none
    | v :: _ =>
      let dk := sharedVa b.base
      some ⟨m.qid part, m.idx, dk, if dk then m.sdom else m.asid, v, here.getLastD v, b.rights, none⟩

/-- A Firn grants, refuses, or asks residency for its part of a launch's lease. -/
def execLeaseRequest (slice cmd : Nat) (s : State) : Out :=
  let part := cmdPart cmd
  match s.cmd? cmd with
  | none => .refused .eventNotDue
  | some m =>
    match m.stage with
    | .lease granted =>
      let p := s.part part
      if !(p.run.contains slice) ∨ granted.contains slice ∨ (p.resid.any fun r => decide (r.slice = slice) && m.awaits r) ∨
          !(s.reaches (s.agentTag m.core) slice && s.islandOn (islandStack + slice)) then .refused .eventNotDue
      else
        let id := s.cmdIdent part m
        match s.grantRanges part slice id m.ranges with
        | .wait s v =>
          let p := s.part part
          .next (s.setPart part { p with resid := p.resid ++ [⟨slice, m.q, m.idx, sharedVa (v * 2 ^ 16), id.dom (v * 2 ^ 16), v, none, false⟩] }).bump
        | .refuse s cls v =>
          .next (s.onCmd part m.q m.idx fun m => m.endWith 2 cls 0 (BitVec.ofNat 64 (v * 2 ^ 16))).bump
        | .ok s' =>
          let recs := s'.leaseRecs part slice m
          let sl := s'.slice slice
          if sl.leases.length + recs.length > 4096 then .refused .eventNotDue
          else
            let s' := s'.setSlice slice { sl with leases := sl.leases ++ recs }
            .next (s'.onCmd part m.q m.idx fun m => { m with stage := .lease (slice :: granted) }).bump
    | _ => .refused .eventNotDue

/-- The answer to a residency request (R318): "mapped" has the Firn translate again, "refused" refuses the lease with class 0x11; the
launch of another device is told at its next look (R406). -/
def execResidencyAnswer (slice idx : Nat) (mapped : Bool) (s : State) : Out :=
  let part := s.partOf slice
  let p := s.part part
  match p.resid[idx]? with
  | none => .refused .eventNotDue
  | some r =>
    if r.slice ≠ slice ∨ r.refused then .refused .eventNotDue
    else if r.dev.isSome && !mapped then .next (s.setPart part { p with resid := p.resid.set idx { r with refused := true } }).bump
    else
      let s := s.setPart part { p with resid := p.resid.eraseIdx idx }
      if mapped ∨ r.dev.isSome then .next s.bump
      else .next (s.onCmd part r.q r.idx fun m => m.endWith 2 0x11 0 (BitVec.ofNat 64 (r.vpn * 2 ^ 16))).bump

/-- Frees the lease records of a launch, of another device where `dev` names one (R319, R406). -/
def State.freeLeases (s : State) (dev : Option Nat) (qid idx : Nat) : State :=
  { s with slices := s.slices.map fun (sl : Slice) =>
    { sl with leases := sl.leases.filter fun r => decide (r.dev ≠ dev ∨ r.qid ≠ qid ∨ r.idx ≠ idx) } }

/-! ## Leases of pieces on other devices (R406) -/

/-- Runs of consecutive pieces of ranges that one partition of another device serves: device, first piece, last piece, rights (R404). -/
def State.remoteRuns (s : State) (part : Nat) (bs : List BufEnt) : List (Nat × Nat × Nat × Nat) :=
  bs.flatMap fun b => ((b.pieces.foldl (fun (runs : List (Nat × Nat × Nat × Nat)) v =>
    match s.home part (v * 2 ^ 16), runs with
    | .here _, _ => runs
    | .away d r, (d', r', f, l) :: rest => if d' = d ∧ r' = r ∧ l + 1 = v then (d, r, f, v) :: rest else (d, r, v, v) :: runs
    | .away d r, [] => [(d, r, v, v)]) []).reverse).map fun x => (x.1, x.2.2.1, x.2.2.2, b.rights)

/-- Asks the fault processors of other devices for runs of a lease, one after another: the class and piece of the first refusal. -/
def State.leaseAway (s : State) (part : Nat) (m : Cmd) : List (Nat × Nat × Nat × Nat) → State × Option (BitVec 8 × Nat)
  | [] => (s, none)
  | (dev, v, last, rights) :: rest =>
    match s.remote (s.cmdIdent part m) dev (v * 2 ^ 16) 7 (BitVec.ofNat 32 rights) (BitVec.ofNat 256 last) with
    | (s, .inr cls) => (s, some (cls, v))
    | (s, .inl x) => if x = 0 then s.leaseAway part m rest else (s, some (BitVec.ofNat 8 x.toNat, x.toNat / 2 ^ 8))

/-- A lease request to another device is unanswered or its answer unused. -/
def RemBuf.leases (b : RemBuf) (owner : Nat) : Bool := decide (b.owner = owner ∧ b.op = 7)

/-- Tells other devices that a launch's leases there have ended, as the last part of a step that waits for nothing any more (R319). -/
def State.releaseAway (s : State) (part : Nat) (m : Cmd) (owner : Nat) : State :=
  if m.kind ≠ 1 ∨ s.waitsFor owner then s
  else
    (s.remoteRuns part m.ranges).foldl (fun s x =>
      match s.plane x.1 (x.2.1 * 2 ^ 16) with
      | none => s
      | some p => let (num, s) := s.fresh; s.ask p x.1 num (s.cmdIdent part m owner) 7 (x.2.1 * 2 ^ 16) leaseEnd x.2.2.1) s

/-! ## Acquire at start, release at end (R386) -/

/-- Ways of a slice that hold lines of a range. -/
def Slice.waysIn (sl : Slice) (dk : Bool) (dom lo n : Nat) : List Nat :=
  (sl.lines.filter fun kl => decide (kl.2.dk = dk ∧ kl.2.dom = dom) && overlaps (lineVa kl.1 kl.2) 128 lo n).map (·.1)

/-- Every slice of a partition and its memory controller run (R4). -/
def State.slicesUp (s : State) (part : Nat) : Bool := (s.part part).run.all fun i => s.islandOn (islandSlice + i) && s.islandOn (islandStack + i)
/-- An engine's step over every slice of a partition; one that does not run holds it (R4). -/
def State.onSlicesUp (s : State) (part owner : Nat) (f : State → Nat → State) : State :=
  if s.slicesUp part then s.onSlices part f else s.hold owner

/-- Invalidates every copy of a range in a partition: L2 lines with their owners revoked and dirty sectors written back, then L1,
stash and gather-cache copies. -/
def State.acquireRange (s : State) (part : Nat) (id : Ident) (b : BufEnt) : State :=
  let dk := sharedVa b.base
  let dom := id.dom b.base
  let s := s.onSlicesUp part id.owner fun s i => ((s.slice i).waysIn dk dom b.base b.len).foldl (fun s key => s.evict i key false id.owner) s
  s.dropCopies part dk dom b.base b.len

/-- Recalls the words of a line that stashes own, as a step of an engine. -/
def State.recallLine (s : State) (i key owner : Nat) : State :=
  match (s.slice i).way? key with
  | none => s
  | some l => (List.range 4).foldl (fun s j => s.recall i key l.dk l.dom (lineVa key l + 32 * j) none owner) s

/-- Writes back every dirty sector of a range from a partition's stashes and L2 slices. -/
def State.releaseRange (s : State) (part : Nat) (id : Ident) (b : BufEnt) : State :=
  s.onSlicesUp part id.owner fun s i =>
    ((s.slice i).waysIn (sharedVa b.base) (id.dom b.base) b.base b.len).foldl (fun s key => (s.recallLine i key id.owner).writeBack i key false) s

/-- The device-scope release of a launch: its ranges of MODE 2 and 3. -/
def State.releaseLaunch (s : State) (part : Nat) (m : Cmd) (owner : Nat) : State :=
  (m.launch.bufs.filter fun b => decide (b.mode ≥ 2)).foldl (fun s b => s.releaseRange part (s.cmdIdent part m owner) b) s

/-! ## Generation bumps (R260, R314) -/

/-- Owner name of a partition's generation bump. -/
def bumpOwner (part : Nat) : Nat := ownerName 6 [part]

/-- What the caches and the Firn of one slice do: dirty sectors of the identifier are written back, the entry's GEN rises by one, unless its
sector is poisoned (R302; log 131), its TLB entries go, and lines under the new generation's low bits are invalid. -/
def State.bumpSlice (dk : Bool) (id owner : Nat) (s : State) (i : Nat) : State :=
  let keys := ((s.slice i).lines.filter fun kl => decide (kl.2.dk = dk ∧ kl.2.dom = id)).map (·.1)
  let s := keys.foldl (fun s key => (s.recallLine i key owner).writeBack i key false) s
  let a := s.idEntryAt i dk id
  let (s, e, bad) := s.firnNat i a
  let g := if bad then idGen e else idGen e + 1
  let e' := (e &&& 0xFFFC0003FFFFFFFF) ||| (g.setWidth 64 <<< 34)
  let s := if bad then s else (s.stackPut i a 8 e'.toNat).count (s.partOf i) 5 1
  let s := s.setSlice i ((s.slice i).invalidate (BitVec.ofNat 64 ((if dk then 2 ^ 63 else 0) + id % 2 ^ 13 * 2 ^ 50 + 2 ^ 49)))
  keys.foldl (fun s key => match (s.slice i).way? key with
    | some l => if l.gen = g.extractLsb' 0 4 then s.evict i key false owner else s
    | none => s) s

/-- Cores adopt an identifier's new generation: launches carry it, copies filled under the old one go. -/
def Core.adopt (dk : Bool) (id : Nat) (g : BitVec 16) (part : Nat) (k : Core) : Core :=
  let cut := fun (cs : List CSector) => cs.filter fun x => !(decide (x.dk = dk ∧ x.dom = id))
  { k with
    l1 := cut k.l1, stash := cut k.stash, gcache := cut k.gcache
    lslots := k.lslots.map fun l => l.map fun (l : LSlot) =>
      if l.part ≠ part then l
      else if dk then (if l.sdom = id then { l with sgen := g } else l)
      else if l.asid = id then { l with gen := g } else l }

/-- A generation bump: every slice, then every core of the partition; the agents are told in a note whose value is open. Words that other
devices own are taken back first (R405). -/
def execGenerationBump (part : Nat) (dk : Bool) (id : Nat) (s : State) : Out :=
  if !((s.part part).valid) then .refused .eventNotDue
  else
    remoteGate s (s.onSlicesUp part (bumpOwner part) (State.bumpSlice dk id (bumpOwner part))) (bumpOwner part) (.refused .eventNotDue) fun s =>
      let g := idGen (s.idEntry (s.part part).first dk id)
      let s := s.onCores part (Core.adopt dk id g part)
      .next (({ s with free := s.free + 1 } : State).noteAgents part (Config.freeWord s.free)).bump

end Sys2Proof.Machine
end

