-- ==== Sys2Proof/Machine/Scan.lean ====
section
/-! DEFINITION. The agents' scan: live launches that can use a core's room, published packets, claims (R383, R391, R409). -/

namespace Sys2Proof.Machine

/-- The partition that owns a core. -/
def State.corePart (s : State) (c : Nat) : Option Nat := (List.range 12).find? fun i => (s.part i).run.contains (c / 32)

/-- The core's agent serves: loaded, not stopped, not marked out, at a task boundary, not under a firmware update. -/
def State.agentFree (s : State) (c : Nat) : Bool :=
  let k := s.core c
  s.on && !k.agent.out && !k.agent.dead && (k.team? agentSlot).isNone && !((s.slice (c / 32)).out) && !(s.fwBusy && decide (s.fwCore = c))

/-- It may claim packets and take tickets: its slice is not draining (R429). -/
def State.agentClaims (s : State) (c : Nat) : Bool := s.agentFree c && !((s.slice (c / 32)).sdrain)

/-- TICKET of a launch's completion object (R385); `none` when the read is refused or waits. -/
def State.ticketOf (s : State) (id : Ident) (cmpl : Nat) : State × Option Nat :=
  match s.homeNat id (cmpl + 32) 8 with
  | (s, .inl t) => (s, some t)
  | (s, .inr _) => (s, none)

/-- The core outside a launch's preferred clusters (R255). -/
def outsideClusters (l : Launch) (c : Nat) : Bool := decide (l.clmask ≠ 0) && !(l.clmask.testBit (c / 8))

/-- The name of a command in an agent's list of TICKET reads. -/
def Cmd.key (m : Cmd) : Nat := m.q * 2 ^ 64 + m.idx
/-- Its last two reads of a TICKET are at least 1,024 clocks apart and agree, and TICKET has not moved since (R255, R388). -/
def Agent.settled (a : Agent) (key t : Nat) : Bool :=
  match a.reads.filter fun r => decide (r.1 = key) with
  | x :: y :: _ => decide (x.2.2 ≥ y.2.2 + 1024 ∧ x.2.1 = y.2.1 ∧ x.2.1 = t)
  | _ => false
/-- It may read TICKET again. -/
def Agent.readAgain (a : Agent) (key now : Nat) : Bool :=
  match a.reads.filter fun r => decide (r.1 = key) with
  | x :: _ => decide (now ≥ x.2.2 + 1024)
  | [] => true
def Agent.addRead (a : Agent) (key t now : Nat) : Agent :=
  let mine := (key, t, now) :: a.reads.filter fun r => decide (r.1 = key)
  { a with reads := mine.take 2 ++ a.reads.filter fun r => decide (r.1 ≠ key) }
/-- A ticket taken ends the count of reads before it. -/
def Agent.noReads (a : Agent) (key : Nat) : Agent := { a with reads := a.reads.filter fun r => decide (r.1 ≠ key) }

/-- A launch whose blocks may be placed: a live one, or for its saved frames one whose placed blocks run on after its agent was reloaded
(R394). -/
def Cmd.places (m : Cmd) : Bool := decide (m.kind = 1) && match m.stage with
  | .live => true
  | .ending r _ _ _ => decide (r = 5) && !m.saved.isEmpty
  | _ => false

/-- A live launch that still holds tickets or saved frames and can use room on a core (R383), looked at as a step of an engine. -/
def State.usesRoom (s : State) (part c owner : Nat) (m : Cmd) : State × Bool :=
  if !m.places ∨ (s.part part).preempts m.asid ∨ ((s.core c).room m.launch part (m.qid part) m.idx).isNone then (s, false)
  else if m.saved ≠ [] then (s, true)
  else
    match s.ticketOf (s.agentIdent part m.asid owner (s.agentTag c)) m.cmpl with
    | (s, some t) => (s, decide (t < m.launch.blocks) && (!(outsideClusters m.launch c) || (s.core c).agent.settled m.key t))
    | (s, none) => (s, false)

/-- A live launch of higher PRIO, or of equal PRIO and claimed earlier, can use the room of a core (R383). -/
def State.outranked (s : State) (part c owner j : Nat) : State × Bool :=
  let cmds := (s.part part).cmds
  match cmds[j]? with
  | none => (s, false)
  | some m =>
    ((List.range cmds.length).filterMap fun i => (cmds[i]?).bind fun x =>
      if x.prio > m.prio ∨ (x.prio = m.prio ∧ i < j) then some x else none).foldl (fun (st : State × Bool) x =>
        if st.2 then st else st.1.usesRoom part c owner x) (s, false)

/-- The highest PRIO of the live launches that can use the core's room. -/
def State.livePrio (s : State) (part c : Nat) : State × Option Nat :=
  ((s.part part).cmds).foldl (fun (st : State × Option Nat) m =>
    match st.1.usesRoom part c (scanOwner c) m with
    | (s, true) => (s, some (max m.prio (st.2.getD 0)))
    | (s, false) => (s, st.2)) (s, none)

/-- The identity under which a core's agent reads queue headers. -/
def State.scanIdent (s : State) (part c : Nat) : Ident := s.queueIdent part (scanOwner c) (s.agentTag c)

/-- Headers of the registered queues in STATE 1, by descending PRIO, then ascending number. -/
def State.scanQueues (s : State) (part c : Nat) : State × List (Queue × QHead) :=
  let r := ((s.part part).queues.filter (·.valid)).foldl (fun (st : State × List (Queue × QHead)) x =>
    match st.1.homeRead (st.1.scanIdent part c) x.desc 32 with
    | (s, .inl bs) =>
      let h := QHead.ofBytes bs
      (s, if h.state = 1 then st.2 ++ [(x, h)] else st.2)
    | (s, .inr _) => (s, st.2)) (s, [])
  (r.1, (List.range 256).reverse.flatMap fun p => r.2.filter fun x => decide (x.2.prio = p))

/-- A claimed command with the bytes of its launch descriptor and buffer list, or the ERRCODE of R383. -/
structure Claim where
  s : State
  res : Sum (Cmd × List Byte × List Byte) Nat

/-- Reads the descriptor and the buffer list a claimed packet names, and checks R377 to R380 and R409. -/
def State.readCommand (s : State) (part c : Nat) (t : ClaimTry) : Claim :=
  let id := s.agentIdent part t.asid (scanOwner c) (s.agentTag c)
  let pk := t.packet
  let kind := pkKind pk
  if kind > 5 then ⟨s, .inr 2⟩
  else if !(packetWf pk) then ⟨s, .inr 3⟩
  else
    let bl : State × Sum (List Byte) (BitVec 8) := if pkNbuf pk = 0 then (s, .inl []) else s.homeRead id (pkBufl pk) (32 * pkNbuf pk)
    let ld : State × Sum (List Byte) (BitVec 8) := if kind = 1 then bl.1.homeRead id ((pkArgs pk).headD 0) 256 else (bl.1, .inl [])
    match bl.2, ld.2 with
    | .inl bl, .inl ldb =>
      let s := ld.1
      let l := launchOf pk ldb bl
      let wf := if kind = 1 then launchWf l ldb bl else (List.range l.bufs.length).all fun i => match l.bufs[i]? with
        | some b => bufWf bl i b
        | none => true
      let m : Cmd :=
        { q := t.q, idx := t.idx, asid := t.asid, sdom := id.sdom, prio := t.prio, kind := kind, flags := BitVec.ofNat 8 (pkFlags pk)
          cmpl := pkCmpl pk, launch := l, args := pkArgs pk, core := c, stage := .claimed, saved := [], lost := [], ords := [], done := 0, told := false }
      if !wf then ⟨s, .inr 3⟩
      else if kind = 1 && l.flags.getLsbD 3 then
        match s.dbgOwner id l.dbgown with
        | (s, some o) => if o.reclen = 0 then ⟨s, .inr 3⟩ else ⟨s, .inl (m, ldb, bl)⟩
        | (s, none) => ⟨s, .inr 1⟩
      else ⟨s, .inl (m, ldb, bl)⟩
    | _, _ => ⟨ld.1, .inr 1⟩

/-- The queue enters STATE 2 with the packet left unexecuted (R383). -/
def State.queueError (s : State) (part c desc idx code : Nat) : State :=
  (s.headerStep (s.scanIdent part c) desc hdError (idx + 2 ^ 64 * code)).1

/-- An entry of a command's record area, appended by an agent (R423). -/
def Cmd.job (m : Cmd) (part c kind : Nat) (body : List Byte) : DbgJob :=
  ⟨0, c, part, m.qid part, m.idx, m.asid, m.sdom, m.launch.dbgown, some kind, body⟩

/-- Records of a recording launch at its claim: packet, descriptor, buffer list (R423). -/
def State.recordClaim (s : State) (part : Nat) (m : Cmd) (pk ldb bl : List Byte) : State :=
  if m.kind ≠ 1 ∨ !(m.flags.getLsbD 3) then s
  else
    let s := (s.dbgPost (m.job part m.core 1 pk)).dbgPost (m.job part m.core 2 ldb)
    if bl.isEmpty then s else s.dbgPost (m.job part m.core 3 bl)

/-! ## Claims -/

/-- What a scan finds: nothing, a queue that has entered STATE 2, or a packet to claim. -/
inductive Found
  | none
  | error
  | packet (t : ClaimTry)

/-- One queue of the scan. -/
def State.scanQueue (s : State) (part c : Nat) (x : Queue) (h : QHead) : State × Found :=
  let i := h.clidx
  if i ≥ h.wridx ∨ (x.qen ∧ i ≥ x.qs) ∨ (s.part part).preempts h.asid then (s, .none)
  else
    match s.homeRead (s.agentIdent part h.asid (scanOwner c) (s.agentTag c)) (h.slot i) 64 with
    | (s, .inr _) => (s.queueError part c x.desc i 1, .error)
    | (s, .inl pk) =>
      if pkKind pk = 0 ∨ pkSeq pk ≠ i % 2 ^ 32 then (s, .none)
      else if pkFlags pk % 2 = 1 ∧ ((s.part part).cmds.any fun m => decide (m.q = x.q)) then (s, .none)
      else (s, .packet ⟨x.q, i, x.desc, h.asid, h.prio, pk⟩)

/-- The queues of a scan in order, up to the first that gives something; a queue is passed over while a live launch of equal or higher PRIO
can use the core's room. -/
def State.scanAll (s : State) (part c : Nat) (live : Option Nat) : List (Queue × QHead) → State × Found
  | [] => (s, .none)
  | (x, h) :: rest =>
    if (match live with | some p => decide (h.prio ≤ p) | none => false) then s.scanAll part c live rest
    else
      match s.scanQueue part c x h with
      | (s, .none) => s.scanAll part c live rest
      | r => r

/-- Sets what a core's agent tries to claim. -/
def State.setClaim (s : State) (c : Nat) (t : Option ClaimTry) : State :=
  let k := s.core c
  s.setCore c { k with agent := { k.agent with claim := t } }

/-- The agent goes on scanning, or its wake is used up. -/
def State.scanned (s : State) (c : Nat) (wake : Bool) : State :=
  let k := s.core c
  s.setCore c { k with agent := { k.agent with wake := wake, rescan := false } }

/-- A claimed command enters its partition: its queue may have been destroyed, KILL set, since the claim was applied (R390). -/
def State.addCmd (s : State) (part c : Nat) (m : Cmd) : State :=
  let p := s.part part
  let x := p.queue m.q
  let m := if !x.valid && x.kill then m.endWith 3 0 0 0 else m
  let s := s.setPart part { p with cmds := p.cmds ++ [m] }
  let k := s.core c
  s.setCore c { k with agent := { k.agent with serving := some (m.q, m.idx) } }

/-- The claim of a packet: the compare-and-swap at the header's home, then the command is read (R383, R390). Answers whether the agent
scans again, and the command claimed with the bytes of its descriptor and buffer list. -/
def State.claimRun (s : State) (part c : Nat) (t : ClaimTry) : State × Option (Cmd × List Byte × List Byte) :=
  match s.headerStep (s.scanIdent part c) t.desc hdClaim t.idx with
  | (s, .inl 1) =>
    let r := s.readCommand part c t
    match r.res with
    | .inr code => (r.s.queueError part c t.desc t.idx code, none)
    | .inl m => (r.s.addCmd part c m.1, some m)
  | (s, _) => (s, none)

/-- An agent claims a packet: another device may have to answer first, and it then goes on with the same packet. A claim that failed has the
queue scanned again. -/
def State.claimStep (s : State) (part c : Nat) (t : ClaimTry) : Out :=
  let s0 := s.setClaim c (some t)
  let r := s0.claimRun part c t
  remoteGate s0 r.1 (scanOwner c) (if (s.core c).agent.claim = some t then .refused .eventNotDue else .next s0.bump) fun s =>
    let s := ((s.setClaim c none).scanned c true).settleBusy part
    match r.2 with
    | none => .next s.bump
    | some (m, ldb, bl) => .next (s.recordClaim part m t.packet ldb bl).bump

/-- A scan of a core's agent: at most one claim; with none the wake is used up. Its notes that were dropped are made up for by it. A claim
that waits for another device goes on first. -/
def execAgentScan (core : Nat) (s : State) : Out :=
  match s.corePart core with
  | none => .refused .eventNotDue
  | some part =>
    let k := s.core core
    match k.agent.claim with
    | some t => if k.agent.dead ∨ (k.team? agentSlot).isSome then .refused .eventNotDue else s.claimStep part core t
    | none =>
      if !(s.agentFree core) then .refused .eventNotDue
      else
        let r : State × Found := if s.agentClaims core then
            let lp := s.livePrio part core
            let qs := lp.1.scanQueues part core
            qs.1.scanAll part core lp.2 qs.2
          else (s, .none)
        remoteGate s r.1 (scanOwner core) (.refused .eventNotDue) fun s => match r.2 with
          | .none => .next (s.scanned core false).bump
          | .error => .next (s.scanned core true).bump
          | .packet t => s.claimStep part core t

end Sys2Proof.Machine
end

