-- ==== Sys2Proof/Machine/Command.lean ====
section
/-! DEFINITION. Execution of claimed commands: launches from the lease to the placement of blocks (R386 to R388), bulk copies, waits,
signals and markers (R384), retirement of blocks (R144), early ends (R348, R389) and completion (R385). -/

namespace Sys2Proof.Machine

/-! ## Completion (R385, R386 step 6) -/

/-- Writes a completion object: bytes 31:8, then the DONE word. -/
def State.putCompletion (s : State) (id : Ident) (cmpl idx result : Nat) (cls : BitVec 8) (fpc fva : DWord) : State :=
  if cmpl = 0 then s
  else
    let s := (s.homeWrite id (cmpl + 8) (toLeBytes 8 fpc.toNat ++ toLeBytes 8 idx ++ toLeBytes 8 fva.toNat)).1
    (s.homePut id cmpl 8 (1 + result * 2 ^ 8 + cls.toNat * 2 ^ 16)).1

/-- A launch's Moraine sessions are discarded in whatever state (R280). -/
def State.endSessions (s : State) (part q idx : Nat) : State :=
  (List.range 12).foldl (fun s i =>
    ((s.slice i).mg.filter fun m => decide (m.part = part ∧ m.q = q ∧ m.idx = idx)).foldl (fun s m => s.mgDiscard (m.ref i) m) s) s

/-- A command has ended, as a step of an engine: its lease records, sessions, waiting requests and token are free, its completion is written,
BUSY falls with the last command of a destroyed queue, the agents scan, and its leases on other devices end. -/
def State.complete (s : State) (part : Nat) (m : Cmd) (result : Nat) (cls : BitVec 8) (fpc fva : DWord)
    (owner : Nat := cmdOwner part m.q m.idx) : State :=
  let s := ((s.freeLeases none (m.qid part) m.idx).endSessions part (m.qid part) m.idx).dropSaved (m.qid part) m.idx
  let s := s.putCompletion (s.cmdIdent part m owner) m.cmpl m.idx result cls fpc fva
  let p := s.part part
  let mine := fun (q idx : Nat) => decide (q = m.q ∧ idx = m.idx)
  let p := { p with
    cmds := p.cmds.filter fun x => !(mine x.q x.idx), resid := p.resid.filter fun r => !(m.awaits r)
    coop := match p.coop with | some (q, i) => if mine q i then none else some (q, i) | none => none }
  let s := (s.setPart part p).settleBusy part
  let s := { s with bulk := s.bulk.filter fun b => !(decide (b.1 = part) && mine b.2.1 b.2.2)
                    parked := s.parked.filter fun b => !(decide (b.part = part) && mine b.q b.idx) }
  (s.onCores part fun k => { k with agent := { k.agent with serving := match k.agent.serving with
    | some (q, i) => if mine q i then none else some (q, i)
    | none => none } }).wakeAgents part |>.releaseAway part m owner

/-- A launch whose blocks have all retired: the device-scope release, then the completion. -/
def State.completeLaunch (s : State) (part : Nat) (m : Cmd) (result : Nat) (cls : BitVec 8) (fpc fva : DWord)
    (owner : Nat := cmdOwner part m.q m.idx) : State :=
  (s.releaseLaunch part m owner).complete part m result cls fpc fva owner

/-- A step of a command made by its agent: it waits for answers of other devices. -/
def cmdStep (s : State) (part : Nat) (m : Cmd) (f : State → State) : Out :=
  remoteGate s (f s) (cmdOwner part m.q m.idx) (.refused .eventNotDue) fun s => .next s.bump

/-! ## Launches (R386, R387) -/

/-- Blocks of a launch that an empty core holds, placed one after another until the next does not fit. -/
def fillCore (l : Launch) : Nat → Core → Nat
  | 0, _ => 0
  | n + 1, k =>
    match k.room l 0 0 0 with
    | none => 0
    | some p => 1 + fillCore l n (k.place p ⟨0, 0, 0, 0, 0, 0, 0, l, [], []⟩ 0 0 0 false)

/-- A claimed launch: a block that fits no core ends it with RESULT 6; else its lease is asked for (R386, R387). -/
def execLaunchCommand (cmd core : Nat) (s : State) : Out :=
  let part := cmdPart cmd
  match s.cmd? cmd with
  | none => .refused .eventNotDue
  | some m =>
    if m.kind ≠ 1 ∨ m.stage ≠ CStage.claimed ∨ m.core ≠ core then .refused .eventNotDue
    else if (Core.reset.room m.launch 0 0 0).isNone then .next (s.onCmd part m.q m.idx fun m => m.endWith 6 0 0 0).bump
    else .next (s.onCmd part m.q m.idx fun m => { m with stage := .lease [] }).bump

/-- Cores of a partition in service: not those of a slice that is draining (R429). -/
def State.serving (s : State) (part : Nat) : List Nat := (s.coresOf part).filter fun c =>
  !((s.core c).agent.out) && !((s.slice (c / 32)).out) && !((s.slice (c / 32)).sdrain)

/-- Snapshots of a recording launch's readable ranges (R423). -/
def State.snapshots (s : State) (part : Nat) (m : Cmd) : State × List (List Byte) :=
  if !(m.flags.getLsbD 3) then (s, [])
  else
    let id := s.cmdIdent part m
    (m.launch.bufs.filter fun b => b.rights.testBit 0).foldl (fun (st : State × List (List Byte)) b =>
      match st.1.homeRead id b.base b.len with
      | (s, .inl bs) => (s, st.2 ++ [toLeBytes 8 b.base ++ bs])
      | (s, .inr _) => (s, st.2)) (s, [])

/-- The cooperative check and the token (R386 step 3): the launch becomes live, waits for the token, or ends with RESULT 4. -/
def State.goLive (s : State) (part : Nat) (m : Cmd) : State :=
  let coop := m.flags.getLsbD 2
  let p := s.part part
  if coop ∧ m.launch.blocks > (s.serving part).length * fillCore m.launch 33 Core.reset then s.onCmd part m.q m.idx fun m => m.endWith 4 0 0 0
  else if coop ∧ p.coop.isSome then s.onCmd part m.q m.idx fun m => { m with stage := .token }
  else
    let s := if coop then s.setPart part { p with coop := some (m.q, m.idx) } else s
    (s.onCmd part m.q m.idx fun m => { m with stage := .live }).wakeAgents part

/-- How a lease that another device has not granted ends the command (R317, R390). -/
def Cmd.leaseRefused (m : Cmd) (cls : BitVec 8) (vpn : Nat) : Cmd :=
  if cls = leaseCancelled then m.endWith 3 0 0 0 else m.endWith 2 cls 0 (BitVec.ofNat 64 (vpn * 2 ^ 16))

/-- Every Firn has granted, and the fault processors of other devices are asked (R406); with their grants too the ranges of MODE 1
and 3 are acquired, and the launch goes live; or the cooperative token it waited for is free. -/
def execLeaseGranted (cmd : Nat) (s : State) : Out :=
  let part := cmdPart cmd
  match s.cmd? cmd with
  | none => .refused .eventNotDue
  | some m =>
    let p := s.part part
    match m.stage with
    | .lease granted =>
      if !(p.run.all (granted.contains ·)) || p.resid.any m.awaits then .refused .eventNotDue
      else
      match s.leaseAway part m (s.remoteRuns part m.ranges) with
      | (s', some (cls, v)) => cmdStep s part m fun _ => s'.onCmd part m.q m.idx fun m => m.leaseRefused cls v
      | (s', none) =>
        let s' := (m.launch.bufs.filter fun b => decide (b.mode % 2 = 1)).foldl (fun s b => s.acquireRange part (s.cmdIdent part m) b) s'
        let r := s'.snapshots part m
        remoteGate s (r.1.goLive part m) (cmdOwner part m.q m.idx) (.refused .eventNotDue) fun s =>
          .next (r.2.foldl (fun s b => s.dbgPost (m.job part m.core 4 b)) s).bump
    | .token => if p.coop.isSome then .refused .eventNotDue else .next (s.goLive part m).bump
    | _ => .refused .eventNotDue

/-! ## Placement of blocks (R388) -/

/-- The lowest clear bit of a frame bitmap. -/
def clearBit (bs : List Byte) (n : Nat) : Option Nat := (List.range n).find? fun f => !((bs[f / 8]?.getD 0).getLsbD (f % 8))

/-- An atomic of n32 on the word of a frame's bit: its old value is the bit's. -/
def State.frameBit (s : State) (id : Ident) (fmap f : Nat) (on : Bool) : State × Option Bool :=
  let a := (fmap + f / 8) / 4 * 4
  let bit := 8 * ((fmap + f / 8) % 4) + f % 8
  match s.homeAtomic id (if on then .or else .and) .n32 a (if on then 2 ^ bit else 2 ^ 32 - 1 - 2 ^ bit) 0 with
  | (s, .inl old) => (s, some (old.testBit bit))
  | (s, .inr _) => (s, none)

/-- Frees a frame's bit. -/
def State.freeFrame (s : State) (id : Ident) (fmap f : Nat) : State := (s.frameBit id fmap f false).1

/-- Adds to a word of a completion object by an atomic; answers its old value, or none where it is refused or waits. -/
def State.addWord (s : State) (id : Ident) (va n : Nat) : State × Option Nat :=
  match s.homeAtomic id .add .n64 va n 0 with
  | (s, .inl x) => (s, some x)
  | (s, .inr _) => (s, none)

/-- A replay follows the recorded order: the core that took the ticket (R424). -/
def State.replayTurn (s : State) (id : Ident) (m : Cmd) (ticket core : Nat) : State × Bool :=
  match s.dbgOwner id m.launch.dbgown with
  | (s, none) => (s, true)
  | (s, some o) =>
    if !o.replay then (s, true)
    else
      let (s, rs) := s.recorded id o
      match (rs.filter fun r => decide (r.1 = 5))[ticket]? with
      | some r => (s, decide (numAt r.2 8 2 = core))
      | none => (s, true)

/-- Every block of a cooperative launch is placed: its teams become eligible, those of saved blocks at their resume, and the token is
free. -/
def State.coopGo (s : State) (part : Nat) (m : Cmd) : State :=
  let go := fun (k : Core) => (List.range 32).foldl (fun (k : Core) b =>
    match (k.block? b), (k.block? b).bind fun x => k.lslot? x.lslot with
    | some x, some l =>
      if l.part = part ∧ l.q = m.qid part ∧ l.idx = m.idx ∧ x.coop then
        let k := k.setBlock b { x with coop := false }
        (k.teamsOf b).foldl (fun k i => match k.team? i with
          | some t => if t.mode = TMode.waiting then k.setTeam i { t with mode := .run } else k
          | none => k) k
      else k
    | _, _ => k) k
  let s := s.onCores part go
  let s : State := { s with parked := s.parked.map fun (y : Parked) =>
    if y.part = part ∧ y.q = m.q ∧ y.idx = m.idx ∧ y.coop then
      { y with coop := false, teams := y.teams.map fun t => (t.1, if t.2.1 = TMode.waiting then .run else t.2.1, t.2.2) }
    else y }
  let p := s.part part
  (s.setPart part { p with coop := if p.coop = some (m.q, m.idx) then none else p.coop }).wakeAgents part

/-- What became of a placement: the frame bitmap has no clear bit, nothing was placed, or the block of a ticket was. -/
inductive Taken
  | full
  | nothing
  | block (ticket : Nat)

/-- Places the block of a ticket in a frame, and counts it in PLACED. -/
def State.placeTicket (s : State) (part core : Nat) (m : Cmd) (id : Ident) (p : Plan) (f b : Nat) : State × Taken :=
  let l := m.launch
  let ls : State × Option LSlot := if p.first then s.lslotOf id (m.qid part) m.idx l else (s, (s.core core).lslot? p.lslot)
  match ls with
  | (s, none) => (s.onCmd part m.q m.idx fun m => m.endWith 5 0 0 0, .nothing)
  | (s, some ls) =>
    let s := s.setPlaced core ((s.core core).place p ls b f m.prio (m.flags.getLsbD 2))
    let (s, n) := s.addWord id (m.cmpl + 48) 1
    (if m.flags.getLsbD 2 ∧ n = some (l.blocks - 1) then s.coopGo part m else s, .block b)

/-- Claims a frame's bit and takes a ticket for it, and places its block; a ticket of B or more is returned unused. Where another
core has claimed the bit meanwhile nothing is taken. -/
def State.takeTicket (s : State) (part core : Nat) (m : Cmd) (id : Ident) (p : Plan) (f : Nat) : State × Taken :=
  let k := s.core core
  let s := s.setCore core { k with agent := k.agent.noReads m.key }
  match s.frameBit id m.launch.fmap f true with
  | (s, some false) =>
    match s.addWord id (m.cmpl + 32) 1 with
    | (s, some b) => if b ≥ m.launch.blocks then (s.freeFrame id m.launch.fmap f, .nothing) else s.placeTicket part core m id p f b
    | (s, none) => (s.freeFrame id m.launch.fmap f, .nothing)
  | (s, _) => (s, .nothing)

/-- The lowest clear bit of FMAP is claimed, and the ticket taken (R388 steps 2 to 4). -/
def State.newBlock (s : State) (part core : Nat) (m : Cmd) (id : Ident) (p : Plan) : State × Taken :=
  match s.homeRead id m.launch.fmap ((m.launch.framen + 7) / 8) with
  | (s, .inr _) => (s, .nothing)
  | (s, .inl bs) => match clearBit bs m.launch.framen with
    | none => (s, .full)
    | some f => s.takeTicket part core m id p f

/-- A placement tried from `s` ends as it came out; a recording launch records it (R423). -/
def State.placed (s : State) (part core : Nat) (m : Cmd) (r : State × Taken) : Out :=
  remoteGate s r.1 (placeOwner core part m.q m.idx) (.refused .eventNotDue) fun s => match r.2 with
    | .block b =>
      if m.flags.getLsbD 3 then .next (s.dbgPost (m.job part core 5 (toLeBytes 8 b ++ toLeBytes 2 core ++ toLeBytes 8 (s.core core).cyc.toNat))).bump
      else .next s.bump
    | _ => .next s.bump

/-- Restores the first saved frame of a launch; a malformed save ends the command with RESULT 5 (log 135). None without room. -/
def State.restoreFirst (s : State) (part core : Nat) (m : Cmd) (id : Ident) (f : Nat) : State × Bool :=
  let ticket := match s.parked.find? fun p => decide (p.part = part ∧ p.q = m.q ∧ p.idx = m.idx ∧ p.frame = f) with
    | some p => p.ticket
    | none => 0
  match s.restoreBlock id core (m.qid part) m.idx m.launch ticket f m.prio with
  | .done s => (s.onCmd part m.q m.idx fun m => { m with saved := m.saved.filter (· ≠ f) }, true)
  | .noRoom s => (s, false)
  | .bad s => (s.onCmd part m.q m.idx fun m => { (m.endWith 5 0 0 0) with saved := m.saved.filter (· ≠ f), lost := m.lost ++ [f] }, true)

/-- An agent of the core is placing a block of another command. -/
def State.placesOther (s : State) (core part : Nat) (m : Cmd) : Bool :=
  (s.part part).cmds.any fun x => !(decide (x.q = m.q ∧ x.idx = m.idx)) && s.placing core part x.q x.idx

/-- An agent with room places a block of a live launch that no other comes before: a saved frame first, else a new ticket (R383, R388). One
that has asked another device for a ticket goes on with it (R429). -/
def execBlockPlacement (core cmd : Nat) (s : State) : Out :=
  let part := cmdPart cmd
  match s.cmd? cmd with
  | none => .refused .eventNotDue
  | some m =>
    let owner := placeOwner core part m.q m.idx
    let id := s.agentIdent part m.asid owner (s.agentTag core)
    let room := (s.core core).room m.launch part (m.qid part) m.idx
    if m.kind ≠ 1 ∨ s.corePart core ≠ some part ∨ s.placesOther core part m then .refused .eventNotDue
    else if s.placing core part m.q m.idx then
      match room with
      | none => .refused .eventNotDue
      | some p => match s.newBlock part core m id p with
        | (_, .full) => .refused .eventNotDue
        | r => s.placed part core m r
    else if !m.places ∨ !(s.agentClaims core) ∨ (s.part part).preempts m.asid then .refused .eventNotDue
    else
      let (s1, out) := s.outranked part core owner (cmd % 65536)
      if out then remoteIdle s s1 owner
      else match m.saved with
      | f :: _ =>
        let r := s1.restoreFirst part core m id f
        if r.2 then s.placed part core m (r.1, .nothing) else remoteIdle s r.1 owner
      | [] =>
        match room with
        | none => remoteIdle s s1 owner
        | some p =>
          match s1.ticketOf id m.cmpl with
          | (s', none) => remoteIdle s s' owner
          | (s', some t) =>
            let a := (s.core core).agent
            let now := (s.core core).cyc.toNat
            if outsideClusters m.launch core && !(a.settled m.key t) then
              if a.readAgain m.key now then
                let k := s'.core core
                s.placed part core m (s'.setCore core { k with agent := a.addRead m.key t now }, .nothing)
              else remoteIdle s s' owner
            else
              let (s', turn) := s'.replayTurn id m t core
              if !turn then remoteIdle s s' owner
              else match s'.newBlock part core m id p with
              | (s', .full) => remoteIdle s s' owner
              | r => s.placed part core m r

/-! ## The other kinds (R384) -/

/-- A range lies inside one entry of the packet's buffer list with a right (R172). -/
def Cmd.covers (m : Cmd) (va n : Nat) (right : Nat) : Bool :=
  m.launch.bufs.any fun b => decide (b.base ≤ va ∧ va + n ≤ b.base + b.len) && b.rights.testBit right

/-- Copies the bytes from those done up to byte `stop` (R212): every sector is accepted or faults, CESEC counts those accepted (R365). The first
fault. -/
def State.bulkMove (s : State) (part : Nat) (m : Cmd) (stop : Nat) : State × SFault :=
  let id := s.cmdIdent part m
  let arg := fun i => m.args[i]?.getD 0
  let (dst, src, n) := (arg 0 + m.done, arg 1 + m.done, stop - m.done)
  let (s, bs, f) := s.readSpace 0 0 id true src n
  let (s, bs) := s.blur (decide (dst ≠ src)) dst [(src, n)] bs bs
  let (s, k, g) := s.writeSome id dst bs
  (s.count part 10 k, f.or g)

/-- The rest of a copy, then the completion; a refused sector ends the command with RESULT 1 and its class. -/
def State.bulkRun (s : State) (part : Nat) (m : Cmd) : State :=
  match s.bulkMove part m (m.args[2]?.getD 0) with
  | (s, some (cls, a)) => s.complete part m 1 cls 0 (BitVec.ofNat 64 a)
  | (s, none) => s.complete part m 0 0 0 0

/-- Sector boundaries of a bulk copy at which it may stop; none of one whose ranges overlap. -/
def Cmd.bulkCuts (m : Cmd) : List Nat :=
  let arg := fun i => m.args[i]?.getD 0
  if overlaps (arg 0) (arg 2) (arg 1) (arg 2) then []
  else (rangeParts (arg 0 + m.done) (arg 2 - m.done)).map fun p => p.1 - arg 0

/-- A bulk copy stops at a sector boundary, which one the manual leaves open (assumption 109); it has moved nothing more where it would
wait for another device or be refused. -/
def State.bulkCut (s : State) (part : Nat) (m : Cmd) : State :=
  match m.bulkCuts with
  | [] => s
  | c :: cs =>
    let k := (c :: cs)[Config.freeNat s.free % (cs.length + 1)]?.getD m.done
    let r := ({ s with free := s.free + 1 } : State).bulkMove part m k
    if r.2.isSome ∨ r.1.rbuf.length ≠ s.rbuf.length then s else r.1.onCmd part m.q m.idx fun m => { m with done := k }

/-- A bulk copy packet: its extents are checked, it takes a free engine of the partition's groups, then it runs to its
end; a pre-emption holds it, unless it waits for other devices (R369). -/
def execBulkCopyCommand (cmd : Nat) (s : State) : Out :=
  let part := cmdPart cmd
  match s.cmd? cmd with
  | none => .refused .eventNotDue
  | some m =>
    let p := s.part part
    let arg := fun i => m.args[i]?.getD 0
    if m.kind ≠ 2 ∨ (p.preempts m.asid ∧ !(s.rbuf.any fun b => decide (b.owner = cmdOwner part m.q m.idx))) then .refused .eventNotDue
    else
      match m.stage with
      | .claimed =>
        if !(m.covers (arg 1) (arg 2) 0) then .next (s.complete part m 1 0x04 0 (BitVec.ofNat 64 (arg 1))).bump
        else if !(m.covers (arg 0) (arg 2) 1) then .next (s.complete part m 1 0x04 0 (BitVec.ofNat 64 (arg 0))).bump
        else
          let engines := 4 * ((List.range 12).filter fun g => (entryCe p.pent).getLsbD g).length
          if (s.bulk.filter fun b => decide (b.1 = part)).length ≥ engines then .refused .eventNotDue
          else .next (({ s with bulk := s.bulk ++ [(part, m.q, m.idx)] } : State).onCmd part m.q m.idx fun m => { m with stage := .other }).bump
      | .other => cmdStep s part m fun s => s.bulkRun part m
      | _ => .refused .eventNotDue

/-- Whether every named object reads DONE = 1; `none` while an answer is missing, or the class of a refusal with its address. -/
def State.allDone (s : State) (id : Ident) : List Nat → State × Sum Bool (BitVec 8 × Nat)
  | [] => (s, .inl true)
  | a :: rest =>
    if a = 0 then s.allDone id rest
    else match s.homeNat id a 8 with
      | (s, .inr cls) => (s, if cls = waitCls then .inl false else .inr (cls, a))
      | (s, .inl x) => if x % 2 = 1 then s.allDone id rest else (s, .inl false)

/-- A wait packet: it completes when every named object is DONE, as an acquire of each. -/
def execWaitCommand (cmd : Nat) (s : State) : Out :=
  let part := cmdPart cmd
  match s.cmd? cmd with
  | none => .refused .eventNotDue
  | some m =>
    if m.kind ≠ 3 ∨ m.stage ≠ CStage.claimed then .refused .eventNotDue
    else
      match s.allDone (s.cmdIdent part m) (m.args.take 4) with
      | (s', .inl false) => remoteIdle s s' (cmdOwner part m.q m.idx)
      | (s', .inl true) => cmdStep s part m fun _ => (s'.acquire m.core).complete part m 0 0 0 0
      | (s', .inr (cls, a)) => cmdStep s part m fun _ => s'.complete part m 1 cls 0 (BitVec.ofNat 64 a)

/-- A signal packet: its store or its arrival, as a release of the agent. -/
def execSignalCommand (cmd : Nat) (s : State) : Out :=
  let part := cmdPart cmd
  match s.cmd? cmd with
  | none => .refused .eventNotDue
  | some m =>
    if m.kind ≠ 4 ∨ m.stage ≠ CStage.claimed then .refused .eventNotDue
    else cmdStep s part m fun s =>
      let id := s.cmdIdent part m
      let arg := fun i => m.args[i]?.getD 0
      let r : State × Option (BitVec 8) := if arg 2 % 256 = 1 then
          match s.tbArrive id (arg 0) (arg 1 % 2 ^ 32) with
          | (s, .inr cls) => (s, some cls)
          | (s, .inl _) => (s, none)
        else
          let w := s.homePut id (arg 0) 8 (arg 1)
          (w.1, w.2.map (·.1))
      match r.2 with
      | some cls => r.1.complete part m 1 cls 0 (BitVec.ofNat 64 (arg 0))
      | none => r.1.complete part m 0 0 0 0

/-- A marker packet completes at once. -/
def execMarkerCommand (cmd : Nat) (s : State) : Out :=
  let part := cmdPart cmd
  match s.cmd? cmd with
  | none => .refused .eventNotDue
  | some m => if m.kind ≠ 5 ∨ m.stage ≠ CStage.claimed then .refused .eventNotDue else cmdStep s part m fun s => s.complete part m 0 0 0 0

/-! ## Retirement and early ends (R144, R348, R386, R389) -/

/-- What a block's retirement waits for (R144): its teams have retired and their stores are accepted, no session writes its scratchpad, and
its sequencer context holds no stream in STATE 1 nor an operation in flight. -/
def State.blockDone (s : State) (c blk : Nat) : Bool :=
  let k := s.core c
  (k.teamsOf blk).all (fun i => k.slotQuiet i && match k.team? i with | some t => decide (t.mode = TMode.retired) | none => true) &&
    k.sessions.all (fun x => decide (x.block ≠ blk ∨ x.slot = agentSlot) || !(x.ranges.any (·.1))) &&
    k.seqs.all fun q => decide (q.block ≠ some blk) || (decide (seqState q.status ≠ 1) && q.flight.isEmpty)

/-- An agent is placing a block of a command. -/
def State.beingPlaced (s : State) (part : Nat) (m : Cmd) : Bool := (s.coresOf part).any fun c => s.placing c part m.q m.idx

/-- A block retires: its frame is free, RETIRED rises, and the last one completes a live launch. A store of another device's goes first, and
the retirement then goes on to its end (R405). -/
def execBlockRetire (core block : Nat) (s : State) : Out :=
  let k := s.core core
  match k.block? block, (k.block? block).bind fun b => k.lslot? b.lslot with
  | some b, some l =>
    if b.gone ∨ b.saved ∨ b.ending.isSome ∨ !(s.blockDone core block) then .refused .eventNotDue
    else
      let owner := retireOwner core block
      let id := s.agentIdent l.part l.asid owner (s.agentTag core)
      let s' := s.closeWins core block owner
      let s' := s'.freeFrame id l.launch.fmap b.frame
      let (s', n) := s'.addWord id (l.launch.cmpl + 40) 1
      let s' := s'.setCore core ((s'.core core).retireBlock block)
      let s' := match (s'.part l.part).cmd? l with
        | some m =>
          if m.stage = CStage.live ∧ n = some (m.launch.blocks - 1) then
            if s.beingPlaced l.part m then s'.hold owner else s'.completeLaunch l.part m 0 0 0 0 owner
          else s'
        | none => s'
      remoteGate s s' owner (.refused .eventNotDue) fun s => .next s.bump
  | _, _ => .refused .eventNotDue

/-- Blocks of a command on the cores of its partition that have not retired. -/
def State.blocksOf (s : State) (part : Nat) (m : Cmd) : List (Nat × Nat) :=
  (s.coresOf part).flatMap fun c => ((List.range 32).filter fun b =>
    match (s.core c).block? b, ((s.core c).block? b).bind fun x => (s.core c).lslot? x.lslot with
    | some x, some l => decide (l.part = part ∧ l.q = m.qid part ∧ l.idx = m.idx) && !x.gone
    | _, _ => false).map fun b => (c, b)

/-- The note that ends a command on every agent: CMDSEQ and QID (DESIGN CHOICE, assumption 35: their places). -/
def Cmd.note (m : Cmd) (part : Nat) : DWord := BitVec.ofNat 64 (m.idx % 2 ^ 48 * 2 ^ 16 + m.qid part)

/-- A faulting block's broadcast is acknowledged: its dump is written, and the command is to end with RESULT 1 (R348). -/
def State.endFault (s : State) (core block : Nat) : Out :=
  let k := s.core core
  match k.block? block, (k.block? block).bind fun b => k.lslot? b.lslot with
  | some b, some l =>
    match b.ending with
    | none => .refused .eventNotDue
    | some (cls, slot, fpc, fva) =>
      if !b.acked then .refused .eventNotDue
      else
        let owner := faultOwner core block
        let b := { b with dumpAt := some (b.dumpAt.getD k.cyc) }
        let s0 := s.setCore core (k.setBlock block b)
        let s' := s0.writeDump (s.agentIdent l.part l.asid owner (s.agentTag core)) core block l cls slot
        let s' := s'.setCore core ((s'.core core).setBlock block { b with ending := none, dumpAt := none }).sweep
        let s' := s'.onCmd l.part (l.q % 256) l.idx fun m => m.endWith 1 cls fpc fva
        remoteGate s0 s' owner (.refused .eventNotDue) fun s => .next s.bump
  | _, _ => .refused .eventNotDue

/-- A block of a command that ends is to be killed: every one, but under RESULT 5 those alone of a cooperative launch that wait for its others
(R389, R394; log 135). One whose retirement is under way goes on with it. -/
def State.toKill (s : State) (result : Nat) (cb : Nat × Nat) : Bool :=
  !(s.retiring cb.1 cb.2) && (decide (result ≠ 5) || match (s.core cb.1).block? cb.2 with | some b => b.coop | none => false)

/-- Its kill is still to begin: it is not broadcast, it would be dumped, or sessions of its own run on. -/
def State.killDue (s : State) (cb : Nat × Nat) : Bool :=
  (match (s.core cb.1).block? cb.2 with
    | some b => b.bcast.isNone || b.ending.isSome || b.saved
    | none => false) || s.blockCancels cb.1 cb.2

/-- The broadcast of a killed block is acknowledged. -/
def State.killAcked (s : State) (cb : Nat × Nat) : Bool := (s.core cb.1).blockAcked cb.2

/-- Saved frames that a command's end kills: all, but under RESULT 5 those of a cooperative launch alone that never went on (log 135). -/
def State.savedKilled (s : State) (part : Nat) (m : Cmd) (result : Nat) : List Nat :=
  m.saved.filter fun f => decide (result ≠ 5) || s.parked.any fun y => decide (y.part = part ∧ y.q = m.q ∧ y.idx = m.idx ∧ y.frame = f) && y.coop

/-- The frames' bits and RETIRED follow the blocks that a command's end has killed (R389, R398). -/
def State.countKilled (s : State) (id : Ident) (m : Cmd) (frames : List Nat) : State :=
  ((frames.foldl (fun s f => s.freeFrame id m.launch.fmap f) s).addWord id (m.cmpl + 40) frames.length).1

/-- A launch's early end (R389): TICKET becomes B, every agent is told, and the kill of each of its blocks begins. -/
def State.beginEnd (s : State) (part : Nat) (m : Cmd) (kills : List (Nat × Nat)) : State :=
  let s := if m.told then s else (s.homePut (s.cmdIdent part m) (m.cmpl + 32) 8 m.launch.blocks).1.noteAgents part (m.note part)
  (kills.foldl (fun s cb => s.killStart cb.1 cb.2) s).onCmd part m.q m.idx fun m => { m with told := true }

/-- It ends: the killed blocks go and count in RETIRED, the lease is released, the completion is written. -/
def State.finishEnd (s : State) (part : Nat) (m : Cmd) (result : Nat) (cls : BitVec 8) (fpc fva : DWord) (kills : List (Nat × Nat)) : State :=
  let frames := (kills.filterMap fun cb => ((s.core cb.1).block? cb.2).map (·.frame)) ++ s.savedKilled part m result ++ m.lost
  let s := kills.foldl (fun s cb => s.killEnd cb.1 cb.2 (cmdOwner part m.q m.idx)) s
  (s.countKilled (s.cmdIdent part m) m frames).completeLaunch part m result cls fpc fva

/-- The end of a command (R348, R389). For a core below 384 it is the fault path of a block; for 384 plus a partition, `block`
names a command that is ending: no ticket is left, every agent is told and kills its blocks, and once their broadcasts are acknowledged the
lease is released and the completion is written. Blocks and saved frames of RESULT 5 run on: it waits for them (R394). -/
def execCommandEnd (core block : Nat) (s : State) : Out :=
  if core < 384 then s.endFault core block
  else
    let part := core - 384
    match (s.part part).cmds[block]? with
    | none => .refused .eventNotDue
    | some m =>
      match m.stage with
      | .ending result cls fpc fva =>
        let owner := cmdOwner part m.q m.idx
        if s.rbuf.any (·.leases owner) then .next ({ s with rbuf := s.rbuf.filter fun (b : RemBuf) => !(b.leases owner) } : State).bump
        else if !(decide (m.kind = 1 ∧ (result = 1 ∨ result = 3 ∨ result = 5))) then cmdStep s part m fun s => s.complete part m result cls fpc fva
        else
          let blocks := s.blocksOf part m
          let kills := blocks.filter (s.toKill result)
          if !m.told ∨ kills.any s.killDue then cmdStep s part m fun s => s.beginEnd part m (kills.filter s.killDue)
          else if s.beingPlaced part m ∨ kills.length < blocks.length ∨ !(kills.all s.killAcked) ∨
              (s.savedKilled part m result).length < m.saved.length then .refused .eventNotDue
          else cmdStep s part m fun s => s.finishEnd part m result cls fpc fva kills
      | _ => .refused .eventNotDue

/-! ## Reload of an agent (R394, R433) -/

/-- A stopped agent is reloaded from the image, and the command it was serving ends with RESULT 5; a predicate task it was in counts
as over its limit. During an update the core keeps the image it ran. -/
def State.reloadDead (s : State) (core : Nat) : State :=
  let k := (s.core core).dropSlot agentSlot |>.endAgent
  let a := k.agent
  let a := { a with dead := false, wake := true, await := none, serving := none, image := if s.fwBusy then a.image else s.image
                    verdict := if a.pred.isSome then some (true, 3) else a.verdict }
  let s' := s.setCore core { k with agent := a }
  match (s.core core).agent.serving, s.corePart core with
  | some (q, idx), some part => s'.onCmd part q idx fun m => m.endWith 5 0 0 0
  | _, _ => s'

/-- The next core of an update after `c`. -/
def State.updateNext (s : State) (c : Nat) : Option Nat := (s.updateCores s.fwctl).find? (· > c)

/-- An update reloads the core it has come to, once no block is on it and its agent has nothing under way: the loaded code is compared with the
manifest, and where it differs the core is reloaded up to three times and then marked failed. After the last core the slot is the active
one (R433). -/
def State.reloadUpdate (s : State) (core : Nat) : State :=
  let k := s.core core
  let slot := if s.fwctl.getLsbD 16 then 1 else 0
  let ok := s.loadMatches slot
  let s := { s with free := s.free + 1 }
  if !ok ∧ s.fwTries < 3 then { s with fwTries := s.fwTries + 1 }
  else
    let a := if ok then { k.agent with image := slot, wake := true } else { k.agent with out := true }
    let s := { s with fwTries := 0 }.setCore core { k with agent := a }
    let failed := s.fwFailed + if ok then 0 else 1
    match s.updateNext core with
    | some c => { s with fwstat := fwStatus true c failed }
    | none => { s with fwstat := fwStatus false core failed, image := slot }

/-- An agent is reloaded: after its own fault, or by an update that has come to it. -/
def execAgentReload (core : Nat) (s : State) : Out :=
  let k := s.core core
  if k.agent.dead then .next (s.reloadDead core).bump
  else if s.fwBusy ∧ s.fwCore = core ∧ k.blocks.all (·.isNone) ∧ (k.team? agentSlot).isNone ∧ !(s.pinned core) then .next (s.reloadUpdate core).bump
  else .refused .eventNotDue

end Sys2Proof.Machine
end

