-- ==== Sys2Proof/Machine/Privileged.lean ====
section
/-! DEFINITION. `lnch` (R382) and the privileged instructions of the agent slot: `place`, `bkill`, `mrd`, `mwr`, `anote`, `await`
(R392, R393). -/

namespace Sys2Proof.Machine

/-- A team-wide instruction that acts on more than its core: nothing where its predicate is false, else `act` on the state with the
team put back, and its writes afterwards. -/
def sysOp (c : Ctl) (len : Nat) (rds : List RegRef) (d : Nat) (act : Cx → Out) (s : State) : Out :=
  issue s (fun cx => cx.onceReads c rds) (fun cx => if cx.takes c then [.g d] else []) fun cx =>
    if !(cx.takes c) then .next (cx.next s len) else act cx

/-- Ends such an instruction in a state it has changed. -/
def Cx.sysEnd (cx : Cx) (s : State) (len d : Nat) (x : DWord) : Out := .next ((cx.reload s).write s len [.g d x])

/-! ## `lnch` (R382) -/

/-- What the step at the header's home answers (R382): status and slot index, with the slot's address where one is reserved. -/
def State.reserve (s : State) (part q asid owner tag : Nat) : State × Sum (Nat × Nat × Option Nat) (BitVec 8) :=
  let x := (s.part part).queue q
  if !x.valid then (s, .inl (2, 0, none))
  else
    match s.headerStep (s.queueIdent part owner tag) x.desc hdReserve asid with
    | (s, .inr cls) => (s, .inr cls)
    | (s, .inl r) =>
      let i := r / 2 ^ 8 % 2 ^ 64
      (s, .inl (r % 2 ^ 8, i, if r % 2 ^ 8 = 0 then some (r / 2 ^ 72 % 2 ^ 64 + 64 * (i % 2 ^ (r / 2 ^ 136 % 2 ^ 8))) else none))

/-- The packet's bytes from g(A) to g(A + 7), with SEQ set in the first word. -/
def Team.packet (t : Team) (a i : Nat) : List Byte :=
  toLeBytes 4 ((t.rg a).toNat % 2 ^ 32) ++ toLeBytes 4 (i % 2 ^ 32) ++ (List.range 7).flatMap fun j => toLeBytes 8 (t.rg (a + 1 + j)).toNat

/-- Writes a packet to its slot: bytes 63:8, then bytes 7:0. -/
def State.putPacket (s : State) (id : Ident) (va : Nat) (pk : List Byte) : State × Option (BitVec 8 × Nat) :=
  match s.homeWrite id (va + 8) (pk.drop 8) with
  | (s, some bad) => (s, some bad)
  | (s, none) => s.homeWrite id va (pk.take 8)

/-- The packet is written to the slot `i` at `va`, and the agents are woken; a refusal is a deferred fault of the `lnch`. -/
def Cx.launched (s : State) (cx : Cx) (len d i va : Nat) (bad : Option (BitVec 8 × Nat)) : Out :=
  let part := s.partOf (cx.c / 32)
  let s := (s.forget cx.c (s.identOf cx.c cx.slot) va 64).wakeAgents part
  let cx := cx.reload s
  let x := BitVec.ofNat 64 (i % 2 ^ 56 * 2 ^ 8)
  match bad with
  | none => .next (cx.write s len [.g d x])
  | some (cls, a) => let r := cx.refuseImage s cls a; .next (r.1.write r.2 len [.g d x])

/-- The identity of the accesses that an instruction makes itself, under its SEQ (R328). -/
def Cx.ident (s : State) (cx : Cx) (owner : Nat) : Ident :=
  { s.identOf cx.c cx.slot with owner := owner, tag := (reqTag cx.c cx.q cx.slot cx.seq).toNat }

/-- The slot `i` at `va` has been reserved for good (R381): its packet is written, and the instruction waits where another device holds the ring. -/
def Cx.packetStep (s : State) (cx : Cx) (len d a i va : Nat) : Out :=
  match cx.k.midway? cx.x with
  | some m =>
    let cx : Cx := { cx with k := { cx.k with midways := cx.k.midways.map fun (y : Midway) => if y.id = m.id then { y with slotAt := some (i, va) } else y } }
    let s0 := s.setCore cx.c cx.core
    let w := s0.putPacket (cx.ident s0 (cx.owner s)) va (cx.v.packet a i)
    remoteGate s0 w.1 (cx.owner s) (if m.slotAt.isSome then stall s reasonMemory else .next s0.bump) fun s => (cx.reload s).launched s len d i va w.2
  | none =>
    let (num, s) := s.fresh
    let on := cx.hung num
    let on : Cx := { on with k := { on.k with midways := on.k.midways.map fun (y : Midway) => if y.id = num then { y with slotAt := some (i, va) } else y } }
    let w := s.putPacket (cx.ident s (2 ^ 61 + num)) va (cx.v.packet a i)
    if w.1.waitsFor (2 ^ 61 + num) then .next ((s.sent w.1).setCore cx.c on.core).bump
    else (cx.reload w.1).launched w.1 len d i va w.2

/-- `lnch`: a release, a slot reserved at the queue's home, the packet written to it, the agents woken. -/
def execLnch (f : DAB) (s : State) : Out :=
  let d := f.d.toNat
  let a := f.a.toNat
  let len := f.b.len
  sysOp f.c len (((List.range 8).map fun i => RegRef.g (a + i)) ++ f.b.refs true 0 false) d (fun cx =>
    cx.waitPoint s .core (
      let q := cx.bval true 0 false .n f.b
      if q > 255 then .next (cx.write s len [.g d 3])
      else if !(cx.seqFree s) then stall s reasonMemory
      else
        let cx := cx.takeSeq s 0
        match (cx.k.midway? cx.x).bind (·.slotAt) with
        | some (i, va) => cx.packetStep s len d a i va
        | none =>
          let s0 := s.setCore cx.c cx.core
          let id := cx.ident s0 (cx.owner s)
          let r := s0.reserve id.part q id.asid id.owner id.tag
          cx.gate s r.1 fun cx s =>
            match r.2 with
            | .inr cls =>
              let r := cx.refuseImage s cls ((s.part id.part).queue q).desc
              .next (r.1.write { r.2 with free := r.2.free + 1 } len [.g d (Config.freeWord s.free)])
            | .inl (st, _, none) => cx.sysEnd s len d (BitVec.ofNat 64 st)
            | .inl (_, i, some va) => cx.packetStep s len d a i va)) s

/-! ## `place`, `bkill` (R393) -/

/-- The command with blocks to place that a packet copy names: its launch, its SEQ, the agent's address space. -/
def State.commandOf (s : State) (id : Ident) (pk : List Byte) : State × Option Cmd :=
  if pkKind pk ≠ 1 ∨ !(packetWf pk) then (s, none)
  else
    match s.homeRead id ((pkArgs pk).headD 0) 256 with
    | (s, .inr _) => (s, none)
    | (s, .inl ld) =>
      let bl : State × Sum (List Byte) (BitVec 8) := if pkNbuf pk = 0 then (s, .inl []) else s.homeRead id (pkBufl pk) (32 * pkNbuf pk)
      match bl with
      | (s, .inr _) => (s, none)
      | (s, .inl bl) =>
        let l := launchOf pk ld bl
        (s, (s.part id.part).cmds.find? fun m => m.places && decide (m.asid = id.asid ∧ m.idx % 2 ^ 32 = pkSeq pk ∧ m.launch = l))

/-- `place` on a core: status 0 placed, 1 no room, 2 malformed. -/
def State.placeAt (s : State) (c owner pkVa ticket frame : Nat) (res : Bool) : State × Nat :=
  match s.corePart c with
  | none => (s, 2)
  | some part =>
    let id := s.agentIdent part (s.core c).agent.asid owner (s.agentTag c)
    match s.homeRead id pkVa 64 with
    | (s, .inr _) => (s, 2)
    | (s, .inl pk) =>
      match s.commandOf id pk with
      | (s, none) => (s, 2)
      | (s, some m) =>
        if frame ≥ m.launch.framen ∨ (!res ∧ m.stage ≠ CStage.live) then (s, 2)
        else if res then
          let t := match s.parked.find? fun p => decide (p.part = part ∧ p.q = m.q ∧ p.idx = m.idx ∧ p.frame = frame) with
            | some p => p.ticket
            | none => ticket
          match s.restoreBlock id c (m.qid part) m.idx m.launch t frame m.prio with
          | .done s => (s.onCmd part m.q m.idx fun m => { m with saved := m.saved.filter (· ≠ frame) }, 0)
          | .noRoom s => (s, 1)
          | .bad s => (s, 2)
        else
          match (s.core c).room m.launch part (m.qid part) m.idx with
          | none => (s, 1)
          | some p =>
            let ls : State × Option LSlot := if p.first then s.lslotOf id (m.qid part) m.idx m.launch else (s, (s.core c).lslot? p.lslot)
            match ls with
            | (s, none) => (s, 2)
            | (s, some ls) => (s.setPlaced c ((s.core c).place p ls ticket frame m.prio (m.flags.getLsbD 2)), 0)

/-- `place` (R393). -/
def execPlace (f : DABCX) (s : State) : Out :=
  let d := f.d.toNat
  sysOp f.c f.b.len ([.g f.a.toNat, .g f.cc.toNat] ++ f.b.refs true 0 true) d (fun cx =>
    let s0 := s.setCore cx.c cx.core
    let r := s0.placeAt cx.c (cx.owner s) (cx.v.rg f.a.toNat).toNat (cx.bval true 0 true .n f.b) (cx.v.rg f.cc.toNat).toNat f.x
    cx.gate s r.1 fun cx s => cx.sysEnd s f.b.len d (BitVec.ofNat 64 r.2)) s

/-- `bkill` (R393): 1 where the slot holds no team; else the block is halted by a broadcast without a dump (R345), its sessions cancelled,
and once the broadcast is acknowledged its room is free. -/
def execBkill (f : DACX) (s : State) : Out :=
  let d := f.d.toNat
  sysOp f.c 8 [.g f.cc.toNat] d (fun cx =>
    let slot := (cx.v.rg f.cc.toNat).toNat % 64
    let begun := cx.x.snap.isSome || (cx.k.midway? cx.x).isSome
    match (if slot < 32 then cx.k.team? slot else none) with
    | none => .next (cx.write s 8 [.g d (if begun then 0 else 1)])
    | some t =>
      if !begun then
        let k := ({ cx with x := { cx.x with snap := some 0, stall := none } } : Cx).core
        .next ((s.setCore cx.c k).killStart cx.c t.block).bump
      else if !(cx.k.blockAcked t.block) then stall s reasonOperand
      else
        let s0 := s.setCore cx.c cx.core
        cx.gate s (s0.killEnd cx.c t.block (cx.owner s)) fun cx s => cx.sysEnd s 8 d 0) s

/-! ## `mrd`, `mwr` (R393) -/

/-- Unit and offset of a management address. -/
def mgmtUnit (a : DWord) : Nat := (a.extractLsb' 16 8).toNat
def mgmtOff (a : DWord) : Nat := (a.extractLsb' 0 16).toNat

/-- `mrd`: a unit outside the agent's partition reads 0. -/
def execMrd (f : DA) (s : State) : Out :=
  let d := f.d.toNat
  sysOp f.c 8 [.g f.a.toNat] d (fun cx =>
    let a := cx.v.rg f.a.toNat
    let s0 := s.setCore cx.c cx.core
    if s.ownUnit (s.partOf (cx.c / 32)) (mgmtUnit a) then
      let r := s0.mgmtRead (mgmtUnit a) (mgmtOff a) (cx.owner s) (s.agentTag cx.c)
      cx.gate s r.1 fun cx s => cx.sysEnd s 8 d r.2
    else .next (cx.write s 8 [.g d 0])) s

/-- `mwr`: status 1 outside the agent's partition; a write that is held back waits. -/
def execMwr (f : DAB) (s : State) : Out :=
  let d := f.d.toNat
  sysOp f.c f.b.len ([.g f.a.toNat] ++ f.b.refs true 0 true) d (fun cx =>
    let a := cx.v.rg f.a.toNat
    let s0 := s.setCore cx.c cx.core
    if s.ownUnit (s.partOf (cx.c / 32)) (mgmtUnit a) then
      match s0.mgmtWrite (mgmtUnit a) (mgmtOff a) (BitVec.ofNat 64 (cx.bval true 0 true .n f.b)) (cx.owner s) with
      | some s' => cx.gate s s' fun cx s => cx.sysEnd s f.b.len d 0
      | none => stall s reasonMemory
    else .next (cx.write s f.b.len [.g d 1])) s

/-! ## `anote`, `await` (R393) -/

/-- A note to every other device of the fabric: one request each, to the devices the ownership table names. -/
def State.noteDevices (s : State) (v : DWord) (tag : Nat) : State :=
  ((s.otable.filterMap fun e => if e.2.getLsbD 127 ∧ (e.2.extractLsb' 80 8).toNat ≠ s.devnum.toNat % 256 then some (e.2.extractLsb' 80 8).toNat
    else none).eraseDups).foldl (fun s dev =>
      match s.plane dev 0 with
      | none => s
      | some p => let (num, s) := s.fresh; s.putFlit p 1 (s.devnum.toNat % 256) dev tag (requestHdr 6 v.toNat 0 0 0 0 0 none none) num 0) s

/-- `anote`. -/
def execAnote (f : DAX) (s : State) : Out :=
  let d := f.d.toNat
  sysOp f.c 8 [.g f.a.toNat] d (fun cx =>
    let v := cx.v.rg f.a.toNat
    let s := (s.setCore cx.c cx.core).noteAgents (s.partOf (cx.c / 32)) v
    cx.sysEnd (if f.x then s.noteDevices v (s.agentTag cx.c) else s) 8 d 0) s

/-- `await`: the oldest note; without one the fragment waits for one, or for the timeout. -/
def execAwait (f : DB) (s : State) : Out :=
  let d := f.d.toNat
  let len := f.b.len
  sysOp f.c len (f.b.refs true 0 false) d (fun cx =>
    let ag := cx.k.agent
    match ag.notes with
    | v :: rest =>
      let k := { cx.k with agent := { ag with notes := rest, await := none } }
      .next (({ cx with k := k } : Cx).write s len [.g d v])
    | [] =>
      let n := cx.bval true 0 false .n f.b
      if ag.await.isSome then stall s reasonMemory
      else if n = 0 then .next (cx.write s len [.g d 0])
      else
        let x := { cx.x with stall := some (s.epoch, reasonMemory) }
        let k := { cx.k with agent := { ag with await := some (cx.k.cyc.toNat + n, cx.e, d, len) } }
        .next (s.setCore cx.c ({ cx with k := k, x := x } : Cx).core).bump) s

/-- An `await` expires: gD is 0 and the fragment goes on. -/
def execAwaitTimeout (core : Nat) (s : State) : Out :=
  let k := s.core core
  match k.agent.await with
  | none => .refused .eventNotDue
  | some (deadline, e, d, len) =>
    if k.cyc.toNat < deadline ∨ !k.agent.notes.isEmpty ∨ (k.entry 0 e).team ≠ agentSlot ∨ (k.entry 0 e).st ≠ .running then .refused .eventNotDue
    else
      withFrag { s with cur := .frag core 0 e } fun cx =>
        let k := { cx.k with agent := { cx.k.agent with await := none } }
        .next { (({ cx with k := k } : Cx).write s len [.g d 0]) with cur := s.cur }

end Sys2Proof.Machine
end

