-- ==== Sys2Proof/Machine/Preempt.lean ====
section
/-! DEFINITION. Engines stopping for a pre-emption, their acknowledgements, and the end of the collection (R347, R368 to R373,
R295, R416). -/

namespace Sys2Proof.Machine

/-- Nothing of a team that its whole form would lose is on its way. -/
def Core.slotDrained (k : Core) (slot : Nat) : Bool :=
  !((k.reqs.any fun r => decide (r.slot = slot)) || (k.stores.any fun r => decide (r.slot = slot)) || (k.dqs.any fun r => decide (r.slot = slot)) ||
    (k.tbs.any fun r => decide (r.slot = slot ∧ r.kind ≠ tbKindWait)) || (k.refused.any fun r => decide (r.slot = slot)))

/-- The form a team is saved in: whole when halted, in a handler, reached by a broadcast, or with a fault recorded or logged;
else its region form (R347, R373). -/
def Core.savedWhole (k : Core) (t : Team) : Bool :=
  t.isHalted || decide (t.level ≠ 0) || t.record.valid || !t.log.isEmpty || match k.block? t.block with
    | some b => b.bcast.isSome
    | none => false

/-- Each live fragment of a team is between instructions. -/
def Core.atBoundary (k : Core) (slot : Nat) (t : Team) : Bool :=
  (k.quad t.quad).all fun x => decide (x.st = .free) || decide (x.team ≠ slot) || x.frozen ||
    (match x.op with | none => true | some id => k.isTbWait id)

/-- A team stops for a pre-emption, once it can: a pending watch predicate comes first (R416), puts in the queue arrive first or are
held by their unit (R288). -/
def Core.stopTeam (k : Core) (slot : Nat) (t : Team) : Option Core :=
  if t.mode = TMode.held ∨ t.stops.contains .watch ∨ (k.hits.any fun h => decide (h.slot = slot)) ∨ (k.puts.any fun p => decide (p.slot = slot) && p.held.isNone) then none
  else if k.savedWhole t then
    if !(k.quiet slot t) ∨ !(k.slotDrained slot) ∨ !t.stops.isEmpty then none
    else
      let k := k.boundary slot t
      (k.team? slot).map fun t => k.setTeam slot { t with saved := some false }
  else if !(k.atBoundary slot t) then none
  else
    let k := k.regionForm slot
    (k.team? slot).map fun t => k.setTeam slot { t with stops := [] }

/-- Spills every on-chip entry of a pre-empted tenant's session where a region has room; the session keeps its state (R295). -/
def State.spillSession (s : State) (i : Nat) (m : MgSess) : State :=
  if m.ents.isEmpty ∨ (m.room (mgRunLen m.wide m.ents.length)).isNone then s
  else
    let r := s.mgSpill (m.ident s (2 ^ 55 + i)) m
    let m' := if r.2.2.isSome then { r.2.1 with state := if m.state = 1 then 2 else m.state } else { r.2.1 with state := m.state }
    let sl := r.1.slice i
    r.1.setSlice i { sl with mg := sl.mg.map fun x => if x = m then m' else x }

/-- The core of an engine that is a core's. -/
def engineCore : Engine → Option Nat
  | .team c _ => some c
  | .sequencer c _ => some c
  | .copyUnit c => some c
  | _ => none

/-- Stops of a core's other engines that a block's save waits for. -/
def Part.coreBusy (p : Part) (c : Nat) : Bool := p.stops.any fun e => decide (engineCore e = some c)
/-- Engines of a core that have still to acknowledge. -/
def Part.coreOwes (p : Part) (c : Nat) : Bool := p.pend.any fun e => decide (engineCore e = some c)

/-- A block of a core that is still to be saved, on any core where `c` is none. -/
def Part.savePending (p : Part) (c : Option Nat) : Bool := p.stops.any fun e => match e with
  | .block c' _ => c.isNone || decide (c = some c')
  | _ => false

/-- The stop of an engine has been carried out. -/
def State.stopped! (s : State) (part : Nat) (e : Engine) : State :=
  let p := s.part part
  s.setPart part { p with stops := p.stops.erase e }

/-- A core that has acknowledged frees what its saved blocks hold (R368). -/
def State.freeAcked (s : State) (part c : Nat) : State :=
  if (s.part part).coreOwes c then s else (List.range 32).foldl (fun s b => s.freeSaved c b) s

/-- Accesses of a block's engines are still under way: a sent store, a walk between hops or on another device, a session with accesses
to other devices, or one that only arrives. -/
def State.blockMoving (s : State) (c blk : Nat) : Bool :=
  let k := s.core c
  let teams := k.teamsOf blk
  (k.stores.any fun e => teams.contains e.slot) || (k.walks.any fun w => decide (w.block = blk) && (w.away.isSome || !w.got.isEmpty)) ||
    k.sessions.any fun x => decide (x.block = blk ∧ x.slot ≠ agentSlot) && (x.arriving || s.rbuf.any fun b => decide (b.owner = x.id))

/-- The copy unit stops each session of a core's stopped blocks at a sector boundary; none while one waits for other devices (R369, R407). -/
def State.stopCopies (s : State) (part c : Nat) : Option State :=
  let xs := (s.core c).sessions.filter fun x => decide (x.slot ≠ agentSlot) && (s.stoppedBlocks part c).contains x.block
  if xs.any fun x => x.arriving || s.rbuf.any fun b => decide (b.owner = x.id) then none
  else some ((xs.filter fun x => !(s.blockEnds c x.block) && (s.core c).sessionReady x).foldl (fun s x =>
    let (s, y) := s.sessionCut c x
    let k := s.core c
    s.setCore c { k with sessions := k.sessions.map fun z => if z.id = x.id then y else z }) s)

/-- A pooled copy engine stops at a sector boundary of its copy, which one the manual leaves open (assumption 109): none while it waits
for other devices (R369). -/
def State.stopBulk (s : State) (part i : Nat) : Option State :=
  match s.bulk[i]? with
  | none => some s
  | some (p, q, idx) =>
    match (s.part part).cmds.find? fun m => decide (p = part ∧ m.q = q ∧ m.idx = idx) with
    | none => some s
    | some m => if s.rbuf.any fun b => decide (b.owner = cmdOwner part m.q m.idx) then none else some (s.bulkCut part m)

/-- An engine receives the collector's stop and stops at its boundary; one that holds none of the tenant's work any more, or whose
command is ending, has nothing to do. A block's save is written after the last stop of its core's engines (R369, R373). -/
def execPreemptStop (part : Nat) (e : Engine) (s : State) : Out :=
  if !((s.part part).stops.contains e) then .refused .eventNotDue
  else
    let fin := fun (s : State) => Host.Outcome.next (s.stopped! part e).bump
    match e with
    | .team c slot =>
      let k := s.core c
      match k.team? slot with
      | none => fin s
      | some t =>
        if t.mode = TMode.retired ∨ !(s.blockStops part c t.block) ∨ s.blockEnds c t.block then fin s
        else match k.stopTeam slot t with
          | none => .refused .eventNotDue
          | some k => fin (s.setCore c k)
    | .sequencer c i =>
      let q := (s.core c).seqs[i]?.getD Seq.empty
      if q.flight.isEmpty ∨ !q.hold then fin s else .refused .eventNotDue
    | .copyUnit c =>
      match s.stopCopies part c with
      | some s => fin s
      | none => .refused .eventNotDue
    | .poolCopy i =>
      match s.stopBulk part i with
      | some s => fin s
      | none => .refused .eventNotDue
    | .walkers _ => fin s
    | .moraine i =>
      let ms := (s.slice i).mg.filter fun m => decide (m.part = part ∧ m.state ≤ 4) && (s.part part).preempts m.asid
      remoteGate s (ms.foldl (fun s m => s.spillSession i m) s) (2 ^ 55 + i) (.refused .eventNotDue) fin
    | .block c b =>
      let fin := fun (s : State) => Host.Outcome.next ((s.stopped! part e).freeAcked part c).bump
      if (s.part part).coreBusy c then .refused .eventNotDue
      else if !(s.blockStops part c b) ∨ s.blockEnds c b ∨ s.retiring c b ∨ s.blockDone c b then fin (s.setCore c ((s.core c).unstop b))
      else if s.blockMoving c b then .refused .eventNotDue
      else
        let owner := 2 ^ 54 + 32 * c + b
        match ((s.core c).block? b).bind fun x => (s.core c).lslot? x.lslot with
        | none => fin s
        | some l => remoteGate s (s.saveBlock c b (s.agentIdent part l.asid owner (s.agentTag c))) owner (.refused .eventNotDue) fin

/-- The state an engine of a core acknowledges has been accepted: its blocks are saved (R369). -/
def Part.mayAck (p : Part) : Engine → Bool
  | .team c _ => !(p.savePending (some c))
  | .sequencer c _ => !(p.savePending (some c))
  | .copyUnit c => !(p.savePending (some c))
  | .walkers _ => !(p.savePending none)
  | _ => true

/-- An acknowledgement arrives, with a core's last one its saved blocks go (R368); with the last one the collection ends, and a queued request
starts. -/
def execPreemptAck (part : Nat) (e : Engine) (s : State) : Out :=
  let p := s.part part
  if !(p.pend.contains e) ∨ p.stops.contains e ∨ !(p.mayAck e) then .refused .eventNotDue
  else
    let rest := p.pend.erase e
    let s := s.setPart part { p with pend := rest }
    let s := match engineCore e with
      | some c => s.freeAcked part c
      | none => s
    if !rest.isEmpty then .next s.bump
    else
      let s := s.preemptDone part
      match p.pqueue with
      | none => .next s.bump
      | some v => .next ((s.setPart part { s.part part with pqueue := none }).collect part v).bump

end Sys2Proof.Machine
end

