-- ==== Sys2Proof/Machine/Fabric.lean ====
section
/-! DEFINITION. Fabric ports and their flits (R399 to R402), requests from other devices (R405 to R407), answers to this device's own. -/

namespace Sys2Proof.Machine

/-! ## Answers to this device's requests -/

/-- What a response carries: the class of a refusal, 0 for none; the watch bit and the rights of the sector at its home; the data. -/
structure Answer where
  cls : BitVec 8
  watch : Bool
  pr : Bool
  pw : Bool
  data : Nat
/-- An answer of no sector. -/
def Answer.plain (cls : BitVec 8) (data : Nat) : Answer := ⟨cls, false, false, false, data⟩
/-- The fields of a response: the class in bits 7:0, the watch bit 8, the rights 9 and 10 (log 32). -/
def Answer.hdr (a : Answer) : Nat := a.cls.toNat + (if a.watch then 2 ^ 8 else 0) + (if a.pr then 2 ^ 9 else 0) + (if a.pw then 2 ^ 10 else 0)
def Answer.of (hdr data : Nat) : Answer := ⟨BitVec.ofNat 8 hdr, hdr.testBit 8, hdr.testBit 9, hdr.testBit 10, data⟩
/-- What an answered access of a sector brings into a core's cache (R170, R405). -/
def Answer.line (a : Answer) (id : Ident) (va : Nat) : CSector :=
  ⟨va / 32 * 32, sharedVa va, id.dom va, id.genOf va, a.pr, a.pw, BitVec.ofNat 256 a.data, 0xFF, 0, a.watch⟩

/-- The answered sector of a read reaches its request as a local one does; one that an acquire has overtaken enters no cache (R187). -/
def State.answerRead (s : State) (c : Nat) (r : Req) (va : Nat) (line : CSector) (keep : Bool) : State :=
  let id := s.reqIdent c r
  match r.kind with
  | .load sx w na acq =>
    let s := s.forget c id (va / 32 * 32) 32
    let s := s.setCore c ((s.core c).addResults r.id (r.values va line.data sx w) false)
    if na || acq || !keep then s else s.l1Put c line
  | .stash sx w =>
    let s := s.forget c id (va / 32 * 32) 32
    let (k, line) := (s.core c).stashFill line
    s.setCore c ((if keep then k else s.core c).addResults r.id (r.values va line.data sx w) false)
  | .prefetch false =>
    let s := s.forget c id (va / 32 * 32) 32
    if keep then s.l1Put c line else s
  | _ => s

/-- The answer to one sector or word of a request. -/
def State.answerReq (s : State) (c : Nat) (r : Req) (num va : Nat) (a : Answer) : State :=
  let keep := !(r.past.contains num)
  let r := { r with away := r.away.filter fun x => decide (x.1 ≠ num) }
  let s := s.setCore c ((s.core c).setReq r)
  let id := s.reqIdent c r
  match r.kind with
  | .atomic _ ty w nr _ _ _ =>
    if a.cls ≠ 0 then (s.refuseAtomic c r va a.cls).finishReq c r.id
    else
      let mine := r.accs.filter fun x => decide (x.va = va)
      let old := fun j => a.data / 2 ^ (64 * (mine.length - 1 - j)) % 2 ^ (8 * atTyBytes ty)
      let s := (s.setCore c ((s.core c).addResults r.id (atomWrs ty w nr (mine.mapIdx fun j x => (x, old j))) false)).forget c id va 8
      let s := s.atomDone c r.slot va (reqTag c r.quad r.slot r.seq).toNat
      let s := if a.watch then s.watchHit c r.slot va 3 r.seq r.pc else s
      s.finishReq c r.id
  | kind =>
    if a.cls ≠ 0 then (s.refuseSector c r va a.cls).finishReq c r.id
    else
      let s := s.answerRead c r va (a.line id va) keep
      let s := if a.watch && kind.faults then s.watchHit c r.slot va 1 r.seq r.pc else s
      s.finishReq c r.id

/-- An accepted store's answer brings its sector: its words are the core's, or its stash's, from now on (R170, R185, R261). -/
def State.answerStore (s : State) (c : Nat) (e : StoreEnt) (a : Answer) : State :=
  if a.cls ≠ 0 then s.refuseStore c e a.cls
  else
    let id := s.storeIdent c e
    let k := s.core c
    let k := if e.stash then k.stashStore (a.line id e.va) e.mask e.data else k.l1Store id e.va e.mask (BitVec.ofNat 256 a.data)
    let s := (s.setCore c (k.ownAway (sharedVa e.va) (id.dom e.va) c (wordsOf e.va e.mask) e.stash)).dropStore c e.id
    if a.watch then s.watchHit c e.slot e.va 2 e.seq e.pc else s

/-- What a core waits for under a number. A step of its own has changed the bytes at their home: it drops its copies of them (R268, R270). A
walk that no device took up ends where it stood here; else its result and hops come with the answer (R320). -/
def State.answerCore (s : State) (c num : Nat) (a : Answer) : Option State :=
  let k := s.core c
  match k.reqs.find? fun r => r.away.any fun x => decide (x.1 = num) with
  | some r => (r.away.find? fun x => decide (x.1 = num)).map fun x => s.answerReq c r num x.2 a
  | none =>
    match k.stores.find? fun e => decide (e.away = some num) with
    | some e => some (s.answerStore c e a)
    | none =>
      match k.dqs.find? fun r => decide (r.away = some num) with
      | some r =>
        if a.cls ≠ 0 then some (s.dqRefuse c r a.cls)
        else
          let (st, ws) := dqOfNat a.data
          let s := (s.dqFinish c r st).atomDone c r.slot r.va (reqTag c r.quad r.slot r.seq).toNat
          some (ws.foldl (fun s va => s.watchHit c r.slot va 3 r.seq r.pc) s)
      | none =>
        match k.tbs.find? fun r => decide (r.away = some num) with
        | some r =>
          if a.cls ≠ 0 then some (s.tbRefuse c r a.cls)
          else if r.kind = tbKindWait then
            some (s.setCore c { k with tbs := k.tbs.map fun y => if y.id = r.id then { y with done := some (some (BitVec.ofNat 64 a.data)), away := none } else y })
          else
            let s' := s.setCore c (k.tbDone r (if r.kind = tbKindArrive then [.g r.dreg (BitVec.ofNat 64 a.data)] else []))
            some (s'.forget c (s.identOf c r.slot) r.va 16)
        | none =>
          match k.walks.find? fun w => decide (w.away = some num) with
          | some w =>
            let res := BitVec.ofNat 64 a.data
            let st := BitVec.ofNat 32 (a.data / 2 ^ 64)
            if a.cls = 0x16 ∧ st = 0 then some (s.endWalk c w w.res (w.status 1) (some (0x16, w.nextVa.getD 0)))
            else some (s.endWalk c w res st (if a.cls = 0 then none else some (a.cls, a.data / 2 ^ 96)))
          | none => none

/-- An engine's access has its answer. -/
def RemBuf.answered (b : RemBuf) (a : Answer) : RemBuf :=
  { b with ans := some (if a.cls = 0 then .inl (BitVec.ofNat 256 a.data) else .inr a.cls), pr := a.pr, pw := a.pw, watch := a.watch }

/-- An answer under a number reaches what waits for it, if anything still does. -/
def State.answer (s : State) (num : Nat) (a : Answer) : State :=
  let s := { s with ports := s.ports.map fun (p : Port) => { p with out := p.out.filter (· ≠ num) } }
  match s.rbuf.find? fun b => decide (b.num = num) with
  | some b =>
    if b.op = 10 then
      let s := s.givenBack b (if a.cls = 0 then a.data else 0)
      { s with rbuf := s.rbuf.filter fun (x : RemBuf) => decide (x.num ≠ num) }
    else { s with rbuf := s.rbuf.map fun (x : RemBuf) => if x.num = num then x.answered a else x }
  | none =>
    match firstSome (fun c => s.answerCore c num a) (List.range 384) with
    | some s => s
    | none => s

/-! ## Requests from other devices -/

/-- The request that a message's fields, number and data describe: the layout of `requestHdr`. -/
def remoteOf (dev tag hdr num data : Nat) : RemoteReq :=
  let f := fun (off n : Nat) => hdr / 2 ^ off % 2 ^ n
  let va := f 8 64
  let mask := f 72 32
  let word := BitVec.ofNat 32 mask
  let x := BitVec.ofNat 256 data
  let who := if f 150 1 = 1 then some (f 152 9, decide (f 151 1 = 1)) else none
  let op : RemoteOp := match f 0 8 with
    | 0 => .load
    | 1 => .store word x
    | 2 => .atomic (atOpOf (mask / 8 % 8)) (atTyOf (mask % 8)) ((List.range (mask / 64)).map fun j =>
        let y := data / 2 ^ (128 * (mask / 64 - 1 - j))
        (BitVec.ofNat 64 y, BitVec.ofNat 64 (y / 2 ^ 64)))
    | 3 => .barrier (mask % 4) (mask.testBit 2) (data % 2 ^ 32)
    | 4 => .deque mask (BitVec.ofNat 64 data)
    | 5 => .walk data
    | 6 => .note (BitVec.ofNat 64 va)
    | 7 => .lease data (mask % 8)
    | 8 => .header mask data
    | 9 => .watch (decide (mask = 1))
    | 10 => .revoke (BitVec.ofNat 8 mask) (who.getD (0, false)).1 (who.getD (0, false)).2
    | 11 => .register word
    | _ => .giveBack word x
  let lease := if f 176 1 = 1 then some (f 177 16, f 193 56) else none
  ⟨dev, tag, num, va, sharedVa va, f 104 13, f 117 16, f 133 4, f 137 13, lease, who, op⟩

/-- The local partition whose first slice a request names. -/
def State.servedBy (s : State) (first : Nat) : Option Nat := (List.range 12).find? fun i => (s.part i).valid && decide ((s.part i).first = first)

/-- A walk from another device goes on here until it ends, or needs a home elsewhere: `n` bounds its reads. -/
def State.runWalk (s : State) (dev : Option Nat) (id : Ident) : Nat → Walk → State × Walk × WalkStep
  | 0, w => (s, w, .stop w 0)
  | n + 1, w =>
    match s.walkStep dev w id with
    | (s, .go w') => (s.count id.part 9 (w'.h - w.h)).runWalk dev id n w'
    | (s, .forward i) => s.runWalk dev id n { w with slice := i }
    | (s, x) => (s, w, x)

/-- What serving a request comes to: an answer, nothing to answer now, or a wait that is not over. -/
inductive Served
  | ans (s : State) (a : Answer)
  | quiet (s : State)
  | hold

/-- An atomic's lanes at their word, in order. -/
def State.remoteAtomics (s : State) (id : Ident) (op : AtOp) (ty : AtTy) (va : Nat) : List (DWord × DWord) → Nat → State × Sum Nat (BitVec 8)
  | [], acc => (s, .inl acc)
  | x :: xs, acc =>
    match s.homeAtomic id op ty va x.1.toNat x.2.toNat with
    | (s, .inr cls) => (s, .inr cls)
    | (s, .inl old) => s.remoteAtomics id op ty va xs (acc * 2 ^ 64 + old)

/-- The device that issued a request; none for this one, whose walk has come back. -/
def State.issuer (s : State) (r : RemoteReq) : Option Nat := if r.dev = s.devnum.toNat % 256 then none else some r.dev

/-- Who will own the words of a request's store (R261). -/
def State.holderOf (s : State) (r : RemoteReq) : Option Holder := r.who.map fun w => ⟨s.issuer r, w.1, w.2⟩

/-- The bytes a request touches from its address, for the lease check of a stale one (R314). -/
def remoteBytes (r : RemoteReq) : Nat := match r.op with
  | .atomic _ ty _ => atTyBytes ty
  | .barrier _ _ _ => 16
  | .deque _ _ => 64
  | .walk _ => 4
  | _ => 32

/-- The request reads only. -/
def remoteReads (r : RemoteReq) : Bool := match r.op with
  | .load => true
  | .walk _ => true
  | _ => false

/-- Owner name of the service of a request of another device. -/
def remoteOwner (r : RemoteReq) : Nat := ownerName 10 [r.num, r.dev]

/-- The identity of a request at its home. A lease is asked under the current generation (R317); a request under an older one whose piece a
live lease of its launch covers there is served under the current one (R314). A walk reads in both address spaces of its launch; the home
supplies the generation its flit does not carry (DESIGN CHOICE, assumption 32). -/
def State.remoteIdent (s : State) (part slice : Nat) (r : RemoteReq) : Ident :=
  let now := idGen (s.idEntry slice r.dk r.dom)
  let current : Bool := match r.op, r.lease with
    | .lease _ _, _ => true
    | _, some (q, idx) => (s.slice slice).leaseCovers (s.issuer r) q idx r.dk r.dom r.va (remoteBytes r) (remoteReads r) (!(remoteReads r))
    | _, none => false
  let g := if current then now else BitVec.ofNat 16 r.gen
  let e := s.idEntry slice false r.asid
  let tenant := (s.part part).tenantOf r.asid
  if r.dk then ⟨part, r.asid, r.dom, idGen e, g, tenant, remoteOwner r, r.lease, noTag⟩
  else ⟨part, r.dom, idSdom e, g, idGen (s.idEntry slice true (idSdom e)), tenant, remoteOwner r, r.lease, noTag⟩

/-! ### Words taken back (R185, R262) -/

/-- A core gives words back to their home on another device: an L1 drops its copies, a stash writes back what it owns and drops it. The
number holds the sector, and above it which of its words come. -/
def State.giveWords (s : State) (r : RemoteReq) (ws : BitVec 8) (c : Nat) (stash : Bool) : State × Nat :=
  let k := s.core c
  let words := wordsOf r.va (byteMask ws)
  let k := { k with rown := k.rown.filter fun o => !(o.among r.dk r.dom words && decide (o.stash = stash)) }
  if !stash then (s.setCore c { k with l1 := dropWords k.l1 r.dk r.dom words }, 0)
  else match k.stashSector r.dk r.dom r.va with
    | none => (s.setCore c k, 0)
    | some x =>
      let kept := k.stash.map fun y => if y.va = x.va ∧ y.dk = x.dk ∧ y.dom = x.dom then { y with owned := y.owned &&& ~~~ws } else y
      (s.setCore c { k with stash := dropWords kept r.dk r.dom words }, x.data.toNat + 2 ^ 256 * (x.owned &&& ws).toNat)

/-! ### Leases for other devices (R406) -/

/-- A record or request of a launch of another device. -/
def Residency.isFor (x : Residency) (r : RemoteReq) : Bool := decide (x.dev = some r.dev ∧ some (x.q, x.idx) = r.lease)

/-- A lease request of another device's launch that waits. -/
def leaseWaits (y r : RemoteReq) : Bool := match y.op with
  | .lease _ _ => decide (y.dev = r.dev ∧ y.lease = r.lease)
  | _ => false

/-- Sends an answer back to the device that asked. -/
def State.reply (s : State) (r : RemoteReq) (a : Answer) : State := match s.plane r.dev r.va with
  | none => s
  | some p => s.putFlit p 2 (s.devnum.toNat % 256) r.dev r.tag a.hdr r.num a.data

/-- What still waits for a lease of another device's launch goes: its requests, each answered with a number, and its residency requests. -/
def State.dropWaits (s : State) (part : Nat) (r : RemoteReq) (x : Nat) : State :=
  let ys := s.agenda.filterMap fun i => match i with
    | .remoteRequest y => if leaseWaits y r && decide (y.num ≠ r.num) then some y else none
    | _ => none
  let p := s.part part
  let s := s.setPart part { p with resid := p.resid.filter fun x => !(x.isFor r) }
  let s := { s with agenda := s.agenda.filter fun i => match i with
      | .remoteRequest y => !(ys.contains y)
      | _ => true }
  ys.foldl (fun s y => s.reply y (Answer.plain 0 x)) s

/-- The Firns of a partition grant their parts of a run of pieces, in ascending slice, as for this device's own launches (R317). -/
def State.grantSlices (s : State) (part : Nat) (id : Ident) (r : RemoteReq) (pieces : List Nat) (rights : Nat) : List Nat → Grant
  | [] => .ok s
  | i :: is =>
    match s.grantPieces i id rights (pieces.filter (s.pieceHere part i)) with
    | .ok s => s.grantSlices part id r pieces rights is
    | .wait s v =>
      let (q, idx) := r.lease.getD (0, 0)
      let p := s.part part
      .wait (s.setPart part { p with resid := p.resid ++ [⟨i, q, idx, r.dk, r.dom, v, some r.dev, false⟩] }) v
    | g => g

/-- The lease records of a run of pieces of another device's launch, by slice. -/
def State.recordSlices (s : State) (part : Nat) (r : RemoteReq) (pieces : List Nat) (rights : Nat) : State :=
  let (q, idx) := r.lease.getD (0, 0)
  s.onSlices part fun s i =>
    match pieces.filter (s.pieceHere part i) with
    | [] => s
    | v :: vs =>
      let sl := s.slice i
      s.setSlice i { sl with leases := sl.leases ++ [⟨q, idx, r.dk, r.dom, v, (v :: vs).getLastD v, rights, some r.dev⟩] }

/-- A lease request of another device for pieces up to `last`: an answer is 0 where it is granted, else the class and, from bit 8, the
piece. A piece that is not present waits for its residency answer, and the request is looked at again (R318). The end of the launch's leases
(R319), and the destruction of its queue (R390), end what waits. -/
def State.serveLease (s : State) (part : Nat) (id : Ident) (r : RemoteReq) (last rights : Nat) : Served :=
  let ok := fun (s : State) (x : Nat) => Served.ans s (Answer.plain 0 x)
  if rights = leaseEnd then
    let (q, idx) := r.lease.getD (0, 0)
    ok ((s.freeLeases (some r.dev) q idx).dropWaits part r 0) 0
  else if rights = leaseCancel then ok (s.dropWaits part r leaseCancelled.toNat) 0
  else
    let p := s.part part
    match p.resid.find? fun x => x.isFor r with
    | some x =>
      if x.refused then ok (s.setPart part { p with resid := p.resid.erase x }) (0x11 + 2 ^ 8 * x.vpn) else .hold
    | none =>
      let first := r.va / 2 ^ 16
      let pieces := (List.range (last - first + 1)).map fun i => first + i
      if !(s.slicesUp part) || p.run.any fun i => decide ((s.slice i).leases.length ≥ 4096) && pieces.any (s.pieceHere part i) then .hold
      else
        match s.grantSlices part id r pieces rights p.run with
        | .refuse s cls v => ok s (cls.toNat + 2 ^ 8 * v)
        | .wait s _ => .quiet { s with agenda := s.agenda ++ [.remoteRequest r] }
        | .ok s => ok (s.recordSlices part r pieces rights) 0

/-! ### Service -/

/-- The answer to an access of a sector: the sector, with its rights and watch bit (R170, R414). -/
def State.sectorAnswer (s : State) (i key : Nat) (id : Ident) (va : Nat) (x : Sector) : Answer :=
  let l := s.cached i key id va x
  ⟨0, l.watch, l.pr, l.pw, x.toNat⟩

/-- One sector of a request is found or filled at its home, and used there. -/
def State.serveSector (s : State) (i : Nat) (id : Ident) (va : Nat) (rd wr : Bool) (f : State → Nat → State × Sum Sector (BitVec 8)) : Served :=
  match s.ensure i id va rd wr with
  | .bad s cls => .ans s (Answer.plain cls 0)
  | .ok s key => match f s key with
    | (s, .inr cls) => .ans s (Answer.plain cls 0)
    | (s, .inl x) => .ans s (s.sectorAnswer i key id va x)

/-- A walk of another device runs at its home until it ends or leaves; its Serac group must run (R4, R320). -/
def State.serveWalk (s : State) (i : Nat) (id : Ident) (r : RemoteReq) (x : Nat) : Served :=
  let fin := fun (s : State) (w : Walk) (cls : BitVec 8) (code va : Nat) =>
    Served.ans s (Answer.plain cls (w.res.toNat + 2 ^ 64 * (w.status code).toNat + 2 ^ 96 * va))
  if !(s.islandOn (islandSerac + i)) then .hold
  else match s.runWalk (s.issuer r) id 200000 (Walk.unpack x) with
    | (s, _, .stop w code) => fin s w 0 code 0
    | (s, _, .fault w cls va) => fin s w cls 1 va
    | (s, w, .leave dev va) => match s.plane dev va with
      | none => fin s w 0x16 1 va
      | some p => .quiet (s.putFlit p 1 r.dev dev r.tag
          (requestHdr 5 va 0 (id.dom va) (id.genOf va).toNat (s.rpartOf id va) r.asid none r.lease) r.num w.pack)
    | (s, w, _) => fin s w 0 0 0

/-- A transaction-barrier step of another device (R220, R407). -/
def State.serveBarrier (s : State) (id : Ident) (va kind : Nat) (tr : Bool) (arg : Nat) : Served :=
  let ok := fun (s : State) (x : Nat) => Served.ans s ⟨0, s.watchedAt id va, false, false, x⟩
  if kind = tbKindInit then match s.homePut id va 16 (tbInitNat arg) with
    | (s, some (cls, _)) => .ans s (Answer.plain cls 0)
    | (s, none) => ok s 0
  else if kind = tbKindArrive then match s.tbArrive id va arg with
    | (s, .inr cls) => .ans s (Answer.plain cls 0)
    | (s, .inl ph) => ok s ph.toNat
  else match s.homeNat id va 16 with
    | (s, .inr cls) => .ans s (Answer.plain cls 0)
    | (s, .inl x) => if x / 2 ^ 96 % 2 ^ 32 ≠ arg then ok s 0 else if tr then ok s 2 else .hold

/-- Serves a request at its home here: translation, generation check, acceptance and steps as for this device's own (R405). -/
def State.serveRemote (s : State) (part : Nat) (r : RemoteReq) : Served :=
  let bad := fun (s : State) (cls : BitVec 8) => Served.ans s (Answer.plain cls 0)
  match s.home part r.va with
  | .away _ _ => bad s 0x16
  | .here i =>
    let id := s.remoteIdent part i r
    match r.op with
    | .load => s.serveSector i id r.va true false fun s key =>
        s.readWay i key id r.va ((s.holderOf r).filter (·.stash))
    | .store mask data => s.serveSector i id r.va false true fun s key =>
        match s.writeWay i key id r.va mask data (s.holderOf r) with
        | (s, some cls) => (s, .inr cls)
        | (s, none) => (s, .inl (match (s.slice i).way? key with | some l => l.data[subOf r.va]?.getD 0 | none => data))
    | .register mask => s.serveSector i id r.va false true fun s key =>
        s.registerWay i key id r.va mask ((s.holderOf r).getD ⟨s.issuer r, 0, true⟩)
    | .giveBack mask data => s.serveSector i id r.va false true fun s _ =>
        (s.takeBack i (sharedVa r.va) (id.dom r.va) r.va mask data ((s.holderOf r).getD ⟨s.issuer r, 0, true⟩), .inl 0)
    | .atomic op ty ops => match s.remoteAtomics id op ty r.va ops 0 with
      | (s, .inr cls) => bad s cls
      | (s, .inl x) => .ans s ⟨0, s.watchedAt id r.va, false, false, x⟩
    | .deque kind v => match s.dqApply id kind r.va v.toNat with
      | (s, .inr cls) => bad s cls
      | (s, .inl a) => .ans s (Answer.plain 0 (dqNat a (s.dqWatched id kind r.va a)))
    | .barrier kind tr arg => s.serveBarrier id r.va kind tr arg
    | .walk x => s.serveWalk i id r x
    | .lease last rights => s.serveLease part id r last rights
    | .header kind arg => match s.headerStep id r.va kind arg with
      | (s, .inr cls) => bad s cls
      | (s, .inl x) => .ans s (Answer.plain 0 x)
    | .watch on => match s.watchSector id r.va on with
      | (s, false) => bad s 0x11
      | (s, true) => .ans s (Answer.plain 0 0)
    | .note _ => .hold
    | .revoke _ _ _ => .hold

/-- The answer to a request that no home takes up: "unreachable home", with how far a walk had come. -/
def unserved (r : RemoteReq) : Answer := match r.op with
  | .walk x =>
    let w := Walk.unpack x
    Answer.plain 0x16 (w.res.toNat + 2 ^ 64 * (w.status 1).toNat + 2 ^ 96 * w.nextVa.getD 0)
  | _ => Answer.plain 0x16 0

/-- A request from another device is served; a partition that is not valid answers "unreachable home" (R404). A walk sent on to
this device under a number of its own is its launch's. A note goes to every agent, and words are taken back from the core that owns them,
whatever partition they belong to. A step that needs a third device waits for its answers. -/
def execRemoteRequest (r : RemoteReq) (s : State) : Out :=
  if s.stopped then .refused .eventNotDue
  else match r.op, s.servedBy r.part with
    | .note v, _ => .next (((List.range 12).foldl (fun s i => s.noteAgents i v) s).reply r (Answer.plain 0 0)).bump
    | .revoke ws c stash, _ =>
      let x := s.giveWords r ws c stash
      .next (x.1.reply r (Answer.plain 0 x.2)).bump
    | _, none => .next (s.reply r (unserved r)).bump
    | _, some part =>
      let again := fun (s : State) => { s with agenda := s.agenda ++ [.remoteRequest r] }
      match s.serveRemote part r with
      | .ans s' a => remoteGate (again s) s' (remoteOwner r) (.refused .eventNotDue) fun s => .next (s.reply r a).bump
      | .quiet s' => remoteGate (again s) s' (remoteOwner r) (.refused .eventNotDue) fun s => .next s.bump
      | .hold => .refused .eventNotDue

/-! ## Links (R401, R402) -/

def State.setPort (s : State) (i : Nat) (p : Port) : State := { s with ports := s.ports.set i p }

/-- A flit of a message reaches its port: with the last one the message is whole, its fields, number and data (log 32). -/
def Port.gather (p : Port) (f : Flit) : Port × Option (Nat × Nat × Nat) :=
  let key := f.src.toNat + 2 ^ 8 * f.kind.toNat
  let num := f.body / 2 ^ 256 % 2 ^ 176
  let mine := fun (x : Nat × Nat × Nat × Nat) => decide (x.1 = key ∧ x.2.1 = num)
  let (n, got) := ((p.parts.find? mine).map (·.2.2)).getD (0, 0)
  let data := got + f.body / 2 ^ 432 * 2 ^ (flitData * n)
  let rest := p.parts.filter fun x => !(mine x)
  if f.body.testBit 175 then ({ p with parts := rest ++ [(key, num, n + 1, data)] }, none)
  else ({ p with parts := rest }, some (f.body % 2 ^ 256, num, data))

/-- Flits up to a sequence number have been accepted by the peer. -/
def Port.ackBefore (p : Port) (l : BitVec 16) : Port :=
  let rest := p.window.filter fun f => decide ((f.lseq - l).toNat < 2 ^ 15)
  { p with window := rest, tries := if rest.length < p.window.length then 0 else p.tries }

/-- An acknowledgement or a negative acknowledgement to send. -/
def Port.send (p : Port) (kind : BitVec 8) (me dev : Nat) (l : BitVec 16) : Port := { p with replies := p.replies ++ [Flit.make l kind me dev 0 0] }

/-- A flit arrives at a port: a bad CHECK or a full input queue is answered with a negative acknowledgement, a request or response
out of sequence is discarded, and the expected one is accepted exactly once. -/
def execFlitReceive (port : Nat) (flit : Flit) (full : Bool) (s : State) : Out :=
  match s.ports[port]? with
  | none => .refused .eventNotDue
  | some p =>
    if !p.up ∨ s.stopped then .refused .eventNotDue
    else
      let s := s.flits 1
      let me := s.devnum.toNat % 256
      if !flit.good ∨ full then .next ((s.setPort port (p.send 4 me flit.src.toNat p.rxseq)).flits 1).bump
      else if flit.kind = 3 then .next (s.setPort port (p.ackBefore (flit.lseq + 1))).bump
      else if flit.kind = 4 then .next (s.setPort port { p.ackBefore flit.lseq with resend := some (flit.lseq, s.clock + p.backoff.toNat) }).bump
      else if flit.lseq ≠ p.rxseq then .next s.bump
      else
        let (p, m) := p.gather flit
        let s := (s.setPort port ({ p with rxseq := p.rxseq + 1 }.send 3 me flit.src.toNat flit.lseq)).flits 1
        match m with
        | none => .next s.bump
        | some (hdr, num, data) =>
          if flit.kind = 1 then
            .next ({ s with agenda := s.agenda ++ [.remoteRequest (remoteOf flit.src.toNat flit.tag.toNat hdr num data)] } : State).bump
          else if flit.kind = 2 then .next (s.answer num (Answer.of hdr data)).bump
          else .next s.bump

/-- Flits are sent again: the count of resends since last cleared, saturating, and the tries of the oldest flit. -/
def Port.again (p : Port) (n : Nat) : Port := { p with replays := min 65535 (p.replays + n), tries := p.tries + 1 }

/-- BACKOFF clocks after a negative acknowledgement the flits from the one it names are sent again, in order. -/
def execReplayResend (port : Nat) (s : State) : Out :=
  match s.ports[port]? with
  | none => .refused .eventNotDue
  | some p =>
    match p.resend with
    | none => .refused .eventNotDue
    | some (l, due) =>
      if !p.up ∨ s.stopped ∨ p.tries ≥ 16 ∨ s.clock < due then .refused .eventNotDue
      else
        let n := ((p.window.take 64).filter fun f => decide ((f.lseq - l).toNat < 2 ^ 15)).length
        if n = 0 then .next (s.setPort port { p with resend := none }).bump
        else .next ((s.setPort port { p.again n with resend := none }).flits n).bump

/-- A flit the peer never acknowledges is sent again (R436). -/
def execFlitUnacknowledged (port : Nat) (s : State) : Out :=
  match s.ports[port]? with
  | none => .refused .eventNotDue
  | some p =>
    if !p.up ∨ s.stopped ∨ p.window.isEmpty ∨ p.tries ≥ 16 then .refused .eventNotDue
    else .next ((s.setPort port (p.again 1)).flits 1).bump

/-- Walks of other devices that a port has not passed on end there, and their devices are told (R401). -/
def State.lostWalks (s : State) (fs : List Flit) : State :=
  (fs.filter fun f => decide (f.kind = 1 ∧ f.src.toNat ≠ s.devnum.toNat % 256)).foldl (fun s f =>
    let r := remoteOf f.src.toNat f.tag.toNat (f.body % 2 ^ 256) (f.body / 2 ^ 256 % 2 ^ 176) (f.body / 2 ^ 432)
    s.reply r (unserved r)) s

/-- After 16 resends without success the port goes down: every request outstanding on it ends with class 0x16. -/
def execPortDown (port : Nat) (s : State) : Out :=
  match s.ports[port]? with
  | none => .refused .eventNotDue
  | some p =>
    if !p.up ∨ p.tries < 16 then .refused .eventNotDue
    else
      let s := s.setPort port { p with up := false, window := [], replies := [], out := [], parts := [], resend := none, tries := 0 }
      .next (p.out.foldl (fun s num => s.answer num (Answer.plain 0x16 0)) (s.lostWalks p.window)).bump

/-- Adds an entry to the start journal, a ring of 256 (R431). -/
def State.addJournal (s : State) (j : JEntry) : State := { s with journal := (s.journal ++ [j]).drop (s.journal.length + 1 - 256) }

/-- A port trains as at start-up (R402): ignored on a port that is up. -/
def State.trainPort (s : State) (port : Nat) (p : Port) (ok : Bool) : State :=
  if p.up then s.setPort port { p with train := none }
  else if ok then
    s.setPort port { p with
      up := true, window := [], out := [], replies := [], parts := [], resend := none, tries := 0, txseq := 0, rxseq := 0, train := none }
  else (s.setPort port { p with train := none }).addJournal ⟨17 + port, 0, 1, p.setting, s.boots⟩

/-- RETRAIN = 1 (R402); while the device's clocks are stopped the port waits with it (R436). -/
def State.retrain (s : State) (port : Nat) (ok : Bool) : Out :=
  match s.ports[port]? with
  | none => .refused .eventNotDue
  | some p => .next (if s.stopped then s.setPort port { p with train := some ok } else s.trainPort port p ok).bump
def execRetrain (port : Nat) (ok : Bool) (s : State) : Out := s.retrain port ok

/-- A retraining that a thermal stop has held back. -/
def State.trainDue (s : State) (port : Nat) : Option Out := match s.ports[port]? with
  | some p => p.train.map fun ok => .next (s.trainPort port p ok).bump
  | none => none

end Sys2Proof.Machine
end

