-- ==== Sys2Proof/Machine/Window.lean ====
section
/-! DEFINITION. The host's windows (R425 to R428, R434, R436): the management window of function 0, a partition's queue page, and its global
virtual addresses. -/

namespace Sys2Proof.Machine

/-- An outcome goes on with a further step on its next state. -/
def thenNext : Out → (State → Out) → Out
  | .next s, f => f s
  | o, _ => o

/-! ## The management window (R425, R427) -/

/-- Unit and offset of a byte of the window. -/
def windowUnit (a : Nat) : Nat := a / 2 ^ 16 % 256
def windowOff (a : Nat) : Nat := a % 2 ^ 16

/-- Puts bytes into the boot store (R427); what an unlisted byte holds is free. -/
def storePut (m : List Host.Cell) (a : Nat) : List Byte → List Host.Cell
  | [] => m
  | v :: vs => storePut ((m.filter fun x => decide (x.1 < a)) ++ [(a, v)] ++ m.filter fun x => decide (x.1 > a)) (a + 1) vs

/-- SDRAIN written: each slice whose bit changes drains, or serves again (R429). -/
def State.sdrainWrite (s : State) (v : DWord) : State :=
  (List.range 12).foldl (fun s i =>
    if v.getLsbD i = (s.slice i).sdrain then s else if v.getLsbD i then s.drainSlice i else s.undrainSlice i) s

/-- What the environment decides, when the host's write itself does not say it: a signature or a training that succeeds (assumption 113). -/
def State.chance (s : State) : Bool × State := (decide (Config.freeNat s.free % 2 = 1), { s with free := s.free + 1 })

/-- A 64-bit write of the device control unit (R428). -/
def State.controlWrite (s : State) (off : Nat) (v : DWord) : Out :=
  if off = 0x08 then s.devnumWrite v
  else if off = 0x10 then .next (s.sdrainWrite v).bump
  else if off = 0x20 then
    .next ((List.range 12).foldl (fun s i => if v.getLsbD i then let r := s.chance; r.2.recalibrate i r.1 else s) s).bump
  else if off = 0x28 then let r := s.chance; .next (r.2.fwctlWrite v r.1)
  else if off = 0x50 then .next (if v.getLsbD 0 then s.resumeClocks else s.bump)
  else .next (s.plainWrite 0x40 off v).bump

/-- A 64-bit write of the debug unit: a register command by its OP, TRCCTL of the selected core, or a plain register (R412, R413). -/
def State.debugUnitWrite (s : State) (off : Nat) (v : DWord) : Out :=
  if off = 8 then match (v.extractLsb' 0 8).toNat with
    | 1 => s.dcmdRead v
    | 2 => s.dcmdWrite v
    | 3 => s.dcmdForced v
    | _ => .next s.bump
  else if off = 0x38 then .next (s.trcctlSet (s.csel.toNat % 512) v)
  else .next (s.plainWrite 0x30 off v).bump

/-- Owner names of host accesses, one per function. -/
def hostOwner (fn : Nat) : Nat := ownerName 8 [fn]

/-- A 64-bit write of the management window. A queue page is out of reach during a thermal stop (R436). -/
def State.windowWrite (s : State) (a : Nat) (v : DWord) : Out :=
  let unit := windowUnit a
  let off := windowOff a
  if 0x20 ≤ unit ∧ unit < 0x2C then
    if s.stopped then .next s.hostError.bump else .next (s.queueWrite (unit - 0x20) off v).bump
  else if unit = 0x30 then s.debugUnitWrite off v
  else if unit = 0x40 then s.controlWrite off v
  else if 0x50 ≤ unit ∧ unit < 0x68 ∧ off = 0 then
    let s := s.plainWrite unit off v
    if v.getLsbD 62 then let r := s.chance; r.2.retrain (unit - 0x50) r.1 else .next s.bump
  else if unit = 0x70 then
    let old := s.otEntry (off / 16)
    s.otWrite (off / 16) (if off % 16 = 0 then (old.extractLsb' 64 64) ++ v else v ++ (old.extractLsb' 0 64))
  else if unit = 0x80 then
    .next (if off < 0x1000 then s else { s with store := storePut s.store off (toLeBytes 8 v.toNat) }).bump
  else match s.mgmtWrite unit off v (hostOwner 0) with
    | some s => .next s.bump
    | none => .refused .eventNotDue

/-- The mailbox of the management controller: a nonce of 32 bytes, then a buffer address (R434). -/
def mailbox : Nat := 0x400100

/-- A host write of the management window acts in whole registers, in ascending offset: the 16 bytes of an ownership table entry and the
mailbox's 40 bytes as one where the write covers them. Bytes that cover no whole register are ignored (DESIGN CHOICE, assumption 113);
`n` bounds the registers. -/
def State.windowBytes (s : State) (a : Nat) (bytes : List Byte) : Nat → Out
  | 0 => .next s.bump
  | n + 1 =>
    if bytes.length < 8 then .next s.bump
    else if a % 8 ≠ 0 then s.windowBytes (a + (8 - a % 8)) (bytes.drop (8 - a % 8)) n
    else if a = mailbox ∧ bytes.length ≥ 40 then
      (s.attest (leBytes (bytes.take 32)) (leBytes ((bytes.drop 32).take 8))).windowBytes (a + 40) (bytes.drop 40) n
    else if windowUnit a = 0x70 ∧ a % 16 = 0 ∧ bytes.length ≥ 16 then
      thenNext (s.otWrite (windowOff a / 16) (BitVec.ofNat 128 (leBytes (bytes.take 16)))) fun s =>
        s.windowBytes (a + 16) (bytes.drop 16) n
    else thenNext (s.windowWrite a (BitVec.ofNat 64 (leBytes (bytes.take 8)))) fun s => s.windowBytes (a + 8) (bytes.drop 8) n

/-- Bytes of the management window, register after register. -/
def State.windowRead (s : State) (a n : Nat) : State × List Byte :=
  let r := (List.range ((a + n + 7) / 8 - a / 8)).foldl (fun (st : State × List Byte) i =>
    let x := (a / 8 + i) * 8
    let w := st.1.mgmtRead (windowUnit x) (windowOff x) (hostOwner 0)
    (w.1, st.2 ++ toLeBytes 8 w.2.toNat)) (s, [])
  (r.1, (r.2.drop (a % 8)).take n)

/-- The partition whose queue page a window offset lies in; 12 for none. -/
def pagePart (a : Nat) : Nat := if 0x20 ≤ windowUnit a ∧ windowUnit a < 0x2C then windowUnit a - 0x20 else 12

/-! ## The virtual functions (R425, R426, R436) -/

/-- The identity of a virtual function: the ASID of HASID, translated like an agent access. -/
def State.hostIdent (s : State) (fn : Nat) : Ident := s.queueIdent (fn - 1) (hostOwner fn)

/-- Addresses of a virtual function from here on are its BAR0, below it BAR2 (MODEL). -/
def barZero : Nat := 2 ^ 56

/-- A host write to a queue page of 16 KiB, in whole registers. -/
def State.pageBytes (s : State) (part off : Nat) (bytes : List Byte) : Nat → Out
  | 0 => .next s
  | n + 1 =>
    if bytes.length < 8 then .next s.bump
    else if off % 8 ≠ 0 then s.pageBytes part (off + (8 - off % 8)) (bytes.drop (8 - off % 8)) n
    else thenNext (s.pageWrite part fun s => s.queueWrite part (off % 0x4000) (BitVec.ofNat 64 (leBytes (bytes.take 8)))) fun s =>
      s.pageBytes part (off + 8) (bytes.drop 8) n

/-- A host write: of function 0 to the management window, of a virtual function to its queue page, or at BAR2, where it is translated at its
home and not lease-checked; a refusal discards it and is counted. Every byte counts, taken or not (R365). -/
def execHostWrite (fn va : Nat) (bytes : List Byte) (s : State) : Out :=
  let s' := s.hostBytes bytes.length
  if fn = 0 then hostGate (hostOwner 0) s (s'.windowBytes va bytes (bytes.length + 1))
  else if s.stopped then .next s'.hostError.bump
  else if fn > 12 ∨ !((s.part (fn - 1)).valid) then .next s'.bump
  else if va ≥ barZero then hostGate (hostOwner fn) s (s'.pageBytes (fn - 1) (va - barZero) bytes (bytes.length + 1))
  else
    let r := s'.homeWrite (s.hostIdent fn) va bytes
    remoteGate s r.1 (hostOwner fn) (.refused .eventNotDue) fun s => .next (if r.2.isSome then s.hostError else s).bump

/-- The answer to a host read: its bytes, or none for Completer Abort. -/
def State.hostAnswer (s : State) (x : Option (List Byte)) : Out := .next ({ s with answers := x :: s.answers } : State).bump

/-- Bytes of a queue page. -/
def State.pageRead (s : State) (part off n owner : Nat) : State × List Byte :=
  let r := (List.range ((off + n + 7) / 8 - off / 8)).foldl (fun (st : State × List Byte) i =>
    let w := st.1.queueRead part ((off / 8 + i) * 8 % 0x4000) owner
    (w.1, st.2 ++ toLeBytes 8 w.2.toNat)) (s, [])
  (r.1, (r.2.drop (off % 8)).take n)

/-- A host read: of the management window by function 0, of a queue page, or at BAR2, served at its home. One that is refused, and one at
BAR2 or a queue page during a thermal stop, completes with Completer Abort. -/
def execHostRead (fn va n : Nat) (s : State) : Out :=
  let s' := s.hostBytes n
  let gate := fun (r : State) => remoteGate s r (hostOwner fn) (.refused .eventNotDue)
  if fn = 0 then
    if s.stopped ∧ pagePart va < 12 then s'.hostAnswer none
    else let r := s'.windowRead va n; gate r.1 fun s => s.hostAnswer (some r.2)
  else if s.stopped then s'.hostAnswer none
  else if fn > 12 ∨ !((s.part (fn - 1)).valid) then s'.hostAnswer (some (List.replicate n 0xFF))
  else if va ≥ barZero then
    let r := s'.pageRead (fn - 1) (va - barZero) n (hostOwner fn)
    gate r.1 fun s => s.hostAnswer (some r.2)
  else
    let r := s'.homeRead (s.hostIdent fn) va n
    gate r.1 fun s => match r.2 with
      | .inl bs => s.hostAnswer (some bs)
      | .inr _ => s.hostAnswer none

end Sys2Proof.Machine
end

