-- ==== Sys2Proof/Machine/Boot.lean ====
section
/-! DEFINITION. Start-up: the boot ROM's steps and the start journal (R431). -/

namespace Sys2Proof.Machine

/-- The last entry of a step in the journal. -/
def lastEntry (js : List JEntry) (step : Nat) : Option JEntry := (js.filter fun j => decide (j.step = step)).getLast?

/-- The setting a step tries: the one that passed last, or the fallback after a failure. -/
def bootSetting (js : List JEntry) (step normal fallback : Nat) : Nat :=
  match lastEntry js step with
  | none => normal
  | some j => if j.result = 1 then fallback else if j.result = 2 then normal else j.setting

/-- The attempt's number: failures of the step in a row before it. -/
def bootAttempt (js : List JEntry) (step : Nat) : Nat :=
  match lastEntry js step with
  | some j => if j.result = 1 then min 255 (j.attempt + 1) else 0
  | none => 0

/-- Writes a step's entry. -/
def State.bootNote (s : State) (step attempt result setting : Nat) : State := s.addJournal ⟨step, attempt, result, setting, s.boots⟩

/-- Marks a slice OUT. -/
def State.markOut (s : State) (i : Nat) : State := s.setSlice i { s.slice i with out := true }

/-- Step 1: the image slot named active, or the other one after a failure; the one that passes is the active one. An image whose signature
fails is not loaded: no agent is then (R431, R432). -/
def State.bootImage (s : State) (fails : List Nat) : State × Bool :=
  let failed := match lastEntry s.journal 1 with | some j => decide (j.result = 1) | none => false
  let slot := if failed then 1 - s.image else s.image
  let bad := fails.contains 1 || !(s.verifies slot)
  (({ s with image := if bad then s.image else slot } : State).bootNote 1 (bootAttempt s.journal 1) (if bad then 1 else 0) slot, !bad)

/-- Steps 2 to 13: a stack at 9.6 or 8.0 Gb/s, in tenths; a second failure marks the slice OUT. -/
def State.bootStack (fails : List Nat) (s : State) (i : Nat) : State :=
  let n := i + 2
  let a := bootAttempt s.journal n
  let bad := fails.contains n
  let s' := s.bootNote n a (if bad then 1 else 0) (bootSetting s.journal n 96 80)
  if bad ∧ a ≥ 1 then s'.markOut i else s'

/-- Steps 14 to 16: a die-to-die link at full (2) or half width (1); a second failure marks the slices of the die behind it OUT. -/
def State.bootLink (fails : List Nat) (s : State) (i : Nat) : State :=
  let n := i + 14
  let a := bootAttempt s.journal n
  let bad := fails.contains n
  let s' := s.bootNote n a (if bad then 1 else 0) (bootSetting s.journal n 2 1)
  if bad ∧ a ≥ 1 then (List.range 3).foldl (fun s j => s.markOut (3 * (i + 1) + j)) s' else s'

/-- Steps 17 to 40: a fabric port; after a failure last time it is skipped and stays down. -/
def State.bootPort (fails : List Nat) (s : State) (i : Nat) : State :=
  let n := i + 17
  let failed := match lastEntry s.journal n with | some j => decide (j.result = 1) | none => false
  if failed then s.bootNote n (bootAttempt s.journal n) 2 0
  else if fails.contains n then s.bootNote n 0 1 0
  else
    let p := s.ports[i]?.getD Port.reset
    (s.setPort i { p with up := true }).bootNote n 0 0 0

/-- Step 41: the agents; a core that fails twice (`100 + core` in the list) is marked out with its slice. -/
def State.bootAgents (s : State) (fails : List Nat) (image : Bool) : State :=
  let bad := (List.range 384).filter fun c => fails.contains (100 + c)
  let s := bad.foldl (fun s c => s.markOut (c / 32)) s
  let s : State := { s with cores := s.cores.mapIdx fun c (k : Core) =>
    { k with agent := { k.agent with image := s.image, out := !image || bad.contains c || (s.slice (c / 32)).out } } }
  s.bootNote 41 (bootAttempt s.journal 41) (if bad.isEmpty && image then 0 else 1) 0

/-- Power-on: everything but the boot store is as after reset; the steps run in order, and start-up ends with every slice draining and
drained. `fails` names the steps whose attempt fails this time; 42 says that the host link trains narrower or slower (R425, assumption 41). -/
def execPowerOn (fails : List Nat) (s : State) : Out :=
  let s0 : State := { State.reset with
    journal := s.journal, store := s.store, boots := (s.boots + 1) % 2 ^ 64, image := s.image, agenda := s.agenda, free := s.free, nextId := s.nextId
    answers := s.answers, hostMem := s.hostMem }
  let s1 := if s.thermalLog then s0.bootNote 0 0 0 0 else s0
  let s1 := if fails.contains 42 then s1.bootNote 42 0 0 1 else s1
  let r := s1.bootImage fails
  let s2 := (List.range 12).foldl (State.bootStack fails) r.1
  let s3 := (List.range 3).foldl (State.bootLink fails) s2
  let s4 := (List.range 24).foldl (State.bootPort fails) s3
  let s5 := s4.bootAgents fails r.2
  .next { s5 with
    on := true
    slices := s5.slices.map fun (x : Slice) => { x with sdrain := true, drained := true } }

end Sys2Proof.Machine
end

