-- ==== Sys2Proof/Machine/Move.lean ====
section
/-! DEFINITION. Moves, selects, predicate logic, stack moves and system values of majors 0x12 to 0x15
(R90 to R97). -/

namespace Sys2Proof.Machine

/-- `mov`, `movd`: B has a signed type (R90). -/
def movOp (f : DB) (wide : Bool) : State → Out :=
  regOp f.c false f.b.len (fun L => f.b.refs f.c.w L wide) (fun L => regRefs f.c.w L wide f.d)
    (fun cx L => dstWr f.c.w L (if wide then .wide else .s) f.d (cx.bval f.c.w L wide .s f.b))

/-- `sel`, `seld`: A when the predicate of field C is true, else B (R90). A literal parcel of 32 bits is sign-extended for `seld` as R90
has it for `movd`: R90 names no type for `seld` (DESIGN CHOICE, log 122). -/
def selOp (f : DABC) (wide : Bool) : State → Out :=
  regOp f.c false f.b.len
    (fun L => predRef f.c.w L f.cc :: regRefs f.c.w L wide f.a ++ f.b.refs f.c.w L wide)
    (fun L => regRefs f.c.w L wide f.d)
    (fun cx L => dstWr f.c.w L (if wide then .wide else .s) f.d
      (if cx.v.rdP f.c.w L f.cc then cx.v.rd f.c.w L wide f.a else cx.bval f.c.w L wide .s f.b))

def execMov (f : DB) : State → Out := movOp f false
def execSel (f : DABC) : State → Out := selOp f false
def execMovd (f : DB) : State → Out := movOp f true
def execSeld (f : DABC) : State → Out := selOp f true

/-- Predicate logic on two predicates, each inverted on request (R91). -/
def predOp (f : PredF) (two : Bool) (fn : Bool → Bool → Bool) : State → Out :=
  regOp f.c false 8
    (fun L => predRef f.c.w L f.a :: (if two then [predRef f.c.w L f.b] else []))
    (fun L => [predRef f.c.w L f.d])
    (fun cx L => [predWr f.c.w L f.d (fn (cx.v.rdP f.c.w L f.a != f.ia) (cx.v.rdP f.c.w L f.b != f.ib))])

def execPand (f : PredF) : State → Out := predOp f true fun a b => a && b
def execPor (f : PredF) : State → Out := predOp f true fun a b => a || b
def execPxor (f : PredF) : State → Out := predOp f true fun a b => a != b
def execPandn (f : PredF) : State → Out := predOp f true fun a b => a && !b
def execPmov (f : PredF) : State → Out := predOp f false fun a _ => a
/-- Tests a lane register, or all 64 bits of a g register (R91, R148). -/
def execPtst (f : PredF) (s : State) : Out :=
  regOp f.c false 8 (fun L => regRefs f.c.w L f.c.w f.a) (fun L => [predRef f.c.w L f.d])
    (fun cx L => [predWr f.c.w L f.d (decide (cx.v.rd f.c.w L f.c.w f.a ≠ 0))]) s
def execPget (f : PredF) (s : State) : Out :=
  regOp f.c false 8 (fun L => [predRef f.c.w L f.a]) (fun L => regRefs f.c.w L false f.d)
    (fun cx L => dstWr f.c.w L .z f.d (if (cx.v.rdP f.c.w L f.a != f.ia) then 1 else 0)) s

/-! ## Stack moves (R92, R93) -/

/-- Result of a stack move in one lane: its new state, the value for vD, or a lane fault code. -/
structure StackRes where
  lane : Lane
  out : Option Word
  fault : Option Nat

def stackPush (a : Nat) (l : Lane) : StackRes :=
  if l.stack.length ≥ 8 then ⟨l, none, some 1⟩ else ⟨{ l with stack := l.r a :: l.stack }, none, none⟩
def stackPop (l : Lane) : StackRes :=
  match l.stack with
  | [] => ⟨l, none, some 2⟩
  | x :: rest => ⟨{ l with stack := rest }, some x, none⟩
def stackPeek (n : Nat) (l : Lane) : StackRes :=
  match l.stack[n]? with
  | none => ⟨l, none, some 2⟩
  | some x => ⟨l, some x, none⟩
def stackDepth (l : Lane) : StackRes := ⟨l, some (BitVec.ofNat 32 l.stack.length), none⟩
def stackClear (l : Lane) : StackRes := ⟨{ l with stack := [] }, none, none⟩

/-- Runs a stack move in every lane taking part: a faulting lane keeps its state and records the fault, the others
complete; with `.t` the team then takes the lane-fault trap (R93). -/
def stackOp (f : StackF) (useD useA : Bool) (fn : Lane → StackRes) (s : State) : Out :=
  issue s
    (fun cx => cx.predRefs f.c ++ (if useA then (cx.part f.c).map fun L => .v L f.a.toNat else []))
    (fun cx => if useD then (cx.part f.c).map fun L => .v L f.d.toNat else [])
    fun cx =>
      let ls := cx.part f.c
      let res := fun L => fn (cx.v.lane L)
      let lanes := cx.t.lanes.mapIdx fun L l =>
        if ls.contains L then
          match (res L).fault with
          | some code => { l with status := laneFault l.status code 0 }
          | none => { l with stack := (res L).lane.stack }
        else l
      let ws := ls.flatMap fun L => match (res L).out with
        | some x => [Wr.v L f.d.toNat x]
        | none => []
      let cx := { cx with t := ({ cx.t with lanes := lanes } : Team).put ws }
      match (ls.filter fun L => (res L).fault.isSome) with
      | L :: _ =>
        if f.t then .next (cx.trap s 0x09 (BitVec.ofNat 8 ((res L).fault.getD 0)) (BitVec.ofNat 16 L) 0 8)
        else .next (cx.next s 8)
      | [] => .next (cx.next s 8)

def execSpush (f : StackF) : State → Out := stackOp f false true (stackPush f.a.toNat)
def execSpop (f : StackF) : State → Out := stackOp f true false stackPop
def execSpeek (f : StackF) : State → Out := stackOp f true false (stackPeek f.idx.toNat)
def execSdep (f : StackF) : State → Out := stackOp f true false stackDepth
def execSclr (f : StackF) : State → Out := stackOp f false false stackClear

/-! ## System values (R94 to R97) -/

/-- Field i of a work identifier under the launch's field widths (R75). -/
def widField (ws : List Nat) (x : DWord) (i : Nat) : Nat :=
  x.toNat / 2 ^ (ws.take i).sum % 2 ^ (ws[i]?.getD 0)

/-- The value of a selector for a lane (R94, R95). In the agent slot selectors 0x03 to 0x0A read 0. -/
def Cx.sval (s : State) (cx : Cx) (w : Bool) (L sel : Nat) : Nat :=
  let l := cx.v.lane L
  let ws := match cx.k.lslotOf cx.slot with
    | none => []
    | some x => x.launch.w
  if cx.slot = agentSlot ∧ 3 ≤ sel ∧ sel ≤ 10 then 0
  else if sel = 0 then L
  else if sel = 1 then l.olid
  else if sel ≤ 7 then widField ws l.wid (sel - 2)
  else if sel = 8 then l.wid.toNat
  else if sel = 9 then (if w then cx.v.num else l.team)
  else if sel = 10 then cx.v.n
  else if sel = 11 then cx.c
  else if sel = 12 then cx.v.quad
  else if sel = 13 then cx.slot
  else s.devnum.toNat % 256

/-- In the team-wide form every fragment reads the same values (R97): of the fields of work identifiers that name no lane, those of
lane 0, where a fusion has brought lanes of several identifiers together (DESIGN CHOICE, assumption 107). -/
def execSval (f : DA) (s : State) : Out :=
  let sel := f.a.toNat
  let wide := svalWide f.a
  regOp f.c false 8 (fun _ => []) (fun L => regRefs f.c.w L wide f.d)
    (fun cx L =>
      let M := if f.c.w then 0 else L
      dstWr f.c.w L (if wide then .wide else .z) f.d (cx.sval s f.c.w M sel)) s

end Sys2Proof.Machine
end

