-- ==== Sys2Proof/Machine/Exv.lean ====
section
/-! DEFINITION. Execute-vector: the lane-op word and its opcodes (R98 to R108), `exv` and `exvn` (R109 to R117), the
scratchpad window (R115) and lane status access (R118). -/

namespace Sys2Proof.Machine

/-! ## The lane-op word (R98 to R103) -/

/-- What the table of R103 says of an opcode. -/
structure LaneOp where
  /-- Entries read and left. -/
  p : Nat
  q : Nat
  /-- Integer types, float types. -/
  int : Bool := true
  flt : Bool := true
  rm : Bool := false
  sat : Bool := false
  sel : Bool := false
  /-- Range of IMM; none when it must be zero. -/
  imm : Option (Nat × Nat) := none

/-- Integer and float rows. -/
def opI (p q : Nat) (sat : Bool) : Option LaneOp := some { p := p, q := q, flt := false, sat := sat }
def opF (p q : Nat) (rm sat : Bool) : Option LaneOp := some { p := p, q := q, int := false, rm := rm, sat := sat }
def opA (p q : Nat) : Option LaneOp := some { p := p, q := q }

/-- The assigned opcodes (R103). -/
def laneOp (op : Nat) : Option LaneOp :=
  match op with
  | 0x00 => opA 0 0
  | 0x01 => some { p := 0, q := 1, sel := true }
  | 0x02 => some { p := 0, q := 1, imm := some (0, 255) }
  | 0x03 => opA 1 2
  | 0x04 => opA 1 0
  | 0x05 => opA 2 2
  | 0x06 => opA 2 3
  | 0x07 => opA 3 3
  | 0x08 => some { p := 0, q := 1, imm := some (0, 7) }
  | 0x10 => opI 2 1 true
  | 0x11 => opI 2 1 true
  | 0x12 => opI 2 1 true
  | 0x13 => opI 2 1 false
  | 0x14 => opI 2 1 false
  | 0x15 => opI 1 1 true
  | 0x16 => opI 1 1 true
  | 0x17 => opI 2 1 false
  | 0x18 => opI 2 1 false
  | 0x19 => opI 2 1 false
  | 0x1A => opI 2 1 false
  | 0x1B => opI 2 1 false
  | 0x1C => opI 2 1 false
  | 0x1D => opI 2 1 false
  | 0x1E => opI 2 1 false
  | 0x1F => opI 2 1 true
  | 0x20 => opI 2 1 true
  | 0x21 => opI 1 1 false
  | 0x22 => some { p := 1, q := 1, flt := false, sat := true, imm := some (0, 255) }
  | 0x30 => opF 2 1 true true
  | 0x31 => opF 2 1 true true
  | 0x32 => opF 2 1 true true
  | 0x33 => opF 2 1 true true
  | 0x34 => opF 3 1 true true
  | 0x35 => opF 1 1 true false
  | 0x36 => opF 1 1 true false
  | 0x37 => opF 1 1 true false
  | 0x38 => opF 1 1 true false
  | 0x39 => opF 1 1 true false
  | 0x3A => opF 1 1 true false
  | 0x3B => opF 1 1 false false
  | 0x3C => opF 2 1 false false
  | 0x3D => opF 2 1 false false
  | 0x3E => opF 1 1 false false
  | 0x3F => opF 1 1 false false
  | 0x40 => opF 1 1 true false
  | 0x41 => opF 1 1 true false
  | 0x42 => opF 1 1 true true
  | 0x44 => opF 1 1 true true
  | 0x45 => opF 1 1 true true
  | 0x46 => opF 1 1 true true
  | 0x47 => opF 1 1 true true
  | 0x48 => some { p := 1, q := 1, int := false, rm := true, sat := true, imm := some (2, 4) }
  | 0x50 => opA 2 1
  | 0x51 => opA 2 1
  | 0x52 => opA 2 1
  | 0x53 => opA 2 1
  | 0x54 => opA 2 1
  | 0x55 => opA 2 1
  | 0x56 => opF 2 1 false false
  | 0x57 => opF 2 1 false false
  | 0x58 => opA 3 1
  | 0x59 => opA 1 1
  | 0x60 => some { p := 1, q := 1, imm := some (0, 255) }
  | 0x61 => some { p := 2, q := 0, imm := some (0, 255) }
  | 0x68 => some { p := 1, q := 0, imm := some (0, 255) }
  | 0x69 => some { p := 1, q := 0, imm := some (0, 255) }
  | 0x6A => opA 0 0
  | _ => none

/-- Fields of a lane-op word (R98). -/
def lwOp (w : Word) : Nat := w.toNat % 2 ^ 8
def lwSel (w : Word) : Nat := w.toNat / 2 ^ 8 % 32
def lwType (w : Word) : Nat := w.toNat / 2 ^ 13 % 8
def lwImm (w : Word) : Nat := w.toNat / 2 ^ 16 % 256
def lwRm (w : Word) : Nat := w.toNat / 2 ^ 24 % 8
def lwSat (w : Word) : Bool := w.getLsbD 27

/-- The element type of a word: s32, n32 or a float format (R98). -/
def lwKind (w : Word) : NKind :=
  match lwType w with
  | 0 => .int .s 32
  | 1 => .int .n 32
  | 2 => .flt .f32
  | 3 => .flt .f16
  | _ => .flt .bf16

/-- An entry read as a pattern of the type (R78, R100). -/
def NKind.pat (k : NKind) (x : Nat) : Nat :=
  match k with
  | .flt .f16 => x % 2 ^ 16
  | .flt .bf16 => x % 2 ^ 16
  | _ => x % 2 ^ 32

/-- A small integer taken exactly in the type (R99, R103); a negative one in n32 wraps modulo 2^32 (DESIGN CHOICE). -/
def NKind.const (k : NKind) (x : Int) : Nat :=
  match k with
  | .int _ n => wrapN n x
  | .flt f => (f.round {} (decide (x < 0)) x.natAbs 0).bits

/-- Window access of a step: the offset `o` is inside the window, the allocation and no stash window (R107). -/
def Core.winOk (k : Core) (blk : Nat) (win : Word) (o : Int) : Bool :=
  let base : Nat := win.toNat % 2 ^ 16 * 32
  let len : Nat := win.toNat / 2 ^ 16 * 32
  decide (0 ≤ o ∧ o % 4 = 0 ∧ o + 4 ≤ len ∧ (base : Int) + o + 4 ≤ k.scratchSize blk) && !(k.winMeets blk (base + o.toNat) 4)

/-- The offset of a window access: st0 is the address in both opcodes (R107). -/
def winOffset (w : Word) (stack : List Word) : Int := ((stack.headD 0).toNat : Int) + 4 * intVal .s 8 (lwImm w)

/-- The lane fault of a step, by the order of R101. -/
def laneCheck (w : Word) (stack : List Word) (m : Bool) (fb nregs : Nat) (win : Int → Bool) : Option Nat :=
  match laneOp (lwOp w) with
  | none => some 3
  | some r =>
    let ty := lwType w
    let bad := decide (w.toNat ≥ 2 ^ 28) || decide (ty ≥ 5) || (decide (ty ≤ 1) && !r.int) || (decide (ty ≥ 2) && !r.flt) ||
      decide (lwRm w ≥ 5) || (decide (lwRm w ≠ 0) && !r.rm) || (lwSat w && !r.sat) || (decide (lwSel w ≠ 0) && !r.sel) ||
      (match r.imm with
        | none => decide (lwImm w ≠ 0)
        | some (a, b) => decide (lwImm w < a ∨ b < lwImm w)) ||
      (r.sel && decide (lwSel w < 16 ∧ fb + lwSel w ≥ nregs))
    let isWin := decide (lwOp w = 0x60 ∨ lwOp w = 0x61)
    if bad then some 4
    else if isWin ∧ !m then some 5
    else if stack.length < (if lwOp w = 0x08 then lwImm w + 1 else r.p) then some 2
    else if stack.length + r.q > 8 + r.p then some 1
    else if isWin ∧ !(win (winOffset w stack)) then some 6
    else none

/-! ## Performing a step (R102 to R108) -/

/-- Integer opcodes (R104). -/
def laneInt (sg : Sg) (op imm : Nat) (sat : Bool) (a b : Nat) : Res :=
  let x := intVal sg 32 a
  let y := intVal sg 32 b
  match op with
  | 0x10 => intRes sg 32 sat (x + y)
  | 0x11 => intRes sg 32 sat (x - y)
  | 0x12 => intRes sg 32 sat (x * y)
  | 0x13 => divRem sg 32 true x y
  | 0x14 => divRem sg 32 false x y
  | 0x15 => intRes sg 32 sat (-x)
  | 0x16 => intRes sg 32 sat x.natAbs
  | 0x17 => plain (wrapN 32 (if x ≤ y then x else y))
  | 0x18 => plain (wrapN 32 (if x ≥ y then x else y))
  | 0x19 => plain (a &&& b)
  | 0x1A => plain (a ||| b)
  | 0x1B => plain (a ^^^ b)
  | 0x1C => plain (shlN 32 a b)
  | 0x1D => plain (shrN 32 a b)
  | 0x1E => plain (sarN 32 a b)
  | 0x1F => intRes sg 32 true (x + y)
  | 0x20 => intRes sg 32 true (x - y)
  | 0x21 => plain (a ^^^ (2 ^ 32 - 1))
  -- addi: IMM as s8, extended to 32 bits
  | _ => intRes sg 32 sat (x + intVal sg 32 (wrapN 32 (intVal .s 8 imm)))

/-- `relu` (R105). -/
def reluF (f : Fmt) (a : Nat) : Res :=
  match f.decode a with
  | .nan s => f.nanRes (nvIf s)
  | .inf n => ⟨if n then 0 else a, 0⟩
  | .fin n m _ => ⟨if n || decide (m = 0) then 0 else a, 0⟩

/-- Float opcodes (R105); `raw` is st0 as 32 bits. -/
def laneFlt (f : Fmt) (op imm : Nat) (md : RMode) (raw a b c : Nat) : Res :=
  let sign := 2 ^ (f.bits - 1)
  match op with
  | 0x30 => f.arith .add md a b 0
  | 0x31 => f.arith .sub md a b 0
  | 0x32 => f.arith .mul md a b 0
  | 0x33 => f.arith .div md a b 0
  | 0x34 => f.arith .fma md a b c
  | 0x35 => f.arith .sqrt md a a 0
  | 0x36 => special .exp2 f false a
  | 0x37 => special .log2 f false a
  | 0x38 => special .tanh f false a
  | 0x39 => special .sig f false a
  | 0x3A => special .gelu f false a
  | 0x3B => reluF f a
  | 0x3C => f.minmax false false a b
  | 0x3D => f.minmax true false a b
  | 0x3E => plain (a ^^^ sign)
  | 0x3F => plain (a % sign)
  | 0x40 => special .sin f false a
  | 0x41 => special .cos f false a
  | 0x42 => f.arith .rcp md 0 a 0
  | 0x44 => convert (.flt f) (.int .s 32) md a
  | 0x45 => convert (.flt f) (.int .n 32) md a
  | 0x46 => convert (.int .s 32) (.flt f) md raw
  | 0x47 => convert (.int .n 32) (.flt f) md raw
  -- fcvt
  | _ => convert (.flt f) (.flt (if imm = 2 then .f32 else if imm = 3 then .f16 else .bf16)) md a

/-- What a step does in a lane: its stack, the steps it skips, stop, flags, and a window store. -/
structure StepRes where
  stack : List Word
  skip : Nat := 0
  stop : Bool := false
  fl : Flags := 0
  store : Option (Int × Word) := none

/-- The compare condition of an opcode 0x50 to 0x57 (R106). -/
def laneCond (op : Nat) : Cond :=
  match op with
  | 0x50 => .eq | 0x51 => .ne | 0x52 => .lt | 0x53 => .le | 0x54 => .gt | 0x55 => .ge | 0x56 => .un | _ => .ord

/-- Performs a word that passed its check; `ld` reads the window. The stack moves (dup, swap, over, rot, pick) copy an entry as a
pattern of the type, so that f16 and bf16 clear its bits 31:16 (DESIGN CHOICE). -/
def lanePerform (w : Word) (stack feeds : List Word) (ld : Int → Word) : StepRes :=
  let k := lwKind w
  let op := lwOp w
  let p := match laneOp op with
    | some r => r.p
    | none => 0
  let rest := stack.drop p
  let raw := fun (i : Nat) => stack[p - i]?.getD 0
  let x := fun (i : Nat) => k.pat (raw i).toNat
  let e := fun (n : Nat) => BitVec.ofNat 32 n
  let res := fun (r : Res) => ({ stack := e r.bits :: rest, fl := r.fl } : StepRes)
  let md : RMode := { rm := rmOf (BitVec.ofNat 3 (lwRm w)), sat := lwSat w }
  match op with
  | 0x00 => { stack := stack }
  | 0x01 => { stack := e (if lwSel w < 16 then k.pat (feeds[lwSel w]?.getD 0).toNat else k.const ((lwSel w : Int) - 16)) :: stack }
  | 0x02 => { stack := e (k.const (intVal .s 8 (lwImm w))) :: stack }
  | 0x03 => { stack := e (x 1) :: e (x 1) :: rest }
  | 0x04 => { stack := rest }
  | 0x05 => { stack := e (x 1) :: e (x 2) :: rest }
  | 0x06 => { stack := e (x 1) :: e (x 2) :: e (x 1) :: rest }
  | 0x07 => { stack := e (x 1) :: e (x 3) :: e (x 2) :: rest }
  | 0x08 => { stack := e (k.pat (stack[lwImm w]?.getD 0).toNat) :: stack }
  | 0x58 => { stack := (if raw 3 ≠ 0 then raw 1 else raw 2) :: rest }
  | 0x59 => { stack := (if raw 1 = 0 then 1 else 0) :: rest }
  | 0x60 => { stack := ld (winOffset w stack) :: rest }
  | 0x61 => { stack := rest, store := some (winOffset w stack, raw 1) }
  | 0x68 => { stack := rest, skip := if raw 1 = 0 then lwImm w else 0 }
  | 0x69 => { stack := rest, skip := if raw 1 ≠ 0 then lwImm w else 0 }
  | 0x6A => { stack := stack, stop := true }
  | _ =>
    if 0x50 ≤ op ∧ op ≤ 0x57 then
      let r := compareKind k (laneCond op) false (x 1) (x 2)
      { stack := (if r.1 then 1 else 0) :: rest, fl := r.2 }
    else
      match k with
      | .int sg _ => res (laneInt sg op (lwImm w) (lwSat w) (x 1) (x 2))
      | .flt f => res (laneFlt f op (lwImm w) md (raw 1).toNat (x 1) (x 2) (x 3))

/-! ## Running the steps (R111) -/

/-- A lane that performs in a step, and the word it reads. -/
def ExvLane.word (l : ExvLane) (st : Nat) : Option Word := if l.done ∨ l.skip > 0 then none else l.words[st]?

/-- Window access of a lane in a step, if its word passes: offset and whether it stores. -/
def ExvLane.access (k : Core) (t : Team) (m : Bool) (fb : Nat) (win : Word) (st : Nat) (l : ExvLane) : Option (Nat × Bool) :=
  match l.word st with
  | none => none
  | some w =>
    let stack := (t.lane l.lane).stack
    if (lwOp w = 0x60 ∨ lwOp w = 0x61) ∧ (laneCheck w stack m fb t.nregs (k.winOk t.block win)).isNone then
      some (win.toNat % 2 ^ 16 * 32 + (winOffset w stack).toNat, decide (lwOp w = 0x61))
    else none

/-- One lane in one step: its progress, its lane state, its flags, and its window store. -/
def exvLane (k : Core) (t : Team) (m : Bool) (fb : Nat) (win : Word) (st : Nat) (l : ExvLane) (x : Lane) :
    ExvLane × Lane × Flags × Option (Nat × Word) :=
  if l.done then (l, x, 0, none)
  else if l.skip > 0 then ({ l with skip := l.skip - 1 }, x, 0, none)
  else
    let w := l.words[st]?.getD 0
    let base := win.toNat % 2 ^ 16 * 32
    match laneCheck w x.stack m fb t.nregs (k.winOk t.block win) with
    | some c => ({ l with done := true, fault := l.fault.or (some (c, st)) }, { x with status := laneFault x.status c st }, 0, none)
    | none =>
      let r := lanePerform w x.stack l.feeds fun o => BitVec.ofNat 32 (k.scratchNat t.block (base + o.toNat) 4)
      ({ l with skip := r.skip, done := r.stop }, { x with stack := r.stack, status := addAfl x.status r.fl }, r.fl,
        r.store.map fun p => (base + p.1.toNat, p.2))

/-- One step of every lane together: every lane reads before any writes, higher lanes write last (R111). -/
def exvStep (k : Core) (t : Team) (m : Bool) (fb : Nat) (r : ExvRun) : Core × Team × ExvRun :=
  let res := r.lanes.map fun l => exvLane k t m fb r.win r.step l (t.lane l.lane)
  let lanes := t.lanes.mapIdx fun L x => match res.find? fun p => decide (p.1.lane = L) with
    | some p => p.2.1
    | none => x
  let fl := res.foldl (fun a p => a ||| p.2.2.1) r.flags
  let k := res.foldl (fun k p => match p.2.2.2 with
    | some (o, x) => k.scratchWrite t.block o (toLeBytes 4 x.toNat)
    | none => k) k
  (k, { t with lanes := lanes }, { r with step := r.step + 1, flags := fl, lanes := res.map (·.1) })

/-- Runs steps until the last one, or until one meets a live copy range (R117); `n` steps are left. -/
def exvRun (m : Bool) (fb : Nat) : Nat → Core → Team → ExvRun → Core × Team × ExvRun × Bool
  | 0, k, t, r => (k, t, r, true)
  | n + 1, k, t, r =>
    if m ∧ r.lanes.any (fun l => match l.access k t m fb r.win r.step with
        | some (o, wr) => k.rangeBusy t.block o 4 wr
        | none => false) then (k, t, r, false)
    else
      let (k, t, r) := exvStep k t m fb r
      exvRun m fb n k t r

/-- The execute-vector instruction that an entry stands stalled in, between two of its steps (R117). -/
def Core.exvOf (k : Core) (q e : Nat) : Option ExvRun := ((k.entry q e).op).bind fun id => k.exvs.find? fun r => decide (r.id = id)

/-- Runs the steps that are left: up to one that a copy range stalls, or to the end, where a stop that came meanwhile takes effect
(R111, R117, R120). -/
def Cx.exvGo (s : State) (cx : Cx) (f : ExvF) (n : Nat) (r : ExvRun) : Out :=
  let (k, t, r, fin) := exvRun f.m f.fb.toNat (n - r.step) cx.k cx.t r
  let k := { k with exvs := k.exvs.filter fun x => decide (x.id ≠ r.id) }
  if !fin then
    let x := { cx.x with op := some r.id, stall := some (s.epoch, reasonOperand) }
    .next (({ s with nextId := s.nextId + 1 } : State).setCore cx.c
      (({ k with exvs := k.exvs ++ [r] }).setEntry cx.q cx.e x |>.setTeam cx.slot t))
  else
    let cx := { cx with k := k, t := { t with fflags := t.fflags ||| r.flags.setWidth 32 }, x := { cx.x with op := none } }
    let fin := fun (_ : Unit) => if cx.t.stops.isEmpty then Host.Outcome.next (cx.next s 8) else
      let s := cx.next s 8
      .next (s.setCore cx.c (s.core cx.c).poll)
    match (r.lanes.filter fun l => l.fault.isSome) with
    | l :: _ =>
      if f.t then .next (cx.trap s 0x09 (BitVec.ofNat 8 ((l.fault.getD (0, 0)).1)) (BitVec.ofNat 16 l.lane) 0 8)
      else fin ()
    | [] => fin ()

/-- The words and feeds that an execute-vector instruction reads at issue. -/
def Cx.exvFresh (s : State) (cx : Cx) (f : ExvF) (n : Nat) (i : Instr) : ExvRun :=
  ⟨s.nextId, i, 0, cx.v.xwin, 0, (cx.part f.c).map fun L =>
    ⟨L, (List.range n).map fun j => (cx.v.lane L).r (f.a.toNat + j), (List.range 16).map fun j => (cx.v.lane L).r (f.fb.toNat + j),
      0, false, none⟩⟩

/-- `exv` and `exvn` (R109 to R117): one that a step has stalled goes on, else a new one issues. -/
def exvOp (f : ExvF) (n : Nat) (i : Instr) (s : State) : Out :=
  match (match s.cur with | .frag c q e => (s.core c).exvOf q e | _ => none) with
  | some r => withFrag s fun cx => cx.exvGo s f n r
  | none =>
    issue s
      (fun cx => cx.predRefs f.c ++ (cx.part f.c).flatMap fun L =>
        (List.range n).map (fun j => RegRef.v L (f.a.toNat + j)) ++
          (List.range 16).filterMap fun j => if f.fb.toNat + j < cx.v.nregs then some (.v L (f.fb.toNat + j)) else none)
      (fun _ => []) fun cx =>
        if f.m && cx.acqBusy then stall s reasonAcquire else cx.exvGo s f n (cx.exvFresh s f n i)

def execExv (f : ExvF) (s : State) : Out := exvOp f 1 (.exv f) s
def execExvn (f : ExvF) (s : State) : Out := exvOp f f.n.toNat (.exvn f) s

/-- `exwin` (R115): takes effect once. -/
def execExwin (f : DB) (s : State) : Out :=
  issue s (fun cx => cx.predRefs f.c) (fun _ => []) fun cx =>
    if (cx.part f.c).isEmpty then .next (cx.next s f.b.len)
    else .next (({ cx with t := { cx.t with xwin := BitVec.ofNat 32 (cx.bval false 0 false .n f.b) } } : Cx).next s f.b.len)

/-- `lsr` waits until every earlier instruction has written its destination (R118). -/
def execLsr (f : DA) (s : State) : Out :=
  issueClosed s 8 (fun cx => !(cx.part f.c).isEmpty) (fun cx => cx.predRefs f.c)
    (fun cx => (cx.part f.c).map fun L => .v L f.d.toNat) fun old cx =>
      .next (cx.write s 8 ((old.part f.c).map fun L => .v L f.d.toNat (cx.v.lane L).status))

/-- `lsc` (R118). -/
def execLsc (f : DB) (s : State) : Out :=
  issueClosed s f.b.len (fun cx => !(cx.part f.c).isEmpty)
    (fun cx => cx.predRefs f.c ++ (cx.part f.c).flatMap fun L => f.b.refs false L false) (fun _ => []) fun old cx =>
    let ls := old.part f.c
    let lanes := cx.t.lanes.mapIdx fun L x =>
      if ls.contains L then { x with status := w1cStatus x.status (BitVec.ofNat 32 (old.bval false L false .n f.b)) } else x
    .next (({ cx with t := { cx.t with lanes := lanes } } : Cx).next s f.b.len)

end Sys2Proof.Machine
end

