-- ==== Sys2Proof/Machine/Issue.lean ====
section
/-! DEFINITION. Which fragment and which stream issue next (R164 to R166), fetching an instruction's bytes and decoding them where they
stand (R50, R62, R67, R68), what a start counts (R412, R365), and the core's trace writes (R417, R418). -/

namespace Sys2Proof.Machine

/-! ## Fetch -/

/-- Owner names of fetches of a quadrant's entry (256 a core), of a stream, and of trace writes. -/
def fetchOwner (c q e : Nat) : Nat := 2 ^ 51 + (4 * c + q) * 64 + e
def streamFetchOwner (c i : Nat) : Nat := 2 ^ 50 + 2 * c + i
def traceOwner (c : Nat) : Nat := 2 ^ 49 + c

/-- What a fetch comes to. -/
inductive Fetched
  | got (s : State) (d : Decoded)
  | wait (s : State)
  | fail (s : State)

/-- A read of code: it waits for other devices and for units that do not run; one that is refused fails the fetch. -/
def State.fetchRead (s : State) (id : Ident) (a n : Nat) (k : State → List Byte → Fetched) : Fetched :=
  let r := s.homeRead id a n
  if r.1.waitsFor id.owner then .wait r.1
  else match r.2 with
    | .inr _ => .fail (r.1.dropAnswers id.owner)
    | .inl bs => k r.1 bs

/-- Fetches the word at an address, and its parcel where BK asks one (R50), and decodes them. `inside` says whether the bytes belong
to the code (R67); no instruction buffer is modelled, each attempt fetches anew. A parcel that cannot be fetched raises the fetch
fault before the word is found illegal (DESIGN CHOICE). -/
def State.fetchWord (s : State) (id : Ident) (a : Nat) (inside : Nat → Nat → Bool) (L : Limits) : Fetched :=
  if !(inside a 8) then .fail s
  else s.fetchRead id a 8 fun s bs =>
    let x : BitVec 64 := BitVec.ofNat 64 (leBytes bs)
    if !(needsParcel x) then .got (s.dropAnswers id.owner) (decodeWord L x 0)
    else if !(inside (a + 8) 4) then .fail (s.dropAnswers id.owner)
    else s.fetchRead id (a + 8) 4 fun s ps => .got (s.dropAnswers id.owner) (decodeWord L x (BitVec.ofNat 32 (leBytes ps)))

/-- A fetch of a section of code (R67): not beyond its end, and from a page that the lease of its range covers. Bytes of the first page
below the section's start count as covered (DEDUCED, assumption 118). -/
def inSection (base len a n : Nat) : Bool := decide (0 < len ∧ base / 2 ^ 16 ≤ a / 2 ^ 16 ∧ a + n ≤ base + len)
def Launch.inCode (l : Launch) (a n : Nat) : Bool := inSection l.code l.codelen a n
def Launch.inStream (l : Launch) (a n : Nat) : Bool := inSection l.stream l.streamlen a n

/-- Where a team's instructions stand, with the limits of its launch (R57, R62); a block's grant limits the accumulators of its
stream alone. -/
def Team.limits (t : Team) (slot : Nat) : Limits := ⟨if slot = agentSlot then .agent else .team, t.nregs, t.n, 4⟩

/-- The next instruction of a fragment; agent code is not bounded by a launch's code. -/
def State.fetchFrag (s : State) (c q e : Nat) (t : Team) : Fetched :=
  let x := (s.core c).entry q e
  let id := { s.identOf c x.team with owner := fetchOwner c q e }
  match (s.core c).lslotOf x.team with
  | some l => s.fetchWord id x.pc.toNat l.launch.inCode (t.limits x.team)
  | none => s.fetchWord id x.pc.toNat (fun _ _ => decide (x.team = agentSlot)) (t.limits x.team)

/-- The next instruction of a stream. -/
def State.fetchStream (s : State) (c i blk : Nat) : Fetched :=
  let k := s.core c
  let q := k.seqs[i]?.getD Seq.empty
  let id := { s.identBlk c blk with owner := streamFetchOwner c i }
  match (k.block? blk).bind fun b => k.lslot? b.lslot with
  | some l => s.fetchWord id q.pc.toNat l.launch.inStream ⟨.stream, l.launch.regs, l.launch.lanes, (k.grant blk).2⟩
  | none => .fail s

/-! ## Eligibility and choice (R164, R165) -/

/-- The fragment may try its next instruction: it runs, is not stopped and does not wait (R128, R164). What only the instruction
itself can tell, its sources and resources, an attempt tells (`State.canStart`). A stopping team still ends an execute-vector
instruction in progress (R120), and one whose accesses to other devices are under way. -/
def Core.eligible (k : Core) (epoch q e : Nat) : Bool :=
  let x := k.entry q e
  let inExv := (k.midway? x).isSome || match x.op with | some id => k.exvs.any fun r => decide (r.id = id) | none => false
  decide (x.st = .running) && !x.frozen &&
  (match k.team? x.team with
    | none => false
    | some t => (t.stops.isEmpty || inExv) && decide (t.mode = TMode.run) && t.saved.isNone &&
      (match x.inner with
        | some l => !l.serial || (match t.serials[l.idx]?.getD none with | some r => decide (x.pc ≠ r.jaddr) | none => true)
        | none => true)) &&
  (match x.bw with | some (_, none) => false | _ => true) &&
  (x.op.isNone || inExv) &&
  (match x.stall with | some (n, _) => decide (n ≠ epoch) | none => true)

/-- The keys of R165 in order, each the lower the earlier. -/
def Core.issueKeys (k : Core) (q e : Nat) : List Nat :=
  let x := k.entry q e
  let t := match k.team? x.team with | some t => (255 - t.prio, t.age) | none => (256, 0)
  [if x.boost.isSome then 0 else 1, x.boost.getD 0, if x.team = agentSlot then 0 else 1, t.1, t.2, e]

def keysBefore : List Nat → List Nat → Bool
  | a :: as, b :: bs => decide (a < b) || (decide (a = b) && keysBefore as bs)
  | _, _ => false

/-- Eligible entries of a quadrant, ascending. -/
def Core.eligibles (k : Core) (epoch q : Nat) : List Nat := (List.range 64).filter (k.eligible epoch q)

/-- Puts an entry before those that the keys put after it. -/
def Core.insertByKeys (k : Core) (q e : Nat) : List Nat → List Nat
  | [] => [e]
  | f :: fs => if keysBefore (k.issueKeys q f) (k.issueKeys q e) then f :: k.insertByKeys q e fs else e :: f :: fs

/-- Entries in the order of the keys (R165). -/
def Core.byKeys (k : Core) (q : Nat) : List Nat → List Nat
  | [] => []
  | e :: es => k.insertByKeys q e (k.byKeys q es)

/-- The fragments of a quadrant that may try, in the order of the keys. -/
def Core.candidates (k : Core) (epoch q : Nat) : List Nat := k.byKeys q (k.eligibles epoch q)

/-- The fragment that tries first (R165). -/
def Core.pick (k : Core) (epoch q : Nat) : Option Nat := (k.candidates epoch q).head?

/-- A stream may try its next instruction (R233, R234, R237). -/
def Seq.eligible (q : Seq) (epoch : Nat) : Bool :=
  q.block.isSome && decide (seqState q.status = 1) && !q.hold && q.stopping.isNone &&
  (match q.bw with | some (_, none) => false | _ => true) && decide (q.stall ≠ some epoch)

/-! ## What a start counts (R166, R365, R412, R415) -/

/-- Whether the fragment goes on with an instruction that has started before. -/
def Core.resumes (k : Core) (q e : Nat) : Bool :=
  let x := k.entry q e
  x.bw.isSome || x.op.isSome || k.tbs.any fun r => decide (r.quad = q ∧ r.entry = e ∧ r.kind = tbKindWait) && r.done.isSome

/-- The instruction has started between two states: it changed something, or waits for a step of its own. -/
def State.starts (s0 s : State) (c q e : Nat) : Bool :=
  let x := (s.core c).entry q e
  !((s0.core c).resumes q e) && (decide (s.epoch ≠ s0.epoch) || decide (x.op ≠ ((s0.core c).entry q e).op))

/-- A started instruction clears its fragment's age and boost, and is counted. -/
def State.countStart (s0 s : State) (c q e : Nat) : State :=
  if !(s0.starts s c q e) then s
  else
    let k0 := s0.core c
    let k := s.core c
    let x := k.entry q e
    let k := if x.st = .free then k else k.setEntry q e { x with age := 0, boost := none }
    let a := k.agent
    let a := if (k0.entry q e).team = agentSlot then { a with pred := a.pred.map fun p => (p.1, p.2 + 1) } else a
    let k : Core := { k with issue := k.issue.modify q (· + 1), agent := a }
    (s.setCore c k).count (s.partOf (c / 32)) 11 1

/-- The other eligible fragments age, and the clock has one eligible fragment more than they are (R166, R421). -/
def Core.ageOthers (k : Core) (q : Nat) (others : List Nat) : Core :=
  let k := others.foldl (fun (k : Core) i =>
    let y := k.entry q i
    if y.st = .running then k.setEntry q i { y with age := y.age + 1 } else k) k
  { k with eligN := k.eligN.set q (others.length + 1) }

/-! ## The datapath (R164, R167) -/

/-- The instruction needs its quadrant's datapath: lane-form arithmetic of majors 0x01 to 0x15 and 0x1F to 0x22, `exv` and `exvn`. -/
def needsDatapath (i : Instr) : Bool := match i with
  | .exv _ => true
  | .exvn _ => true
  | i => match i.fields with
    | some f => !f.w && (decide (0x01 ≤ f.major ∧ f.major ≤ 0x15) || decide (0x1F ≤ f.major ∧ f.major ≤ 0x22))
    | none => false

/-- An execute-vector instruction of another fragment, stalled between two of its steps, holds the quadrant's datapath. -/
def Core.datapathHeld (k : Core) (q e : Nat) : Bool :=
  !k.exvs.isEmpty && (List.range 64).any fun i => decide (i ≠ e) && (k.exvOf q i).isSome

/-! ## One attempt of a fragment and of a stream -/

/-- Changes the next state of an outcome. -/
def mapNext (f : State → State) : Out → Out
  | .next s => .next (f s)
  | .fault r => .fault r
  | .refused r => .refused r

/-- The instruction that a fragment is in the middle of: between the steps of an execute-vector instruction (R120), or with accesses to other
devices under way. -/
def Core.insOf (k : Core) (q e : Nat) : Option Instr := match k.exvOf q e with
  | some r => some r.ins
  | none => (k.midway? (k.entry q e)).bind (·.ins)

/-- An instruction that now waits for other devices is kept, to go on without a fetch. -/
def State.keepIns (c q e : Nat) (i : Instr) (s : State) : State :=
  let k := s.core c
  match k.midway? (k.entry q e) with
  | none => s
  | some m => s.setCore c { k with midways := k.midways.map fun (x : Midway) => if x.id = m.id then { x with ins := some i } else x }

/-- A fragment fetches, decodes and runs its next instruction, or goes on with the one it is in; `run` gives an instruction its meaning. One
that needs a held datapath waits (R167). -/
def State.runFrag (run : Instr → State → Out) (s : State) (c q e : Nat) : Out :=
  let x := (s.core c).entry q e
  match (s.core c).team? x.team with
  | none => .fault .noTeam
  | some t =>
    let s : State := { s with cur := .frag c q e }
    match (s.core c).insOf q e with
    | some i => run i s
    | none =>
    match s.fetchFrag c q e t with
    | .wait s' => remoteGate s s' (fetchOwner c q e) (stall s 2) fun s => .next s.bump
    | .fail s' => run (.fetchFault x.pc.toNat) s'
    | .got s' (.illegal d) => run (.illegalInstruction d) s'
    | .got s' (.ok i) =>
      if (s'.core c).datapathHeld q e && needsDatapath i then stall s 3
      else mapNext (fun s'' => (s'.countStart s'' c q e).keepIns c q e i) (run i s')

/-- A stream fetches, decodes and runs its next instruction. -/
def State.runStream (run : Instr → State → Out) (s : State) (c i blk : Nat) : Out :=
  let pc := ((s.core c).seqs[i]?.getD Seq.empty).pc
  let s : State := { s with cur := .stream c i }
  match s.fetchStream c i blk with
  | .wait s' => remoteGate s s' (streamFetchOwner c i) (stall s 2) fun s => .next s.bump
  | .fail s' => run (.fetchFault pc.toNat) s'
  | .got s' (.illegal d) => run (.illegalInstruction d) s'
  | .got s' (.ok ins) => run ins s'

/-! ## Turns of a core -/

/-- An entry whose results have come while its window is over (R60). -/
def Core.lateEntry (k : Core) (q : Nat) : Option Nat :=
  (List.range 64).find? fun e =>
    let x := k.entry q e
    decide (x.st ≠ .free) && x.pend.any fun p => decide (p.left = 0) && p.ready

/-- An entry whose age asks a boost (R166). -/
def Core.boostEntry (k : Core) (q : Nat) : Option Nat :=
  (List.range 64).find? fun e =>
    let x := k.entry q e
    decide (x.st = .running) && x.boost.isNone && decide (x.age ≥ 256)

/-- The fragment started an instruction between two states: the quadrant's count of starts rose. -/
def State.started (s0 s : State) (c q : Nat) : Bool := decide ((s.core c).issue[q]? ≠ (s0.core c).issue[q]?)

/-- The fragment is eligible (R164): an attempt would start its next instruction. -/
def State.canStart (run : Instr → State → Out) (s : State) (c q e : Nat) : Bool :=
  match s.runFrag run c q e with
  | .next s' => s.started s' c q
  | _ => false

/-- Fragments try in the order of the keys until one's instruction does something: one whose sources or resources are missing
stalls and the next tries. Where an instruction starts, the other eligible fragments age. -/
def State.tryFrags (run : Instr → State → Out) (c q : Nat) : List Nat → State → Out
  | [], s => .next s
  | e :: es, s =>
    match s.runFrag run c q e with
    | .next s' =>
      if s'.epoch = s.epoch then s'.tryFrags run c q es
      else if s.started s' c q then .next (s'.setCore c ((s'.core c).ageOthers q (es.filter (s.canStart run c q))))
      else .next s'
    | o => o

/-- One turn of a quadrant: a late write, a boost, or the start of an instruction. -/
def State.quadTurn (run : Instr → State → Out) (s : State) (c q : Nat) : Option Out :=
  let k := s.core c
  if k.slots.all (·.isNone) then none
  else
    match k.lateEntry q with
    | some e => some (run (.longLatencyWrite c q e) s)
    | none => match k.boostEntry q with
      | some e => some (run (.fragmentBoost c q e) s)
      | none => match k.candidates s.epoch q with
        | [] => none
        | es => some (s.tryFrags run c q es)

/-- One turn of a sequencer context. -/
def State.streamTurn (run : Instr → State → Out) (s : State) (c i : Nat) : Option Out :=
  match (s.core c).seqs[i]? with
  | none => none
  | some q => if q.eligible s.epoch then q.block.map fun b => s.runStream run c i b else none

/-! ## Trace writes (R417) -/

/-- Words written one after another from an offset of the trace buffer, which wraps at its length. -/
def State.traceWords (s : State) (id : Ident) (base len : Nat) : Nat → List DWord → State
  | _, [] => s
  | off, w :: ws => ((s.homeWrite id (base + off % len) (toLeBytes 8 w.toNat)).1).traceWords id base len (off + 8) ws

/-- The core writes the oldest packet that waits. The buffer is reached in the address space of HASID; a refused write is dropped. -/
def State.flushTrace (s : State) (c : Nat) : Option Out :=
  let k := s.core c
  match k.trq with
  | [] => none
  | p :: rest =>
    let n := 8 * p.length
    let (base, len, ptr) := (k.trcbase.toNat, k.trclen.toNat, k.trcptr.toNat)
    let wrap := k.trcctl.getLsbD 62
    let lost := fun (ptr : Nat) (more : Nat) => fun (s : State) =>
      let k := s.core c
      Host.Outcome.next (s.setCore c { k with trq := [], trclost := more, trcptr := BitVec.ofNat 64 ptr, trcctl := k.trcctl &&& 0x7FFFFFFFFFFFFFFF })
    match s.corePart c with
    | none => some (.next (s.setCore c { k with trq := rest }))
    | some part =>
      let id := s.queueIdent part (traceOwner c)
      let write := fun (off : Nat) (ws : List DWord) (fin : State → Out) =>
        let s' := s.traceWords id base len off ws
        if s'.waitsFor (traceOwner c) ∧ s'.rbuf.length = s.rbuf.length then none
        else some (remoteGate s s' (traceOwner c) (.refused .eventNotDue) fin)
      if len < 8 then some (lost ptr (k.trclost + k.trq.length) s)
      else if wrap ∨ ptr + n ≤ len then
        write ptr p fun s =>
          let k := s.core c
          let ptr' := if wrap then (ptr + n) % len else ptr + n
          .next (s.setCore c { k with trq := rest, trcptr := BitVec.ofNat 64 ptr' })
      else if ptr + 8 ≤ len then
        write (len - 8) [BitVec.ofNat 64 (8 + ((p.headD 0).toNat % 65536 / 16) * 16 + 65536 * ((k.trclost + k.trq.length) % 2 ^ 48))] (lost len 0)
      else some (lost ptr (k.trclost + k.trq.length) s)

end Sys2Proof.Machine
end

