-- ==== Sys2Proof/Machine/Clock.lean ====
section
/-! DEFINITION. A clock: the cycle counts, the eligibility histogram and the stall reasons (R412, R421, R437). -/

namespace Sys2Proof.Machine

/-- The bucket of a number of eligible fragments (R421). -/
def eligBucket (n : Nat) : Nat := if n < 4 then n else if n < 8 then 4 else if n < 16 then 5 else if n < 32 then 6 else 7

/-- The oldest team resident on a quadrant, by slot (R165 key 5); the agent slot is never charged. -/
def Core.oldest (k : Core) (q : Nat) : Option (Nat × Team) :=
  ((List.range 32).filterMap fun i => (k.team? i).bind fun t => if t.quad = q then some (i, t) else none).foldl
    (fun (b : Option (Nat × Team)) x => match b with
      | none => some x
      | some y => if x.2.age < y.2.age then some x else some y) none

/-- Why a team's lowest fragment in STATE 1 does not issue (R421). -/
def Core.entryReason (k : Core) (x : Entry) : Nat :=
  match x.bw, x.op, x.stall with
  | some (_, none), _, _ => 4
  | _, some id, _ => if k.tbs.any fun r => decide (r.id = id) then 4 else if k.exvs.any fun r => decide (r.id = id) then 1 else 2
  | _, none, some (_, r) => r
  | _, none, none => if x.inner.isSome && x.pend.any (fun p => !p.ready) then 1 else 3

/-- The stall reason of a quadrant without eligible fragments (R421). -/
def Core.stallReason (k : Core) (q : Nat) : Nat :=
  match k.oldest q with
  | none => 0
  | some (i, t) =>
    if !t.stops.isEmpty ∨ t.saved.isSome then 9
    else match t.mode with
      | .halted _ _ => 9
      | .held => 9
      | .regrp => 4
      | .waiting => 4
      | _ =>
        match (List.range 64).find? fun e => let x := k.entry q e; decide (x.st = .running ∧ x.team = i) && !x.frozen with
        | none => 7
        | some e => k.entryReason (k.entry q e)

/-- One quadrant's clock: its bucket, and its stall reason in bucket 0; counts the quadrants without eligible fragments. -/
def Core.quadClock (x : Core × Nat) (q : Nat) : Core × Nat :=
  let k := x.1
  let n := k.eligN[q]?.getD 0
  let k' : Core := { k with elig := k.elig.modify (8 * q + eligBucket n) (· + 1) }
  if n = 0 then ({ k' with stallc := k.stallc.modify (10 * q + k.stallReason q) (· + 1) }, x.2 + 1) else (k', x.2)

/-- One core's clock. -/
def Core.tick (k : Core) : Core × Nat :=
  let r := (List.range 4).foldl Core.quadClock ({ k with cyc := k.cyc + 1 }, 0)
  ({ r.1 with eligN := List.replicate 4 0 }, r.2)

/-- A clock of the device: every core whose own clock it is counts it; none during a thermal stop (R4, R436, R437). -/
def execClock (s : State) : Out :=
  if s.stopped ∨ !s.on then .refused .eventNotDue
  else
    let r := s.cores.mapIdx fun c (k : Core) => if s.coreRuns c then k.tick else (k, 0)
    let idle := fun (i : Nat) => (((r.drop (32 * i)).take 32).map (·.2)).sum
    .next ((List.range 12).foldl (fun s i => s.count (s.partOf i) 12 (idle i)) { s with cores := r.map (·.1), clock := s.clock + 1 })

end Sys2Proof.Machine
end

