-- ==== Sys2Proof/Machine/Regroup.lean ====
section
/-! DEFINITION. Regroup (R157 to R161): arrival at `regrp`, and the decision that fuses the arrived teams or lets them go on. -/

namespace Sys2Proof.Machine

/-- The team's slot with a team number in a block, if it has not retired. -/
def Core.teamNo (k : Core) (blk n : Nat) : Option (Nat × Team) :=
  firstSome (fun i => match k.team? i with
    | some t => if t.num = n ∧ t.mode ≠ .retired then some (i, t) else none
    | none => none) (k.teamsOf blk)

/-- The only live fragment of a team (it arrived with one). -/
def Core.soleEntry (k : Core) (slot : Nat) (t : Team) : Nat := (k.liveOf t.quad slot).headD 0

/-- `regrp` (R157, R158): a fault-check point; then it completes with gpD false, or the team arrives and waits. -/
def execRegrp (f : DAB) (s : State) : Out :=
  issue s (fun cx => cx.onceReads f.c (.g f.a.toNat :: f.b.refs true 0 false)) (fun cx => if cx.takes f.c then [.gp f.d.toNat] else [])
    fun cx =>
      if !(cx.takes f.c) then .next (cx.next s f.b.len)
      else
        -- the team set and the live mask are read as the window has them (R60)
        let set := (cx.v.rg f.a.toNat).setWidth 32
        let live := BitVec.ofNat 32 (cx.bval true 0 false .n f.b)
        cx.closing s fun _ cx =>
          cx.waitPoint s .team (
            -- a completion-status write to a register of the team has not arrived
            if !cx.t.busy.isEmpty then stall s reasonEngine
            else if cx.x.mask ≠ cx.k.allLanes cx.slot cx.t ∨ cx.x.inner.isSome ∨ !(set.getLsbD cx.t.num) then
              .next (cx.write s f.b.len [.gp f.d.toNat false])
            else
              let t := { cx.t with mode := .regrp, arrival := some ⟨cx.x.pc, f.b.len, set, live, f.d.toNat⟩ }
              .next (s.setCore cx.c (({ cx with t := t } : Cx).core)).bump)

/-- A lane as it stands after a fusion: it keeps every register where it stayed in place, else its live groups (R159). -/
def movedLane (l : Lane) (stays : Bool) (live : Word) : Lane :=
  if stays then l else { l with v := l.v.mapIdx fun r x => if live.getLsbD (r / 8) then x else 0 }

/-- A lane that holds nothing. -/
def blankLane (nregs : Nat) : Lane := ⟨List.replicate nregs 0, 0, [], 0, 0, 0, 0⟩

/-- One member of a deciding group. -/
structure GroupMember where
  slot : Nat
  team : Team
  arr : Arrival

/-- The arrived teams of a team's set, ascending, when every team of the set has arrived or counts as done. -/
def Core.group (k : Core) (t : Team) (a : Arrival) : Option (List GroupMember) :=
  let ts := ((List.range 32).filter fun i => a.set.getLsbD i).filterMap (k.teamNo t.block)
  if ts.all fun x => decide (x.2.mode = .regrp) then
    some (ts.filterMap fun x => x.2.arrival.map fun a => ⟨x.1, x.2, a⟩)
  else none

/-- A member resumes after `regrp` with gpD. -/
def Core.resumeRegrp (k : Core) (m : GroupMember) (t : Team) (mask : Mask) (fused : Bool) : Core :=
  let e := k.soleEntry m.slot m.team
  let x := k.entry t.quad e
  let t := ({ t with mode := .run, arrival := none } : Team).put [.gp m.arr.gpd fused]
  ((k.noteMasks m.slot e x.mask mask).setEntry t.quad e
    { x with mask := mask, pc := m.arr.pc + BitVec.ofNat 56 m.arr.len, stall := none, op := none, snap := none, bw := none }).setTeam m.slot t

/-- A lane has not moved: its team is a survivor, and it takes the lane id it had (R159). -/
def GroupMember.stays (m : GroupMember) (j : Nat) : Option (GroupMember × Nat) → Bool
  | some (o, L) => decide (o.slot = m.slot ∧ L = j)
  | none => false

/-- The statuses a survivor's threads have still to join: those of its team-wide registers, and of the lanes that have not moved. -/
def joinsKept (js : List Join) (stays : Nat → Bool) : List Join :=
  (js.map fun (j : Join) => { j with regs := j.regs.filter fun r => match r with
    | .v L _ => stays L
    | .p L _ => stays L
    | _ => true }).filter fun j => !j.regs.isEmpty

/-- Fusion of the group (R159, R160). A status of a session that no thread has read yet is an ordinary value in a lane that
moves: its join is gone. Fragments saved at a lower trap level of a survivor keep their masks, which name its new lanes (DESIGN
CHOICE, both). -/
def Core.fuseTeams (k : Core) (g : List GroupMember) : Core :=
  let n := match g with
    | [] => 1
    | m :: _ => m.team.n
  let lanes : List (GroupMember × Nat) := g.flatMap fun m =>
    ((List.range m.team.n).filter fun L => (k.allLanes m.slot m.team).getLsbD L).map fun L => (m, L)
  let cnt := (lanes.length + n - 1) / n
  let survivors := g.take cnt
  let gone := g.drop cnt
  let ff := gone.foldl (fun w m => w ||| m.team.fflags) 0
  let k := survivors.foldl (fun (st : Core × Nat) m =>
    let part := (lanes.drop (st.2 * n)).take n
    let ls := (List.range m.team.n).map fun j => match part[j]? with
      | some (o, L) => movedLane (o.team.lane L) (m.stays j (some (o, L))) o.arr.live
      | none => blankLane m.team.nregs
    let t := { m.team with
      lanes := ls, fflags := if st.2 = 0 then m.team.fflags ||| ff else m.team.fflags
      regionPc := m.arr.pc + BitVec.ofNat 56 m.arr.len, regionMask := m.arr.live
      joins := joinsKept m.team.joins fun j => m.stays j part[j]? }
    (st.1.resumeRegrp m t (maskOf (List.range part.length)) true, st.2 + 1)) (k, 0) |>.1
  gone.foldl (fun k m =>
    let e := k.soleEntry m.slot m.team
    let k := (k.noteMasks m.slot e (k.entry m.team.quad e).mask 0).dropLanes m.slot (k.allLanes m.slot m.team)
    k.retireIfEmpty m.slot e) k

/-- The decision about a waiting team's group (R158): fusion when every member arrived at the same PC naming the same set. -/
def execRegroupDecision (core slot : Nat) (s : State) : Out :=
  let k := s.core core
  match k.team? slot with
  | none => .refused .eventNotDue
  | some t =>
    match t.mode, t.arrival with
    | .regrp, some a =>
      match k.group t a with
      | none => .refused .eventNotDue
      | some g =>
        let same := g.all fun m => decide (m.arr.pc = a.pc ∧ m.arr.set = a.set)
        let k :=
          if same then k.fuseTeams g
          else g.foldl (fun k m => k.resumeRegrp m m.team (k.entry m.team.quad (k.soleEntry m.slot m.team)).mask false) k
        .next (s.setCore core k.poll).bump
    | _, _ => .refused .eventNotDue

end Sys2Proof.Machine
end

