-- ==== Sys2Proof/Machine/Dispatch.lean ====
section
/-! DEFINITION. One arm per instruction and per step of the device: each calls its own meaning. -/

namespace Sys2Proof.Machine

def exec (i : Instr) (s : State) : Host.Outcome State Fault Refusal :=
  match i with
  | .add f => Sys2Proof.Machine.execAdd f s
  | .sub f => Sys2Proof.Machine.execSub f s
  | .addc f => Sys2Proof.Machine.execAddc f s
  | .subb f => Sys2Proof.Machine.execSubb f s
  | .adda f => Sys2Proof.Machine.execAdda f s
  | .mul f => Sys2Proof.Machine.execMul f s
  | .mulh f => Sys2Proof.Machine.execMulh f s
  | .mad f => Sys2Proof.Machine.execMad f s
  | .div f => Sys2Proof.Machine.execDiv f s
  | .rem f => Sys2Proof.Machine.execRem f s
  | .min f => Sys2Proof.Machine.execMin f s
  | .max f => Sys2Proof.Machine.execMax f s
  | .abs f => Sys2Proof.Machine.execAbs f s
  | .neg f => Sys2Proof.Machine.execNeg f s
  | .and f => Sys2Proof.Machine.execAnd f s
  | .or f => Sys2Proof.Machine.execOr f s
  | .xor f => Sys2Proof.Machine.execXor f s
  | .andn f => Sys2Proof.Machine.execAndn f s
  | .not f => Sys2Proof.Machine.execNot f s
  | .shl f => Sys2Proof.Machine.execShl f s
  | .shr f => Sys2Proof.Machine.execShr f s
  | .sar f => Sys2Proof.Machine.execSar f s
  | .rol f => Sys2Proof.Machine.execRol f s
  | .ror f => Sys2Proof.Machine.execRor f s
  | .bfe f => Sys2Proof.Machine.execBfe f s
  | .bfi f => Sys2Proof.Machine.execBfi f s
  | .popc f => Sys2Proof.Machine.execPopc f s
  | .clz f => Sys2Proof.Machine.execClz f s
  | .ctz f => Sys2Proof.Machine.execCtz f s
  | .brev f => Sys2Proof.Machine.execBrev f s
  | .pairAdd f => Sys2Proof.Machine.execPairAdd f s
  | .pairSub f => Sys2Proof.Machine.execPairSub f s
  | .pairMul f => Sys2Proof.Machine.execPairMul f s
  | .pairMin f => Sys2Proof.Machine.execPairMin f s
  | .pairMax f => Sys2Proof.Machine.execPairMax f s
  | .pairShl f => Sys2Proof.Machine.execPairShl f s
  | .pairShr f => Sys2Proof.Machine.execPairShr f s
  | .pairSar f => Sys2Proof.Machine.execPairSar f s
  | .pairAnd f => Sys2Proof.Machine.execPairAnd f s
  | .pairOr f => Sys2Proof.Machine.execPairOr f s
  | .pairXor f => Sys2Proof.Machine.execPairXor f s
  | .floatAdd f => Sys2Proof.Machine.execFloatAdd f s
  | .floatSub f => Sys2Proof.Machine.execFloatSub f s
  | .floatMul f => Sys2Proof.Machine.execFloatMul f s
  | .fma f => Sys2Proof.Machine.execFma f s
  | .fms f => Sys2Proof.Machine.execFms f s
  | .fnma f => Sys2Proof.Machine.execFnma f s
  | .floatMin f => Sys2Proof.Machine.execFloatMin f s
  | .floatMax f => Sys2Proof.Machine.execFloatMax f s
  | .floatDiv f => Sys2Proof.Machine.execFloatDiv f s
  | .rcp f => Sys2Proof.Machine.execRcp f s
  | .sqrt f => Sys2Proof.Machine.execSqrt f s
  | .exp2 f => Sys2Proof.Machine.execExp2 f s
  | .log2 f => Sys2Proof.Machine.execLog2 f s
  | .sin f => Sys2Proof.Machine.execSin f s
  | .cos f => Sys2Proof.Machine.execCos f s
  | .tanh f => Sys2Proof.Machine.execTanh f s
  | .sig f => Sys2Proof.Machine.execSig f s
  | .gelu f => Sys2Proof.Machine.execGelu f s
  | .add2 f => Sys2Proof.Machine.execAdd2 f s
  | .sub2 f => Sys2Proof.Machine.execSub2 f s
  | .mul2 f => Sys2Proof.Machine.execMul2 f s
  | .fma2 f => Sys2Proof.Machine.execFma2 f s
  | .min2 f => Sys2Proof.Machine.execMin2 f s
  | .max2 f => Sys2Proof.Machine.execMax2 f s
  | .cvt f => Sys2Proof.Machine.execCvt f s
  | .cmp f => Sys2Proof.Machine.execCmp f s
  | .mov f => Sys2Proof.Machine.execMov f s
  | .sel f => Sys2Proof.Machine.execSel f s
  | .movd f => Sys2Proof.Machine.execMovd f s
  | .seld f => Sys2Proof.Machine.execSeld f s
  | .pand f => Sys2Proof.Machine.execPand f s
  | .por f => Sys2Proof.Machine.execPor f s
  | .pxor f => Sys2Proof.Machine.execPxor f s
  | .pandn f => Sys2Proof.Machine.execPandn f s
  | .pmov f => Sys2Proof.Machine.execPmov f s
  | .ptst f => Sys2Proof.Machine.execPtst f s
  | .pget f => Sys2Proof.Machine.execPget f s
  | .spush f => Sys2Proof.Machine.execSpush f s
  | .spop f => Sys2Proof.Machine.execSpop f s
  | .speek f => Sys2Proof.Machine.execSpeek f s
  | .sdep f => Sys2Proof.Machine.execSdep f s
  | .sclr f => Sys2Proof.Machine.execSclr f s
  | .sval f => Sys2Proof.Machine.execSval f s
  | .exv f => Sys2Proof.Machine.execExv f s
  | .exvn f => Sys2Proof.Machine.execExvn f s
  | .exwin f => Sys2Proof.Machine.execExwin f s
  | .lsr f => Sys2Proof.Machine.execLsr f s
  | .lsc f => Sys2Proof.Machine.execLsc f s
  | .bra f => Sys2Proof.Machine.execBra f s
  | .brany f => Sys2Proof.Machine.execBrany f s
  | .brall f => Sys2Proof.Machine.execBrall f s
  | .brd f => Sys2Proof.Machine.execBrd f s
  | .jmp f => Sys2Proof.Machine.execJmp f s
  | .call f => Sys2Proof.Machine.execCall f s
  | .ret f => Sys2Proof.Machine.execRet f s
  | .loop f => Sys2Proof.Machine.execLoop f s
  | .streamLoop f => Sys2Proof.Machine.execStreamLoop f s
  | .exit c => Sys2Proof.Machine.execExit c s
  | .streamExit c => Sys2Proof.Machine.execStreamExit c s
  | .agentExit c => Sys2Proof.Machine.execAgentExit c s
  | .trap f => Sys2Proof.Machine.execTrap f s
  | .streamTrap f => Sys2Proof.Machine.execStreamTrap f s
  | .tret c => Sys2Proof.Machine.execTret c s
  | .rgn f => Sys2Proof.Machine.execRgn f s
  | .fchk c => Sys2Proof.Machine.execFchk c s
  | .waitla c => Sys2Proof.Machine.execWaitla c s
  | .gtov f => Sys2Proof.Machine.execGtov f s
  | .vtog f => Sys2Proof.Machine.execVtog f s
  | .pbc f => Sys2Proof.Machine.execPbc f s
  | .ffr f => Sys2Proof.Machine.execFfr f s
  | .ffc f => Sys2Proof.Machine.execFfc f s
  | .vany f => Sys2Proof.Machine.execVany f s
  | .vall f => Sys2Proof.Machine.execVall f s
  | .vcnt f => Sys2Proof.Machine.execVcnt f s
  | .ballot f => Sys2Proof.Machine.execBallot f s
  | .vfirst f => Sys2Proof.Machine.execVfirst f s
  | .vuni f => Sys2Proof.Machine.execVuni f s
  | .vrank f => Sys2Proof.Machine.execVrank f s
  | .shfi f => Sys2Proof.Machine.execShfi f s
  | .shfx f => Sys2Proof.Machine.execShfx f s
  | .shfu f => Sys2Proof.Machine.execShfu f s
  | .shfd f => Sys2Proof.Machine.execShfd f s
  | .red f => Sys2Proof.Machine.execRed f s
  | .scan f => Sys2Proof.Machine.execScan f s
  | .rstat f => Sys2Proof.Machine.execRstat f s
  | .regrp f => Sys2Proof.Machine.execRegrp f s
  | .regroupDecision core slot => Sys2Proof.Machine.execRegroupDecision core slot s
  | .ld f => Sys2Proof.Machine.execLd f s
  | .st f => Sys2Proof.Machine.execSt f s
  | .lds f => Sys2Proof.Machine.execLds f s
  | .sts f => Sys2Proof.Machine.execSts f s
  | .lda f => Sys2Proof.Machine.execLda f s
  | .stl f => Sys2Proof.Machine.execStl f s
  | .fence f => Sys2Proof.Machine.execFence f s
  | .pf f => Sys2Proof.Machine.execPf f s
  | .atom f => Sys2Proof.Machine.execAtom f s
  | .mcst f => Sys2Proof.Machine.execMcst f s
  | .mred f => Sys2Proof.Machine.execMred f s
  | .stmap f => Sys2Proof.Machine.execStmap f s
  | .stunmap f => Sys2Proof.Machine.execStunmap f s
  | .stflush f => Sys2Proof.Machine.execStflush f s
  | .mset f => Sys2Proof.Machine.execMset f s
  | .mget f => Sys2Proof.Machine.execMget f s
  | .cpl f => Sys2Proof.Machine.execCpl f s
  | .cp f => Sys2Proof.Machine.execCp f s
  | .cp2d f => Sys2Proof.Machine.execCp2d f s
  | .cpz f => Sys2Proof.Machine.execCpz f s
  | .cpx f => Sys2Proof.Machine.execCpx f s
  | .binit f => Sys2Proof.Machine.execBinit f s
  | .barr f => Sys2Proof.Machine.execBarr f s
  | .bwait f => Sys2Proof.Machine.execBwait f s
  | .streamBinit f => Sys2Proof.Machine.execStreamBinit f s
  | .streamBarr f => Sys2Proof.Machine.execStreamBarr f s
  | .streamBwait f => Sys2Proof.Machine.execStreamBwait f s
  | .tbinit f => Sys2Proof.Machine.execTbinit f s
  | .tbarr f => Sys2Proof.Machine.execTbarr f s
  | .tbwait f => Sys2Proof.Machine.execTbwait f s
  | .tbwaitAnswer core idx => Sys2Proof.Machine.execTbwaitAnswer core idx s
  | .scat f => Sys2Proof.Machine.execScat f s
  | .gath f => Sys2Proof.Machine.execGath f s
  | .xsect f => Sys2Proof.Machine.execXsect f s
  | .mstart f => Sys2Proof.Machine.execMstart f s
  | .mstq f => Sys2Proof.Machine.execMstq f s
  | .mmul f => Sys2Proof.Machine.execMmul f s
  | .mzero f => Sys2Proof.Machine.execMzero f s
  | .mld f => Sys2Proof.Machine.execMld f s
  | .mout f => Sys2Proof.Machine.execMout f s
  | .mstat f => Sys2Proof.Machine.execMstat f s
  | .maudit f => Sys2Proof.Machine.execMaudit f s
  | .xadd f => Sys2Proof.Machine.execXadd f s
  | .cset f => Sys2Proof.Machine.execCset f s
  | .matrixOperationComplete core ctx => Sys2Proof.Machine.execMatrixOperationComplete core ctx s
  | .pinReservationGrant slice => Sys2Proof.Machine.execPinReservationGrant slice s
  | .coldStartGrant cluster => Sys2Proof.Machine.execColdStartGrant cluster s
  | .dqpush f => Sys2Proof.Machine.execDqpush f s
  | .dqpop f => Sys2Proof.Machine.execDqpop f s
  | .dqsteal f => Sys2Proof.Machine.execDqsteal f s
  | .dequeStep header => Sys2Proof.Machine.execDequeStep header s
  | .mgopen f => Sys2Proof.Machine.execMgopen f s
  | .mgput f => Sys2Proof.Machine.execMgput f s
  | .morainePutArrival core => Sys2Proof.Machine.execMorainePutArrival core s
  | .mgclose f => Sys2Proof.Machine.execMgclose f s
  | .mgcloseAbort f => Sys2Proof.Machine.execMgcloseAbort f s
  | .mgdrain f => Sys2Proof.Machine.execMgdrain f s
  | .mgadd f => Sys2Proof.Machine.execMgadd f s
  | .mgst f => Sys2Proof.Machine.execMgst f s
  | .walkChase f => Sys2Proof.Machine.execWalkChase f s
  | .walkRnd f => Sys2Proof.Machine.execWalkRnd f s
  | .walkSeek f => Sys2Proof.Machine.execWalkSeek f s
  | .walkHop core idx => Sys2Proof.Machine.execWalkHop core idx s
  | .lnch f => Sys2Proof.Machine.execLnch f s
  | .ctxsv f => Sys2Proof.Machine.execCtxsv f s
  | .ctxld f => Sys2Proof.Machine.execCtxld f s
  | .halt f => Sys2Proof.Machine.execHalt f s
  | .resm f => Sys2Proof.Machine.execResm f s
  | .broadcastAcknowledged core block => Sys2Proof.Machine.execBroadcastAcknowledged core block s
  | .logrd f => Sys2Proof.Machine.execLogrd f s
  | .logre f => Sys2Proof.Machine.execLogre f s
  | .logdr f => Sys2Proof.Machine.execLogdr f s
  | .brk f => Sys2Proof.Machine.execBrk f s
  | .wtch f => Sys2Proof.Machine.execWtch f s
  | .tmark f => Sys2Proof.Machine.execTmark f s
  | .pmrd f => Sys2Proof.Machine.execPmrd f s
  | .place f => Sys2Proof.Machine.execPlace f s
  | .bkill f => Sys2Proof.Machine.execBkill f s
  | .mrd f => Sys2Proof.Machine.execMrd f s
  | .mwr f => Sys2Proof.Machine.execMwr f s
  | .anote f => Sys2Proof.Machine.execAnote f s
  | .await f => Sys2Proof.Machine.execAwait f s
  | .awaitTimeout core => Sys2Proof.Machine.execAwaitTimeout core s
  | .illegalInstruction detail => Sys2Proof.Machine.execIllegalInstruction detail s
  | .fetchFault va => Sys2Proof.Machine.execFetchFault va s
  | .longLatencyWrite core quad entry => Sys2Proof.Machine.execLongLatencyWrite core quad entry s
  | .fragmentBoost core quad entry => Sys2Proof.Machine.execFragmentBoost core quad entry s
  | .loadResponse core idx sector => Sys2Proof.Machine.execLoadResponse core idx sector s
  | .storeSectorAccept core idx => Sys2Proof.Machine.execStoreSectorAccept core idx s
  | .atomicRequest core idx => Sys2Proof.Machine.execAtomicRequest core idx s
  | .transactionBarrierStep core idx => Sys2Proof.Machine.execTransactionBarrierStep core idx s
  | .l2MissTranslation slice idx => Sys2Proof.Machine.execL2MissTranslation slice idx s
  | .l2Fill slice idx => Sys2Proof.Machine.execL2Fill slice idx s
  | .deferredFault core => Sys2Proof.Machine.execDeferredFault core s
  | .sessionEnd core idx => Sys2Proof.Machine.execSessionEnd core idx s
  | .sessionCancelTimeout core block => Sys2Proof.Machine.execSessionCancelTimeout core block s
  | .drainEnd slice idx => Sys2Proof.Machine.execDrainEnd slice idx s
  | .leaseRequest slice cmd => Sys2Proof.Machine.execLeaseRequest slice cmd s
  | .invalComplete stack => Sys2Proof.Machine.execInvalComplete stack s
  | .staleRepresent core idx => Sys2Proof.Machine.execStaleRepresent core idx s
  | .agentScan core => Sys2Proof.Machine.execAgentScan core s
  | .launchCommand cmd core => Sys2Proof.Machine.execLaunchCommand cmd core s
  | .leaseGranted cmd => Sys2Proof.Machine.execLeaseGranted cmd s
  | .blockPlacement core cmd => Sys2Proof.Machine.execBlockPlacement core cmd s
  | .bulkCopyCommand cmd => Sys2Proof.Machine.execBulkCopyCommand cmd s
  | .waitCommand cmd => Sys2Proof.Machine.execWaitCommand cmd s
  | .signalCommand cmd => Sys2Proof.Machine.execSignalCommand cmd s
  | .markerCommand cmd => Sys2Proof.Machine.execMarkerCommand cmd s
  | .blockRetire core block => Sys2Proof.Machine.execBlockRetire core block s
  | .commandEnd core block => Sys2Proof.Machine.execCommandEnd core block s
  | .preemptStop part e => Sys2Proof.Machine.execPreemptStop part e s
  | .preemptAck part e => Sys2Proof.Machine.execPreemptAck part e s
  | .watchHit core => Sys2Proof.Machine.execWatchHit core s
  | .watchPredicateExit core => Sys2Proof.Machine.execWatchPredicateExit core s
  | .watchPredicateLimit core => Sys2Proof.Machine.execWatchPredicateLimit core s
  | .remoteRequest r => Sys2Proof.Machine.execRemoteRequest r s
  | .residencyAnswer slice idx mapped => Sys2Proof.Machine.execResidencyAnswer slice idx mapped s
  | .inval stack v => Sys2Proof.Machine.execInval stack v s
  | .generationBump part dk id => Sys2Proof.Machine.execGenerationBump part dk id s
  | .doorbell part q => Sys2Proof.Machine.execDoorbell part q s
  | .queueRegister part q v => Sys2Proof.Machine.execQueueRegister part q v s
  | .queueDestroy part q v => Sys2Proof.Machine.execQueueDestroy part q v s
  | .qstop part q v => Sys2Proof.Machine.execQstop part q v s
  | .pentWrite part v => Sys2Proof.Machine.execPentWrite part v s
  | .tentWrite part t v => Sys2Proof.Machine.execTentWrite part t v s
  | .preq part v => Sys2Proof.Machine.execPreq part v s
  | .dcmdRead v => Sys2Proof.Machine.execDcmdRead v s
  | .dcmdWrite v => Sys2Proof.Machine.execDcmdWrite v s
  | .dcmdForcedWrite v => Sys2Proof.Machine.execDcmdForcedWrite v s
  | .sliceDrain slice => Sys2Proof.Machine.execSliceDrain slice s
  | .sliceUndrain slice => Sys2Proof.Machine.execSliceUndrain slice s
  | .scal slice ok => Sys2Proof.Machine.execScal slice ok s
  | .devnumWrite v => Sys2Proof.Machine.execDevnumWrite v s
  | .fwctlGo v ok => Sys2Proof.Machine.execFwctlGo v ok s
  | .attestationRequest nonce addr => Sys2Proof.Machine.execAttestationRequest nonce addr s
  | .thermalResume => Sys2Proof.Machine.execThermalResume s
  | .thermalStop temp => Sys2Proof.Machine.execThermalStop temp s
  | .powerThrottle watts temp => Sys2Proof.Machine.execPowerThrottle watts temp s
  | .ownershipTableWrite e v => Sys2Proof.Machine.execOwnershipTableWrite e v s
  | .flitReceive port flit full => Sys2Proof.Machine.execFlitReceive port flit full s
  | .hostWrite fn va bytes => Sys2Proof.Machine.execHostWrite fn va bytes s
  | .hostRead fn va n => Sys2Proof.Machine.execHostRead fn va n s
  | .registerWrite unit off v => Sys2Proof.Machine.execRegisterWrite unit off v s
  | .trcctlWrite core v => Sys2Proof.Machine.execTrcctlWrite core v s
  | .telbaseWrite part v => Sys2Proof.Machine.execTelbaseWrite part v s
  | .clock => Sys2Proof.Machine.execClock s
  | .powerOn fails => Sys2Proof.Machine.execPowerOn fails s
  | .retrain port ok => Sys2Proof.Machine.execRetrain port ok s
  | .replayResend port => Sys2Proof.Machine.execReplayResend port s
  | .portDown port => Sys2Proof.Machine.execPortDown port s
  | .flitUnacknowledged port => Sys2Proof.Machine.execFlitUnacknowledged port s
  | .sliceDrained slice => Sys2Proof.Machine.execSliceDrained slice s
  | .agentReload core => Sys2Proof.Machine.execAgentReload core s

end Sys2Proof.Machine
end

