-- ==== Sys2Proof/Machine/Load.lean ====
section
/-! DEFINITION. A state in which a given instruction issues next: a stand-in for the queue, launch and placement that bring a program to
a core (R375 to R388); see assumption 36. -/

namespace Sys2Proof.Machine

/-- A launch of one team of 1,024 lanes with 256 registers, its code in the first sector of the address space. -/
def loadLaunch : Launch :=
  { flags := 0, cmpl := 0, ldesc := 0, bufl := 0, w := [], e1 := 1, e2 := 1, e3 := 1, e4 := 1, e5 := 1, acc := 4, entry := 0, code := 0
    codelen := 32, stream := 0, streamlen := 32, kbank := 0, lanes := 1024, regs := 256, scratch := 0, trapent := 0, htab := 0, frames := 0x10000
    fmap := 0, framen := 0, framesz := 0, dump := 0, dumplen := 0, clmask := 0, dbgown := 0, bufs := [] }

/-- What the launch holds on its core. -/
def loadSlot : LSlot :=
  { part := 0, q := 0, idx := 0, asid := 0, sdom := 0, gen := 0, sgen := 0, launch := loadLaunch, kbank := List.replicate 256 0
    htab := List.replicate 16 0 }

/-- Its block, with the core's first sequencer context and all four accumulators. -/
def loadBlock : Block :=
  { lslot := 0, ticket := 0, frame := 0, slots := [0], size := 0, scratch := [], seq := some (0, 0, 4), bcast := none, acked := false
    ending := none, coop := false, live := [], stopping := false, gone := false
    saved := false, dumpAt := none }

/-- A team of 1,024 lanes of which lane 0 has not exited. -/
def loadTeam : Team :=
  { block := 0, num := 0, quad := 0, n := 1024, nregs := 256
    lanes := (List.range 1024).map fun L => ⟨List.replicate 256 0, 0, [], 0, 0, L, 0⟩
    g := List.replicate 64 0, gp := 0, m := List.replicate 8 ModReg.zero, fflags := 0, xwin := 0, regionPc := 0, regionMask := 0
    level := 0, frames := [], saves := [], record := DefRec.clear, log := [], serials := List.replicate 32 none, seq := 0, flying := []
    strict := false, mode := .run, stops := [], arrival := none, busy := [], joins := [], ctxBase := 0x10000, areaDirty := false, age := 0, prio := 0
    saved := none, drains := [] }

/-- One running fragment in the first entry of quadrant 0. -/
def loadEntry (slot : Nat) : Entry := { Entry.empty with st := .running, team := slot, mask := 1 }

/-- A core that holds only this: a team of the launch, an agent task, or a stream. -/
def loadCore (p : Place) : Core :=
  let k := { Core.reset with blocks := Core.reset.blocks.set 0 (some loadBlock), lslots := Core.reset.lslots.set 0 (some loadSlot) }
  match p with
  | .team => (k.setTeam 0 loadTeam).setEntry 0 0 (loadEntry 0)
  | .agent => (k.setTeam agentSlot { loadTeam with block := 99, n := 32, lanes := loadTeam.lanes.take 32 }).setEntry 0 0 (loadEntry agentSlot)
  | .stream => { k with seqs := k.seqs.set 0 { Seq.empty with block := some 0, status := 0x1000 } }

/-- The first place of R62 where the word is legal. -/
def loadPlace (bs : List Byte) : Place :=
  let legal := fun (p : Place) => match decodeBytes (tableLimits p) bs with
    | some (.ok _, _) => true
    | _ => false
  if legal .team then .team else if legal .agent then .agent else if legal .stream then .stream else .team

/-- The L2 line that holds the instruction's bytes at address 0 of ASID 0. -/
def loadLine (bs : List Byte) : Line :=
  { vtag := 0, dk := false, dom := 0, gen := 0, pr := true, pw := false, pin := false, watch := 0, valid := 1, dirty := 0, filler := 0, pa := 0
    data := [BitVec.ofNat 256 (leBytes bs), 0, 0, 0], poison := 0 }

/-- Sets what the very next step needs to fetch and run the word of `nbits` bits: power is on, nothing is asked from outside, partition 0
holds all twelve slices, the word stands in the home slice of address 0, and core 0 holds one fragment (or stream) at PC 0 whose
turn it is. -/
def State.loadWord (s : State) (nbits w : Nat) : State :=
  let bs := toLeBytes 12 (w % 2 ^ nbits)
  let p := loadPlace bs
  let sl := s.slice 0
  let s := s.setSlice 0 { sl with lines := [(0, loadLine bs)], owners := [] }
  let s := s.setPart 0 { s.part 0 with pent := BitVec.ofNat 64 (2 ^ 63 + 12 * 2 ^ 52) }
  let s := s.setCore 0 (loadCore p)
  { s with on := true, agenda := [], stopped := false, cur := .none, turn := (match p with | .stream => 4 | _ => 0), otable := [] }

end Sys2Proof.Machine
end

