-- ==== Sys2Proof/Machine/Turn.lean ====
section
/-! DEFINITION. The order of steps: the host's and the environment's steps first, then each core's quadrants, streams and agent in
turn, then every step of the device that is due, then a clock. The spec leaves this order open; the agenda gives any other. -/

namespace Sys2Proof.Machine

/-! ## Steps that are due -/

/-- The first of a list of the device's steps that is due. -/
def firstDue (run : Instr → State → Out) (s : State) : List Instr → Option Out
  | [] => none
  | i :: is => match run i s with
    | .refused _ => firstDue run s is
    | o => some o

/-- An outcome, if its step is due. -/
def ifDue : Out → Option Out
  | .refused _ => none
  | o => some o

/-- The core's island and its cluster's crossbar have a clock now (R4). -/
def State.coreUp (s : State) (c : Nat) : Bool := s.coreRuns c && s.crossbarRuns (c / 8)

/-- The unit that an engine of a pre-emption stands for runs (R4, R369). -/
def State.engineUp (s : State) (e : Engine) : Bool := match e with
  | .moraine i => s.islandOn (islandMoraine + i)
  | .walkers i => s.islandOn (islandSerac + i)
  | .poolCopy _ => s.islandOn islandPool || s.islandOn (islandPool + 1)
  | .team c _ => s.coreUp c
  | .sequencer c _ => s.coreUp c
  | .copyUnit c => s.coreUp c
  | .block c _ => s.coreUp c

/-- What may be due at a core's requests, stores, steps, sessions and walks. -/
def Core.dueItems (k : Core) (c : Nat) : List Instr :=
  (if k.refused.isEmpty then [] else [.deferredFault c]) ++
  (k.reqs.mapIdx fun i (r : Req) => Instr.staleRepresent c i :: Instr.atomicRequest c i ::
    (List.range r.todo.length).map fun j => Instr.loadResponse c i j).flatten ++
  (k.stores.mapIdx fun i (_ : StoreEnt) => [Instr.staleRepresent c (k.reqs.length + i), Instr.storeSectorAccept c i]).flatten ++
  (k.tbs.mapIdx fun i (_ : TbReq) => [Instr.transactionBarrierStep c i, Instr.tbwaitAnswer c i]).flatten ++
  (k.dqs.map fun (r : DqReq) => Instr.dequeStep r.va) ++
  (if k.puts.isEmpty then [] else [.morainePutArrival c]) ++
  (k.sessions.mapIdx fun i (_ : Session) => Instr.sessionEnd c i) ++
  (k.walks.mapIdx fun i (_ : Walk) => Instr.walkHop c i) ++
  ((List.range 2).filter fun i => match k.seqs[i]? with | some q => !q.flight.isEmpty | none => false).map (Instr.matrixOperationComplete c ·)

/-- What may be due at a core's teams and blocks. -/
def Core.dueTeams (k : Core) (c : Nat) : List Instr :=
  ((List.range 32).filter fun i => match k.team? i with | some t => decide (t.mode = TMode.regrp) | none => false).map (Instr.regroupDecision c ·) ++
  ((List.range 32).filter fun i => (k.block? i).isSome).flatMap fun b =>
    [.broadcastAcknowledged c b, .sessionCancelTimeout c b, .blockRetire c b, .commandEnd c b]

/-- What may be due at a slice. -/
def State.dueSlice (s : State) (i : Nat) : List Instr :=
  let sl := s.slice i
  (if s.islandOn (islandStack + i) then
    (if sl.inval.isEmpty then [] else [.invalComplete i]) ++
    ((List.range sl.misses.length).flatMap fun j => [.l2MissTranslation i j, .l2Fill i j])
  else []) ++
  (if s.islandOn (islandSlice + i) && sl.pins.any fun p => !p.granted then [.pinReservationGrant i] else []) ++
  (if s.islandOn (islandMoraine + i) then (List.range sl.mg.length).map fun j => .drainEnd i j else [])

/-- What may be due for a claimed command. -/
def State.dueCommand (s : State) (part j : Nat) : List Instr :=
  let n := 65536 * part + j
  match s.cmd? n with
  | none => []
  | some m => if !(s.coreUp m.core) then [] else match m.stage with
    | .claimed => [.launchCommand n m.core, .bulkCopyCommand n, .waitCommand n, .signalCommand n, .markerCommand n]
    | .lease _ => ((s.part part).run.map fun i => .leaseRequest i n) ++ [.leaseGranted n]
    | .token => [.leaseGranted n]
    | .other => if s.islandOn islandPool || s.islandOn (islandPool + 1) then [.bulkCopyCommand n] else []
    | .ending _ _ _ _ => [.commandEnd (384 + part) j]
    | .live => []

/-- What may be due at a partition. -/
def State.duePart (s : State) (i : Nat) : List Instr :=
  let p := s.part i
  ((p.stops.filter s.engineUp).map fun e => .preemptStop i e) ++ ((p.pend.filter s.engineUp).map fun e => .preemptAck i e) ++
  (List.range p.cmds.length).flatMap (s.dueCommand i)

/-- A port that gives up, or sends again. -/
def State.dueLink (s : State) (i : Nat) : Option Out :=
  match s.ports[i]? with
  | none => none
  | some p =>
    if p.train.isSome then s.trainDue i
    else if p.up ∧ p.tries ≥ 16 then ifDue (execPortDown i s)
    else if p.resend.isSome then ifDue (execReplayResend i s) else none

/-- A slice that has become drained. -/
def State.dueDrain (s : State) (i : Nat) : Option Out :=
  let sl := s.slice i
  if s.stackUp i && sl.sdrain && !sl.drained then ifDue (execSliceDrained i s) else none

/-- A retraining that ends. -/
def State.dueCal (s : State) (i : Nat) : Option Out :=
  if s.islandOn (islandStack + i) && (s.slice i).calbusy then some (.next (s.calDone i)) else none

/-- The first step of the device that is due; a unit whose island is gated does none (R4). Entries of debug owner records that wait go on
first (R410, R423). -/
def State.due (run : Instr → State → Out) (s : State) : Option Out :=
  (s.flushDebug.map Host.Outcome.next).orElse fun _ =>
  (firstSome (fun i => if s.islandOn (islandPort + i) then s.dueLink i else none) (List.range 24)).orElse fun _ =>
  (firstSome (fun i => ((s.dueDrain i).orElse fun _ => s.dueCal i).orElse fun _ => firstDue run s (s.dueSlice i)) (List.range 12)).orElse fun _ =>
  (firstSome (fun c => if s.coreUp c then let k := s.core c; firstDue run s (k.dueItems c ++ k.dueTeams c) else none)
    (List.range 384)).orElse fun _ =>
  (firstSome (fun cl => if (clusterCores cl).any fun c => ((s.core c).coldWait).isSome then firstDue run s [.coldStartGrant cl] else none)
    (List.range 48)).orElse fun _ =>
  firstSome (fun i => firstDue run s (s.duePart i)) (List.range 12)

/-! ## The agent's turn -/

/-- Launches with something left to place, by descending PRIO: saved frames, a TICKET below B, a TICKET not known, or a ticket that another
device has been asked for (R383, R429). -/
def State.placeable (s : State) (part c : Nat) : List Nat :=
  let open' := fun (m : Cmd) => s.placing c part m.q m.idx || (m.places && (!m.saved.isEmpty ||
    match (s.ticketOf (s.agentIdent part m.asid (placeOwner c part m.q m.idx) (s.agentTag c)) m.cmpl).2 with
    | some t => decide (t < m.launch.blocks)
    | none => true))
  let at' := fun (j : Nat) (f : Cmd → Bool) => match (s.part part).cmds[j]? with
    | some m => f m
    | none => false
  let cmds := (List.range (s.part part).cmds.length).filter fun j => at' j open'
  if cmds.isEmpty then [] else (List.range 256).reverse.flatMap fun p => cmds.filter fun j => at' j fun m => decide (m.prio = p)

/-- A scan is due: a wake, a claim or reads of it that other devices have been asked for, and at least every 4,096 clocks (R383). -/
def State.scanDue (s : State) (c : Nat) : Bool :=
  let k := s.core c
  k.agent.wake || k.agent.rescan || k.agent.claim.isSome || decide (k.cyc.toNat % 4096 = 0) || s.rbuf.any fun b => decide (b.owner = scanOwner c)

/-- What a core's agent does next: its reload, predicate tasks, placing blocks, scanning (R383, R388). -/
def State.agentTurn (run : Instr → State → Out) (s : State) (c : Nat) : Option Out :=
  let k := s.core c
  let a := k.agent
  (if a.dead ∨ (s.fwBusy ∧ s.fwCore = c) then ifDue (execAgentReload c s) else none).orElse fun _ =>
  (firstDue run s ((if a.verdict.isSome then [.watchPredicateExit c] else []) ++ (if a.pred.isSome then [.watchPredicateLimit c] else []) ++
    (if a.await.isSome then [.awaitTimeout c] else []) ++ (if k.hits.isEmpty then [] else [.watchHit c]))).orElse fun _ =>
  match s.corePart c with
  | none => none
  | some part =>
    (firstDue run s ((s.placeable part c).map fun j => Instr.blockPlacement c (65536 * part + j))).orElse fun _ =>
    if s.scanDue c then firstDue run s [.agentScan c] else none

/-- A core's trace writes, its context areas, then its agent. -/
def State.coreTurn (run : Instr → State → Out) (s : State) (c : Nat) : Option Out :=
  (s.flushTrace c).orElse fun _ => ((s.flushArea c).map Host.Outcome.next).orElse fun _ => s.agentTurn run c

/-! ## One step -/

/-- Turns of a core: four quadrants, two sequencer contexts, the rest. -/
def turnsPerCore : Nat := 7
def turns : Nat := 384 * turnsPerCore

/-- What turn u does, if anything: nothing where it is not the core's clock (R4). -/
def State.unit (run : Instr → State → Out) (s : State) (u : Nat) : Option Out :=
  let c := u / turnsPerCore
  let j := u % turnsPerCore
  if !(s.coreRuns c) then none
  else if j < 4 then s.quadTurn run c j
  else if j < 6 then s.streamTurn run c (j - 4)
  else s.coreTurn run c

/-- The next turn after a step. -/
def State.setTurn (u : Nat) (s : State) : State := { s with turn := u }

/-- The device's turn: a step that is due, or a clock. -/
def State.deviceTurn (run : Instr → State → Out) (s : State) : Out :=
  match s.due run with
  | some o => mapNext (State.setTurn turns) o
  | none => mapNext (State.setTurn 0) (run .clock s)

/-- A quadrant keeps its turn of the clock while what it did was no start of an instruction: a late write, a boost, the end of a
waiting instruction (R164). -/
def State.keepsTurn (s0 s : State) (u : Nat) : Bool :=
  let c := u / turnsPerCore
  let j := u % turnsPerCore
  decide (j < 4 ∧ s.epoch ≠ s0.epoch) && !(s0.started s c j)

/-- The first turn from u on that does something. -/
def State.takeTurn (run : Instr → State → Out) (s : State) : Nat → Nat → Out
  | 0, _ => s.deviceTurn run
  | n + 1, u =>
    match (s.unit run u).bind ifDue with
    | none => s.takeTurn run n (u + 1)
    | some o => mapNext (fun s' => s'.setTurn (if s.keepsTurn s' u then u else u + 1)) o

/-- A step that nothing outside asks for; none advances during a thermal stop (R436). -/
def State.ownStep (run : Instr → State → Out) (s : State) : Out :=
  if s.stopped then .next s else s.takeTurn run (turns - s.turn) s.turn

/-- Steps of the management function and the host, which a thermal stop does not hold (R436). -/
def outsideStep : Instr → Bool
  | .doorbell _ _ => true | .queueRegister _ _ _ => true | .queueDestroy _ _ _ => true | .qstop _ _ _ => true
  | .pentWrite _ _ => true | .tentWrite _ _ _ => true | .preq _ _ => true | .inval _ _ => true
  | .dcmdRead _ => true | .dcmdWrite _ => true | .dcmdForcedWrite _ => true | .sliceDrain _ => true | .sliceUndrain _ => true
  | .scal _ _ => true | .devnumWrite _ => true | .fwctlGo _ _ => true | .attestationRequest _ _ => true
  | .thermalResume => true | .thermalStop _ => true | .powerThrottle _ _ => true | .ownershipTableWrite _ _ => true
  | .hostWrite _ _ _ => true | .hostRead _ _ _ => true | .registerWrite _ _ _ => true | .trcctlWrite _ _ => true
  | .telbaseWrite _ _ => true | .powerOn _ => true | .retrain _ _ => true
  | _ => false

/-- Steps of the environment and of the power controller: they are no accesses of the host. -/
def powerStep : Instr → Bool
  | .thermalStop _ => true | .powerThrottle _ _ => true | .powerOn _ => true
  | _ => false

/-- Accesses of the host and writes of its registers keep their order (R426). -/
def hostStep (i : Instr) : Bool := outsideStep i && !(powerStep i)

/-- A generation bump. -/
def isBump : Instr → Bool
  | .generationBump _ _ _ => true
  | _ => false

/-- The core whose step it is. -/
def coreOf : Instr → Option Nat
  | .regroupDecision c _ => some c | .tbwaitAnswer c _ => some c | .matrixOperationComplete c _ => some c | .morainePutArrival c => some c
  | .walkHop c _ => some c | .broadcastAcknowledged c _ => some c | .awaitTimeout c => some c | .longLatencyWrite c _ _ => some c
  | .fragmentBoost c _ _ => some c | .loadResponse c _ _ => some c | .storeSectorAccept c _ => some c | .atomicRequest c _ => some c
  | .transactionBarrierStep c _ => some c | .deferredFault c => some c | .sessionEnd c _ => some c | .sessionCancelTimeout c _ => some c
  | .staleRepresent c _ => some c | .agentScan c => some c | .blockPlacement c _ => some c | .blockRetire c _ => some c
  | .watchHit c => some c | .watchPredicateExit c => some c | .watchPredicateLimit c => some c | .agentReload c => some c
  | _ => none

/-- The unit that takes up a step asked from outside has a clock (R4); the others' steps look for themselves. -/
def State.unitUp (s : State) (i : Instr) : Bool := match i with
  | .drainEnd j _ => s.islandOn (islandMoraine + j)
  | .pinReservationGrant j => s.islandOn (islandSlice + j)
  | .residencyAnswer j _ _ => s.islandOn (islandSlice + j) && s.islandOn (islandStack + j)
  | .invalComplete j => s.islandOn (islandStack + j)
  | .sliceDrained j => s.stackUp j
  | .flitReceive p _ _ => s.islandOn (islandPort + p)
  | .replayResend p => s.islandOn (islandPort + p)
  | .portDown p => s.islandOn (islandPort + p)
  | .flitUnacknowledged p => s.islandOn (islandPort + p)
  | .preemptStop _ e => s.engineUp e
  | .preemptAck _ e => s.engineUp e
  | i => if hostStep i then s.hostUp else match coreOf i with
    | some c => s.coreUp c
    | none => true

/-- Power comes on. -/
def isPowerOn : Instr → Bool
  | .powerOn _ => true
  | _ => false

/-- The agenda after its head could not be done, or waits for another device: the steps of the host wait in their order, behind the others. -/
def putBack (i : Instr) (rest : List Instr) : List Instr :=
  if hostStep i then rest.filter (fun j => !(hostStep j)) ++ i :: rest.filter hostStep else rest ++ [i]

/-- A step of the host or a bump whose requests to other devices have left is not over. -/
def State.askedFor (s : State) (i : Instr) : Out → Out
  | .next s' => .next (if (hostStep i || isBump i) && decide (s'.rbuf.length > s.rbuf.length) then { s' with agenda := putBack i s'.agenda } else s')
  | o => o

/-- One step: start-up before anything else (R431); then the oldest step asked from outside, if it can be done now; else the device's own. -/
def State.stepWith (run : Instr → State → Out) (s : State) : Out :=
  if !s.on then
    match s.agenda with
    | i :: rest => if isPowerOn i then run i { s with agenda := rest } else execPowerOn [] s
    | [] => execPowerOn [] s
  else
    match s.agenda with
    | [] => s.ownStep run
    | i :: rest =>
      let s' : State := { s with agenda := putBack i rest }
      if (s.stopped && !(outsideStep i)) || !(s.unitUp i) then s'.ownStep run
      else match run i { s with agenda := rest, cur := .none } with
        | .refused _ => s'.ownStep run
        | o => s.askedFor i o

end Sys2Proof.Machine
end

