-- ==== Sys2Proof/Machine/Step.lean ====
section
/-! DEFINITION. One step of the device, and a state that runs a given instruction next. -/

namespace Sys2Proof.Machine

/-- One step: what Machine/Turn.lean chooses, with the meanings of Machine/Dispatch.lean. -/
def step (s : State) : Host.Outcome State Fault Refusal := s.stepWith exec

/-- A state whose very next step runs a given instruction: how the fields are set stands in Machine/Load.lean. -/
def State.withFetchWord (s : State) (nbits w : Nat) : State := s.loadWord nbits w

end Sys2Proof.Machine
end

