-- ==== Sys2Proof/Safety.lean ====
section
/-! DEFINITION. The terms claims use: a fragment with nothing in its way, what an instruction leaves alone, the form a state keeps. -/

namespace Sys2Proof.Machine

/-! ## A fragment about to issue -/

/-- Fragment e of quadrant q of core c issues, for team t: the objects exist, no write of the quadrant is pending (R60), no session status
is awaited (R202), no access is logged (R331), and the fragment stands at the start of an instruction. -/
abbrev Quiet (s : State) (c q e : Nat) (t : Team) : Prop :=
  s.cur = .frag c q e ∧ c < s.cores.length ∧ q < (s.core c).quads.length ∧ e < ((s.core c).quad q).length ∧
  (s.core c).team? ((s.core c).entry q e).team = some t ∧ ((s.core c).quad q).all (fun x => x.pend.isEmpty) = true ∧
  t.busy = [] ∧ t.log = [] ∧ t.joins = [] ∧ (s.core c).midway? ((s.core c).entry q e) = none

/-- The same, with a live lane and no join record to reach (R128). -/
abbrev Plain (s : State) (c q e : Nat) (t : Team) : Prop :=
  Quiet s c q e t ∧ ((s.core c).entry q e).inner = none ∧ ((s.core c).entry q e).mask ≠ 0

/-- As `Plain`, whatever the team's operand log holds. -/
abbrev Ready (s : State) (c q e : Nat) (t : Team) : Prop :=
  s.cur = .frag c q e ∧ c < s.cores.length ∧ q < (s.core c).quads.length ∧ e < ((s.core c).quad q).length ∧
  (s.core c).team? ((s.core c).entry q e).team = some t ∧ ((s.core c).quad q).all (fun x => x.pend.isEmpty) = true ∧
  t.busy = [] ∧ t.joins = [] ∧ ((s.core c).entry q e).inner = none ∧ ((s.core c).entry q e).mask ≠ 0 ∧
  (s.core c).midway? ((s.core c).entry q e) = none

/-- The issue context of such a fragment. -/
abbrev Cx.at (s : State) (c q e : Nat) (t : Team) : Cx := ⟨c, q, e, s.core c, (s.core c).entry q e, t, t⟩

/-- The fragment's entry after an instruction of `len` bytes: the PC moves on (R50). -/
abbrev Entry.passed (x : Entry) (len : Nat) : Entry :=
  { x with pc := x.pc + BitVec.ofNat 56 len, pend := [], stall := none, op := none, snap := none, bw := none }

/-- The state in which only the fragment's entry and its team differ: memory, caches, every other team, every special register of the
device stand as before. -/
abbrev State.after (s : State) (c q e : Nat) (x : Entry) (t : Team) : State :=
  (s.setCore c (((s.core c).setEntry q e x).setTeam ((s.core c).entry q e).team t)).bump

/-- What may differ between a team before and after a register instruction: the registers named, and flags that only rise. -/
abbrev Team.Frame (t t' : Team) (ds : List RegRef) : Prop :=
  t' = { t with lanes := t'.lanes, g := t'.g, gp := t'.gp, fflags := t'.fflags } ∧
  (∀ L r, .v L r ∉ ds → (t'.lane L).r r = (t.lane L).r r) ∧
  (∀ L i, .p L i ∉ ds → (t'.lane L).pr i = (t.lane L).pr i) ∧
  (∀ r, .g r ∉ ds → t'.rg r = t.rg r) ∧
  (∀ i, .gp i ∉ ds → t'.pg i = t.pg i) ∧
  (∀ L, (t'.lane L).stack = (t.lane L).stack ∧ (t'.lane L).wid = (t.lane L).wid ∧ (t'.lane L).olid = (t.lane L).olid) ∧
  (∀ L, (t'.lane L).status &&& (t.lane L).status = (t.lane L).status) ∧ t'.fflags &&& t.fflags = t.fflags

/-- The state a register instruction of a plain fragment leaves: its writes are done at once, or held for `la` followers (R60, R76). -/
abbrev State.wrote (s : State) (c q e : Nat) (t : Team) (len la : Nat) (dests : List RegRef) (ws : List Wr) : State :=
  if la = 0 then s.after c q e (((s.core c).entry q e).passed len) (t.put ws)
  else s.after c q e { ((s.core c).entry q e).passed len with pend := [⟨0, dests, ws, la, true⟩] } t

/-- What stays as it was when one core's instruction touches only the core: every byte of memory, every slice, partition and port, and
every other core. -/
abbrev State.Local (s s' : State) (c : Nat) : Prop :=
  (∀ a, memGet s'.mem a = memGet s.mem a) ∧ s'.slices = s.slices ∧ s'.parts = s.parts ∧ s'.ports = s.ports ∧
  (∀ d, d ≠ c → s'.core d = s.core d)

/-- The shape of an instruction that only reads and writes registers: its controls, whether it is long-latency (R59), its length, and
the registers that one unit (a lane, or the whole team) writes. -/
structure RegForm where
  c : Ctl
  late : Bool
  len : Nat
  dests : Nat → List RegRef

/-- The register forms of majors 0x01 to 0x13 and 0x15, of the moves from the team's files to the lanes, and of `scan`. -/
def regForm : Instr → Option RegForm
  | .add f => some ⟨f.c, false, f.b.len, fun L => regRefs f.c.w L false f.d⟩
  | .sub f => some ⟨f.c, false, f.b.len, fun L => regRefs f.c.w L false f.d⟩
  | .min f => some ⟨f.c, false, f.b.len, fun L => regRefs f.c.w L false f.d⟩
  | .max f => some ⟨f.c, false, f.b.len, fun L => regRefs f.c.w L false f.d⟩
  | .mul f => some ⟨f.c, true, f.b.len, fun L => regRefs f.c.w L false f.d⟩
  | .mulh f => some ⟨f.c, true, f.b.len, fun L => regRefs f.c.w L false f.d⟩
  | .div f => some ⟨f.c, true, f.b.len, fun L => regRefs f.c.w L false f.d⟩
  | .rem f => some ⟨f.c, true, f.b.len, fun L => regRefs f.c.w L false f.d⟩
  | .addc f => some ⟨f.c, false, f.b.len, fun L => predRef f.c.w L f.cc :: regRefs f.c.w L false f.d⟩
  | .subb f => some ⟨f.c, false, f.b.len, fun L => predRef f.c.w L f.cc :: regRefs f.c.w L false f.d⟩
  | .adda f => some ⟨f.c, false, f.b.len, fun L => regRefs f.c.w L true f.d⟩
  | .mad f => some ⟨f.c, true, f.b.len, fun L => regRefs f.c.w L false f.d⟩
  | .abs f => some ⟨f.c, false, 8, fun L => regRefs f.c.w L false f.d⟩
  | .neg f => some ⟨f.c, false, 8, fun L => regRefs f.c.w L false f.d⟩
  | .not f => some ⟨f.c, false, 8, fun L => regRefs f.c.w L false f.d⟩
  | .popc f => some ⟨f.c, false, 8, fun L => regRefs f.c.w L false f.d⟩
  | .clz f => some ⟨f.c, false, 8, fun L => regRefs f.c.w L false f.d⟩
  | .ctz f => some ⟨f.c, false, 8, fun L => regRefs f.c.w L false f.d⟩
  | .brev f => some ⟨f.c, false, 8, fun L => regRefs f.c.w L false f.d⟩
  | .and f => some ⟨f.c, false, f.b.len, fun L => regRefs f.c.w L false f.d⟩
  | .or f => some ⟨f.c, false, f.b.len, fun L => regRefs f.c.w L false f.d⟩
  | .xor f => some ⟨f.c, false, f.b.len, fun L => regRefs f.c.w L false f.d⟩
  | .andn f => some ⟨f.c, false, f.b.len, fun L => regRefs f.c.w L false f.d⟩
  | .shl f => some ⟨f.c, false, f.b.len, fun L => regRefs f.c.w L false f.d⟩
  | .shr f => some ⟨f.c, false, f.b.len, fun L => regRefs f.c.w L false f.d⟩
  | .sar f => some ⟨f.c, false, f.b.len, fun L => regRefs f.c.w L false f.d⟩
  | .rol f => some ⟨f.c, false, f.b.len, fun L => regRefs f.c.w L false f.d⟩
  | .ror f => some ⟨f.c, false, f.b.len, fun L => regRefs f.c.w L false f.d⟩
  | .bfe f => some ⟨f.c, false, f.b.len, fun L => regRefs f.c.w L false f.d⟩
  | .bfi f => some ⟨f.c, false, f.b.len, fun L => regRefs f.c.w L false f.d⟩
  | .pairAdd f => some ⟨f.c, false, f.b.len, fun L => regRefs f.c.w L true f.d⟩
  | .pairSub f => some ⟨f.c, false, f.b.len, fun L => regRefs f.c.w L true f.d⟩
  | .pairMin f => some ⟨f.c, false, f.b.len, fun L => regRefs f.c.w L true f.d⟩
  | .pairMax f => some ⟨f.c, false, f.b.len, fun L => regRefs f.c.w L true f.d⟩
  | .pairShl f => some ⟨f.c, false, f.b.len, fun L => regRefs f.c.w L true f.d⟩
  | .pairShr f => some ⟨f.c, false, f.b.len, fun L => regRefs f.c.w L true f.d⟩
  | .pairSar f => some ⟨f.c, false, f.b.len, fun L => regRefs f.c.w L true f.d⟩
  | .pairAnd f => some ⟨f.c, false, f.b.len, fun L => regRefs f.c.w L true f.d⟩
  | .pairOr f => some ⟨f.c, false, f.b.len, fun L => regRefs f.c.w L true f.d⟩
  | .pairXor f => some ⟨f.c, false, f.b.len, fun L => regRefs f.c.w L true f.d⟩
  | .pairMul f => some ⟨f.c, true, f.b.len, fun L => regRefs f.c.w L true f.d⟩
  | .floatAdd f => some ⟨f.c, true, f.b.len, fun L => regRefs f.c.w L (isF64 f.ty) f.d⟩
  | .floatSub f => some ⟨f.c, true, f.b.len, fun L => regRefs f.c.w L (isF64 f.ty) f.d⟩
  | .floatMul f => some ⟨f.c, true, f.b.len, fun L => regRefs f.c.w L (isF64 f.ty) f.d⟩
  | .fma f => some ⟨f.c, true, f.b.len, fun L => regRefs f.c.w L (isF64 f.ty) f.d⟩
  | .fms f => some ⟨f.c, true, f.b.len, fun L => regRefs f.c.w L (isF64 f.ty) f.d⟩
  | .fnma f => some ⟨f.c, true, f.b.len, fun L => regRefs f.c.w L (isF64 f.ty) f.d⟩
  | .floatDiv f => some ⟨f.c, true, f.b.len, fun L => regRefs f.c.w L (isF64 f.ty) f.d⟩
  | .rcp f => some ⟨f.c, true, f.b.len, fun L => regRefs f.c.w L (isF64 f.ty) f.d⟩
  | .sqrt f => some ⟨f.c, true, f.b.len, fun L => regRefs f.c.w L (isF64 f.ty) f.d⟩
  | .exp2 f => some ⟨f.c, true, f.b.len, fun L => regRefs f.c.w L (isF64 f.ty) f.d⟩
  | .log2 f => some ⟨f.c, true, f.b.len, fun L => regRefs f.c.w L (isF64 f.ty) f.d⟩
  | .sin f => some ⟨f.c, true, f.b.len, fun L => regRefs f.c.w L (isF64 f.ty) f.d⟩
  | .cos f => some ⟨f.c, true, f.b.len, fun L => regRefs f.c.w L (isF64 f.ty) f.d⟩
  | .tanh f => some ⟨f.c, true, f.b.len, fun L => regRefs f.c.w L (isF64 f.ty) f.d⟩
  | .sig f => some ⟨f.c, true, f.b.len, fun L => regRefs f.c.w L (isF64 f.ty) f.d⟩
  | .gelu f => some ⟨f.c, true, f.b.len, fun L => regRefs f.c.w L (isF64 f.ty) f.d⟩
  | .floatMin f => some ⟨f.c, false, f.b.len, fun L => regRefs f.c.w L (isF64 f.ty) f.d⟩
  | .floatMax f => some ⟨f.c, false, f.b.len, fun L => regRefs f.c.w L (isF64 f.ty) f.d⟩
  | .add2 f => some ⟨f.c, true, f.b.len, fun L => regRefs false L false f.d⟩
  | .sub2 f => some ⟨f.c, true, f.b.len, fun L => regRefs false L false f.d⟩
  | .mul2 f => some ⟨f.c, true, f.b.len, fun L => regRefs false L false f.d⟩
  | .fma2 f => some ⟨f.c, true, f.b.len, fun L => regRefs false L false f.d⟩
  | .min2 f => some ⟨f.c, false, f.b.len, fun L => regRefs false L false f.d⟩
  | .max2 f => some ⟨f.c, false, f.b.len, fun L => regRefs false L false f.d⟩
  | .cvt f => some ⟨f.c, true, 8, fun L => regRefs f.c.w L f.dst.wide f.d⟩
  | .cmp f => some ⟨f.c, false, f.b.len, fun L => [predRef f.c.w L f.d]⟩
  | .mov f => some ⟨f.c, false, f.b.len, fun L => regRefs f.c.w L false f.d⟩
  | .sel f => some ⟨f.c, false, f.b.len, fun L => regRefs f.c.w L false f.d⟩
  | .movd f => some ⟨f.c, false, f.b.len, fun L => regRefs f.c.w L true f.d⟩
  | .seld f => some ⟨f.c, false, f.b.len, fun L => regRefs f.c.w L true f.d⟩
  | .pand f => some ⟨f.c, false, 8, fun L => [predRef f.c.w L f.d]⟩
  | .por f => some ⟨f.c, false, 8, fun L => [predRef f.c.w L f.d]⟩
  | .pxor f => some ⟨f.c, false, 8, fun L => [predRef f.c.w L f.d]⟩
  | .pandn f => some ⟨f.c, false, 8, fun L => [predRef f.c.w L f.d]⟩
  | .pmov f => some ⟨f.c, false, 8, fun L => [predRef f.c.w L f.d]⟩
  | .ptst f => some ⟨f.c, false, 8, fun L => [predRef f.c.w L f.d]⟩
  | .pget f => some ⟨f.c, false, 8, fun L => regRefs f.c.w L false f.d⟩
  | .sval f => some ⟨f.c, false, 8, fun L => regRefs f.c.w L (svalWide f.a) f.d⟩
  | .gtov f => some ⟨f.c, false, 8, fun L => regRefs false L f.x f.d⟩
  | .pbc f => some ⟨f.c, false, 8, fun L => [.p L f.d.toNat]⟩
  | .scan f => some ⟨f.c, true, 8, fun L => regRefs false L f.ty.wide f.d⟩
  | _ => none

/-- A plain fragment runs the register instruction i with the writes `ws` of each unit that takes part. -/
abbrev State.RunsAs (s : State) (c q e : Nat) (t : Team) (i : Instr) (ws : Nat → List Wr) : Prop :=
  ∃ r, regForm i = some r ∧ exec i s = .next (s.wrote c q e t r.len (if r.late then r.c.la.toNat else 0)
    (((Cx.at s c q e t).units r.c).flatMap r.dests) (((Cx.at s c q e t).units r.c).flatMap ws))

/-- Operand A and operand B of a unit as numbers of an integer type of n bits (R54 to R56, R73, R78, R147). -/
abbrev Cx.intA (cx : Cx) (c : Ctl) (ty : Sg) (n L : Nat) (a : Reg) : Int := intVal ty n (cx.v.rd c.w L (decide (n = 64)) a)
abbrev Cx.intB (cx : Cx) (c : Ctl) (ty : Sg) (n L : Nat) (b : BOp) : Int := intVal ty n (cx.bval c.w L (decide (n = 64)) ty.bty b)

/-- The writes of an exact result x of an n-bit integer type: wrapped, or clamped with SAT raised where `.sat` clamps (R10, R21, R76). -/
abbrev satWr (c : Ctl) (ty : Sg) (n : Nat) (sat : Bool) (d : Reg) (L : Nat) (x : Int) : List Wr :=
  let y := if sat then saturate ty n x else x
  dstWr c.w L (if n = 64 then .wide else ty.ext) d (BitVec.ofInt n y).toNat ++ [flagWr c.w L (if y = x then 0 else fSAT)]

/-- The writes of a bit pattern with flags. -/
abbrev bitsWr (c : Ctl) (ext : Ext) (d : Reg) (L : Nat) {n : Nat} (x : BitVec n) (fl : Flags) : List Wr :=
  dstWr c.w L ext d x.toNat ++ [flagWr c.w L fl]

/-! ## The order of a team reduction (R41) -/

/-- The pass over stride s: x(L) takes in x(L + s) at every L that 2s divides; flags are OR-ed. An inactive lane holds nothing. -/
def reduceStride (op : Nat → Nat → Res) (n s : Nat) (v : (Nat → Option Nat) × Flags) : (Nat → Option Nat) × Flags :=
  let at? := fun L => decide (L % (2 * s) = 0 ∧ L + s < n)
  (fun L => if at? L then (match v.1 L, v.1 (L + s) with
      | some a, some b => some (op a b).bits
      | none, y => y
      | x, none => x) else v.1 L,
    ((List.range n).filter at?).foldl (fun fl L => match v.1 L, v.1 (L + s) with
      | some a, some b => fl ||| (op a b).fl
      | _, _ => fl) v.2)

/-- R41 over the lanes `inc` names of a team of n, at most 1024: strides 1, 2, 4, up to 512; none where no lane is active. -/
def teamReduce (op : Nat → Nat → Res) (n : Nat) (inc : Nat → Bool) (x : Nat → Nat) : Option Nat × Flags :=
  let r := (List.range 10).foldl (fun v i => reduceStride op n (2 ^ i) v) (fun L => if L < n ∧ inc L then some (x L) else none, 0)
  (r.1 0, r.2)

/-- t(L) of R156 under the maximum m. -/
def rowTermAt (m x : Nat) : Res :=
  let v := Fmt.f32.decode x
  if v.isNaN then ⟨Fmt.f32.nan, if v.sNaN then 0x01 else 0⟩
  else if m = 0xFF800000 then ⟨0, 0⟩
  else if v.eqV (Fmt.f32.decode m) then ⟨0x3F800000, 0⟩
  else if m = 0x7F800000 then ⟨0, 0⟩
  else special .exp2 .f32 false (Fmt.f32.arith .sub ⟨.rne, false, false⟩ x m 0).bits

/-- M, S and the flags of a row of R156 over the lanes `inc` names, the sum in the order of R41. -/
def rowMS (n : Nat) (inc : Nat → Bool) (x : Nat → Nat) : Nat × Nat × Flags :=
  let ls := (List.range n).filter inc
  let top := (ls.drop 1).foldl (fun m L => (Fmt.f32.arith .max ⟨.rne, false, false⟩ m (x L) 0).bits) (x (ls.headD 0))
  let m := if ls = [] then 0xFF800000 else if (Fmt.f32.decode top).isNaN then Fmt.f32.nan else top
  let r := teamReduce (fun a b => Fmt.f32.arith .add ⟨.rne, false, false⟩ a b 0) n inc fun L => (rowTermAt m (x L)).bits
  (m, (match r.1 with | some y => if (Fmt.f32.decode y).isNaN then Fmt.f32.nan else y | none => 0),
    ls.foldl (fun fl L => fl ||| (rowTermAt m (x L)).fl) r.2)

/-- The number a finite value is (R24); 0 for the others. -/
def FV.rat : FV → ℚ
  | .fin n m e => (if n then -1 else 1) * m * 2 ^ e
  | _ => 0

/-! ## Conditions and shapes of the other instructions -/

/-- Nothing is asked of the core's memory system and engines: every access, session and walk is over. -/
abbrev Core.Idle (k : Core) : Prop :=
  k.reqs = [] ∧ k.stores = [] ∧ k.puts = [] ∧ k.dqs = [] ∧ k.tbs = [] ∧ k.refused = [] ∧ k.sessions = [] ∧ k.walks = [] ∧ k.exvs = [] ∧
  k.hits = []

/-- No fault check stops the fragment: its team's record is clear for its level, or it runs in the agent slot (R331, R353). -/
abbrev Cx.Passes (cx : Cx) : Prop := cx.slot = agentSlot ∨ cx.t.checkStops = false

/-- The team sits in the fragment's quadrant, is not retired, nothing has been asked of any team of the core, and no fragment of
the quadrant waits for an outstanding step. -/
abbrev Steady (s : State) (c q e : Nat) (t : Team) : Prop :=
  t.quad = q ∧ ((s.core c).entry q e).team < 33 ∧ t.mode ≠ .retired ∧ (s.core c).slots.length = 33 ∧
  (∀ i u, (s.core c).team? i = some u → u.stops = []) ∧ ((s.core c).quad q).all (fun x => x.op.isNone) = true

/-- The fragment's entry after a transfer to `pc` (R61, R132). -/
abbrev Entry.jumped (x : Entry) (pc : PCWord) : Entry := { x.passed 0 with pc := pc }

/-- As `State.after`, but for trace packets the core may note (R417). -/
abbrev State.Moves (s s' : State) (c q e : Nat) (x : Entry) (t : Team) : Prop :=
  s' = (s.setCore c { ((s.core c).setEntry q e x).setTeam ((s.core c).entry q e).team t with trq := (s'.core c).trq }).bump

/-- A stream about to issue: context i of core c, owned by block b (R229), with fewer than four operations in flight (R231). -/
abbrev Streaming (s : State) (c i : Nat) (x : Seq) (b : Nat) : Prop :=
  s.cur = .stream c i ∧ c < s.cores.length ∧ (s.core c).seqs[i]? = some x ∧ x.block = some b ∧ x.flight.length < 4

/-- As `State.after`, where the instruction has changed other parts of its core too, to k. -/
abbrev State.afterCore (s : State) (c q e : Nat) (k : Core) (x : Entry) (t : Team) : State :=
  (s.setCore c ((k.setEntry q e x).setTeam ((s.core c).entry q e).team t)).bump

/-- The state in which an engine has used up the answers of other devices (R405). -/
abbrev State.used (s : State) (owner : Nat) : State := { s with rbuf := s.rbuf.filter fun b => decide (b.owner ≠ owner) }

/-- The state in which only the sequencer context differs. -/
abbrev State.afterSeq (s : State) (c i : Nat) (x : Seq) : State := (s.setCore c ((s.core c).setSeq i x)).bump

/-- The context after an instruction that ends at `pc`. -/
abbrev Seq.at (x : Seq) (pc : PCWord) : Seq := { x with pc := pc, stall := none, bw := none }

/-- The accesses of a memory instruction pass the checks of R173 in their order. -/
abbrev Passing (accs : List Acc) (conds : List (BitVec 8 × (Acc → Bool))) : Prop := ∀ x ∈ conds, ∀ a ∈ accs, x.2 a = true

/-- A fragment may issue a memory instruction: no acquire of its own is on its way, the next SEQ is free, and the core has room. -/
abbrev Cx.MayAccess (s : State) (cx : Cx) : Prop :=
  cx.acqBusy = false ∧ cx.seqFree s = true ∧ cx.k.sectorsOut = 0 ∧ cx.k.stores = []

/-- The request a memory instruction makes (R174, R328). -/
abbrev Cx.request (s : State) (cx : Cx) (kind : ReqKind) (accs : List Acc) : Req :=
  let id := s.identOf cx.c cx.slot
  { id := s.nextId, kind := kind, slot := cx.slot, quad := cx.q, entry := cx.e, seq := cx.t.seq + 1, pc := cx.x.pc, level := cx.t.level
    lanes := maskOf ((accs.map (·.lane)).filter (· < 1024)), accs := accs, gen := id.gen, sgen := id.sgen, away := [], past := []
    todo := kind.parts accs, lost := [], missed := [] }

/-- A memory instruction has issued: the team has taken the next SEQ, one request is outstanding, and the results already there wait in
the entry with those still to come. Nothing else has changed. -/
abbrev State.Requested (s s' : State) (c q e : Nat) (t : Team) (kind : ReqKind) (accs : List Acc) (dests : List RegRef) (pre : List Wr)
    (len la : Nat) : Prop :=
  let cx := Cx.at s c q e t
  ∃ fl, s' = (({ s with nextId := s.nextId + 1 } : State).setCore c
    { ((s.core c).setEntry q e { cx.x.passed len with pend := if dests = [] then [] else [⟨s.nextId, dests, pre, la, false⟩] }).setTeam cx.slot
        { t with seq := t.seq + 1, flying := fl } with reqs := (s.core c).reqs ++ [cx.request s kind accs] }).bump

/-- A store has issued: its sectors stand in the late-fault store buffer behind every older one. -/
abbrev State.Stored (s s' : State) (c q e : Nat) (t : Team) (k : Core) (es : List StoreEnt) (len : Nat) : Prop :=
  let cx := Cx.at s c q e t
  ∃ fl, s' = (({ s with nextId := s.nextId + es.length } : State).setCore c
    { (k.setEntry q e (cx.x.passed len)).setTeam cx.slot { t with seq := t.seq + 1, flying := fl } with stores := k.stores ++ es }).bump

/-! ## Forms a state keeps -/

/-- Memory in canonical form, and as many cores, slices, partitions and ports as the device has (R4, R254, R356, R399). -/
abbrev State.Formed (s : State) : Prop :=
  Memory.wf s.mem = true ∧ s.cores.length = 384 ∧ s.slices.length = 12 ∧ s.parts.length = 12 ∧ s.ports.length = 24

/-- A safe step: it does not stop. -/
def Safe (s : State) : Prop := ∃ s', step s = .next s'

end Sys2Proof.Machine
end

