-- ==== Sys2Proof/Certificates/Slice0/Obligations.lean ====
section
/-! DEFINITION. The statements of the model, one `def Obligations.<Name> : Prop` each. -/

open Sys2Proof Sys2Proof.Machine

/-! ## Register instructions -/

/-- Every register form completes and writes its destinations and nothing else (R60, R76, R79): 82 instructions. A long-latency form with
lookahead n ends at once with its destinations unwritten: the writes wait in the entry for n followers (R60). -/
def Obligations.RegisterFormsComplete : Prop :=
  (∀ (s : State) (c q e : Nat) (t : Team) (i : Instr) (r : RegForm), Plain s c q e t → regForm i = some r →
    (r.late = true → r.c.la = 0) →
    ∃ t', exec i s = .next (s.after c q e (((s.core c).entry q e).passed r.len) t') ∧
      Team.Frame t t' (((Cx.at s c q e t).units r.c).flatMap r.dests) ∧
      s.Local (s.after c q e (((s.core c).entry q e).passed r.len) t') c) ∧
  (∀ (s : State) (c q e : Nat) (t : Team) (i : Instr) (r : RegForm), Plain s c q e t → regForm i = some r → r.late = true → r.c.la ≠ 0 →
    ∃ ws, exec i s = .next (s.after c q e { ((s.core c).entry q e).passed r.len with
        pend := [⟨0, ((Cx.at s c q e t).units r.c).flatMap r.dests, ws, r.c.la.toNat, true⟩] } t) ∧
      Team.Frame t (t.put ws) (((Cx.at s c q e t).units r.c).flatMap r.dests))

/-- Results of the integer add group (R81), and of integer multiply, divide, min, max, absolute value and negate (R82). -/
def Obligations.IntegerArithmetic : Prop :=
  (∀ (s : State) (c q e : Nat) (t : Team), Plain s c q e t → let cx := Cx.at s c q e t
    (∀ f : IntB, s.RunsAs c q e t (.add f) fun L => satWr f.c f.ty 32 f.sat f.d L (cx.intA f.c f.ty 32 L f.a + cx.intB f.c f.ty 32 L f.b)) ∧
    (∀ f : IntB, s.RunsAs c q e t (.sub f) fun L => satWr f.c f.ty 32 f.sat f.d L (cx.intA f.c f.ty 32 L f.a - cx.intB f.c f.ty 32 L f.b)) ∧
    (∀ f : IntC, s.RunsAs c q e t (.addc f) fun L =>
      let x : Nat := t.rd f.c.w L false f.a + cx.bval f.c.w L false f.ty.bty f.b + (t.rdP f.c.w L f.cc).toNat
      dstWr f.c.w L f.ty.ext f.d (BitVec.ofNat 32 x).toNat ++ [predWr f.c.w L f.cc (decide (2 ^ 32 ≤ x))]) ∧
    (∀ f : IntC, s.RunsAs c q e t (.subb f) fun L =>
      let x : Int := t.rd f.c.w L false f.a - cx.bval f.c.w L false f.ty.bty f.b - (t.rdP f.c.w L f.cc).toNat
      dstWr f.c.w L f.ty.ext f.d (BitVec.ofInt 32 x).toNat ++ [predWr f.c.w L f.cc (decide (x < 0))]) ∧
    (∀ f : IntB, s.RunsAs c q e t (.adda f) fun L =>
      let off : DWord := let b := BitVec.ofNat 32 (cx.bval f.c.w L false f.ty.bty f.b); if f.ty = .s then b.signExtend 64 else b.setWidth 64
      dstWr f.c.w L .wide f.d (BitVec.ofNat 64 (t.rd f.c.w L true f.a) + off).toNat)) ∧
  (∀ (s : State) (c q e : Nat) (t : Team), Plain s c q e t → let cx := Cx.at s c q e t
    let A := fun (f : IntB) L => cx.intA f.c f.ty 32 L f.a
    let B := fun (f : IntB) L => cx.intB f.c f.ty 32 L f.b
    (∀ f : IntB, s.RunsAs c q e t (.mul f) fun L => satWr f.c f.ty 32 f.sat f.d L (A f L * B f L)) ∧
    (∀ f : IntB, s.RunsAs c q e t (.mulh f) fun L => satWr f.c f.ty 32 false f.d L (A f L * B f L / 2 ^ 32)) ∧
    (∀ f : IntC, s.RunsAs c q e t (.mad f) fun L => satWr f.c f.ty 32 f.sat f.d L
      (cx.intA f.c f.ty 32 L f.a * cx.intB f.c f.ty 32 L f.b + cx.intA f.c f.ty 32 L f.cc)) ∧
    (∀ f : IntB, s.RunsAs c q e t (.min f) fun L => satWr f.c f.ty 32 false f.d L (min (A f L) (B f L))) ∧
    (∀ f : IntB, s.RunsAs c q e t (.max f) fun L => satWr f.c f.ty 32 false f.d L (max (A f L) (B f L))) ∧
    (∀ f : IntU, s.RunsAs c q e t (.abs f) fun L => satWr f.c f.ty 32 f.sat f.d L |cx.intA f.c f.ty 32 L f.a|) ∧
    (∀ f : IntU, s.RunsAs c q e t (.neg f) fun L => satWr f.c f.ty 32 f.sat f.d L (-cx.intA f.c f.ty 32 L f.a)) ∧
    (∀ f : IntB, s.RunsAs c q e t (.div f) fun L =>
      if B f L = 0 then bitsWr f.c f.ty.ext f.d L (0 : BitVec 32) fIDZ
      else if f.ty = .s ∧ A f L = -2 ^ 31 ∧ B f L = -1 then bitsWr f.c f.ty.ext f.d L (0x80000000 : BitVec 32) fIOV
      else bitsWr f.c f.ty.ext f.d L (BitVec.ofInt 32 ((A f L).tdiv (B f L))) 0) ∧
    (∀ f : IntB, s.RunsAs c q e t (.rem f) fun L =>
      if B f L = 0 then bitsWr f.c f.ty.ext f.d L (BitVec.ofInt 32 (A f L)) fIDZ
      else if f.ty = .s ∧ A f L = -2 ^ 31 ∧ B f L = -1 then bitsWr f.c f.ty.ext f.d L (0 : BitVec 32) 0
      else bitsWr f.c f.ty.ext f.d L (BitVec.ofInt 32 (A f L - (A f L).tdiv (B f L) * B f L)) 0))

/-- Results of logic, shifts and bit fields (R83): bit patterns, and the whole B operand as the shift count. -/
def Obligations.LogicShiftBitFieldGroup : Prop :=
  ∀ (s : State) (c q e : Nat) (t : Team), Plain s c q e t → let cx := Cx.at s c q e t
    let A := fun (f : IntB) L => BitVec.ofNat 32 (t.rd f.c.w L false f.a)
    let U := fun (f : IntU) L => BitVec.ofNat 32 (t.rd f.c.w L false f.a)
    let B := fun (f : IntB) L => BitVec.ofNat 32 (cx.bval f.c.w L false .n f.b)
    let Z := fun (f : IntB) (x : Nat → BitVec 32) L => bitsWr f.c .z f.d L (x L) 0
    let Z1 := fun (f : IntU) (x : Nat → BitVec 32) L => bitsWr f.c .z f.d L (x L) 0
    (∀ f : IntB, s.RunsAs c q e t (.and f) (Z f fun L => A f L &&& B f L) ∧ s.RunsAs c q e t (.or f) (Z f fun L => A f L ||| B f L) ∧
      s.RunsAs c q e t (.xor f) (Z f fun L => A f L ^^^ B f L) ∧ s.RunsAs c q e t (.andn f) (Z f fun L => A f L &&& ~~~(B f L)) ∧
      s.RunsAs c q e t (.shl f) (Z f fun L => A f L <<< (B f L).toNat) ∧ s.RunsAs c q e t (.shr f) (Z f fun L => A f L >>> (B f L).toNat) ∧
      s.RunsAs c q e t (.sar f) (Z f fun L => (A f L).sshiftRight (B f L).toNat) ∧
      s.RunsAs c q e t (.rol f) (Z f fun L => (A f L).rotateLeft (B f L).toNat) ∧
      s.RunsAs c q e t (.ror f) (Z f fun L => (A f L).rotateRight (B f L).toNat)) ∧
    (∀ f : IntU, s.RunsAs c q e t (.not f) (Z1 f fun L => ~~~(U f L)) ∧
      s.RunsAs c q e t (.popc f) (Z1 f fun L => BitVec.ofNat 32 ((List.range 32).countP fun i => (U f L).getLsbD i)) ∧
      s.RunsAs c q e t (.clz f) (Z1 f fun L => if U f L = 0 then 32 else BitVec.ofNat 32 (31 - (U f L).toNat.log2)) ∧
      (∃ x : Nat → BitVec 32, s.RunsAs c q e t (.ctz f) (Z1 f x) ∧ ∀ L, (U f L = 0 → x L = 32) ∧
        (U f L ≠ 0 → (U f L).getLsbD (x L).toNat = true ∧ ∀ i < (x L).toNat, (U f L).getLsbD i = false)) ∧
      s.RunsAs c q e t (.brev f) (Z1 f fun L => (U f L).reverse)) ∧
    (∀ f : IntB, s.RunsAs c q e t (.bfe f) fun L =>
      let pos := (B f L).toNat % 32
      let w := min ((B f L).toNat / 256 % 64) 32
      let k := min (pos + w) 32 - pos
      let fld := ((A f L) >>> pos).setWidth k
      bitsWr f.c f.ty.ext f.d L (if f.ty = .s then fld.signExtend 32 else fld.setWidth 32) 0) ∧
    (∀ f : IntC, ∃ x : Nat → BitVec 32, s.RunsAs c q e t (.bfi f) (fun L => dstWr f.c.w L .z f.d (x L).toNat) ∧
      ∀ L, let b := cx.bval f.c.w L false .n f.b
        ∀ i < 32, (x L).getLsbD i =
          if b % 32 ≤ i ∧ i < b % 32 + min (b / 256 % 64) 32 then (BitVec.ofNat 32 (t.rd f.c.w L false f.a)).getLsbD (i - b % 32)
          else (BitVec.ofNat 32 (t.rd f.c.w L false f.cc)).getLsbD i)

/-- Results of the 64-bit pair forms (R84); logic reads B as a bit pattern (R55, R56, R77). -/
def Obligations.PairForms : Prop :=
  ∀ (s : State) (c q e : Nat) (t : Team), Plain s c q e t → let cx := Cx.at s c q e t
    ∀ f : IntB,
    let A := fun L => cx.intA f.c f.ty 64 L f.a
    let B := fun L => cx.intB f.c f.ty 64 L f.b
    let PA := fun L => BitVec.ofNat 64 (t.rd f.c.w L true f.a)
    let PB := fun L => BitVec.ofNat 64 (cx.bval f.c.w L true .n f.b)
    let n := fun L => cx.bval f.c.w L false .n f.b
    s.RunsAs c q e t (.pairAdd f) (fun L => satWr f.c f.ty 64 f.sat f.d L (A L + B L)) ∧
    s.RunsAs c q e t (.pairSub f) (fun L => satWr f.c f.ty 64 f.sat f.d L (A L - B L)) ∧
    s.RunsAs c q e t (.pairMul f) (fun L => satWr f.c f.ty 64 f.sat f.d L (A L * B L)) ∧
    s.RunsAs c q e t (.pairMin f) (fun L => satWr f.c f.ty 64 false f.d L (min (A L) (B L))) ∧
    s.RunsAs c q e t (.pairMax f) (fun L => satWr f.c f.ty 64 false f.d L (max (A L) (B L))) ∧
    s.RunsAs c q e t (.pairAnd f) (fun L => bitsWr f.c .wide f.d L (PA L &&& PB L) 0) ∧
    s.RunsAs c q e t (.pairOr f) (fun L => bitsWr f.c .wide f.d L (PA L ||| PB L) 0) ∧
    s.RunsAs c q e t (.pairXor f) (fun L => bitsWr f.c .wide f.d L (PA L ^^^ PB L) 0) ∧
    s.RunsAs c q e t (.pairShl f) (fun L => bitsWr f.c .wide f.d L (PA L <<< n L) 0) ∧
    s.RunsAs c q e t (.pairShr f) (fun L => bitsWr f.c .wide f.d L (PA L >>> n L) 0) ∧
    s.RunsAs c q e t (.pairSar f) (fun L => bitsWr f.c .wide f.d L ((PA L).sshiftRight (n L)) 0)

/-- Results of moves, selects, predicate logic, compares, system values and moves between the files (R89 to R91, R94 to R97, R147, R148,
R150). The model's own choices: `seld` sign-extends a literal parcel (log 122), and the team-wide `sval` of a field of the work identifier
reads lane 0 (log 107). -/
def Obligations.MovesPredicatesCompares : Prop :=
  ∀ (s : State) (c q e : Nat) (t : Team), Plain s c q e t → let cx := Cx.at s c q e t
    (∀ f : DB, s.RunsAs c q e t (.mov f) (fun L => dstWr f.c.w L .s f.d (cx.bval f.c.w L false .s f.b)) ∧
      s.RunsAs c q e t (.movd f) (fun L => dstWr f.c.w L .wide f.d (cx.bval f.c.w L true .s f.b))) ∧
    (∀ f : DABC,
      s.RunsAs c q e t (.sel f) (fun L => dstWr f.c.w L .s f.d
        (if t.rdP f.c.w L f.cc then t.rd f.c.w L false f.a else cx.bval f.c.w L false .s f.b)) ∧
      s.RunsAs c q e t (.seld f) (fun L => dstWr f.c.w L .wide f.d
        (if t.rdP f.c.w L f.cc then t.rd f.c.w L true f.a else cx.bval f.c.w L true .s f.b))) ∧
    (∀ f : PredF,
      let A := fun L => xor (t.rdP f.c.w L f.a) f.ia
      let B := fun L => xor (t.rdP f.c.w L f.b) f.ib
      let W := fun (x : Nat → Bool) L => [predWr f.c.w L f.d (x L)]
      s.RunsAs c q e t (.pand f) (W fun L => A L && B L) ∧ s.RunsAs c q e t (.por f) (W fun L => A L || B L) ∧
      s.RunsAs c q e t (.pxor f) (W fun L => xor (A L) (B L)) ∧ s.RunsAs c q e t (.pandn f) (W fun L => A L && !B L) ∧
      s.RunsAs c q e t (.pmov f) (W A) ∧
      s.RunsAs c q e t (.ptst f) (W fun L => !decide ((if f.c.w then (t.rg f.a.toNat).toNat else ((t.lane L).r f.a.toNat).toNat) = 0)) ∧
      s.RunsAs c q e t (.pget f) (fun L => dstWr f.c.w L .z f.d (A L).toNat)) ∧
    (∀ f : CmpF, ∀ sg n, cmpKind f.ty = .int sg n → s.RunsAs c q e t (.cmp f) fun L =>
      let a := cx.intA f.c sg n L f.a
      let b := cx.intB f.c sg n L f.b
      [predWr f.c.w L f.d (match f.cond with
        | .eq => decide (a = b) | .ne => !decide (a = b) | .lt => decide (a < b) | .le => decide (a ≤ b)
        | .gt => decide (b < a) | .ge => decide (b ≤ a) | .un => false | .ord => true), flagWr f.c.w L 0]) ∧
    (∀ f : CmpF, ∀ x, cmpKind f.ty = .flt x → s.RunsAs c q e t (.cmp f) fun L =>
      let a := x.operand f.ftz (t.rd f.c.w L f.ty.wide f.a)
      let b := x.operand f.ftz (cx.bval f.c.w L f.ty.wide (.f x) f.b)
      let ord := !a.isNaN && !b.isNaN
      [predWr f.c.w L f.d (match f.cond with
        | .eq => ord && a.eqV b | .ne => !(ord && a.eqV b) | .lt => ord && a.ltV b | .le => ord && (a.ltV b || a.eqV b)
        | .gt => ord && b.ltV a | .ge => ord && (b.ltV a || a.eqV b) | .un => !ord | .ord => ord),
        flagWr f.c.w L (if a.sNaN || b.sNaN then 0x01 else 0)]) ∧
    (∀ f : DA, f.a.toNat ≤ 14 → s.RunsAs c q e t (.sval f) fun L =>
      let l := t.lane (if f.c.w then 0 else L)
      let ws := match (s.core c).lslotOf cx.slot with | some y => y.launch.w | none => []
      dstWr f.c.w L (if 2 ≤ f.a.toNat ∧ f.a.toNat ≤ 8 then .wide else .z) f.d
        (if cx.slot = agentSlot ∧ 3 ≤ f.a.toNat ∧ f.a.toNat ≤ 10 then 0
          else match f.a.toNat with
          | 0 => if f.c.w then 0 else L
          | 1 => l.olid
          | 8 => l.wid.toNat
          | 9 => if f.c.w then t.num else l.team
          | 10 => t.n
          | 11 => c
          | 12 => t.quad
          | 13 => cx.slot
          | 14 => s.devnum.toNat % 256
          | i => l.wid.toNat / 2 ^ (ws.take (i - 2)).sum % 2 ^ ws[i - 2]?.getD 0)) ∧
    (∀ f : DAX, s.RunsAs c q e t (.gtov f) (fun L => dstWr false L (if f.x then .wide else .z) f.d (t.rg f.a.toNat).toNat) ∧
      s.RunsAs c q e t (.pbc f) (fun L => [.p L f.d.toNat (xor (t.pg f.a.toNat) f.x)]))

/-- Float forms are one rounding of the exact result of their operands, flags going where every flag goes (R76, R85 to R88). -/
def Obligations.FloatForms : Prop :=
  ∀ (s : State) (c q e : Nat) (t : Team), Plain s c q e t → let cx := Cx.at s c q e t
    let W := fun (cc : Ctl) (ext : Ext) (d : Reg) (L : Nat) (r : Res) => dstWr cc.w L ext d r.bits ++ [flagWr cc.w L r.fl]
    (∀ f : FltB, let D := fun op L => W f.c (fltExt f.ty) f.d L ((fmtOf f.ty).arith op ⟨f.rm, f.ftz, f.sat⟩
        (t.rd f.c.w L (isF64 f.ty) f.a) (cx.bval f.c.w L (isF64 f.ty) (.f (fmtOf f.ty)) f.b) 0)
      let D2 := fun op L =>
        let a := t.rd false L false f.a
        let b := cx.bval false L false .n f.b
        let lo := (fmtOf f.ty).arith op ⟨f.rm, f.ftz, f.sat⟩ (a % 2 ^ 16) (b % 2 ^ 16) 0
        let hi := (fmtOf f.ty).arith op ⟨f.rm, f.ftz, f.sat⟩ (a / 2 ^ 16) (b / 2 ^ 16) 0
        dstWr false L .z f.d (hi.bits * 2 ^ 16 + lo.bits) ++ [flagWr false L (hi.fl ||| lo.fl)]
      s.RunsAs c q e t (.floatAdd f) (D .add) ∧ s.RunsAs c q e t (.floatSub f) (D .sub) ∧ s.RunsAs c q e t (.floatMul f) (D .mul) ∧
      s.RunsAs c q e t (.floatDiv f) (D .div) ∧ s.RunsAs c q e t (.floatMin f) (D .min) ∧ s.RunsAs c q e t (.floatMax f) (D .max) ∧
      s.RunsAs c q e t (.add2 f) (D2 .add) ∧ s.RunsAs c q e t (.sub2 f) (D2 .sub) ∧ s.RunsAs c q e t (.mul2 f) (D2 .mul) ∧
      s.RunsAs c q e t (.min2 f) (D2 .min) ∧ s.RunsAs c q e t (.max2 f) (D2 .max)) ∧
    (∀ f : FltC, let D := fun op L => W f.c (fltExt f.ty) f.d L ((fmtOf f.ty).arith op ⟨f.rm, f.ftz, f.sat⟩
        (t.rd f.c.w L (isF64 f.ty) f.a) (cx.bval f.c.w L (isF64 f.ty) (.f (fmtOf f.ty)) f.b) (t.rd f.c.w L (isF64 f.ty) f.cc))
      s.RunsAs c q e t (.fma2 f) (fun L =>
        let a := t.rd false L false f.a
        let b := cx.bval false L false .n f.b
        let d := t.rd false L false f.cc
        let lo := (fmtOf f.ty).arith .fma ⟨f.rm, f.ftz, f.sat⟩ (a % 2 ^ 16) (b % 2 ^ 16) (d % 2 ^ 16)
        let hi := (fmtOf f.ty).arith .fma ⟨f.rm, f.ftz, f.sat⟩ (a / 2 ^ 16) (b / 2 ^ 16) (d / 2 ^ 16)
        dstWr false L .z f.d (hi.bits * 2 ^ 16 + lo.bits) ++ [flagWr false L (hi.fl ||| lo.fl)]) ∧
      s.RunsAs c q e t (.fma f) (D .fma) ∧ s.RunsAs c q e t (.fms f) (D .fms) ∧ s.RunsAs c q e t (.fnma f) (D .fnma)) ∧
    (∀ f : FltU, let D := fun (fn : Nat → Res) L => W f.c (fltExt f.ty) f.d L (fn (cx.bval f.c.w L (isF64 f.ty) (.f (fmtOf f.ty)) f.b))
      s.RunsAs c q e t (.rcp f) (D fun b => (fmtOf f.ty).arith .rcp ⟨f.rm, f.ftz, f.sat⟩ 0 b 0) ∧
      s.RunsAs c q e t (.sqrt f) (D fun b => (fmtOf f.ty).arith .sqrt ⟨f.rm, f.ftz, false⟩ 0 b 0) ∧
      s.RunsAs c q e t (.exp2 f) (D (special .exp2 (fmtOf f.ty) f.ftz)) ∧ s.RunsAs c q e t (.log2 f) (D (special .log2 (fmtOf f.ty) f.ftz)) ∧
      s.RunsAs c q e t (.sin f) (D (special .sin (fmtOf f.ty) f.ftz)) ∧ s.RunsAs c q e t (.cos f) (D (special .cos (fmtOf f.ty) f.ftz)) ∧
      s.RunsAs c q e t (.tanh f) (D (special .tanh (fmtOf f.ty) f.ftz)) ∧ s.RunsAs c q e t (.sig f) (D (special .sig (fmtOf f.ty) f.ftz)) ∧
      s.RunsAs c q e t (.gelu f) (D (special .gelu (fmtOf f.ty) f.ftz))) ∧
    (∀ f : CvtF, s.RunsAs c q e t (.cvt f) fun L =>
      let r := convert (kindOf f.src) (kindOf f.dst) ⟨f.rm, f.ftz, f.sat⟩ (t.rd f.c.w L f.src.wide f.a)
      W f.c (numExt f.dst) f.d L ⟨numForm f.dst r.bits, r.fl⟩)

/-- Special operands of the scalar float operations, whatever the format and the mode (R24, R28, R29). -/
def Obligations.FloatSpecialOperands : Prop :=
  ∀ (f : Fmt) (md : RMode) (a b : Nat),
    let x := f.operand md.ftz a
    let y := f.operand md.ftz b
    let nv : Flags := if x.sNaN || y.sNaN then 0x01 else 0
    (∀ op ∈ [FOp.add, .sub, .mul, .div], (x.isNaN || y.isNaN) = true → f.arith op md a b 0 = ⟨f.nan, nv⟩) ∧
    (∀ m n, x = .inf m → y = .inf n → f.arith .add md a b 0 = (if m = n then ⟨f.infRes md m, 0⟩ else ⟨f.nan, 0x01⟩)) ∧
    (∀ m n, x = .inf m → y = .inf n → f.arith .sub md a b 0 = (if m = n then ⟨f.nan, 0x01⟩ else ⟨f.infRes md m, 0⟩)) ∧
    (∀ m n e, x = .inf m → y = .fin n 0 e → f.arith .mul md a b 0 = ⟨f.nan, 0x01⟩ ∧ f.arith .mul md b a 0 = ⟨f.nan, 0x01⟩) ∧
    (∀ m n, x = .inf m → y = .inf n → f.arith .div md a b 0 = ⟨f.nan, 0x01⟩) ∧
    (∀ m n d e, x = .fin m 0 d → y = .fin n 0 e → f.arith .div md a b 0 = ⟨f.nan, 0x01⟩) ∧
    (∀ m n k d e, x = .fin m (k + 1) d → y = .fin n 0 e → f.arith .div md a b 0 = ⟨f.infRes md (m != n), 0x02⟩) ∧
    (∀ k e, y = .fin true (k + 1) e → f.arith .sqrt md a b 0 = ⟨f.nan, 0x01⟩) ∧
    (x.isNaN = true → y.isNaN = false → f.arith .min md a b 0 = ⟨f.readBits md.ftz b, nv⟩ ∧ f.arith .max md a b 0 = ⟨f.readBits md.ftz b, nv⟩) ∧
    (x.isNaN = true → y.isNaN = true → f.arith .min md a b 0 = ⟨f.nan, nv⟩ ∧ f.arith .max md a b 0 = ⟨f.nan, nv⟩)

/-! ## Lane state beside the registers -/

/-- Stack moves (R92, R93): a lane that faults keeps its state and records the fault, the others complete, and with `.t` the team then
takes the lane-fault trap naming the lowest faulting lane. -/
def Obligations.StackMoves : Prop :=
  ∀ (s : State) (c q e : Nat) (t : Team) (f : StackF), Plain s c q e t → t.lanes.length = t.n →
    let ls := (Cx.at s c q e t).part f.c
    let d := f.d.toNat
    let moves := fun (i : Instr) (res : Lane → Except Nat Lane) => ∃ t', t' = { t with lanes := t'.lanes } ∧
      (∀ L, t'.lane L = if L ∈ ls then (match res (t.lane L) with
          | .ok l => l
          | .error code => { t.lane L with status := laneFault (t.lane L).status code 0 }) else t.lane L) ∧
      exec i s = .next (match f.t, ls.find? (fun L => !(res (t.lane L)).isOk) with
        | true, some L => ({ Cx.at s c q e t with t := t' } : Cx).trap s 0x09
            (match res (t.lane L) with | .error code => BitVec.ofNat 8 code | .ok _ => 0) (BitVec.ofNat 16 L) 0 8
        | _, _ => s.after c q e (((s.core c).entry q e).passed 8) t')
    moves (.spush f) (fun l => if l.stack.length ≥ 8 then .error 1 else .ok { l with stack := l.r f.a.toNat :: l.stack }) ∧
    moves (.spop f) (fun l => match l.stack with | [] => .error 2 | x :: rest => .ok { l with stack := rest, v := l.v.set d x }) ∧
    moves (.speek f) (fun l => match l.stack[f.idx.toNat]? with | none => .error 2 | some x => .ok { l with v := l.v.set d x }) ∧
    moves (.sdep f) (fun l => .ok { l with v := l.v.set d (BitVec.ofNat 32 l.stack.length) }) ∧
    moves (.sclr f) (fun l => .ok { l with stack := [] })

/-- The lane status word (R30, R31): the first fault fills it and a later one sets bit 13 only; `lsc` clears by writing ones. And
the status, flag, window and modulo-register instructions (R30, R31, R115, R118, R150, R182). -/
def Obligations.StatusAndWindowRegisters : Prop :=
  (∀ (st m : Word) (code step : Nat), code < 16 → step < 256 →
    (st.getLsbD 12 = false → (laneFault st code step).extractLsb' 0 4 = BitVec.ofNat 4 code ∧
      (laneFault st code step).extractLsb' 4 8 = BitVec.ofNat 8 step ∧ (laneFault st code step).getLsbD 12 = true ∧
      (laneFault st code step).extractLsb' 13 19 = st.extractLsb' 13 19) ∧
    (st.getLsbD 12 = true → laneFault st code step = st ||| 0x2000) ∧
    (∀ i, 16 ≤ i → i < 24 → (w1cStatus st m).getLsbD i = (st.getLsbD i && !m.getLsbD i)) ∧
    (w1cStatus st m).getLsbD 13 = (st.getLsbD 13 && !m.getLsbD 13) ∧
    (∀ i < 13, (w1cStatus st m).getLsbD i = (st.getLsbD i && !m.getLsbD 12))) ∧
  (∀ (s : State) (c q e : Nat) (t : Team), Plain s c q e t → t.lanes.length = t.n →
    let cx := Cx.at s c q e t
    let ends := fun (len : Nat) (t' : Team) => Host.Outcome.next (s.after c q e (((s.core c).entry q e).passed len) t')
    (∀ f : DA, exec (.lsr f) s = ends 8 (t.put ((cx.part f.c).map fun L => .v L f.d.toNat (t.lane L).status))) ∧
    (∀ f : DB, ∃ t', exec (.lsc f) s = ends f.b.len t' ∧ t' = { t with lanes := t'.lanes } ∧ ∀ L, t'.lane L =
      if L ∈ cx.part f.c then { t.lane L with status := w1cStatus (t.lane L).status (BitVec.ofNat 32 (cx.bval false L false .n f.b)) }
      else t.lane L) ∧
    (∀ f : DB, exec (.exwin f) s =
      ends f.b.len (if cx.part f.c = [] then t else { t with xwin := BitVec.ofNat 32 (cx.bval false 0 false .n f.b) })) ∧
    (∀ f : DA, exec (.ffr f) s = ends 8 (if cx.takes f.c then t.put [.g f.d.toNat (t.fflags.setWidth 64)] else t)) ∧
    (∀ f : DB, exec (.ffc f) s = ends f.b.len (if cx.takes f.c then
      { t with fflags := t.fflags &&& ~~~(BitVec.ofNat 32 (cx.bval true 0 false .n f.b) &&& 0xFF) } else t)) ∧
    (cx.acqBusy = false → ∀ f : DB, exec (.mset f) s = ends f.b.len (if cx.takes f.c then
      let b := BitVec.ofNat 64 (cx.bval true 0 true .n f.b)
      let len := b.extractLsb' 20 20
      { t with m := t.m.set f.d.toNat ⟨b.extractLsb' 0 20, len, if len = 0 then 0 else b.extractLsb' 40 20 % len⟩ } else t)) ∧
    (cx.acqBusy = false → ∀ f : DA, exec (.mget f) s = ends 8 (t.put ((cx.units f.c).map fun _ =>
      let m := t.m[f.a.toNat]?.getD ModReg.zero
      .g f.d.toNat (m.base.setWidth 64 ||| m.len.setWidth 64 <<< 20 ||| m.idx.setWidth 64 <<< 40)))))

/-- The execute-vector instruction (R109 to R112): each lane taking part checks its word and performs it on its own stack, or records
the fault; a lane not taking part keeps everything; the flags of every lane that performs go to `fflags`. And what each word performs (R99,
R102 to R108), with x1, x2 and x3 of the table of R103. The model's own choices: the stack moves copy an f16 or bf16 entry with bits 31:16
clear, and a negative constant in n32 wraps. -/
def Obligations.ExecuteVectorLanes : Prop :=
  (∀ (s : State) (c q e : Nat) (t : Team) (f : ExvF), Plain s c q e t → t.lanes.length = t.n → (s.core c).exvs = [] →
    ((s.core c).entry q e).op = none → f.m = false → t.stops = [] →
    let cx := Cx.at s c q e t
    let ls := cx.part f.c
    let word := fun L => (t.lane L).r f.a.toNat
    let does := fun L => lanePerform (word L) (t.lane L).stack ((List.range 16).map fun i => (t.lane L).r (f.fb.toNat + i)) fun _ => 0
    let bad := fun L => laneCheck (word L) (t.lane L).stack false f.fb.toNat t.nregs ((s.core c).winOk t.block t.xwin)
    ∃ t', t' = { t with lanes := t'.lanes, fflags := t'.fflags } ∧
      (∀ L, t'.lane L = if L ∈ ls then (match bad L with
        | some code => { t.lane L with status := laneFault (t.lane L).status code 0 }
        | none => { t.lane L with stack := (does L).stack, status := addAfl (t.lane L).status (does L).fl }) else t.lane L) ∧
      t'.fflags = (ls.filter fun L => (bad L).isNone).foldl (fun a L => a ||| (does L).fl.setWidth 32) t.fflags ∧
      exec (.exv f) s = .next (match f.t, ls.find? (fun L => (bad L).isSome) with
        | true, some L => ({ Cx.at s c q e t with t := t' } : Cx).trap s 0x09 (BitVec.ofNat 8 ((bad L).getD 0)) (BitVec.ofNat 16 L) 0 8
        | _, _ => s.after c q e (((s.core c).entry q e).passed 8) t')) ∧
  (∀ (w : Word) (a b d : Word) (rest feeds : List Word) (ld : Int → Word),
    let op := lwOp w
    let imm := intVal .s 8 (lwImm w)
    let at_ : Nat → StepRes → List Word → Prop := fun n r st => op = n → lanePerform w st feeds ld = r
    let p := fun (x : Word) => BitVec.ofNat 32 ((lwKind w).pat x.toNat)
    at_ 0x00 { stack := rest } rest ∧
    at_ 0x01 { stack := BitVec.ofNat 32 (if lwSel w < 16 then (lwKind w).pat (feeds[lwSel w]?.getD 0).toNat
      else (lwKind w).const ((lwSel w : Int) - 16)) :: rest } rest ∧
    at_ 0x02 { stack := BitVec.ofNat 32 ((lwKind w).const imm) :: rest } rest ∧
    at_ 0x03 { stack := p a :: p a :: rest } (a :: rest) ∧ at_ 0x04 { stack := rest } (a :: rest) ∧
    at_ 0x05 { stack := p b :: p a :: rest } (a :: b :: rest) ∧ at_ 0x06 { stack := p b :: p a :: p b :: rest } (a :: b :: rest) ∧
    at_ 0x07 { stack := p d :: p a :: p b :: rest } (a :: b :: d :: rest) ∧
    at_ 0x08 { stack := p (rest[lwImm w]?.getD 0) :: rest } rest ∧
    at_ 0x58 { stack := (if a ≠ 0 then d else b) :: rest } (a :: b :: d :: rest) ∧
    at_ 0x59 { stack := (if a = 0 then 1 else 0) :: rest } (a :: rest) ∧
    at_ 0x60 { stack := ld ((a.toNat : Int) + 4 * imm) :: rest } (a :: rest) ∧
    at_ 0x61 { stack := rest, store := some ((a.toNat : Int) + 4 * imm, b) } (a :: b :: rest) ∧
    at_ 0x68 { stack := rest, skip := if a = 0 then lwImm w else 0 } (a :: rest) ∧
    at_ 0x69 { stack := rest, skip := if a ≠ 0 then lwImm w else 0 } (a :: rest) ∧ at_ 0x6A { stack := rest, stop := true } rest ∧
    (∀ sg n, lwKind w = .int sg n →
      let x := intVal sg 32 b.toNat
      let y := intVal sg 32 a.toNat
      let clip := fun (sat : Bool) (z : Int) (st : List Word) => let v := if sat then saturate sg 32 z else z
        lanePerform w st feeds ld = { stack := BitVec.ofInt 32 v :: rest, fl := if v = z then 0 else fSAT }
      let two := a :: b :: rest
      let one := a :: rest
      (op = 0x10 → clip (lwSat w) (x + y) two) ∧ (op = 0x11 → clip (lwSat w) (x - y) two) ∧ (op = 0x12 → clip (lwSat w) (x * y) two) ∧
      (op = 0x13 → lanePerform w two feeds ld = (if y = 0 then { stack := 0 :: rest, fl := fIDZ }
        else if sg = .s ∧ x = -2 ^ 31 ∧ y = -1 then { stack := 0x80000000 :: rest, fl := fIOV }
        else { stack := BitVec.ofInt 32 (x.tdiv y) :: rest })) ∧
      (op = 0x14 → lanePerform w two feeds ld = { stack := BitVec.ofInt 32 (x - x.tdiv y * y) :: rest, fl := if y = 0 then fIDZ else 0 }) ∧
      (op = 0x15 → clip (lwSat w) (-y) one) ∧ (op = 0x16 → clip (lwSat w) |y| one) ∧
      (op = 0x17 → clip false (min x y) two) ∧ (op = 0x18 → clip false (max x y) two) ∧
      at_ 0x19 { stack := (b &&& a) :: rest } two ∧ at_ 0x1A { stack := (b ||| a) :: rest } two ∧
      at_ 0x1B { stack := (b ^^^ a) :: rest } two ∧ at_ 0x1C { stack := (b <<< a.toNat) :: rest } two ∧
      at_ 0x1D { stack := (b >>> a.toNat) :: rest } two ∧ at_ 0x1E { stack := b.sshiftRight a.toNat :: rest } two ∧
      (op = 0x1F → clip true (x + y) two) ∧ (op = 0x20 → clip true (x - y) two) ∧ at_ 0x21 { stack := ~~~a :: rest } one ∧
      (op = 0x22 → clip (lwSat w) (y + intVal sg 32 (BitVec.ofInt 32 imm).toNat) one)) ∧
    (∀ k, lwKind w = k → 0x50 ≤ op → op ≤ 0x57 →
      let r := compareKind k (match op with | 0x50 => .eq | 0x51 => .ne | 0x52 => .lt | 0x53 => .le | 0x54 => .gt | 0x55 => .ge | 0x56 => .un | _ => .ord)
        false (k.pat b.toNat) (k.pat a.toNat)
      lanePerform w (a :: b :: rest) feeds ld = { stack := (if r.1 then 1 else 0) :: rest, fl := r.2 }) ∧
    (∀ f, lwKind w = .flt f →
      let x := fun (v : Word) => (lwKind w).pat v.toNat
      let md : RMode := { rm := rmOf (BitVec.ofNat 3 (lwRm w)), sat := lwSat w }
      let gives := fun (n : Nat) (r : Res) (st : List Word) => at_ n { stack := BitVec.ofNat 32 r.bits :: rest, fl := r.fl } st
      let two := a :: b :: rest
      let one := a :: rest
      gives 0x30 (f.arith .add md (x b) (x a) 0) two ∧ gives 0x31 (f.arith .sub md (x b) (x a) 0) two ∧
      gives 0x32 (f.arith .mul md (x b) (x a) 0) two ∧ gives 0x33 (f.arith .div md (x b) (x a) 0) two ∧
      gives 0x34 (f.arith .fma md (x d) (x b) (x a)) (a :: b :: d :: rest) ∧ gives 0x35 (f.arith .sqrt md 0 (x a) 0) one ∧
      gives 0x36 (special .exp2 f false (x a)) one ∧ gives 0x37 (special .log2 f false (x a)) one ∧
      gives 0x38 (special .tanh f false (x a)) one ∧ gives 0x39 (special .sig f false (x a)) one ∧
      gives 0x3A (special .gelu f false (x a)) one ∧ gives 0x40 (special .sin f false (x a)) one ∧
      gives 0x41 (special .cos f false (x a)) one ∧
      gives 0x3B (match f.decode (x a) with
        | .nan q => ⟨f.nan, if q then 0x01 else 0⟩
        | .inf n => ⟨if n then 0 else x a, 0⟩
        | .fin n m _ => ⟨if n ∨ m = 0 then 0 else x a, 0⟩) one ∧
      gives 0x3C (f.arith .min ⟨.rne, false, false⟩ (x b) (x a) 0) two ∧ gives 0x3D (f.arith .max ⟨.rne, false, false⟩ (x b) (x a) 0) two ∧
      gives 0x3E ⟨x a ^^^ 2 ^ (f.bits - 1), 0⟩ one ∧ gives 0x3F ⟨x a % 2 ^ (f.bits - 1), 0⟩ one ∧
      gives 0x42 (f.arith .rcp md 0 (x a) 0) one ∧
      gives 0x44 (convert (.flt f) (.int .s 32) md (x a)) one ∧ gives 0x45 (convert (.flt f) (.int .n 32) md (x a)) one ∧
      gives 0x46 (convert (.int .s 32) (.flt f) md a.toNat) one ∧ gives 0x47 (convert (.int .n 32) (.flt f) md a.toNat) one ∧
      (lwImm w ∈ [2, 3, 4] → gives 0x48 (convert (.flt f) (.flt (if lwImm w = 2 then .f32 else if lwImm w = 3 then .f16 else .bf16)) md (x a)) one)))

/-- The execute-vector instruction of n words completes its n steps when no live copy range stands in its way (R109, R111, R117). -/
def Obligations.ExecuteVectorSteps : Prop :=
  ∀ (s : State) (c q e : Nat) (t : Team) (f : ExvF), Plain s c q e t → (s.core c).exvs = [] → (s.core c).sessions = [] →
    ((s.core c).entry q e).op = none → f.t = false → t.stops = [] →
    let cx := Cx.at s c q e t
    (f.m = true → cx.acqBusy = false) →
    let start : ExvRun := ⟨s.nextId, .exvn f, 0, t.xwin, 0, (cx.part f.c).map fun L =>
      ⟨L, (List.range f.n.toNat).map fun i => (t.lane L).r (f.a.toNat + i), (List.range 16).map fun i => (t.lane L).r (f.fb.toNat + i),
        0, false, none⟩⟩
    let run := (List.range f.n.toNat).foldl (fun (st : Core × Team × ExvRun) _ => exvStep st.1 st.2.1 f.m f.fb.toNat st.2.2) (s.core c, t, start)
    exec (.exvn f) s = .next (({ cx with k := run.1, t := { run.2.1 with fflags := run.2.1.fflags ||| run.2.2.flags.setWidth 32 } } : Cx).next s 8)

/-! ## Team-wide work -/

/-- Votes, moves, reductions, scans, row statistics and shuffles (R150 to R156): they act once for the fragment or in each lane taking
part, and change only their destinations. The values of `red`, `scan` and `rstat` are those of R41's order, R154 and R156. The model's own
choice: the predicate a shuffle names is a destination also where it is p7. -/
def Obligations.TeamWideForms : Prop :=
  ∀ (s : State) (c q e : Nat) (t : Team), Plain s c q e t →
    let cx := Cx.at s c q e t
    let once := fun (i : Instr) (cc : Ctl) (late : Bool) (len : Nat) (d : RegRef) (ws : List Wr) => exec i s =
      .next (s.wrote c q e t len (if late then cc.la.toNat else 0) (if cx.takes cc then [d] else []) (if cx.takes cc then ws else []))
    let votes := fun (f : DAX) => cx.active.filter fun L => xor ((t.lane L).pr f.a.toNat) f.x
    (∀ f : DABX, once (.vtog f) f.c false f.b.len (.g f.d.toNat)
      (let i := cx.bval true 0 false .n f.b
       [.g f.d.toNat (if i < t.n ∧ ((s.core c).entry q e).mask.getLsbD i then BitVec.ofNat 64 (t.rd false i f.x f.a) else 0)])) ∧
    (∀ f : DAX, once (.vany f) f.c true 8 (.gp f.d.toNat) [.gp f.d.toNat (decide (votes f ≠ []))] ∧
      once (.vall f) f.c true 8 (.gp f.d.toNat) [.gp f.d.toNat (decide (votes f = cx.active))] ∧
      once (.vcnt f) f.c true 8 (.g f.d.toNat) [.g f.d.toNat (BitVec.ofNat 64 (votes f).length)] ∧
      once (.vfirst f) f.c true 8 (.g f.d.toNat) [.g f.d.toNat (match (votes f).head? with | some L => BitVec.ofNat 64 L | none => -1)] ∧
      once (.vuni f) f.c true 8 (.gp f.d.toNat)
        [.gp f.d.toNat (decide (∀ L ∈ cx.active, ∀ M ∈ cx.active, t.rd false L f.x f.a = t.rd false M f.x f.a))] ∧
      (∀ la, f.c.la = la → exec (.vrank f) s = .next (s.wrote c q e t 8 la.toNat ((cx.part f.c).map fun L => .v L f.d.toNat)
        ((cx.part f.c).map fun L => .v L f.d.toNat (BitVec.ofNat 32 ((votes f).countP (· < L))))))) ∧
    (∀ f : DABX, once (.ballot f) f.c true f.b.len (.g f.d.toNat)
      (let b := cx.bval true 0 false .n f.b
       [.g f.d.toNat (if b ≥ 16 then 0 else
         (maskOf (cx.active.filter fun L => xor ((t.lane L).pr f.a.toNat) f.x)).extractLsb' (64 * b) 64)])) ∧
    (t.n ≤ 1024 →
      let op := fun (f : RedF) (a b : Nat) => match redKind f.ty, f.op with
        | .flt x, .min => x.arith .min ⟨f.rm, f.ftz, false⟩ a b 0
        | .flt x, .max => x.arith .max ⟨f.rm, f.ftz, false⟩ a b 0
        | .flt x, _ => x.arith .add ⟨f.rm, f.ftz, false⟩ a b 0
        | .int _ n, .add => ⟨(a + b) % 2 ^ n, 0⟩
        | .int sg n, .min => ⟨if intVal sg n a ≤ intVal sg n b then a else b, 0⟩
        | .int sg n, .max => ⟨if intVal sg n b ≤ intVal sg n a then a else b, 0⟩
        | .int _ _, .and => ⟨a &&& b, 0⟩
        | .int _ _, .or => ⟨a ||| b, 0⟩
        | .int _ _, .xor => ⟨a ^^^ b, 0⟩
      let val := fun (f : RedF) (r : Option Nat) => match r, redKind f.ty with
        | none, k => redIdentity f.op k
        | some x, .flt y => if (y.decode x).isNaN then y.nan else x
        | some x, _ => x
      (∀ f : RedF, let r := teamReduce (op f) t.n (fun L => decide (L ∈ cx.active)) fun L => t.rd false L f.ty.wide f.a
        once (.red f) f.c true 8 (.g f.d.toNat) (dstWr true 0 (redExt f.ty) f.d (val f r.1) ++ [.ff r.2])) ∧
      (∀ f : RedF, s.RunsAs c q e t (.scan f) fun L =>
        let r := teamReduce (op f) t.n (fun M => decide (M ∈ cx.part f.c ∧ if f.ex then M < L else M ≤ L)) fun M => t.rd false M f.ty.wide f.a
        dstWr false L (if f.ty.wide then .wide else .z) f.d (val f r.1) ++ [.afl L r.2]) ∧
      (∀ f : RstatF,
         (f.c.w = true → let r := rowMS t.n (fun L => decide (L ∈ cx.active)) fun L => t.rd false L false f.a
           once (.rstat f) f.c true 8 (.g f.d.toNat) [.g f.d.toNat (BitVec.ofNat 64 (r.2.1 * 2 ^ 32 + r.1)), .ff r.2.2]) ∧
         (f.c.w = false → f.wn.toNat ≤ 10 → exec (.rstat f) s = .next (s.wrote c q e t 8 f.c.la.toNat
           ((cx.part f.c).flatMap fun L => regRefs false L true f.d) ((cx.part f.c).flatMap fun L =>
             let n := 2 ^ f.wn.toNat
             let r := rowMS n (fun i => decide (L / n * n + i ∈ cx.part f.c)) fun i => t.rd false (L / n * n + i) false f.a
             dstWr false L .wide f.d (r.2.1 * 2 ^ 32 + r.1) ++ [.afl L r.2.2]))))) ∧
    (∀ f : DABCX,
      let sh := fun (i : Instr) (src : Nat → Nat → Int) => exec i s = .next (s.wrote c q e t f.b.len f.c.la.toNat
        ((cx.part f.c).flatMap fun L => regRefs false L f.x f.d ++ [.p L f.cc.toNat])
        ((cx.part f.c).flatMap fun L =>
          let m := src L (cx.bval false L false .n f.b)
          let ok := decide (0 ≤ m ∧ m < t.n) && ((s.core c).entry q e).mask.getLsbD m.toNat
          dstWr false L (if f.x then .wide else .z) f.d (t.rd false (if ok then m.toNat else L) f.x f.a) ++ [.p L f.cc.toNat ok]))
      sh (.shfi f) (fun _ b => b) ∧ sh (.shfx f) (fun L b => ((L ^^^ b : Nat) : Int)) ∧ sh (.shfu f) (fun L b => (L : Int) - b) ∧
      sh (.shfd f) (fun L b => (L : Int) + b))

/-! ## Control flow -/

/-- Branches, jumps, calls and counted loops (R132, R133, R135, R136): where the PC goes, and that nothing else changes but the link and
the counter. -/
def Obligations.BranchesJumpsAndLoops : Prop :=
  ∀ (s : State) (c q e : Nat) (t : Team) (f : BraF), Plain s c q e t →
    let cx := Cx.at s c q e t
    let x := (s.core c).entry q e
    let goes := fun (i : Instr) (taken : Bool) (len : Nat) (target : PCWord) (t' : Team) =>
      ∃ s', exec i s = .next s' ∧ s.Moves s' c q e (if taken then x.jumped target else x.passed len) t'
    let near := match f.tgt with
      | .rel20 v => x.pc + 4 * v.signExtend 56
      | .rel32 v => x.pc + (v &&& 0xFFFFFFFC).signExtend 56
      | .reg _ => x.pc
    goes (.bra f) (if f.c.w then xor (t.pg f.c.ps.toNat) f.c.pn else !f.c.pn) f.tgt.len near t ∧
    goes (.brany f) (decide (∃ L ∈ cx.active, xor ((t.lane L).pr f.c.ps.toNat) f.c.pn = true)) f.tgt.len near t ∧
    goes (.brall f) (decide (∀ L ∈ cx.active, xor ((t.lane L).pr f.c.ps.toNat) f.c.pn = true)) f.tgt.len near t ∧
    (∀ r, f.tgt = .reg r → let pc := (t.rg r.toNat).setWidth 56
      ((cx.takes f.c = true → pc &&& 3 = 0) → goes (.jmp f) (cx.takes f.c) 8 pc t ∧ goes (.ret f) (cx.takes f.c) 8 pc t) ∧
      (cx.takes f.c = true → pc &&& 3 ≠ 0 → exec (.jmp f) s = .next (cx.illegal s 0x0A) ∧ exec (.ret f) s = .next (cx.illegal s 0x0A) ∧
        exec (.call f) s = .next (cx.illegal s 0x0A))) ∧
    (let pc := match f.tgt with | .reg r => (t.rg r.toNat).setWidth 56 | _ => near
     (cx.takes f.c = true → (∃ r, f.tgt = .reg r) → pc &&& 3 = 0) →
     goes (.call f) (cx.takes f.c) f.tgt.len pc
      (if cx.takes f.c then t.put [.g f.d.toNat ((x.pc + BitVec.ofNat 56 f.tgt.len).setWidth 64)] else t)) ∧
    (let n := t.rg f.d.toNat - 1
     goes (.loop f) (cx.takes f.c && decide (n ≠ 0)) f.tgt.len near (if cx.takes f.c then t.put [.g f.d.toNat n] else t))

/-- The divergent branch (R134): uniform when no lane or every lane takes it, else a split, the taken lanes going to the lowest free
entry with the split record, the others going on in place, below whatever record the fragment had; without a free entry the two paths run
one after the other, and without a free serial slot the branch traps (R130, R131). One free entry of quadrant 0 that is kept for the agent
slot is not free for a split (R162). And what a fragment does that reaches its join address: it fuses with the one that waits there (R129),
or takes the pending lanes of its serial record, or the lanes that wait in it (R130). -/
def Obligations.DivergentBranch : Prop :=
  (∀ (s : State) (c q e : Nat) (t : Team) (f : BrdF), Plain s c q e t →
    let cx := Cx.at s c q e t
    let k := s.core c
    let x := k.entry q e
    let target := x.pc + 4 * f.tgt.signExtend 56
    let join := x.pc + 4 * f.join.signExtend 56
    let taken := maskOf (cx.part f.c)
    let rest := x.mask &&& ~~~taken
    (rest = 0 → ∃ s', exec (.brd f) s = .next s' ∧ s.Moves s' c q e (x.jumped target) t) ∧
    (rest ≠ 0 → taken = 0 → ∃ s', exec (.brd f) s = .next s' ∧ s.Moves s' c q e (x.passed 8) t) ∧
    (∀ n, rest ≠ 0 → taken ≠ 0 → target ≠ join → x.pc + 8 ≠ join → (List.range 64).find? (fun i => decide ((k.entry q i).st = .free)) = some n →
      (q ≠ 0 ∨ x.team = agentSlot ∨ (k.team? agentSlot).isSome = true ∨ ∃ m < 64, m ≠ n ∧ (k.entry q m).st = .free) →
      k.single q x.team = true → x.live x.team = true → x.st = .running → (k.quad q).length = 64 →
      ∃ s', exec (.brd f) s = .next s' ∧
        s' = (s.setCore c { ((k.setEntry q n { Entry.empty with
            st := .running, team := x.team, pc := target, mask := taken, inner := some ⟨false, n⟩, isRec := true, jaddr := join }).setEntry q e
          { x.passed 8 with mask := rest, inner := some ⟨false, n⟩ }).setTeam x.team t with trq := (s'.core c).trq }).bump)) ∧
  (∀ (s : State) (c q e : Nat) (t : Team) (f : BrdF), Quiet s c q e t →
    let cx := Cx.at s c q e t
    let k := s.core c
    let x := k.entry q e
    let target := x.pc + 4 * f.tgt.signExtend 56
    let join := x.pc + 4 * f.join.signExtend 56
    let taken := maskOf (cx.part f.c)
    let rest := x.mask &&& ~~~taken
    let free := k.freeEntry q (decide (x.team = agentSlot))
    let serial := (List.range 32).find? fun i => (t.serials[i]?.getD none).isNone
    let ends := fun (k' : Core) => (∀ i, k'.reach q i x.team = none) → (∀ i, k'.fuse q i x.team = none) →
      ∃ s', exec (.brd f) s = .next s' ∧ s' = (s.setCore c { k' with trq := (s'.core c).trq }).bump
    rest ≠ 0 → taken ≠ 0 →
    (∀ n, free = some n → ends (((k.setEntry q n { Entry.empty with
        st := .running, team := x.team, pc := target, mask := taken, inner := some ⟨false, n⟩, isRec := true, jaddr := join, outer := x.inner
      }).setEntry q e
      { x.passed 8 with mask := rest, inner := some ⟨false, n⟩ }).setTeam x.team t)) ∧
    (∀ i, free = none → serial = some i → ends ((k.setEntry q e { x.jumped target with mask := taken, inner := some ⟨true, i⟩ }).setTeam x.team
      { t with serials := t.serials.set i (some ⟨join, x.pc + 8, x.inner, rest, 0⟩), areaDirty := true })) ∧
    (free = none → serial = none → exec (.brd f) s = .next (cx.trap s 0x08 0 0xFFFF 0 0))) ∧
  (∀ (s : State) (c q e n : Nat) (t : Team) (f : BraF) (v : BitVec 20), Quiet s c q e t → n < 64 → e < 64 → n ≠ e → f.c.w = false → f.c.pn = false → f.tgt = .rel20 v →
    let k := s.core c
    let x := k.entry q e
    let y := k.entry q n
    x.st = .running → x.frozen = false → x.isRec = false → x.mask ≠ 0 → x.inner = some ⟨false, n⟩ → x.pc + 4 * v.signExtend 56 = y.jaddr →
    y.st = .waiting → y.frozen = false → y.isRec = true → y.team = x.team → y.inner = some ⟨false, n⟩ → y.outer = none → t.mode ≠ .retired →
    (k.quad q).length = 64 → (∀ i, i ≠ e → i ≠ n → (k.entry q i).team ≠ x.team ∨ (k.entry q i).st = .free) →
    ∃ s', exec (.bra f) s = .next s' ∧ (s'.core c).entry q (max e n) = Entry.empty ∧ (s'.core c).team? x.team = some t ∧
      ((s'.core c).entry q (min e n)).st = .running ∧ ((s'.core c).entry q (min e n)).pc = y.jaddr ∧
      ((s'.core c).entry q (min e n)).mask = x.mask ||| y.mask ∧ ((s'.core c).entry q (min e n)).inner = none ∧
      ((s'.core c).entry q (min e n)).isRec = false) ∧
  (∀ (s : State) (c q e i : Nat) (t : Team) (f : BraF) (v : BitVec 20) (r : Serial), Quiet s c q e t → f.c.w = false → f.c.pn = false →
    f.tgt = .rel20 v →
    let k := s.core c
    let x := k.entry q e
    x.st = .running → x.frozen = false → x.isRec = false → x.mask ≠ 0 → x.inner = some ⟨true, i⟩ → t.serials[i]? = some (some r) →
    x.pc + 4 * v.signExtend 56 = r.jaddr → r.resume ≠ r.jaddr → r.outer = none → t.mode ≠ .retired → e < 64 → (k.quad q).length = 64 →
    x.team < 33 → k.slots.length = 33 → (∀ j, j ≠ e → (k.entry q j).team ≠ x.team ∨ (k.entry q j).st = .free) →
    ∃ s' t', exec (.bra f) s = .next s' ∧ (s'.core c).team? x.team = some t' ∧ ((s'.core c).entry q e).st = .running ∧
      (if r.pending ≠ 0 then ((s'.core c).entry q e).mask = r.pending ∧ ((s'.core c).entry q e).pc = r.resume ∧
          ((s'.core c).entry q e).inner = some ⟨true, i⟩ ∧ t'.serials[i]? = some (some { r with pending := 0, held := r.held ||| x.mask })
        else ((s'.core c).entry q e).mask = x.mask ||| r.held ∧ ((s'.core c).entry q e).pc = r.jaddr ∧
          ((s'.core c).entry q e).inner = none ∧ t'.serials[i]? = some none))

/-- `exit` (R138, R144): the lanes taking part leave, a team that keeps lanes goes on at the next instruction, and a team without
lanes retires; its slot and its entries are free once nothing of it is on its way. -/
def Obligations.ExitLeavesLanes : Prop :=
  ∀ (s : State) (c q e : Nat) (t : Team) (cc : Ctl), Plain s c q e t → Steady s c q e t → (s.core c).Idle → (Cx.at s c q e t).Passes →
    let cx := Cx.at s c q e t
    let k := s.core c
    let x := k.entry q e
    let lanes := if cc.w then (if cx.takes cc then cx.active else []) else cx.part cc
    let rest := x.mask &&& ~~~maskOf lanes
    x.st = .running → x.frozen = false → k.single q x.team = true → (∀ i, i ≠ e → (k.entry q i).team ≠ x.team ∨ (k.entry q i).st = .free) →
    (lanes = [] → exec (.exit cc) s = .next (s.after c q e (x.passed 8) t)) ∧
    (lanes ≠ [] → rest ≠ 0 → ∃ s' t', exec (.exit cc) s = .next s' ∧ (s'.core c).entry q e = { x.passed 8 with mask := rest } ∧
      (s'.core c).team? x.team = some t' ∧ t'.lanes = t.lanes ∧ t'.g = t.g ∧ t'.regionPc = x.pc + 8 ∧ s.Local s' c) ∧
    (lanes ≠ [] → rest = 0 → t.serials.all (·.isNone) = true → ∃ s', exec (.exit cc) s = .next s' ∧
      (if x.team < 32 ∧ t.busy = [] ∧ k.slotIdle x.team = true then (s'.core c).team? x.team = none ∧ (s'.core c).entry q e = Entry.empty
       else (∃ t', (s'.core c).team? x.team = some t' ∧ t'.mode = .retired) ∧ (s'.core c).entry q e = { x.passed 8 with mask := 0 }) ∧
      s.Local s' c)

/-- Waits, fault checks and regions (R141 to R143, R331): with every result there and the record clear they go on, and `rgn` of a
team that is one fragment without a join record names the restart point and the live registers; with a pending record the check stops the
team at the instruction itself, outside the agent slot. -/
def Obligations.WaitsFaultChecksAndRegions : Prop :=
  (∀ (s : State) (c q e : Nat) (t : Team), Plain s c q e t → (s.core c).Idle → (Cx.at s c q e t).Passes →
    let cx := Cx.at s c q e t
    let x := (s.core c).entry q e
    (∀ cc : Ctl, exec (.waitla cc) s = .next (s.after c q e (x.passed 8) t) ∧ exec (.fchk cc) s = .next (s.after c q e (x.passed 8) t)) ∧
    (∀ f : DB, exec (.rgn f) s = .next (s.after c q e (x.passed f.b.len)
      (if cx.acts f.c = true ∧ (s.core c).single q x.team = true then
        { t with regionPc := x.pc + BitVec.ofNat 56 f.b.len, regionMask := BitVec.ofNat 32 (cx.bval false 0 false .n f.b) &&&
          liveGroups t.nregs } else t)))) ∧
  (∀ (s : State) (c q e : Nat) (t : Team), Plain s c q e t → (s.core c).Idle → ¬ (Cx.at s c q e t).Passes →
    let cx := Cx.at s c q e t
    (∀ cc : Ctl, cx.acts cc = true → exec (.fchk cc) s = .next (cx.checkStop s)) ∧
    (∀ f : DB, cx.acts f.c = true → exec (.rgn f) s = .next (cx.checkStop s)) ∧
    (∀ cc : Ctl, (if cc.w then cx.takes cc = true ∧ cx.active ≠ [] else cx.part cc ≠ []) → exec (.exit cc) s = .next (cx.checkStop s)))

/-! ## Exceptions -/

/-- Taking an exception (R337): the frame keeps the stop, the handler starts at the launch's trap entry one level higher in the team's
lowest entry with every lane that has not exited, the stopped fragments are kept, and memory does not change. -/
def Obligations.TrapEntersTheHandler : Prop :=
  ∀ (s : State) (c q e : Nat) (t : Team) (l : LSlot) (cls det : BitVec 8) (lane : BitVec 16) (addr : DWord) (skip : Nat),
    Plain s c q e t → Steady s c q e t → (s.core c).tbs = [] →
    let k := s.core c
    let slot := (k.entry q e).team
    let pc := (k.entry q e).pc
    let own := (List.range 64).filter fun i => decide ((k.entry q i).st ≠ .free ∧ (k.entry q i).team = slot)
    k.lslotOf slot = some l → l.launch.trapent ≠ 0 → deliversToHandler cls = true → t.level < 3 → t.mode ≠ .regrp → e ∈ own →
    (k.quad q).length = 64 →
    ∃ s' t', (Cx.at s c q e t).trap s cls det lane addr skip = s' ∧ s.Local s' c ∧ (s'.core c).team? slot = some t' ∧
      t'.level = t.level + 1 ∧ t'.lanes = t.lanes ∧ t'.g = t.g ∧ t'.fflags = t.fflags ∧
      (∃ fr, t'.frames = t.frames ++ [fr] ∧ fr.stopPc = pc ∧ fr.resumePc = pc + BitVec.ofNat 56 skip ∧ fr.cls = cls ∧ fr.detail = det ∧
        fr.lane = lane ∧ fr.faddr = addr ∧ fr.level = BitVec.ofNat 8 (t.level + 1) ∧ fr.seq = t.seq) ∧
      ((s'.core c).entry q (own.headD 0)).st = .running ∧ ((s'.core c).entry q (own.headD 0)).pc = l.launch.trapent ∧
      ((s'.core c).entry q (own.headD 0)).mask = k.allLanes slot t ∧
      (∀ i ∈ own, i ≠ own.headD 0 → ((s'.core c).entry q i).frozen = true ∧ ((s'.core c).entry q i).pc = (k.entry q i).pc ∧
        ((s'.core c).entry q i).mask = (k.entry q i).mask) ∧
      ∃ saved, t'.saves = t.saves ++ [saved] ∧ ∀ i ∈ own, (k.entry q i).frozen = false → ∃ f ∈ saved, f.idx = i ∧ f.img.pc = (k.entry q i).pc ∧
        f.img.mask = (k.entry q i).mask ∧ f.raised = decide (i = e)

/-- Where an exception goes (R327, R348): to the handler when the launch names one, the class has one and the level is below 3; else the
command ends. -/
def Obligations.ExceptionDelivery : Prop :=
  ∀ (k : Core) (slot : Nat) (t : Team) (fr : Frame) (r : Option Nat) (fpc fva : DWord),
    (∀ l, k.lslotOf slot = some l → l.launch.trapent ≠ 0 → fr.cls ≠ 0x02 → fr.cls ≠ 0x04 → fr.cls ≠ 0x0B → t.level < 3 →
      k.deliver slot t fr r fpc fva = k.enterTrap slot t fr r l.launch.trapent) ∧
    ((k.lslotOf slot = none ∨ (∃ l, k.lslotOf slot = some l ∧ l.launch.trapent = 0) ∨ fr.cls = 0x02 ∨ fr.cls = 0x04 ∨ fr.cls = 0x0B ∨ t.level ≥ 3) →
      k.deliver slot t fr r fpc fva = k.endCommand slot fr.cls fpc fva) ∧
    (∀ u b cls, slot ≠ agentSlot → slot < 33 → k.team? slot = some u → u.mode = .run → k.block? u.block = some b → b.ending = none →
      (∃ b', (k.endCommand slot cls fpc fva).block? u.block = some b' ∧ b'.ending = some (cls, slot, fpc, fva)) ∧
      ∃ u', (k.endCommand slot cls fpc fva).team? slot = some u' ∧ u'.mode = .halted cls none)

/-- The instructions that raise an exception take it (R66, R67, R139, R237): `trap`, an illegal instruction, and a fetch fault. -/
def Obligations.InstructionsThatTrap : Prop :=
  ∀ (s : State) (c q e : Nat) (t : Team), Plain s c q e t →
    let cx := Cx.at s c q e t
    (∀ f : CodeF, exec (.trap f) s = .next (if cx.acts f.c then cx.trap s 0x0A f.code 0xFFFF 0 8
      else s.after c q e (((s.core c).entry q e).passed 8) t)) ∧
    (∀ d : BitVec 4, exec (.illegalInstruction d) s = .next (cx.trap s 0x01 (d.setWidth 8) 0xFFFF 0 0)) ∧
    (∀ va : Nat, exec (.fetchFault va) s = .next (cx.trap s 0x02 0 0xFFFF (BitVec.ofNat 64 va) 0))

/-- Return from an exception (R338, R339): a handler of one fragment without a join record lowers the level, drops the frame, and gives
the saved fragment back, the raising one at the resume PC; at level 0 the instruction is illegal. -/
def Obligations.TrapReturn : Prop :=
  ∀ (s : State) (c q e : Nat) (t : Team) (cc : Ctl), Plain s c q e t → Steady s c q e t →
    let cx := Cx.at s c q e t
    let k := s.core c
    let slot := (k.entry q e).team
    (t.level = 0 → exec (.tret cc) s = .next (cx.trap s 0x01 0x09 0xFFFF 0 0)) ∧
    (∀ fr f i, t.level ≠ 0 → k.liveOf q slot = [e] → (k.entry q e).isRec = false → t.frames.getLast? = some fr →
      t.saves.getLast? = some [f] → f.quad = q → f.idx = i → i < (k.quad q).length → (k.quad q).length = 64 → f.img.inner = none → f.img.mask ≠ 0 →
      f.img.isRec = false → f.img.team = slot → f.img.st = .running → f.img.pend = [] →
      (∀ j, j ≠ e → j ≠ i → (k.entry q j).team ≠ slot ∨ (k.entry q j).st = .free) →
      ∃ s' t', exec (.tret cc) s = .next s' ∧ s.Local s' c ∧ (s'.core c).team? slot = some t' ∧ t'.level = t.level - 1 ∧
        t'.frames = t.frames.dropLast ∧ t'.saves = t.saves.dropLast ∧ t'.lanes = t.lanes ∧
        (s'.core c).entry q i = { f.img with frozen := false, pc := if f.raised then fr.resumePc else f.img.pc })

/-! ## Memory -/

/-- Loads, prefetches, atomics and reducing stores whose bytes are not in the core leave as one request, and their destinations wait for
it (R174, R179, R186 to R192, R328). -/
def Obligations.RequestsLeaveTheCore : Prop :=
  ∀ (s : State) (c q e : Nat) (t : Team), Plain s c q e t →
    let cx := Cx.at s c q e t
    cx.MayAccess s →
    let fit := fun (accs : List Acc) (kind : ReqKind) => accs ≠ [] ∧ (kind.parts accs).length ≤ 4096
    let leaves := fun (i : Instr) (kind : ReqKind) (accs : List Acc) (dests : List RegRef) (len la : Nat) =>
      ∃ s', exec i s = .next s' ∧ s.Requested s' c q e t kind accs dests [] len la
    (∀ (f : MemF) (i : Instr) (acq : Bool), (i, acq) ∈ [(Instr.ld f, false), (.lda f, true)] →
      let accs := cx.globalAccs f.c f.a f.b f.size.bytes f.d.toNat
      let kind := ReqKind.load (sizeSigned f.size) f.c.w (acq || f.v) acq
      fit accs kind → Passing accs [(0x03, Acc.aligned), (0x04, fun a => cx.k.leaseOk cx.slot a.va a.size true false)] →
      (∀ a ∈ accs, acq = false → cx.k.l1Hit (s.identOf c cx.slot) a.va a.size = none) →
      leaves i kind accs ((cx.units f.c).flatMap fun L => loadRefs f.c.w L f.size.bytes f.d.toNat) f.b.len f.c.la.toNat) ∧
    (∀ f : AtomF, f.sp = false → (f.rel = true → cx.k.Idle ∧ cx.Passes) →
      let accs := cx.atomAccs f
      let kind := ReqKind.atomic f.op f.ty f.c.w f.nr f.acq f.rel false
      fit accs kind → Passing accs [(0x03, Acc.aligned), (0x04, fun a => cx.k.leaseOk cx.slot a.va a.size true true)] →
      leaves (.atom f) kind accs (atomDests f cx) f.b.len (if f.nr then 0 else f.c.la.toNat)) ∧
    (∀ f : MredF,
      let accs := ((List.range (f.cnt.toNat + 1)).map (cx.mcstAccs f.c f.a f.b f.d 4)).flatten
      let kind := ReqKind.atomic (mredAt f.op) (mredTy f.ty) false true false false true
      fit accs kind → Passing accs cx.mcstConds → leaves (.mred f) kind accs [] 8 0) ∧
    (∀ f : PfF,
      let accs := (cx.globalAccs f.c f.a f.b 1 0).filter fun a => cx.k.leaseOk cx.slot a.va 1 true false
      fit accs (.prefetch f.l2) → leaves (.pf f) (.prefetch f.l2) accs [] f.b.len 0) ∧
    (∀ f : MemF,
      let accs := (cx.scratchAccs f).filterMap fun a => cx.k.stashAcc t.block a
      f.v = false → fit accs (.stash (sizeSigned f.size) f.c.w) → Passing (cx.scratchAccs f) (cx.scratchConds f false) →
      (s.core c).sessions = [] → (∀ a ∈ cx.scratchAccs f, (cx.k.winAt t.block a.va).isSome = true) → cx.k.stash = [] →
      leaves (.lds f) (.stash (sizeSigned f.size) f.c.w) accs ((cx.units f.c).flatMap fun L => loadRefs f.c.w L f.size.bytes f.d.toNat)
        f.b.len f.c.la.toNat)

/-- A load whose bytes are all in the L1 has its values at once (R170, R179). -/
def Obligations.LoadsServedByTheL1 : Prop :=
  ∀ (s : State) (c q e : Nat) (t : Team) (f : MemF), Plain s c q e t →
    let cx := Cx.at s c q e t
    let accs := cx.globalAccs f.c f.a f.b f.size.bytes f.d.toNat
    cx.MayAccess s → (s.core c).Idle → accs ≠ [] → f.c.la = 0 →
    Passing accs [(0x03, Acc.aligned), (0x04, fun a => cx.k.leaseOk cx.slot a.va a.size true false)] →
    ∀ line : Acc → CSector, (∀ a ∈ accs, cx.k.l1Hit (s.identOf c cx.slot) a.va a.size = some (line a) ∧ (line a).watch = false) →
    ∃ fl, exec (.ld f) s = .next (({ s with nextId := s.nextId + 1 } : State).after c q e (((s.core c).entry q e).passed f.b.len)
      (({ t with seq := t.seq + 1, flying := fl } : Team).put (accs.flatMap fun a =>
        loadWr f.c.w (decide (f.size = .s8 ∨ f.size = .s16)) a.lane a.size a.reg (sectorNat (line a).data (a.va % 32) a.size))))

/-- Global stores and multicast stores enter the late-fault store buffer (R174, R179, R187, R191). -/
def Obligations.StoresEnterTheBuffer : Prop :=
  ∀ (s : State) (c q e : Nat) (t : Team), Plain s c q e t →
    let cx := Cx.at s c q e t
    cx.MayAccess s →
    let taken := fun (fl : List Flying) => { cx with t := { t with seq := t.seq + 1, flying := fl } }
    (∀ (f : MemF) (i : Instr) (rel : Bool), (i, rel) ∈ [(Instr.st f, false), (.stl f, true)] → (rel = true → cx.k.Idle ∧ cx.Passes) →
      let accs := cx.storeAccs f
      accs ≠ [] → (sectorsOf accs).length ≤ 512 →
      Passing accs [(0x03, Acc.aligned), (0x04, fun a => cx.k.leaseOk cx.slot a.va a.size false true), (0x06, cx.l1Writable s)] →
      ∃ s' fl, exec i s = .next s' ∧ s.Stored s' c q e t cx.k ((taken fl).storeEnts s accs f.c.w false rel) f.b.len) ∧
    (∀ f : McstF,
      let n := if f.d64 then 8 else 4
      let groups := (List.range (f.cnt.toNat + 1)).map (cx.mcstAccs f.c f.a f.b f.d n)
      groups.flatten ≠ [] → (groups.map fun g => (sectorsOf g).length).sum ≤ 512 →
      Passing groups.flatten (cx.mcstConds ++ [(0x06, cx.l1Writable s)]) →
      ∃ s' es, exec (.mcst f) s = .next s' ∧ s.Stored s' c q e t cx.k es 8 ∧ es.map (·.va) = groups.flatMap sectorsOf)

/-- Scratchpad loads, stores and atomics of a block without windows and sessions act at once on the block's own bytes (R168, R179 to
R182, R189, R190). -/
def Obligations.ScratchpadAccesses : Prop :=
  ∀ (s : State) (c q e : Nat) (t : Team), Plain s c q e t →
    let cx := Cx.at s c q e t
    let k := s.core c
    cx.MayAccess s → k.sessions = [] → k.wins.all (fun w => !w.valid) = true →
    (∀ f : MemF, f.v = false → f.c.la = 0 → Passing (cx.scratchAccs f) (cx.scratchConds f false) →
      exec (.lds f) s = .next (s.after c q e (((s.core c).entry q e).passed f.b.len) (t.put ((cx.scratchAccs f).flatMap fun a =>
        loadWr f.c.w (decide (f.size = .s8 ∨ f.size = .s16)) a.lane a.size a.reg (k.scratchNat t.block a.va a.size))))) ∧
    (∀ f : MemF, f.v = false → Passing (cx.scratchAccs f) (cx.scratchConds f true) →
      ∃ s', exec (.sts f) s = .next s' ∧ s.Local s' c ∧ s' = (s.setCore c (((cx.scratchAccs f).foldl (fun k a => k.scratchWrite t.block a.va
        (toLeBytes a.size (cx.storeData f.c.w (if f.c.w then 0 else a.lane) f.size.bytes f.d))) k).setEntry q e
          ((k.entry q e).passed f.b.len)  |>.setTeam cx.slot t)).bump) ∧
    (∀ f : AtomF, f.sp = true → f.c.la = 0 → cx.atomAccs f ≠ [] →
      Passing (cx.atomAccs f) [(0x03, Acc.aligned), (0x05, fun a => k.inRange t.block a.va a.size)] →
      let r := k.atomScratch t.block f.op f.ty (cx.atomAccs f)
      ∃ s', exec (.atom f) s = .next s' ∧ s' = (s.setCore c ((r.1.setEntry q e ((k.entry q e).passed f.b.len)).setTeam cx.slot
        (t.put (if f.nr then [] else r.2.flatMap fun x => loadWr f.c.w (decide (f.ty = .s32)) x.1.lane x.1.size x.1.reg x.2)))).bump)

/-- The lanes of one atomic word act one after another in ascending order, each getting the value the one before left (R42, R190): a float
add is one rounding to nearest even of the sum, and sets no flag. -/
def Obligations.AtomicLanesInOrder : Prop :=
  ∀ (op : AtOp) (ty : AtTy) (as : List Acc) (a : Acc) (old : Nat),
    let r := atomLanes op ty as old
    let b := a.data.toNat % 2 ^ (8 * a.size)
    atomLanes op ty [] old = (old, []) ∧
    atomLanes op ty (as ++ [a]) old = (atomNew op ty r.1 b (a.cmp.toNat % 2 ^ (8 * a.size)), r.2 ++ [(a, r.1)]) ∧
    (∀ x y z : Nat, atomNew .exch ty x y z = y ∧ atomNew .cas ty x y z = (if x = z then y else x) ∧
      (∀ f, atTyKind ty = .flt f → atomNew .add ty x y z = (f.arith .add ⟨.rne, false, false⟩ x y 0).bits) ∧
      (∀ sg n, atTyKind ty = .int sg n → atomNew .add ty x y z = (x + y) % 2 ^ n ∧
        atomNew .min ty x y z = (if intVal sg n x ≤ intVal sg n y then x else y) ∧
        atomNew .max ty x y z = (if intVal sg n y ≤ intVal sg n x then x else y)))

/-- The first failing lane of the first failing condition traps before anything is done (R173, R179, R189, R191). -/
def Obligations.MemoryChecksTrap : Prop :=
  ∀ (s : State) (c q e : Nat) (t : Team) (cls : BitVec 8) (L va : Nat), Plain s c q e t →
    let cx := Cx.at s c q e t
    let trap := cx.trap s cls 0 (BitVec.ofNat 16 L) (BitVec.ofNat 64 va) 0
    let lease := fun rd wr (a : Acc) => cx.k.leaseOk cx.slot a.va a.size rd wr
    cx.MayAccess s → (s.core c).Idle → cx.Passes →
    (∀ f : MemF, firstFail (cx.globalAccs f.c f.a f.b f.size.bytes f.d.toNat) [(0x03, Acc.aligned), (0x04, lease true false)] = some (cls, L, va) →
      exec (.ld f) s = .next trap ∧ exec (.lda f) s = .next trap) ∧
    (∀ f : MemF, firstFail (cx.storeAccs f) [(0x03, Acc.aligned), (0x04, lease false true), (0x06, cx.l1Writable s)] = some (cls, L, va) →
      exec (.st f) s = .next trap ∧ (cx.units f.c ≠ [] → exec (.stl f) s = .next trap)) ∧
    (∀ f : MemF, firstFail (cx.scratchAccs f) (cx.scratchConds f false) = some (cls, L, va) → exec (.lds f) s = .next trap) ∧
    (∀ f : AtomF, f.sp = false → firstFail (cx.atomAccs f) [(0x03, Acc.aligned), (0x04, lease true true)] = some (cls, L, va) →
      exec (.atom f) s = .next trap) ∧
    (∀ f : MredF, firstFail (((List.range (f.cnt.toNat + 1)).map (cx.mcstAccs f.c f.a f.b f.d 4)).flatten) cx.mcstConds = some (cls, L, va) →
      exec (.mred f) s = .next trap)

/-- `fence` (R186, R187): with nothing on its way a release goes on, and an acquire drops every word that the core does not own. -/
def Obligations.FenceOrders : Prop :=
  ∀ (s : State) (c q e : Nat) (t : Team) (f : FenceF), Plain s c q e t → (s.core c).Idle → (Cx.at s c q e t).Passes →
    let s1 := s.after c q e (((s.core c).entry q e).passed 8) t
    exec (.fence f) s = .next (if (Cx.at s c q e t).acts f.c && f.acq then s1.acquire c else s1) ∧
    (∀ x ∈ ((s1.acquire c).core c).l1, ∀ w < 8, x.valid.getLsbD w = true → s.ownsWord c false x w = true) ∧
    (∀ x ∈ ((s1.acquire c).core c).stash, ∀ w < 8, x.valid.getLsbD w = true → s.ownsWord c true x w = true) ∧
    ((s1.acquire c).core c).gcache = [] ∧
    (∀ a, memGet (s1.acquire c).mem a = memGet s.mem a) ∧ (s1.acquire c).slices = s.slices

/-- Stash windows (R183 to R185). `stmap` completes with a status below 6, and only status 0 maps the window. `stflush` and `stunmap`
complete: a window not owned answers 1, an owned one 0 or 6, 0 when no sector is dirty, and `stunmap` leaves it unmapped. Choices of the
model: where several of the statuses 1 to 5 hold, `stmap` answers the lowest (assumption 125), and the lease check comes before the
status (assumption 27). -/
def Obligations.StashWindows : Prop :=
  ∀ (s : State) (c q e : Nat) (t : Team) (f : StashF), Plain s c q e t →
    let cx := Cx.at s c q e t
    let k := s.core c
    let n := f.win.toNat
    let b := cx.bval true 0 true .n f.b
    let soff := b % 2 ^ 20
    let slen := b / 2 ^ 20 % 2 ^ 20
    let gbase := (t.rg f.a.toNat).toNat
    let w := k.wins[n]?.getD StashWin.empty
    let st := k.mapStatus t.block n gbase soff slen
    let other := k.wins.filter (·.valid)
    let t1 := fun (x : Nat) => t.put [.g f.d.toNat (BitVec.ofNat 64 x)]
    cx.takes f.c = true → cx.acqBusy = false →
    ((slen = 0 ∨ k.leaseOk cx.slot gbase slen true (!f.ro) = true) →
      exec (.stmap f) s = .next (s.setCore c { (k.setEntry q e ((k.entry q e).passed f.b.len)).setTeam cx.slot (t1 st) with
        wins := if st = 0 then k.wins.set n ⟨true, f.ro, t.block, soff, slen, gbase⟩ else k.wins }).bump) ∧
    (slen ≠ 0 → k.leaseOk cx.slot gbase slen true (!f.ro) = false →
      exec (.stmap f) s = .next (cx.trap s 0x04 0 0xFFFF (BitVec.ofNat 64 gbase) 0)) ∧
    st < 6 ∧
    (let meets := ∃ v ∈ other, overlaps v.gbase v.slen gbase slen = true
     let shares := ∃ v ∈ other, v.block = t.block ∧ overlaps v.soff v.slen soff slen = true
     let uneven := gbase % 32 ≠ 0 ∨ soff % 32 ≠ 0 ∨ slen % 32 ≠ 0 ∨ slen = 0
     (st = 1 ↔ w.valid = true) ∧ (st = 2 ↔ w.valid = false ∧ meets) ∧ (st = 3 ↔ w.valid = false ∧ ¬ meets ∧ shares) ∧
     (st = 4 ↔ w.valid = false ∧ ¬ meets ∧ ¬ shares ∧ uneven) ∧
     (st = 5 ↔ w.valid = false ∧ ¬ meets ∧ ¬ shares ∧ ¬ uneven ∧ k.scratchSize t.block < soff + slen)) ∧
    (st = 0 → gbase % 32 = 0 ∧ soff % 32 = 0 ∧ slen % 32 = 0 ∧ slen ≠ 0 ∧ soff + slen ≤ k.scratchSize t.block ∧
      ∀ v ∈ other, overlaps v.gbase v.slen gbase slen = false ∧ (v.block = t.block → overlaps v.soff v.slen soff slen = false)) ∧
    (w.valid = false ∨ w.block ≠ t.block →
      exec (.stflush f) s = .next (s.after c q e ((k.entry q e).passed 8) (t1 1)) ∧
      exec (.stunmap f) s = .next (s.after c q e ((k.entry q e).passed 8) (t1 1))) ∧
    (w.valid = true → w.block = t.block → k.Idle → cx.seqFree s = true →
      let dirty := k.stash.any fun y => w.holds (s.identOf c cx.slot) y && decide (y.owned ≠ 0)
      let s0 := s.setCore c (if dirty then cx.takeSeq s 0 else cx).core
      (s0.stashFlush c { s0.identOf c cx.slot with owner := cx.owner s } w).1.waitsFor (cx.owner s) = false →
      (∃ s' x, exec (.stflush f) s = .next s' ∧ (x = 0 ∨ x = 6) ∧ (s'.core c).wins = k.wins ∧
        (s'.core c).entry q e = (k.entry q e).passed 8 ∧ ∃ t', (s'.core c).team? cx.slot = some t' ∧ t'.g = (t1 x).g ∧ t'.lanes = t.lanes) ∧
      (∃ s' x, exec (.stunmap f) s = .next s' ∧ (x = 0 ∨ x = 6) ∧ (s'.core c).wins = k.wins.set n StashWin.empty ∧
        (∀ y ∈ (s'.core c).stash, w.holds (s.identOf c cx.slot) y = false) ∧ (s'.core c).entry q e = (k.entry q e).passed 8 ∧
        ∃ t', (s'.core c).team? cx.slot = some t' ∧ t'.g = (t1 x).g ∧ t'.lanes = t.lanes)) ∧
    (w.valid = true → w.block = t.block → k.Idle → (∀ y ∈ k.stash, w.holds (s.identOf c cx.slot) y = true → y.owned = 0) →
      s.held = [] → (∀ b ∈ s.rbuf, b.owner ≠ cx.owner s) →
      exec (.stflush f) s = .next (({ s with nextId := s.nextId + 1 } : State).after c q e ((k.entry q e).passed 8) (t1 0)) ∧
      ∃ s', exec (.stunmap f) s = .next s' ∧ (∀ y ∈ (s'.core c).stash, y ∈ k.stash) ∧ (s'.core c).team? cx.slot = some (t1 0))

/-! ## The stream -/

/-- Instructions of a stream that act on its context alone (R136, R140, R229, R235, R246, R249): each ends at the next instruction or
at its target, and changes one register of the context. What stops a stream (R237): with nothing in flight the status word gets its STATE,
CAUSE and DETAIL, and the command of the block begins to end; a barrier object outside the allocation stops it, and, by the model's choice
(log 108), one inside a stash window. -/
def Obligations.StreamInstructionsAndStops : Prop :=
  (∀ (s : State) (c i b : Nat) (x : Seq), Streaming s c i x b →
    let ends := fun (ins : Instr) (y : Seq) (pc : PCWord) => exec ins s = .next (s.afterSeq c i (y.at pc))
    let near := fun (tgt : Tgt) => match tgt with
      | .rel20 v => x.pc + 4 * v.signExtend 56
      | .rel32 v => x.pc + (v &&& 0xFFFFFFFC).signExtend 56
      | .reg _ => x.pc
    (∀ f : BraF, ends (.bra f) x (near f.tgt)) ∧
    (∀ f : BraF, let n := x.c[f.d.toNat]?.getD 0 - 1
      ends (.streamLoop f) { x with c := x.c.set f.d.toNat n } (if n ≠ 0 then near f.tgt else x.pc + BitVec.ofNat 56 f.tgt.len)) ∧
    (∀ cc : Ctl, x.flight = [] → ends (.streamExit cc) { x with status := seqStop x.status 2 0 0 } (x.pc + 8)) ∧
    (∀ (f : DAB) (r : Reg), f.b = .reg r → ends (.xadd f)
      { x with x := x.x.set f.d.toNat (x.x[f.a.toNat]?.getD 0 + x.x[r.toNat]?.getD 0) } (x.pc + 8)) ∧
    (∀ (f : DAB) (v : BitVec 20), f.b = .imm v → ends (.xadd f)
      { x with x := x.x.set f.d.toNat (x.x[f.a.toNat]?.getD 0 + v.signExtend 64) } (x.pc + 8)) ∧
    (∀ (f : DAB) (v : Word), f.b = .lit v → ends (.xadd f)
      { x with x := x.x.set f.d.toNat (x.x[f.a.toNat]?.getD 0 + v.signExtend 64) } (x.pc + 12)) ∧
    (∀ (f : DB) (r : Reg), f.b = .reg r → ends (.cset f) { x with c := x.c.set f.d.toNat (x.c[r.toNat]?.getD 0) } (x.pc + 8)) ∧
    (∀ (f : DB) (v : BitVec 20), f.b = .imm v → ends (.cset f) { x with c := x.c.set f.d.toNat (v.setWidth 64) } (x.pc + 8)) ∧
    (∀ (f : DB) (v : Word), f.b = .lit v → ends (.cset f) { x with c := x.c.set f.d.toNat (v.setWidth 64) } (x.pc + 12)) ∧
    (∀ f : CodeF, ends (.maudit f) { x with audit := if f.code.toNat ≤ 30 then some f.code.toNat else none } (x.pc + 8))) ∧
  (∀ (s : State) (c i b : Nat) (x : Seq), Streaming s c i x b → x.flight = [] →
    let stops := fun (ins : Instr) (st cause detail : Nat) (cls : BitVec 8) (fva : DWord) => exec ins s = .next (s.setCore c
      (((s.core c).setSeq i { x with status := seqStop x.status st cause detail, stall := none, bw := none }).endBlock b cls
        (x.pc.setWidth 64) fva)).bump
    (∀ f : CodeF, stops (.streamTrap f) 3 2 f.code.toNat 0x0A 0) ∧
    (∀ d : BitVec 4, stops (.illegalInstruction d) 3 1 d.toNat 0x01 0) ∧
    (∀ va : Nat, stops (.fetchFault va) 4 6 0 0x02 (BitVec.ofNat 64 va)) ∧
    (∀ f : BarF, (s.core c).inRange b (16 * f.a.toNat) 16 = false ∨ (s.core c).winMeets b (16 * f.a.toNat) 16 = true →
      let out := fun (ins : Instr) => stops ins 4 7 0 0x05 (BitVec.ofNat 64 (16 * f.a.toNat))
      out (.streamBinit f) ∧ out (.streamBarr f) ∧ ((∀ o st, x.bw ≠ some (o, some st)) → out (.streamBwait f))))

/-! ## Barriers -/

/-- Barrier objects in team code and in the stream (R214 to R217, R234): where the object lies in the allocation, outside every stash
window, and no session meets it, `binit` sets it, `barr` arrives on it and answers the phase, and `bwait` answers 0 once the phase has passed, else waits, or answers
2 under `.try`. The object itself (R216): `binit` sets EXPECT, PEND, TX and PHASE; an arrival lowers PEND, not below 0; the arrival that
leaves nothing awaited starts the next phase with PEND at EXPECT again. -/
def Obligations.BarrierInstructionsAndObjects : Prop :=
  ((∀ (s : State) (c q e : Nat) (t : Team) (f : BarF), Plain s c q e t → (s.core c).Idle → (Cx.at s c q e t).Passes →
    let cx := Cx.at s c q e t
    let k := s.core c
    let b := cx.barBlock
    let v := cx.bval true 0 false .n f.b
    let x := k.entry q e
    cx.takes f.c = true → k.inRange b (16 * f.a.toNat) 16 = true → k.winMeets b (16 * f.a.toNat) 16 = false →
    (exec (.binit f) s = .next (s.afterCore c q e (k.barInit b f.a.toNat v)
      (x.passed f.b.len) t)) ∧
    (exec (.barr f) s = .next (s.afterCore c q e (k.barArrive b f.a.toNat v).1 (x.passed f.b.len)
      (t.put [.g f.d.toNat (k.barArrive b f.a.toNat v).2]))) ∧
    (x.bw = none → k.barField b f.a.toNat 3 ≠ v →
      exec (.bwait f) s = .next ((s.after c q e (x.passed f.b.len) (t.put [.g f.d.toNat 0])).acquire c)) ∧
    (∀ st, x.bw = some (f.a.toNat, some st) →
      exec (.bwait f) s = .next ((s.after c q e (x.passed f.b.len) (t.put [.g f.d.toNat (BitVec.ofNat 64 st)])).acquire c)) ∧
    (x.bw = none → k.barField b f.a.toNat 3 = v → f.tr = true →
      exec (.bwait f) s = .next (s.after c q e (x.passed f.b.len) (t.put [.g f.d.toNat 2]))) ∧
    (x.bw = none → k.barField b f.a.toNat 3 = v → f.tr = false →
      exec (.bwait f) s = .next (s.after c q e { x with bw := some (f.a.toNat, none), stall := none } t))) ∧
  (∀ (s : State) (c i b : Nat) (x : Seq) (f : BarF), Streaming s c i x b →
    let k := s.core c
    let v := match f.b with | .reg r => (x.c[r.toNat]?.getD 0).toNat % 2 ^ 32 | .imm v => v.toNat | .simm v => v.toNat | .lit v => v.toNat | .bank _ => 0
    let pc := x.pc + BitVec.ofNat 56 f.b.len
    let ends := fun (ins : Instr) (k : Core) (y : Seq) => exec ins s = .next (s.setCore c (k.setSeq i (y.at pc))).bump
    let done := fun (st : Nat) => exec (.streamBwait f) s =
      .next ((s.afterSeq c i ({ x with c := x.c.set f.d.toNat (BitVec.ofNat 64 st) }.at pc)).acquire c)
    k.inRange b (16 * f.a.toNat) 16 = true → k.winMeets b (16 * f.a.toNat) 16 = false → k.rangeBusy b (16 * f.a.toNat) 16 true = false →
    ends (.streamBinit f) (k.barInit b f.a.toNat v) x ∧
    (x.flight = [] → ends (.streamBarr f) (k.barArrive b f.a.toNat v).1
      { x with c := x.c.set f.d.toNat (k.barArrive b f.a.toNat v).2 }) ∧
    (x.bw = none → k.barField b f.a.toNat 3 ≠ v → done 0) ∧
    (∀ o st, x.bw = some (o, some st) → done st) ∧
    (x.bw = none → k.barField b f.a.toNat 3 = v →
      exec (.streamBwait f) s = .next (s.afterSeq c i { x with bw := some (f.a.toNat, none), stall := none })))) ∧
  (∀ (k : Core) (b o n : Nat) (blk : Block), k.block? b = some blk → Memory.wf blk.scratch = true → n < 2 ^ 32 →
    let get := fun (k : Core) i => k.barField b o i
    let init := k.barInit b o n
    let r := k.barArrive b o n
    let left := get k 1 - n
    (get init 0 = n ∧ get init 1 = n ∧ get init 2 = 0 ∧ get init 3 = 0) ∧
    (left ≠ 0 ∨ get k 2 ≠ 0 → get r.1 1 = left ∧ get r.1 3 = get k 3) ∧
    (left = 0 → get k 2 = 0 → get r.1 1 = get k 0 ∧ get r.1 3 = (get k 3 + 1) % 2 ^ 32) ∧
    get r.1 0 = get k 0 ∧ get r.1 2 = get k 2 ∧
    r.2 = (if n > get k 1 then BitVec.ofNat 64 (get k 3) ||| 0x8000000000000000 else BitVec.ofNat 64 (get k 3)))

/-- Transaction barriers (R218 to R220): the instruction leaves as one step to its home, an arrival's destination and a wait's fragment
waiting for the answer; the answered wait writes its status, and status 0 acquires. The step keeps the register that a refusal's entry
names: its destination, or for an initialisation the one of its count (R397). -/
def Obligations.TransactionBarriers : Prop :=
  ∀ (s : State) (c q e : Nat) (t : Team) (f : BarF), Plain s c q e t →
    let cx := Cx.at s c q e t
    let k := s.core c
    let x := k.entry q e
    let va := (t.rg f.a.toNat).toNat
    let v := cx.bval true 0 false .n f.b
    let dreg := fun (kind : Nat) => if kind = 0 then (match f.b with | .reg r => r.toNat | _ => 0) else f.d.toNat
    let sent := fun (kind : Nat) (y : Entry) (ins : Instr) => ∃ fl, exec ins s =
      .next (({ s with nextId := s.nextId + 1 } : State).afterCore c q e { k with tbs := k.tbs ++
        [{ id := s.nextId, kind := kind, tr := f.tr, slot := cx.slot, quad := q, entry := e, seq := t.seq + 1, pc := x.pc, va := va
           arg := BitVec.ofNat 32 v, dreg := dreg kind, away := none, done := none }] } y { t with seq := t.seq + 1, flying := fl })
    cx.acqBusy = false → cx.takes f.c = true → va % 16 = 0 → k.leaseOk cx.slot va 16 true true = true → cx.seqFree s = true →
    (k.Idle → cx.Passes → sent 0 (x.passed f.b.len) (.tbinit f) ∧
      sent 1 { x.passed f.b.len with pend := [⟨s.nextId, [.g f.d.toNat], [], 0, false⟩] } (.tbarr f)) ∧
    (cx.tbAnswer = none → sent 2 { x with op := some s.nextId, stall := none } (.tbwait f)) ∧
    (∀ r st, cx.tbAnswer = some (r, some st) → exec (.tbwait f) s =
      let s1 := s.afterCore c q e { k with tbs := k.tbs.filter fun y => decide (y.id ≠ r.id) } (x.passed f.b.len)
        (t.put [.g f.d.toNat st])
      .next (if st = 0 then s1.acquire c else s1))

/-- The steps of a transaction barrier at its home (R218, R220, R407): an initialisation writes EXPECT and PEND, an arrival counts down
and answers the phase, a wait is answered 0 once the phase has passed and 2 under `.try`; the answer lets the fragment go on. Where the home
is another device, the step leaves for it as a request. -/
def Obligations.TransactionBarrierSteps : Prop :=
  (∀ (s : State) (c idx : Nat) (r : TbReq), (s.core c).tbs[idx]? = some r → r.done = none → r.away = none →
    (r.kind = 2 ∨ (s.core c).earlier r.id r.slot r.va = false) →
    let id := { s.identOf c r.slot with owner := r.id, tag := (reqTag c r.quad r.slot r.seq).toNat }
    let rd := s.homeNat id r.va 16
    (∀ sl, s.home id.part r.va = .here sl →
      (r.kind = 0 →
        let w := s.homePut id r.va 16 (tbInitNat r.arg.toNat)
        let w1 := w.1.used r.id
        w.2 = none → w.1.waitsFor r.id = false →
        exec (.transactionBarrierStep c idx) s = .next ((w1.setCore c ((w1.core c).tbDone r [])).forget c id r.va 16).bump) ∧
      (∀ x, r.kind = 1 → rd.2 = .inl x →
        let w := rd.1.homePut id r.va 16 (tbArriveNat x r.arg.toNat).1
        let w1 := w.1.used r.id
        w.2 = none → w.1.waitsFor r.id = false → exec (.transactionBarrierStep c idx) s =
          .next ((w1.setCore c ((w1.core c).tbDone r [.g r.dreg (tbArriveNat x r.arg.toNat).2])).forget c id r.va 16).bump) ∧
      (∀ x, r.kind = 2 → rd.2 = .inl x → rd.1.waitsFor r.id = false →
        let w1 := rd.1.used r.id
        let answered := fun (st : DWord) => exec (.transactionBarrierStep c idx) s = .next (w1.setCore c
          { w1.core c with tbs := (w1.core c).tbs.set idx { r with done := some (some st) } }).bump
        (x / 2 ^ 96 % 2 ^ 32 ≠ r.arg.toNat → answered 0) ∧ (x / 2 ^ 96 % 2 ^ 32 = r.arg.toNat → r.tr = true → answered 2))) ∧
    (∀ dev rp p, s.home id.part r.va = .away dev rp → s.reaches id.tag (s.exitSlice id r.va) = true → s.plane dev r.va = some p →
      let s1 := s.fresh.2
      exec (.transactionBarrierStep c idx) s = .next ((s1.setCore c { s1.core c with
        tbs := (s1.core c).tbs.set idx { r with away := some s.fresh.1 } }).ask p dev s.fresh.1 id 3 r.va (r.kind + if r.tr then 4 else 0) r.arg.toNat).bump)) ∧
  (∀ (s : State) (c idx : Nat) (r : TbReq) (a : Option DWord), (s.core c).tbs[idx]? = some r → r.kind = 2 → r.done = some a →
    ((s.core c).entry r.quad r.entry).op = some r.id →
    exec (.tbwaitAnswer c idx) s = .next (s.setCore c (((s.core c).setEntry r.quad r.entry
      { (s.core c).entry r.quad r.entry with op := none, stall := none }).poll)).bump) ∧
  (∀ x n : Nat, x < 2 ^ 128 → n < 2 ^ 32 →
    let y := (tbArriveNat x n).1
    let fld := fun (x i : Nat) => x / 2 ^ (32 * i) % 2 ^ 32
    fld (tbInitNat n) 0 = n ∧ fld (tbInitNat n) 1 = n ∧ fld (tbInitNat n) 2 = 0 ∧ fld (tbInitNat n) 3 = 0 ∧
    fld y 0 = fld x 0 ∧ fld y 2 = 0 ∧ (fld x 1 > n → fld y 1 = fld x 1 - n ∧ fld y 3 = fld x 3) ∧
    (fld x 1 ≤ n → fld y 1 = fld x 0 ∧ fld y 3 = (fld x 3 + 1) % 2 ^ 32) ∧
    (tbArriveNat x n).2 = (if n > fld x 1 then BitVec.ofNat 64 (fld x 3) ||| 0x8000000000000000 else BitVec.ofNat 64 (fld x 3)))

/-! ## Engines -/

/-- `cpl`, the bulk copies and `scat` (R201, R205 to R213, R221): where the extents pass their checks and no session is live, a session
starts under the next SEQ with the ranges it holds, its barrier object awaits it, and its status destinations are busy. -/
def Obligations.CopySessionsStart : Prop :=
  ∀ (s : State) (c q e : Nat) (t : Team), Plain s c q e t →
    let cx := Cx.at s c q e t
    let k := s.core c
    let x := k.entry q e
    let g := fun n => t.rg n
    let starts := fun (ins : Instr) (len : Nat) (kind : SessKind) (es : List Extent) (dest : List RegRef) (bar tbar : Option Nat) =>
      ∃ (fl : List Flying) (se : Session) (k1 : Core), exec ins s = .next (({ s with nextId := s.nextId + 1 } : State).afterCore c q e
          { k1 with sessions := k1.sessions ++ [se] } (x.passed len) { t with seq := t.seq + 1, flying := fl, busy := dest }) ∧
        k1 = (match bar with | some b => k.barTxStart cx.barBlock b | none => k) ∧ se.id = s.nextId ∧ se.kind = kind ∧
        se.dest = dest ∧ se.ranges = rangesOf es ∧ se.done = 0 ∧ se.codes = [] ∧ se.fault = none ∧ se.slot = cx.slot ∧ se.seq = t.seq + 1 ∧ se.pc = x.pc ∧ se.bar = bar ∧ se.tbar = tbar
    let bulk := fun (f : CopyF) (ins : Instr) (n : Nat) (kind : SessKind) (es : List Extent) =>
      let tb := (g (f.a.toNat + n)).toNat
      (f.tbar = true → tb % 16 = 0) → (∀ y ∈ es, y.va % 4 = 0) →
      cx.extFail 1 ((es.filter fun y => decide (y.n > 0)) ++ if f.tbar then [⟨teamWideLane, tb, 16, true, true, true⟩] else []) = none →
      (f.bar = true → k.inRange cx.barBlock (16 * f.cc.toNat) 16 = true ∧ k.winMeets cx.barBlock (16 * f.cc.toNat) 16 = false) →
      starts ins f.b.len kind es [.g f.d.toNat] (if f.bar then some f.cc.toNat else none) (if f.tbar then some tb else none)
    cx.seqFree s = true → k.sessions = [] → k.sectorsOut ≤ 2048 →
    (∀ f : CplF,
      let w := cplBytes f.size
      let ls := (cx.part f.c).map fun L =>
        (L, wrapN 64 ((t.rd false L true f.a : Int) + intVal .s 32 (cx.bval false L false .s f.b)), t.rd false L false f.cc)
      let es : List Extent := ls.flatMap fun y => [⟨y.1, y.2.1, w, true, !f.out, f.out⟩, ⟨y.1, y.2.2, w, false, f.out, !f.out⟩]
      ls ≠ [] → ls.length ≤ 1024 → cx.extFail w es = none →
      starts (.cpl f) f.b.len (.cpl f.out w ls) es ((cx.part f.c).map fun L => .v L f.d.toNat) none none) ∧
    (∀ f : CopyF, cx.takes f.c = true →
      let d := copyAddr f.ds (g f.a.toNat)
      let a := copyAddr f.ss (g (f.a.toNat + 1))
      let n := cx.bval true 0 false .n f.b
      let h := if f.e8 then 1 else 2
      (n % 4 = 0 → bulk f (.cp f) 2 (.cp d a n) [⟨teamWideLane, d, n, !f.ds, false, true⟩, ⟨teamWideLane, a, n, !f.ss, true, false⟩]) ∧
      (let len := (g (f.a.toNat + 2)).toNat % 2 ^ 32
       let rows := (g (f.a.toNat + 2)).toNat / 2 ^ 32
       let ds := intVal .s 32 (g (f.a.toNat + 3)).toNat
       let ss := intVal .s 32 ((g (f.a.toNat + 3)).toNat / 2 ^ 32)
       len % 4 = 0 → ds % 4 = 0 → ss % 4 = 0 → d % 4 = 0 → a % 4 = 0 →
       bulk f (.cp2d f) 4 (.cp2d d a len rows ds ss) ((List.range rows).flatMap fun r =>
        [⟨teamWideLane, rowAddr f.ds d ds r, len, !f.ds, false, true⟩, ⟨teamWideLane, rowAddr f.ss a ss r, len, !f.ss, true, false⟩])) ∧
      (n % 8 = 0 →
       (let md := copyAddr f.ds (g (f.a.toNat + 1))
        let src := copyAddr f.ss (g (f.a.toNat + 2))
        bulk f (.cpz f) 3 (.cpz f.e8 d md src n) [⟨teamWideLane, d, 2 * h * n, !f.ds, false, true⟩,
          ⟨teamWideLane, md, n / 2, !f.ds, false, true⟩, ⟨teamWideLane, src, 4 * h * n, !f.ss, true, false⟩]) ∧
       (let md := copyAddr f.ss (g (f.a.toNat + 2))
        bulk f (.cpx f) 3 (.cpx f.e8 d a md n) [⟨teamWideLane, d, 4 * h * n, !f.ds, false, true⟩,
          ⟨teamWideLane, a, 2 * h * n, !f.ss, true, false⟩, ⟨teamWideLane, md, n / 2, !f.ss, true, false⟩]))) ∧
    (∀ (f : DAX) (L : Nat) (rest : List Nat), cx.part f.c = L :: rest →
      let w := if f.x then 8 else 4
      let idx := ((t.lane L).r2 f.a.toNat).toNat
      let src := ((t.lane L).r2 (f.a.toNat + 2)).toNat
      let dst := ((t.lane L).r2 (f.a.toNat + 4)).toNat
      let n := ((t.lane L).r (f.a.toNat + 6)).toNat
      idx % 4 = 0 → src % w = 0 →
      cx.extFail 1 (([⟨L, idx, 4 * n, true, true, false⟩, ⟨L, src, w * n, true, true, false⟩] : List Extent).filter
        fun y => decide (y.n > 0)) = none →
      starts (.scat f) 8 (.scat w idx src dst n) [] ((L :: rest).map fun M => .v M f.d.toNat) none none)

/-- The end of a session (R203, R206, R222): its data moves, it leaves the core, and its statuses are written; one that arrives at a
transaction barrier of another device arrives in a step of its own, after its data (R407); a scatter whose destination is not leased ends
its command; the cancellation of a halted block's sessions after 2^20 clocks (R345). The model's choice: all of a session's data moves in
the one step of its end (log 73). -/
def Obligations.SessionsEnd : Prop :=
  (∀ (s : State) (c idx : Nat) (x : Session), (s.core c).sessions[idx]? = some x → (s.core c).sessionReady x = true →
    s.sessionHeld c x = false →
    (x.arriving = false →
      let r := s.sessionMove c x x.pieces.length
      let m := match r.lease with
        | some a => r.s.setCore c ((r.s.core c).endCommand x.slot 0x04 (x.pc.setWidth 64) (BitVec.ofNat 64 a))
        | none => r.s
      (m.arrivesAway c r.x = false →
        let codes := match x.kind with | .cpl _ _ _ => r.x.codes | _ => x.dest.map fun _ => r.x.codes.headD 0
        let w := m.endSession c r.x codes r.x.fault r.x.globals
        w.waitsFor x.id = false → exec (.sessionEnd c idx) s = .next (w.used x.id).bump) ∧
      (m.arrivesAway c r.x = true →
        let w := m.setCore c { m.core c with
          sessions := (m.core c).sessions.map fun (y : Session) => if y.id = x.id then { r.x with arriving := true } else y }
        w.waitsFor x.id = false → exec (.sessionEnd c idx) s = .next (w.used x.id).bump)) ∧
    (x.arriving = true → let w := s.endSession c x x.results x.fault x.globals
      w.waitsFor x.id = false → exec (.sessionEnd c idx) s = .next (w.used x.id).bump)) ∧
  (∀ (s : State) (c b : Nat) (blk : Block) (at0 : Nat), (s.core c).block? b = some blk → blk.bcast = some at0 → blk.acked = false →
    at0 + 2 ^ 20 ≤ (s.core c).cyc.toNat → s.blockCancels c b = true →
    exec (.sessionCancelTimeout c b) s = .next (s.cancelBlock c b).bump) ∧
  (∀ (fault : SFault) (drop mdat : Bool), sessStatus fault drop mdat % 16 = (if fault.isSome then 1 else 0) ∧
    (sessStatus fault drop mdat).testBit 4 = drop ∧ (sessStatus fault drop mdat).testBit 5 = mdat) ∧
  (∀ es : List Nat, es.length = 4 → let r := cpzGroup es
    r.2.1 % 4 < r.2.1 / 4 % 4 ∧ r.1.1 = es[r.2.1 % 4]?.getD 0 ∧ r.1.2 = es[r.2.1 / 4 % 4]?.getD 0 ∧
    r.2.2 = decide ((es.filter (· ≠ 0)).length > 2)) ∧
  (∀ v0 v1 md : Nat, md % 4 < md / 4 % 4 → ∀ i < 4, (cpxGroup v0 v1 md).1[i]? =
    some (if i = md % 4 then v0 else if i = md / 4 % 4 then v1 else 0) ∧ (cpxGroup v0 v1 md).2 = false)

/-- Gather and intersect (R224 to R226): the lanes' elements are found in order and written with their found flags, the error count
rises by the lanes in error; intersect writes the matching positions and the counts. The model's reading: a gather's local reads are made in
the step that ends it, and its descriptor is read without a lease check (log 76). -/
def Obligations.GatherAndIntersect : Prop :=
  ∀ (s : State) (c q e : Nat) (t : Team), Plain s c q e t →
    let cx := Cx.at s c q e t
    (∀ f : GathF,
      let ls := cx.part f.c
      let owner := cx.owner s
      let on := cx.takeSeq s (maskOf ls)
      let s0 := s.setCore c on.core
      let id := { s0.identOf c cx.slot with owner := owner, tag := (reqTag c q cx.slot (t.seq + 1)).toNat }
      let gd := on.gathDesc s0 id f.h.toNat
      let a := on.gathLanes f id gd.2 ls gd.1
      let w := a.g.s.used owner
      let cx1 := on.reload w
      cx.acqBusy = false → ls ≠ [] → cx.seqFree s = true → gd.1.bad = none →
      (gd.2.span = 0 ∨ cx.k.leaseOk cx.slot gd.2.base gd.2.span true false = true) →
      a.g.bad = none → a.faults = [] → a.g.watched = [] → a.g.s.waitsFor owner = false →
      exec (.gath f) s = .next (({ cx1 with k := { cx1.k with gerr := cx1.k.gerr + BitVec.ofNat 64 a.errs } } : Cx).writeLate
        (w.gathErrors c cx.slot a.errs) f.b.len f.c.la.toNat (ls.flatMap fun L => regRefs false L f.dd f.d ++ [RegRef.p L f.cc.toNat]) a.wrs)) ∧
    (∀ (g : GSt) (id : Ident) (d : TDesc) (dd : Bool) (row col : Nat),
      (d.known = false → g.lane c id d dd row col = (g, .absent false)) ∧
      (d.known = true → d.valid = false → g.lane c id d dd row col = (g, .absent true)) ∧
      (d.known = true → d.valid = true → d.rows ≤ row ∨ d.cols ≤ col → g.lane c id d dd row col = (g, .absent false)) ∧
      (d.known = true → d.valid = true → row < d.rows → col < d.cols → d.wide ≠ dd → g.lane c id d dd row col = (g, .absent true)) ∧
      (d.kind = 1 → d.valid = true → row < d.rows → col < d.cols → d.wide = dd →
        let va := d.base + row * d.pitch + col * 2 ^ d.ety
        let r := g.read c id va (2 ^ d.ety)
        g.lane c id d dd row col = (r.1, ⟨r.2, true, false, va, 2 ^ d.ety⟩))) ∧
    (∀ f : DABC,
      let P := cx.part f.c
      let as := P.map fun L => t.rd false L false f.a
      let bs := P.map fun L => cx.bval false L false .n f.b
      let out := xsectMatches as bs
      exec (.xsect f) s = .next (s.wrote c q e t f.b.len f.c.la.toNat
        ((P.flatMap fun L => regRefs false L true f.d) ++ [.g f.cc.toNat])
        ((P.mapIdx fun r L => dstWr false L .wide f.d (match out[r]? with | some (i, j) => i + j * 2 ^ 32 | none => 2 ^ 64 - 1)).flatten ++
          [.g f.cc.toNat (BitVec.ofNat 64 (out.length + xsectAdv as bs * 2 ^ 16 + xsectAdv bs as * 2 ^ 32))])) ∧
      ∀ p ∈ out, as[p.1]? = bs[p.2]? ∧ ∀ j < p.2, bs[j]? ≠ as[p.1]?)

/-! ## The matrix engine -/

/-- Starting a stream, its status, and the operations it issues (R232 to R246): `mld` and `mmul` add an operation to those in flight,
`mout` and `mstat` write their rows at once. What they write: each element of `mout` is scaled and biased in one rounding, activated and
converted, each row of `mstat` is M and S of R156 (R244, R245). The model's choices: the header codes of an `mmul` are read at its issue
(log 77), and the bias is asked for its alignment only with `.b` (log 78). -/
def Obligations.MatrixInstructions : Prop :=
  (∀ (s : State) (c q e : Nat) (t : Team), Plain s c q e t → (s.core c).Idle →
    let cx := Cx.at s c q e t
    let k := s.core c
    let x := k.entry q e
    (∀ f : DAB, cx.takes f.c = true → let entry := cx.bval true 0 true .n f.b
      let puts := fun (k : Core) (v : DWord) => exec (.mstart f) s = .next (s.afterCore c q e k (x.passed f.b.len) (t.put [.g f.d.toNat v]))
      entry % 4 = 0 → (k.ctxOf t.block = none → puts k 2) ∧
      (∀ i, k.ctxOf t.block = some i → let y := k.seqs[i]?.getD Seq.empty
        (seqState y.status = 1 → puts k 1) ∧
        (seqState y.status ≠ 1 → puts (k.setSeq i { y with
          pc := BitVec.ofNat 56 entry, x := (List.range 8).map fun j => t.rg (f.a.toNat + j)
          c := (List.range 8).map fun j => t.rg (f.a.toNat + (8 + j)), status := 0x1000, audit := none, count := 0
          bw := none, stall := none, stopping := none }) 0))) ∧
    (∀ f : DAX, cx.takes f.c = true →
      let ends := fun (k : Core) (v : DWord) => s.afterCore c q e k (x.passed 8) (t.put [.g f.d.toNat v])
      (k.ctxOf t.block = none → exec (.mstq f) s = .next (ends k 0)) ∧
      (∀ i, k.ctxOf t.block = some i → let y := k.seqs[i]?.getD Seq.empty
        let s1 := ends (if f.x then k.setSeq i { y with status := y.status &&& 0xFFFFFF00 } else k) (y.status.setWidth 64)
        exec (.mstq f) s = .next (if seqState y.status = 2 then s1.acquire c else s1)))) ∧
  (∀ (s : State) (c i b : Nat) (x : Seq), Streaming s c i x b →
    let k := s.core c
    let sx : Sx := ⟨c, i, k, x, b⟩
    let p := fun (d : Reg) => (k.grant b).1 + d.toNat
    let id := { s.identBlk c b with owner := streamOwner c i }
    let X := fun (r : Reg) => x.x[r.toNat]?.getD 0
    let lo := fun (r : Reg) => (X r).toNat % 2 ^ 32
    let hi := fun (r : Reg) => (X r).toNat / 2 ^ 32
    let rows := fun (a pitch : Nat) => (List.range 128).map fun r => (a + r * pitch) % 2 ^ 64
    let ends := fun (w : State) (fl : Flags) =>
      (w.used id.owner).afterSeq c i { x.at (x.pc + 8) with status := seqCond x.status (condOf fl), stopping := none }
    (∀ f : AccF, k.accTyOk b f.ty f.d.toNat = true → sx.accBusy f.d.toNat = false → (f.ty = .f64 → sx.accBusy (f.d.toNat + 1) = false) →
      let k1 := k.setAcc (p f.d) ⟨accTag f.ty, []⟩
      exec (.mzero f) s = .next (s.setCore c ((if f.ty = .f64 then k1.setAcc (p f.d + 1) ⟨3, []⟩ else k1).setSeq i (x.at (x.pc + 8)))).bump) ∧
    (∀ f : AccF, k.accTyOk b f.ty f.d.toNat = true → x.flight.length < 4 → (X f.a).toNat % 32 = 0 → lo f.cc % 32 = 0 →
      (∀ a ∈ rows (X f.a).toNat (lo f.cc), sx.leased a (if f.ty = .f64 then 1024 else 512) true false = true) →
      ∃ (s' : State) (o : MatOp), exec (.mld f) s = .next s' ∧ s'.cores = s.cores.set c (k.setSeq i { x.at (x.pc + 8) with flight := readyUp k.cyc.toNat (x.flight ++ [o]) }) ∧
        s'.mem = s.mem ∧ o.id = s.nextId ∧ o.isLoad = true ∧ o.ty = f.ty ∧ o.acc = f.d.toNat ∧ o.xa = X f.a ∧ o.xc = X f.cc) ∧
    (∀ f : MmulF, f.d.toNat < (k.grant b).2 → x.flight.length < 4 →
      (X f.a).toNat % 64 = 0 → (X f.b).toNat % 64 = 0 → lo f.cc % 64 = 0 → hi f.cc % 64 = 0 → sx.leased (X f.a).toNat 64 true false = true →
      (∀ a ∈ rows (X f.b).toNat (hi f.cc), sx.leased a 64 true false = true) →
      let r1 := s.blockCode id (X f.a).toNat
      let r2 := r1.1.blockCode id (X f.b).toNat
      let w := r2.1
      w.waitsFor id.owner = false →
      (∀ a ∈ rows (X f.a).toNat (lo f.cc), ({ sx with k := w.core c } : Sx).leased a (64 * rowBlocks r1.2 r2.2) true false = true) →
      let x1 := if f.ka = 0 then x.x else x.x.set f.a.toNat (X f.a + BitVec.ofNat 64 (64 * 2 ^ (f.ka.toNat - 1)))
      let x2 := if f.kb then x1.set f.b.toNat (x1[f.b.toNat]?.getD 0 + 64) else x1
      ∃ (s' : State) (o : MatOp), exec (.mmul f) s = .next s' ∧
        s'.cores = w.cores.set c ((w.core c).setSeq i { x.at (x.pc + 8) with x := x2, flight := readyUp (w.core c).cyc.toNat (x.flight ++ [o]) }) ∧
        o.isLoad = false ∧ o.acc = f.d.toNat ∧ o.xa = X f.a ∧ o.xb = X f.b ∧ o.xc = X f.cc ∧ o.fa = r1.2 ∧ o.fb = r2.2) ∧
    (∀ f : MoutF, f.d.toNat < (k.grant b).2 → sx.accBusy f.d.toNat = false → ((k.acc (p f.d)).tag = 2 → sx.accBusy (f.d.toNat + 1) = false) →
      sx.readsPending (((rows (X f.a).toNat (lo f.cc)).map fun a => (a, moutRowLen f.fmt.toNat f.raw)) ++
        if f.bias then [((X f.b).toNat, 512)] else []) = false →
      sx.pairBad f.d.toNat = false → (X f.a).toNat % 32 = 0 → lo f.cc % 32 = 0 → (f.bias = true → (X f.b).toNat % 4 = 0) →
      (∀ a ∈ rows (X f.a).toNat (lo f.cc), sx.leased a (moutRowLen f.fmt.toNat f.raw) false true = true) →
      (f.bias = true → sx.leased (X f.b).toNat 512 true false = true) →
      let rb := if f.bias then s.readAll id 4 ((List.range 128).map fun j => (X f.b).toNat + 4 * j) else (s, List.replicate 128 0, none)
      let out := (List.range 128).map fun r => moutRow k (p f.d) r (Fmt.f32.decode (hi f.cc)) (fun j => Fmt.f32.decode (rb.2.1[j]?.getD 0))
        f.act f.fmt.toNat f.raw
      let w := rb.1.unpin.writeRows id ((rows (X f.a).toNat (lo f.cc)).zip (out.map (·.1)))
      rb.2.2 = none → w.1.waitsFor id.owner = false → w.2 = none →
      exec (.mout f) s = .next (ends w.1 (out.foldl (fun a o => a ||| o.2) 0))) ∧
    (∀ f : DA, f.d.toNat < (k.grant b).2 → sx.accBusy f.d.toNat = false → ((k.acc (p f.d)).tag = 2 → sx.accBusy (f.d.toNat + 1) = false) →
      sx.readsPending [((X f.a).toNat, 1024)] = false →
      sx.pairBad f.d.toNat = false → (X f.a).toNat % 32 = 0 → sx.leased (X f.a).toNat 1024 false true = true →
      let out := (List.range 128).map (k.mstatRow (p f.d))
      let w := s.writeRows id (out.mapIdx fun r o => ((X f.a).toNat + 8 * r, o.1))
      w.1.waitsFor id.owner = false → w.2 = none → exec (.mstat f) s = .next (ends w.1 (out.foldl (fun a o => a ||| o.2) 0)))) ∧
  (∀ (k : Core) (p i code : Nat) (sc : FV) (bias : Nat → FV) (act : Act) (f : BlkFmt), blkFmt code = some f →
    let el := fun j => moutElem k p (128 * i + j) sc (bias j) act
    let out := fun (S : Int) j => outElem f.kind f.width ((el j).1.scale (1, -S))
    (f.width % 8 = 0 → (moutRow k p i sc bias act code true).1 = (List.range 128).flatMap fun j => toLeBytes (f.width / 8) (out 0 j).1) ∧
    (moutRow k p i sc bias act code false).1 = (List.range ((127 + f.elems) / f.elems)).flatMap (fun b =>
      let js := (List.range f.elems).filter fun u => f.elems * b + u < 128
      let S := if f.scale = .pow2 then blockScale code (js.map fun u => (el (f.elems * b + u)).1) else 0
      toLeBytes 64 (code + (BitVec.ofInt 8 S).toNat * 256 + (js.map fun u => (out S (f.elems * b + u)).1 * 2 ^ (16 + f.width * u)).sum)) ∧
    (∀ x b, let tag := (k.acc p).tag.toNat
      let g := if tag ≤ 1 then Fmt.f32 else Fmt.f64
      let v := if tag = 0 then g.decode ((k.acc p).word x).toNat else if tag = 1 then FV.ofInt ((k.acc p).word x).toInt
        else g.decode (((k.acc p).word x).toNat + ((k.acc (p + 1)).word x).toNat * 2 ^ 32)
      let t := g.fmaV ⟨.rne, false, false⟩ false v sc b
      let u : Res := if tag ≤ 1 then ⟨t.bits, 0⟩ else cvtFF .f64 .f32 ⟨.rne, false, false⟩ t.bits
      let by_ := fun (n : SpFn) => special n .f32 false u.bits
      moutElem k p x sc b act = match act with
        | .none => (g.decode t.bits, t.fl)
        | .relu => (match g.decode t.bits with | .nan _ => .nan false | y => if y.isNeg || y.isZero then .fin false 0 g.qmin else y, t.fl)
        | .gelu => (Fmt.f32.decode (by_ .gelu).bits, t.fl ||| (u.fl ||| (by_ .gelu).fl))
        | .tanh => (Fmt.f32.decode (by_ .tanh).bits, t.fl ||| (u.fl ||| (by_ .tanh).fl))
        | .sig => (Fmt.f32.decode (by_ .sig).bits, t.fl ||| (u.fl ||| (by_ .sig).fl))
        | .exp2 => (Fmt.f32.decode (by_ .exp2).bits, t.fl ||| (u.fl ||| (by_ .exp2).fl))
        | .silu => let y := Fmt.f32.arith .mul ⟨.rne, false, false⟩ u.bits (by_ .sig).bits 0
          (Fmt.f32.decode y.bits, t.fl ||| (u.fl ||| (by_ .sig).fl ||| y.fl))) ∧
    (∀ g w n m e, outElem (.flt g) w (.nan n) = (g.nan, 0) ∧ outElem (.flt g) w (.inf n) = (g.pack n g.maxPat, fOF) ∧
      outElem (.flt g) w (.fin n m e) = let y := g.round ⟨.rne, false, true⟩ n m e; (y.bits, y.fl)) ∧
    (∀ sg o w n m, outElem (.int sg o) w (.nan n) = (0, fNV) ∧
      outElem (.int sg o) w (.inf n) = (wrapN w (if n then intMin sg w else intMax sg w), fOF) ∧
      ∀ e : Nat, let z : Int := if n then -(m * 2 ^ e : Nat) else (m * 2 ^ e : Nat)
        outElem (.int sg o) w (.fin n m e) = (wrapN w (saturate sg w z), if saturate sg w z = z then 0 else fOF)) ∧
    ((k.acc p).tag = 0 → let x := rowMS 128 (fun _ => true) fun j => ((k.acc p).word (128 * i + j)).toNat
      k.mstatRow p i = (toLeBytes 4 x.1 ++ toLeBytes 4 x.2.1, x.2.2)))

/-- The engine's steps (R239 to R242, R248, R250, R252, R253): an operation completes once it is ready, none before it on its
accumulator or of the same bytes is in flight and its turn has come, reading its operands and writing its accumulator and the conditions; a
slice grants the reservation asked first while it fits the quota; an arbiter grants one cold start to the one core that waits, at most one in
any 16 clocks. What an `mmul` leaves in each element (R38 to R41): one rounding of the exact sum, or the saturated sum. The model's choices:
the operands are read in the one step of the completion (log 77), and whether an operation is audited is asked then (log 100). -/
def Obligations.MatrixEngineSteps : Prop :=
  (∀ (s : State) (c i b j : Nat) (q : Seq) (o : MatOp), (s.core c).seqs[i]? = some q → q.block = some b →
    (s.core c).doneOp i = some (j, o) →
    q.flight[j]? = some o ∧ o.ready.isSome = true ∧ (∀ p ∈ q.flight.take j, p.meets o = false ∧ p.readsMeet o = false) ∧
    (o.isLoad = true ∨ o.started = true ∨ ((s.core c).engCold = false ∧ (s.core c).engTurnOk i = true)) ∧
    let id := { s.identBlk c b with owner := o.id }
    let s1 : State := { s with slices := s.slices.map fun (sl : Slice) => { sl with pins := sl.pins.filter fun p => decide (p.op ≠ o.id) } }
    let pitch := o.xc.toNat % 2 ^ 32
    let nb := rowBlocks o.fa o.fb
    let rows := (List.range 128).map fun r => (o.xa.toNat + r * pitch) % 2 ^ 64
    let m := if o.ty = .f64 then 32 else 16
    let rd := if o.isLoad then s1.readAll id 32 (rows.flatMap fun a => (List.range m).map fun u => (a + 32 * u) % 2 ^ 64)
      else s1.readAll id 64 (blocksA o.xa pitch nb ++ blocksB o.xb (o.xc.toNat / 2 ^ 32))
    let w := rd.1.unpin
    let k := w.core c
    let y := k.seqs[i]?.getD Seq.empty
    let rest := q.flight.eraseIdx j
    (w.waitsFor o.id = false → rd.2.2 = none → y.stopping = none →
    let l := (k.block? b).bind fun b => k.lslot? b.lslot
    let queue := match l with | some l => l.q | none => 0
    let cmd := match l with | some l => l.idx % 2 ^ 32 | none => 0
    let r := if o.isLoad then mldRun k b o (joinSectors m rd.2.1)
      else mmulRun k b queue cmd c i { y with flight := rest } o (rd.2.1.take (128 * nb)) (rd.2.1.drop (128 * nb))
    ∃ s' : State, exec (.matrixOperationComplete c i) s = .next s' ∧ s'.cores = w.cores.set c
      (let k1 := r.k.setSeq i { y with flight := rest, status := seqCond y.status r.conds, count := if o.isLoad then y.count else y.count + 1 }
       if o.isLoad then k1 else { k1 with engTurn := if o.started then k1.engTurn else i, engBusy := k.cyc.toNat }))) ∧
  (∀ (s : State) (j : Nat) (p : Pin) (sl : Slice), s.slices[j]? = some sl → sl.pins.find? (fun p => !p.granted) = some p →
    ((sl.pins.filter (·.granted)).map (·.bytes)).sum + p.bytes ≤ 4 * 2 ^ 20 →
    ∃ s' : State, exec (.pinReservationGrant j) s = .next s' ∧ { p with granted := true } ∈ (s'.slice j).pins ∧ s'.mem = s.mem) ∧
  (∀ (s : State) (cl c i t0 j : Nat) (q : Seq) (o : MatOp), c ∈ clusterCores cl → c < s.cores.length → (s.core c).coldWait = some (i, t0) →
    (s.core c).seqs[i]? = some q → q.readyOp = some (j, o) →
    (∀ d ∈ clusterCores cl, d ≠ c → (s.core d).coldWait = none) → (∀ g ∈ s.surge, g.1 = cl → g.2.1 + 16 ≤ s.clusterClock cl) →
    ∃ (s' : State) (q' : Seq), exec (.coldStartGrant cl) s = .next s' ∧ (s'.core c).engTurn = i ∧ (s'.core c).seqs[i]? = some q' ∧
      q'.flight[j]? = some { o with started := true } ∧ (∃ t, (cl, s.clusterClock cl, t) ∈ s'.surge) ∧ s'.mem = s.mem) ∧
  (∀ (k : Core) (b queue cmd c i : Nat) (q : Seq) (o : MatOp) (as bs : List Nat), let p := (k.grant b).1 + o.acc
    as.length = 128 * rowBlocks o.fa o.fb → bs.length = 128 → p + 1 < k.accs.length →
    let m := mmulRun k b queue cmd c i q o as bs
    let row := fun r => (List.range (rowBlocks o.fa o.fb)).flatMap fun u => (blkElems o.fa (as[rowBlocks o.fa o.fb * r + u]?.getD 0)).1
    let col := fun j => (blkElems o.fb (bs[j]?.getD 0)).1
    let old := fun r j => ((k.acc p).word (128 * r + j)).toNat
    let new := fun r j => (m.k.acc p).word (128 * r + j)
    (pairing o.fa o.fb = none → m.k = k ∧ m.conds = condHDR) ∧
    (pairing o.fa o.fb = some .f32 → (m.k.acc p).tag = 0 ∧
      ∀ r < 128, ∀ j < 128, new r j = BitVec.ofNat 32 (macFloat .f32 (row r) (col j) (Fmt.f32.decode (old r j))).bits) ∧
    (pairing o.fa o.fb = some .s32 → (m.k.acc p).tag = 1 ∧
      ∀ r < 128, ∀ j < 128, new r j = BitVec.ofNat 32 (macInt (row r) (col j) (intVal .s 32 (old r j))).1) ∧
    (pairing o.fa o.fb = some .f64 → k.f64Ok b o.acc = false → m.k = k ∧ m.conds = condHDR) ∧
    (pairing o.fa o.fb = some .f64 → k.f64Ok b o.acc = true → (m.k.acc p).tag = 2 ∧ (m.k.acc (p + 1)).tag = 3 ∧
      ∀ r < 128, ∀ j < 128, m.k.pairBits p (128 * r + j) =
        (macFloat .f64 (row r) (col j) (Fmt.f64.decode (k.pairBits p (128 * r + j)))).bits % 2 ^ 64)) ∧
  (∀ code blk : Nat, let n := match blkFmt code with | some f => f.elems | none => 0
    (blkMult code blk = none → blkElems code blk = (List.replicate n (.fin false 0 0), true, false)) ∧
    ∀ f m, blkMult code blk = some (f, m) → (blkElems code blk).1 = (List.range f.elems).map (fun i => (blkRaw f blk i).1.scale m) ∧
      (blkElems code blk).2.1 = false) ∧
  (∀ (f : Fmt) (as bs : List FV) (old : FV),
    let ps := as.zip bs
    let inf := fun (n : Bool) => decide (old = .inf n) || ps.any fun p => !p.1.isNaN && !p.2.isNaN && !invalidProduct p.1 p.2 &&
      (decide (p.1 = .inf true ∨ p.1 = .inf false) || decide (p.2 = .inf true ∨ p.2 = .inf false)) && decide ((p.1.isNeg != p.2.isNeg) = n)
    let sum : ℚ := (ps.map fun p => p.1.rat * p.2.rat).sum + old.rat
    ((∃ p ∈ ps, invalidProduct p.1 p.2 = true) ∨ (inf true = true ∧ inf false = true) → macFloat f as bs old = ⟨f.nan, fNV⟩) ∧
    ((∀ p ∈ ps, invalidProduct p.1 p.2 = false) → ¬ (inf true = true ∧ inf false = true) →
      (old.isNaN = true ∨ ∃ p ∈ ps, p.1.isNaN = true ∨ p.2.isNaN = true) → macFloat f as bs old = ⟨f.nan, 0⟩) ∧
    ((∀ p ∈ ps, invalidProduct p.1 p.2 = false ∧ p.1.isNaN = false ∧ p.2.isNaN = false) → old.isNaN = false →
      (∀ n, inf n = true → inf (!n) = false → macFloat f as bs old = ⟨f.infRes ⟨.rne, false, false⟩ n, 0⟩) ∧
      (inf true = false → inf false = false → ∃ z e : Int, (z : ℚ) * 2 ^ e = sum ∧
        macFloat f as bs old = f.round ⟨.rne, false, false⟩ (decide (z < 0)) z.natAbs e)) ∧
    (∀ x : Int, (∀ p ∈ ps, ∃ m n a b, p = (.fin m a 0, .fin n b 0)) → ∃ z : Int, (z : ℚ) = x + (ps.map fun p => p.1.rat * p.2.rat).sum ∧
      macInt as bs x = (wrapN 32 (saturate .s 32 z), decide (saturate .s 32 z ≠ z))))

/-! ## Deques, Moraine, walks -/

/-- Deques (R271 to R274): an instruction leaves as one step to its header's home and its destinations wait; the step pushes, pops or
steals one element of a well-formed header, and answers 1 where the deque is full or empty, 2 where the header is malformed; a push whose
header may not be written leaves the slot as it was. -/
def Obligations.DequeInstructionsAndSteps : Prop :=
  (∀ (s : State) (c q e : Nat) (t : Team) (f : DABC) (ins : Instr) (kind : Nat), Plain s c q e t →
    (ins, kind) ∈ [(Instr.dqpush f, 0), (.dqpop f, 1), (.dqsteal f, 2)] →
    let cx := Cx.at s c q e t
    let k := s.core c
    let x := k.entry q e
    let va := (t.rg f.a.toNat).toNat
    cx.acqBusy = false → cx.takes f.c = true → va % 32 = 0 → k.leaseOk cx.slot va 32 true true = true → cx.seqFree s = true →
    (kind = 0 → k.Idle ∧ cx.Passes) →
    ∃ fl, exec ins s = .next (({ s with nextId := s.nextId + 1 } : State).afterCore c q e { k with dqs := k.dqs ++
      [{ id := s.nextId, kind := kind, slot := cx.slot, quad := q, entry := e, seq := t.seq + 1, pc := x.pc, level := t.level, va := va
         value := if kind = 0 then BitVec.ofNat 64 (cx.bval true 0 true .s f.b) else 0
         dreg := f.d.toNat, preg := f.cc.toNat, away := none }] }
      { x.passed f.b.len with pend := [⟨s.nextId, [.g f.d.toNat, .gp f.cc.toNat], [], f.c.la.toNat, false⟩] }
      { t with seq := t.seq + 1, flying := fl })) ∧
  (∀ (s s0 s1 : State) (header c sl : Nat) (r : DqReq) (a : DqAns), s.dqWaiting header = [(c, r)] →
    let tag := (reqTag c r.quad r.slot r.seq).toNat
    let id := { s.identOf c r.slot with owner := r.id, tag := tag }
    s.atomMay c r.slot r.va tag r.id = (s0, true) → s0.waitsFor r.id = false → s0.identOf c r.slot = s.identOf c r.slot →
    s0.home id.part r.va = .here sl → s0.dqApply id r.kind r.va r.value.toNat = (s1, .inl a) → s1.dqWatched id r.kind r.va a = [] →
    let w := (s1.dqFinish c r a).atomDone c r.slot r.va tag
    w.waitsFor r.id = false → exec (.dequeStep header) s = .next (w.used r.id).bump) ∧
  (∀ (s s1 : State) (id : Ident) (va value x : Nat), s.homeNat id va 32 = (s1, .inl x) →
    let h := dqHead x
    let bump := fun (n : Nat) => (n + 1) % 2 ^ 32
    let head := fun (s : State) (top bottom : Nat) => s.homePut id (va + 8) 8 (top + bottom * 2 ^ 32)
    (h.wf va = false → ∀ kind, s.dqApply id kind va value = (s1, .inl ⟨2, 0⟩)) ∧
    (h.wf va = true → h.count = h.cap → s.dqApply id 0 va value = (s1, .inl ⟨1, 0⟩)) ∧
    (h.wf va = true → h.count = 0 → s.dqApply id 1 va value = (s1, .inl ⟨1, 0⟩) ∧ s.dqApply id 2 va value = (s1, .inl ⟨1, 0⟩)) ∧
    (∀ s0 s2, h.wf va = true → h.count ≠ h.cap → s1.mayWrite id va = (s0, none) →
      s0.homePut id (h.ring + 8 * (h.bottom % h.cap)) 8 value = (s2, none) → let s3 := head s2 h.top (bump h.bottom)
      (s3.2 = none → s.dqApply id 0 va value = (s3.1, .inl ⟨0, 0⟩)) ∧
      (∀ cls b, s3.2 = some (cls, b) → s.dqApply id 0 va value = (s0, .inr cls))) ∧
    (∀ s0 cls, h.wf va = true → h.count ≠ h.cap → s1.mayWrite id va = (s0, some cls) → s.dqApply id 0 va value = (s0, .inr cls)) ∧
    (∀ s2 s3 v, h.wf va = true → h.count ≠ 0 → let b := (h.bottom + 2 ^ 32 - 1) % 2 ^ 32
      s1.homeNat id (h.ring + 8 * (b % h.cap)) 8 = (s2, .inl v) → head s2 h.top b = (s3, none) →
      s.dqApply id 1 va value = (s3, .inl ⟨0, v⟩)) ∧
    (∀ s2 s3 v, h.wf va = true → h.count ≠ 0 → s1.homeNat id (h.ring + 8 * (h.top % h.cap)) 8 = (s2, .inl v) →
      head s2 (bump h.top) h.bottom = (s3, none) → s.dqApply id 2 va value = (s3, .inl ⟨0, v⟩)))

/-- The Moraine instructions (R279 to R284, R289 to R292): what each does to the session its handle names, where the unit can be reached,
and the result in gD. -/
def Obligations.MoraineInstructions : Prop :=
  ∀ (s : State) (c q e : Nat) (t : Team) (f : MgF), Plain s c q e t → (s.core c).Idle → (Cx.at s c q e t).Passes →
    let cx := Cx.at s c q e t
    let k := s.core c
    let x := k.entry q e
    let s0 := s.setCore c k
    let sent := fun (ins : Instr) (w : State) (v : Nat) => ∃ fl, exec ins s = .next
      (({ cx with k := w.core c, t := { t with seq := t.seq + 1, flying := fl } } : Cx).write w f.b.len [.g f.d.toNat (BitVec.ofNat 64 v)])
    let ref := (k.lslotOf cx.slot).bind fun l => s.mgRef l f.h.toNat
    let reached := fun (r : MgRef) => s.unitReached (reqTag c q cx.slot 0).toNat r.slice = true
    (cx.part f.c ≠ [] → cx.seqFree s = true → let l := k.lslotOf cx.slot
      ∃ fl, exec (.mgput f) s = .next (({ s with nextId := s.nextId + 1 } : State).afterCore c q e { k with puts :=
        [{ id := s.nextId, slot := cx.slot, seq := t.seq + 1, pc := x.pc, slice := match ref with | some r => r.slice | none => 12
           part := match l with | some l => l.part | none => 0, q := match l with | some l => l.q | none => 0
           idx := match l with | some l => l.idx | none => 0, handle := f.h.toNat, wide := f.x
           ents := (cx.part f.c).map fun L => (L, BitVec.ofNat 32 (t.rd false L false f.a), BitVec.ofNat 32 (cx.bval false L false .n f.b),
             BitVec.ofNat 32 (t.rd false L false f.cc), BitVec.ofNat 64 (t.rd false L f.x f.d)), held := none }] }
        (x.passed f.b.len) { t with seq := t.seq + 1, flying := fl })) ∧
    (cx.takes f.c = true → ref = none → ∀ y ∈ [(Instr.mgopen f, (3 : DWord)), (.mgclose f, 1), (.mgcloseAbort f, 1), (.mgdrain f, 0), (.mgst f, 0)],
      exec y.1 s = .next (s.after c q e (x.passed f.b.len) (t.put [.g f.d.toNat y.2]))) ∧
    (∀ r, cx.takes f.c = true → ref = some r → cx.seqFree s = true → reached r →
      sent (.mgst f) s0 (match s0.mgFind r with | some m => m.select f.cc.toNat | none => 0) ∧
      (s0.mgFind r = none → sent (.mgclose f) s0 1 ∧ sent (.mgcloseAbort f) s0 1 ∧ sent (.mgdrain f) s0 0) ∧
      (∀ m, s0.mgFind r = some m →
        (m.state = 1 → sent (.mgclose f) (s0.mgSet r { m with state := 3 }) 0) ∧
        (m.state ≠ 1 → sent (.mgclose f) s0 1) ∧
        (m.state ≠ 3 → sent (.mgdrain f) (s0.mgSet r { m with outcome := 5 }) 0) ∧
        (m.state = 3 → ∃ fl,
          let w := s0.mgSet r { m with state := 4, drain := some (c, cx.slot, t.seq + 1, x.pc, f.d.toNat) }
          exec (.mgdrain f) s = .next
          (({ cx with k := w.core c, t := { t with seq := t.seq + 1, flying := fl, busy := [.g f.d.toNat], drains := t.drains ++ [(t.seq + 1, f.d.toNat)] } } : Cx).next w f.b.len)) ∧
        (let base := (t.rg f.a.toNat).toNat
         let len := cx.bval true 0 true .n f.b
         let m' := if f.x then { m with out := base, outlen := len } else { m with regions := m.regions ++ [⟨base, len, 0, true⟩] }
         base % 32 = 0 → len % 32 = 0 → len ≠ 0 → k.leaseOk cx.slot base len (!f.x) true = true → m.state = 1 ∨ m.state = 3 →
         (f.x = true ∨ m.regions.length < 8) → sent (.mgadd f) (s0.mgSet r m') 0)) ∧
      (∀ m, s.mgFind r = some m → let w := (s.setCore c cx.core).mgDiscard r m
        let cx1 : Cx := { cx with k := w.core c, x := (w.core c).entry q e, t := ((w.core c).team? cx.slot).getD t }
        ∃ fl, exec (.mgcloseAbort f) s = .next
          (({ cx1 with t := { cx1.t with seq := cx1.t.seq + 1, flying := fl } } : Cx).write w f.b.len [.g f.d.toNat 0])) ∧
      (let on := s.setCore c (cx.takeSeq s 0).core
       let got := on.homeReadAt { on.identOf c cx.slot with owner := cx.owner s } r.desc 64
       let w := (got.1.used (cx.owner s)).acquire c
       ∀ bs, got.1.waitsFor (cx.owner s) = false → got.2 = .inl bs → let d : TDesc := ⟨leBytes bs⟩
       (d.mgWf = false → sent (.mgopen f) w 3) ∧
       (d.mgWf = true → (d.field 32 8 = 0 ∨ k.leaseOk cx.slot d.base (d.field 32 8) false true = true) →
        (d.field 48 8 = 0 ∨ k.leaseOk cx.slot (d.field 40 8) (d.field 48 8) true true = true) →
        (d.field 56 8 = 0 ∨ k.leaseOk cx.slot (d.field 56 8) 64 false true = true) →
        (∀ m, w.mgFind r = some m → (m.state = 5 → sent (.mgopen f) (w.mgSet r (mgFresh r d)) 0) ∧ (m.state ≠ 5 → sent (.mgopen f) w 1)) ∧
        (w.mgFind r = none → (16 ≤ (w.slice r.slice).mg.length → sent (.mgopen f) w 2) ∧
          ((w.slice r.slice).mg.length < 16 → sent (.mgopen f)
            (w.setSlice r.slice { w.slice r.slice with mg := (w.slice r.slice).mg ++ [mgFresh r d] }) 0)))))

/-- The steps of a Moraine unit (R285, R286, R291): a put's entries are applied in lane order, an accepted one with its stream's next
sequence number; a drain's end reports to its team. What a drain does (R43, R275, R276, R288, R291): it reads every run, sorts and merges all
entries, writes the image and the result's descriptor, or leaves the session in STATE 3 with its OUTCOME; every element stands in the image
under its tile row, tile column, local row and local column, and no other. -/
def Obligations.MoraineSteps : Prop :=
  (∀ (s : State) (c : Nat) (p : Put) (r : MgRef), (s.core c).puts.find? (fun p => p.held.isNone) = some p → p.ref = some r →
    s.unitReached (reqTag c 0 p.slot p.seq).toNat p.slice = true →
    let a := State.mgApply r p.id p.wide p.ents s
    let w := (a.1.used p.id).putDone c p a.2.1 a.2.2
    a.1.waitsFor p.id = false → exec (.morainePutArrival c) s = .next (w.setCore c (w.core c).freeSlots.poll).bump) ∧
  (∀ (s : State) (r : MgRef) (owner : Nat) (wide : Bool) (L : Nat) (row col st : Word) (v : DWord) (m : MgSess),
    s.mgFind r = some m → m.state = 1 →
    let one := State.mgApply r owner wide [(L, row, col, st, v)] s
    (st.toNat ≤ 255 → row.toNat < m.rows → col.toNat < m.cols → wide = m.wide → m.seqOf st.toNat < 2 ^ 24 →
      (s.slice r.slice).mgMustSpill m = false → ∃ m', one = ((s.mgSet r m').count r.part 8 1, .done, none) ∧
        m'.accepted = m.accepted + 1 ∧ m'.seqOf st.toNat = m.seqOf st.toNat + 1 ∧
        m'.ents = m.ents ++ [⟨row, col, st.toNat, m.seqOf st.toNat, if m.wide then v else (v.setWidth 32).setWidth 64⟩]) ∧
    (∀ fl, m.drops wide row col st = some fl →
      one = (s.mgSet r { m with flags := m.flags ||| fl, dropped := m.dropped + 1 }, .done, none))) ∧
  (∀ (s : State) (i idx c slot gd : Nat) (seq : BitVec 16) (pc : PCWord) (m : MgSess), (s.slice i).mg[idx]? = some m → m.state = 4 →
    m.drain = some (c, slot, seq, pc, gd) → c < 384 → s.unitReached noTag i = true →
    let owner := 2 ^ 62 + (64 * c + slot) * 65536 + seq.toNat
    let r := s.drainRun (m.ident s owner) m
    let w := r.1.used owner
    r.1.waitsFor owner = false → exec (.drainEnd i idx) s =
      .next ((w.setSlice i { w.slice i with mg := (w.slice i).mg.set idx { r.2.1 with drain := none } }).drainStatus m
        r.2.2.1 r.2.2.2.1 r.2.2.2.2).bump) ∧
  (∀ (s s1 : State) (id : Ident) (m : MgSess) (es : List MgEnt) (broken : Bool) (bad : Option (BitVec 8 × Nat)), s.mgRuns id m = (s1, es, broken, bad) →
    let x := mgImage m.wide (mgMerge m.ety (mgSort (es ++ m.ents)))
    let w := s1.homeWrite id m.out x.1
    let w' := if m.result = 0 then (w.1, none) else w.1.homeWrite id m.result (mgResultDesc m x.2.1 x.2.2.1 x.2.2.2.1 x.2.2.2.2 x.1.length)
    let wrote := (m.out, x.1.length) :: if m.result = 0 then [] else [(m.result, 64)]
    (∀ b, bad = some b → s.drainRun id m = (s1, { m with outcome := 6, state := 3 }, 1, some b, [])) ∧
    (bad = none → broken = true → s.drainRun id m = (s1, { m with outcome := 4, state := 3 }, 0, none, [])) ∧
    (bad = none → broken = false → m.outlen < x.1.length →
      s.drainRun id m = (s1, { m with outcome := 3, state := 3, need := x.1.length }, 0, none, [])) ∧
    (bad = none → broken = false → x.1.length ≤ m.outlen →
      (∀ b, w.2.or w'.2 = some b → s.drainRun id m = (w'.1, { m with outcome := 6, state := 3 }, 1, some b, wrote)) ∧
      (w.2 = none → w'.2 = none →
        s.drainRun id m = (w'.1, { m with outcome := 1, state := 5, ents := [], regions := [], runs := [] }, 0, none, wrote)))) ∧
  (∀ es : List MgEnt, (mgSort es).Perm es ∧ (mgSort es).Pairwise fun a b => mgKey a ≤ mgKey b) ∧
  (∀ (ety : Nat) (es : List MgEnt), es.Pairwise (fun a b => mgKey a ≤ mgKey b) →
    let add := fun (a b : Nat) => if ety = 0 then (Fmt.f32.arith .add ⟨.rne, false, false⟩ a b 0).bits
      else if ety = 1 then (Fmt.f64.arith .add ⟨.rne, false, false⟩ a b 0).bits else (a + b) % 2 ^ 32
    let first := fun (a : Nat) => if ety = 0 then (if (Fmt.f32.decode a).isNaN then Fmt.f32.nan else a)
      else if ety = 1 then (if (Fmt.f64.decode a).isNaN then Fmt.f64.nan else a) else a
    let key := fun (e : MgEnt) => (e.row.toNat, e.col.toNat)
    (mgMerge ety es).map (fun x => (x.1, x.2.1)) = (es.map key).eraseDups ∧
    ∀ x ∈ mgMerge ety es, let vs := (es.filter fun e => decide (key e = (x.1, x.2.1))).map (·.val.toNat)
      x.2.2 = (vs.drop 1).foldl add (first (vs.headD 0))) ∧
  (∀ (wide : Bool) (xs : List (Nat × Nat × Nat)), let w := if wide then 8 else 4
    xs.Pairwise (fun a b => a.1 < b.1 ∨ (a.1 = b.1 ∧ a.2.1 < b.2.1)) → xs.length < 2 ^ 32 →
    (∀ x ∈ xs, x.1 < 2 ^ 32 ∧ x.2.1 < 2 ^ 32 ∧ x.2.2 < 2 ^ (8 * w)) →
    let y := mgImage wide xs
    let at_ := fun (i n j : Nat) => leBytes ((y.1.drop ((tileOffsets w y.2.1 y.2.2.1 y.2.2.2.1 y.2.2.2.2)[i]?.getD 0 + n * j)).take n)
    y.1.length = (tileOffsets w y.2.1 y.2.2.1 y.2.2.2.1 y.2.2.2.2)[8]?.getD 0 ∧ y.2.2.2.2 = xs.length ∧
    (∀ i, i + 1 < y.2.1 → at_ 0 4 i < at_ 0 4 (i + 1)) ∧ at_ 1 4 0 = 0 ∧ at_ 1 4 y.2.1 = y.2.2.1 ∧ at_ 3 4 0 = 0 ∧
    at_ 3 4 y.2.2.1 = y.2.2.2.1 ∧ at_ 5 4 0 = 0 ∧ at_ 5 4 y.2.2.2.1 = y.2.2.2.2 ∧
    ∀ x ∈ xs, ∃ k < y.2.1, ∃ m < y.2.2.1, ∃ q < y.2.2.2.1, ∃ e < y.2.2.2.2, at_ 1 4 k ≤ m ∧ m < at_ 1 4 (k + 1) ∧
      at_ 3 4 m ≤ q ∧ q < at_ 3 4 (m + 1) ∧ at_ 5 4 q ≤ e ∧ e < at_ 5 4 (q + 1) ∧
      x = (32 * at_ 0 4 k + at_ 4 1 q, 32 * at_ 2 4 m + at_ 6 1 e, at_ 7 w e)) ∧
  (∀ (m : MgSess) (a b c d n : Nat), let y : TDesc := ⟨leBytes (mgResultDesc m a b c d n)⟩
    m.ety < 256 → m.out < 2 ^ 64 → m.rows < 2 ^ 32 → m.cols < 2 ^ 32 → a < 2 ^ 32 → b < 2 ^ 32 → c < 2 ^ 32 → d < 2 ^ 32 → n < 2 ^ 64 →
    (mgResultDesc m a b c d n).length = 64 ∧ y.kind = 3 ∧ y.ety = m.ety ∧ y.base = m.out ∧ y.rows = m.rows ∧ y.cols = m.cols ∧ y.ntr = a ∧
    y.nt = b ∧ y.nrw = c ∧ y.ne = d ∧ y.extent = n)

/-- Walks (R320 to R326): one walk per lane starts at its pointer, vertex or list with its operand, its walk id and its descriptor, its three
destinations busy; a hop follows one pointer, one vertex or one probe,
and a walk that ends writes its result and status. -/
def Obligations.Walks : Prop :=
  (∀ (s : State) (c q e : Nat) (t : Team) (f : WalkF) (ins : Instr) (kind : WalkKind), Plain s c q e t →
    (ins, kind) ∈ [(Instr.walkChase f, WalkKind.chase), (.walkRnd f, .rnd), (.walkSeek f, .seek)] →
    let cx := Cx.at s c q e t
    let k := s.core c
    let ls := cx.part f.c
    ls ≠ [] → k.walks.length + ls.length ≤ 1024 → cx.seqFree s = true →
    ∃ (fl : List Flying) (ws : List Walk), exec ins s = .next (({ s with nextId := s.nextId + ls.length } : State).afterCore c q e
        { k with walks := k.walks ++ ws } ((k.entry q e).passed f.b.len)
        { t with seq := t.seq + 1, flying := fl, busy := ls.flatMap fun L => [.v L f.d.toNat, .v L (f.d.toNat + 1), .v L (f.d.toNat + 2)] }) ∧
      ws.map (·.lane) = ls ∧ ∀ w ∈ ws, w.kind = kind ∧ w.dreg = f.d.toNat ∧ w.seq = t.seq + 1 ∧ w.slot = cx.slot ∧ w.h = 0 ∧
        w.n = t.rd false w.lane false f.cc ∧ w.lo = 0 ∧ w.hi = w.n ∧ w.last = none ∧ w.hdr = none ∧ w.got = [] ∧ w.away = none ∧ w.pc = cx.x.pc ∧
        (let x := BitVec.ofNat 64 (t.rd false w.lane true f.a)
         w.x = (if kind = .rnd then (x.extractLsb' 0 32).setWidth 64 else x) ∧ w.wid = x.extractLsb' 32 32 ∧
         w.b = BitVec.ofNat 32 (cx.bval false w.lane false (if kind = .chase then .s else .n) f.b) ∧
         w.desc = match k.lslotOf cx.slot with | some l => l.htab[f.h.toNat]?.getD 0 | none => 0)) ∧
  (∀ (s : State) (c idx : Nat) (w : Walk), (s.core c).walks[idx]? = some w → w.away = none →
    let quad := match (s.core c).team? w.slot with | some t => t.quad | none => 0
    let id := { s.identOf c w.slot with owner := w.id, tag := (reqTag c quad w.slot w.seq).toNat }
    let r := s.walkStep none w id
    let v := r.1.used w.id
    ((s.core c).blockStopping w.block = false ∨ w.got ≠ []) → (s.core c).behind w.id w.slot w.seq = false → s.islandOn (islandSerac + w.slice) = true →
    (∀ va i, w.nextVa = some va → s.home id.part va = .here i → i ≠ w.slice →
      exec (.walkHop c idx) s = .next (s.setWalk c { w with slice := i }).bump) ∧
    ((∀ va, w.nextVa = some va → s.home id.part va = .here w.slice) → r.1.waitsFor w.id = false →
      (∀ w', r.2 = .go w' → exec (.walkHop c idx) s = .next ((v.setWalk c w').count id.part 9 (w'.h - w.h)).bump) ∧
      (∀ w' code, r.2 = .stop w' code →
        exec (.walkHop c idx) s = .next ((v.endWalk c w' w'.res (w'.status code) none).count id.part 9 (w'.h - w.h)).bump) ∧
      (∀ w' cls va, r.2 = .fault w' cls va →
        exec (.walkHop c idx) s = .next (v.endWalk c w' w'.res (w'.status 1) (some (cls, va))).bump))) ∧
  (∀ (s s1 : State) (dev : Option Nat) (w : Walk) (id : Ident) (v : Nat),
    let step := s.walkStep dev w id
    let read := fun (va n : Nat) => s.walkRead dev w id (va % 2 ^ 64) n = (s1, .inl v)
    (w.kind ≠ .seek → 65535 < w.n → step = (s, .stop w 6)) ∧
    (w.kind ≠ .seek → w.n ≤ 65535 → w.n ≤ w.h → step = (s, .stop w 0)) ∧
    (w.kind = .chase → w.n ≤ 65535 → w.h < w.n → w.x = 0 → step = (s, .stop w 3)) ∧
    (w.kind = .chase → w.n ≤ 65535 → w.h < w.n → w.x ≠ 0 → let a := (w.x + w.b.signExtend 64).toNat
      (a % 8 ≠ 0 → step = (s, .stop w 4)) ∧
      (a % 8 = 0 → read a 8 → step = (s1, if v = 0 then .stop { w with h := w.h + 1 } 3
        else .go { w with h := w.h + 1, x := BitVec.ofNat 64 v }))) ∧
    (w.kind = .rnd → w.n ≤ 65535 → w.h < w.n → w.hdr = none → w.desc = 0 → step = (s, .stop w 5)) ∧
    (w.kind = .rnd → w.n ≤ 65535 → w.h < w.n → w.hdr = none → w.desc ≠ 0 → read w.desc 64 →
      step = (s1, if (⟨v⟩ : TDesc).graphWf then .go { w with hdr := some v } else .stop w 5)) ∧
    (∀ x, w.kind = .rnd → w.n ≤ 65535 → w.h < w.n → w.hdr = some x → let d : TDesc := ⟨x⟩
      (d.field 16 4 ≤ w.x.toNat → w.got = [] → step = (s, .stop w 4)) ∧
      (w.x.toNat < d.field 16 4 → w.got = [] → read ((d.field 8 8 + 8 * w.x.toNat) % 2 ^ 64) 8 → step = (s1, .go { w with got := [v] })) ∧
      (∀ a, w.x.toNat < d.field 16 4 → w.got = [a] → read ((d.field 8 8 + 8 * w.x.toNat + 8) % 2 ^ 64) 8 →
        step = (s1, .go { w with got := [a, v] })) ∧
      (∀ a e, w.x.toNat < d.field 16 4 → w.got = [a, e] →
        (e = a → e ≤ d.field 32 8 → step = (s, .stop w 3)) ∧ (e < a ∨ d.field 32 8 < e → step = (s, .stop w 4)) ∧
        (a < e → e ≤ d.field 32 8 →
          read ((d.field 24 8 + 4 * (a + (walkMix w.b w.wid w.h).toNat * (e - a) / 2 ^ 64)) % 2 ^ 64) 4 →
          step = (s1, .go { w with x := BitVec.ofNat 64 v, h := w.h + 1, got := [] })))) ∧
    (w.kind = .seek → 0 < w.n → w.x.toNat % 4 ≠ 0 → step = (s, .stop w 4)) ∧
    (w.kind = .seek → w.x.toNat % 4 = 0 → w.hi ≤ w.lo → step = (s, .stop w 0)) ∧
    (w.kind = .seek → w.x.toNat % 4 = 0 → w.lo < w.hi → let mid := (w.lo + w.hi) / 2
      read (w.x.toNat + 4 * mid) 4 → step = (s1, .go (if v < w.b.toNat
        then { w with h := w.h + 1, lo := mid + 1 } else { w with h := w.h + 1, hi := mid, last := some (BitVec.ofNat 32 v) }))))

/-! ## The core's own steps -/

/-- Regroup, late writes and boosts (R60, R157 to R160, R166): a team that cannot take part goes on with gpD false, another arrives and
waits; the decision fuses teams that arrived at one place with one set, and lets others go on with gpD false. -/
def Obligations.RegroupAndIssueSteps : Prop :=
  (∀ (s : State) (c q e : Nat) (t : Team) (f : DAB), Plain s c q e t → (s.core c).Idle → (Cx.at s c q e t).Passes →
    let cx := Cx.at s c q e t
    let x := (s.core c).entry q e
    let set := (t.rg f.a.toNat).setWidth 32
    cx.takes f.c = true →
    (x.mask ≠ (s.core c).allLanes x.team t ∨ x.inner.isSome = true ∨ set.getLsbD t.num = false →
      exec (.regrp f) s = .next (s.after c q e (x.passed f.b.len) (t.put [.gp f.d.toNat false]))) ∧
    (x.mask = (s.core c).allLanes x.team t → x.inner = none → set.getLsbD t.num = true → exec (.regrp f) s = .next (s.after c q e x { t with
      mode := .regrp, arrival := some ⟨x.pc, f.b.len, set, BitVec.ofNat 32 (cx.bval true 0 false .n f.b), f.d.toNat⟩ }))) ∧
  (∀ (s : State) (c slot : Nat) (t : Team) (a : Arrival) (g : List GroupMember), (s.core c).team? slot = some t → t.mode = .regrp →
    t.arrival = some a → (s.core c).group t a = some g →
    let k := s.core c
    ((∀ m ∈ g, m.arr.pc = a.pc ∧ m.arr.set = a.set) →
      exec (.regroupDecision c slot) s = .next (s.setCore c (k.fuseTeams g).poll).bump) ∧
    ((∃ m ∈ g, m.arr.pc ≠ a.pc ∨ m.arr.set ≠ a.set) → exec (.regroupDecision c slot) s = .next (s.setCore c
      (g.foldl (fun k m => k.resumeRegrp m m.team (k.entry m.team.quad (k.soleEntry m.slot m.team)).mask false) k).poll).bump)) ∧
  (∀ (s : State) (c q e : Nat) (t : Team),
    let k := s.core c
    let x := k.entry q e
    let due := fun (p : Pend) => decide (p.left = 0) && p.ready
    (x.st ≠ .free → x.pend.any due = true → k.team? x.team = some t →
      exec (.longLatencyWrite c q e) s = .next (s.setCore c ((Core.settle settleFuel ((k.setTeam x.team (t.commit (x.pend.filter due))).setEntry q e
        { x with pend := x.pend.filter fun p => !(due p) }) q x.team).poll)).bump) ∧
    (x.st = .running → x.boost = none → 256 ≤ x.age → exec (.fragmentBoost c q e) s =
      .next (s.setCore c { (k.setEntry q e { x with boost := some k.nextBoost }) with nextBoost := k.nextBoost + 1 }).bump))

/-- What the memory side answers (R170, R176, R190, R259, R262, R310, R314, R330, R361, R405): a load's sector that hits at its home
gives its lanes their values, a store's sector enters the line, an atomic's word is applied, a miss is translated and filled, a refusal
reaches the team's record. -/
def Obligations.MemoryAnswers : Prop :=
  (∀ (s s1 s2 : State) (c idx j i key va : Nat) (r : Req) (sx w na acq : Bool) (x : Sector), (s.core c).reqs[idx]? = some r →
    r.todo[j]? = some va → r.kind = .load sx w na acq → (s.core c).earlier r.id r.slot va = false →
    s.stale c r.slot r.gen r.sgen va false = false → s.home (s.reqIdent c r).part va = .here i →
    s.stage i (s.reqIdent c r) va true false (r.missed.contains va) = (s1, .hit key) → s1.readWay i key (s.reqIdent c r) va none = (s2, .inl x) →
    let line := s2.cached i key (s.reqIdent c r) va x
    line.watch = false → s2.waitsFor r.id = false →
    let s3 := (s2.used r.id).forget c (s.reqIdent c r) (va / 32 * 32) 32
    let s4 := s3.setCore c (((s3.core c).setReq (r.served va)).addResults r.id (r.values va x sx w) false)
    exec (.loadResponse c idx j) s = .next ((if na || acq then s4 else s4.l1Put c line).finishReq c r.id).bump) ∧
  (∀ (s s1 s2 : State) (c idx i key : Nat) (e : StoreEnt) (l : Line), (s.core c).stores[idx]? = some e →
    idx < 512 → (s.core c).earlier e.id e.slot e.va = false → e.away = none → s.stale c e.slot e.gen e.sgen e.va true = false → e.stash = false →
    let id := s.storeIdent c e
    s.home id.part e.va = .here i → s.stage i id e.va false true e.sent = (s1, .hit key) →
    (s1.slice i).way? key = some l → l.watch.getLsbD (subOf e.va) = false →
    s1.writeWay i key id e.va e.mask e.data (some ⟨none, c, false⟩) = (s2, none) → s2.waitsFor e.id = false →
    ∀ l', (s2.slice i).way? key = some l' → exec (.storeSectorAccept c idx) s =
      .next (((s2.used e.id).setCore c ((s2.core c).l1Store id e.va e.mask (l'.data[subOf e.va]?.getD 0))).dropStore c e.id).bump) ∧
  (∀ (s s0 s1 s2 : State) (c idx i key va : Nat) (rest : List Nat) (r : Req) (op : AtOp) (ty : AtTy) (w nr acq rel red : Bool) (x : Sector) (l' : Line),
    (s.core c).reqs[idx]? = some r → r.kind = .atomic op ty w nr acq rel red → r.todo = va :: rest → (s.core c).earlier r.id r.slot va = false →
    s.stale c r.slot r.gen r.sgen va true = false → s.atomMay c r.slot va (reqTag c r.quad r.slot r.seq).toNat r.id = (s0, true) →
    s0.waitsFor r.id = false → let sa := s0.used r.id
    let id := sa.reqIdent c r
    sa.home id.part va = .here i → sa.stage i id va false true (r.missed.contains va) = (s1, .hit key) → s1.readWay i key id va none = (s2, .inl x) →
    let n := atTyBytes ty
    let res := atomLanes op ty (r.accs.filter fun a => decide (a.va = va)) (sectorNat x (va % 32) n)
    let u := (s2.writeWay i key id va (⟨0, va, n, 0, 0, 0⟩ : Acc).mask ((BitVec.ofNat 256 res.1) <<< (8 * (va % 32))) none).1
    (u.slice i).way? key = some l' → l'.watch.getLsbD (subOf va) = false → u.waitsFor r.id = false →
    let s3 := ((u.used r.id).forget c id va n).atomDone
      c r.slot va (reqTag c r.quad r.slot r.seq).toNat
    exec (.atomicRequest c idx) s = .next ((s3.setCore c (((s3.core c).setReq { r with todo := r.todo.filter fun y => decide (y ≠ va) }).addResults
      r.id (atomWrs ty w nr res.2) false)).finishReq c r.id).bump) ∧
  (∀ (s : State) (i idx : Nat) (m : Miss), (s.slice i).misses[idx]? = some m →
    let id := m.ident i
    s.stackUp i = true →
    (m.res = none → (s.dropStale i id m.va).waitsFor id.owner = false → let r := ((s.dropStale i id m.va).used id.owner).translate i m.dk m.dom m.gen m.va (!m.write) m.write
      let w : State × Sum (BitVec 8) (Nat × Bool × Bool) := match r.2 with
        | .bad cls => (r.1, .inl cls)
        | .denied pr pw => (r.1.newRights i m.dk m.dom m.gen m.va pr pw, .inl 0x10)
        | .ok pa pr pw => (r.1, .inr (pa, pr, pw))
      exec (.l2MissTranslation i idx) s = .next (w.1.setSlice i { w.1.slice i with
        misses := (w.1.slice i).misses.set idx { m with res := some w.2 } }).bump) ∧
    (∀ pa pr pw, m.res = some (.inr (pa, pr, pw)) →
      let w := ((s.setSlice i { s.slice i with misses := (s.slice i).misses.eraseIdx idx }).fill i id m.va pa pr pw).1
      w.waitsFor id.owner = false → exec (.l2Fill i idx) s = .next (w.used id.owner).bump)) ∧
  (∀ (s : State) (c : Nat) (f : Refused) (rest : List Refused), (s.core c).refused = f :: rest → f.slot ≤ agentSlot →
    ((s.core c).team? f.slot = none → exec (.deferredFault c) s = .next (s.setCore c { s.core c with refused := rest }).bump) ∧
    (∀ t, (s.core c).team? f.slot = some t → t.saved ≠ some true → t.strict = false → (s.core c).reqs = [] → (s.core c).stores = [] →
      c < s.cores.length → (∀ i u, (s.core c).team? i = some u → u.stops = []) →
      ∃ s', exec (.deferredFault c) s = .next s' ∧ (s'.core c).refused = rest ∧ (∀ a, memGet s'.mem a = memGet s.mem a) ∧
        (s'.core c).team? f.slot =
          some ((t.recordFault f.cls (reqTag c t.quad f.slot f.seq) f.lane f.va f.pc f.sess).addLog (if f.slot = agentSlot then [] else f.entries)))) ∧
  (∀ (s : State) (c idx : Nat) (r : Req), (s.core c).reqs[idx]? = some r → (∃ va ∈ r.todo, s.stale c r.slot r.gen r.sgen va false = true) →
    let id := s.identOf c r.slot
    let atom := match r.kind with | .atomic _ _ _ _ _ _ _ => true | _ => false
    let w := r.todo.foldl (fun s va => if s.stale c r.slot r.gen r.sgen va false then s.dropMiss (id.withGens r.gen r.sgen) va atom else s) s
    exec (.staleRepresent c idx) s = .next (w.setCore c ((s.core c).setReq { r with gen := id.gen, sgen := id.sgen })).bump) ∧
  (∀ (s s1 : State) (r : RemoteReq) (a : Answer) (p : Nat), s.stopped = false →
    let owner := ownerName 10 [r.num, r.dev]
    (s.servedBy r.part = none → (∀ v, r.op ≠ .note v) → (∀ ws k st, r.op ≠ .revoke ws k st) → exec (.remoteRequest r) s = .next (s.reply r (unserved r)).bump) ∧
    (∀ v, r.op = .note v →
      exec (.remoteRequest r) s = .next (((List.range 12).foldl (fun s i => s.noteAgents i v) s).reply r (Answer.plain 0 0)).bump) ∧
    (s.servedBy r.part = some p → s.serveRemote p r = .ans s1 a → s1.waitsFor owner = false →
      exec (.remoteRequest r) s = .next ((s1.used owner).reply r a).bump) ∧
    (s.servedBy r.part = some p → s.serveRemote p r = .quiet s1 → s1.waitsFor owner = false →
      exec (.remoteRequest r) s = .next (s1.used owner).bump) ∧
    (∀ ws k st, r.op = .revoke ws k st → exec (.remoteRequest r) s =
      .next ((s.giveWords r ws k st).1.reply r (Answer.plain 0 (s.giveWords r ws k st).2)).bump)) ∧
  (∀ (t : Team) (cls : BitVec 8) (tag : BitVec 33) (lane : BitVec 16) (va : Nat) (pc : PCWord) (sess : Bool),
    let r := (t.recordFault cls tag lane va pc sess).record
    (t.record.valid = true → r = { t.record with count := min 65535 (t.record.count + 1) }) ∧
    (t.record.valid = false → r.valid = true ∧ r.cls = cls ∧ r.tag = tag ∧ r.lane = lane ∧ r.sess = sess ∧
      r.fva = BitVec.ofNat 64 (va / 32 * 32) ∧ r.fpc = pc.setWidth 64))

/-! ## Log, context, launch and debug instructions -/

/-- The operand log and breakpoints (R336, R339 to R343), `tmark`, `pmrd` and `wtch` (R414, R420). An index register is read whatever the log
holds, but for the destination of a load logged at the fragment's own level (R331): so a handler reads the log of the level it has
interrupted. Choices of the model: `logre` replays the whole log in one step (assumption 82) under a SEQ of its own (assumption 110), and
a `brk` posts its event when it issues (assumption 59). -/
def Obligations.LogAndDebugInstructions : Prop :=
  ∀ (s : State) (c q e : Nat) (t : Team), Ready s c q e t →
    let cx := Cx.at s c q e t
    let k := s.core c
    let x := k.entry q e
    let owner := cx.owner s
    (∀ f : DA, cx.takes f.c = true → exec (.logdr f) s =
      .next (s.after c q e (x.passed 8) (t.dropLog.put [.g f.d.toNat (BitVec.ofNat 64 t.log.length)]))) ∧
    (t.dropLog.log = [] ∧ t.dropLog.record.valid = false ∧ t.dropLog.record.ovf = false ∧ t.dropLog.record.count = 0 ∧
      t.dropLog.lanes = t.lanes ∧ t.dropLog.g = t.g) ∧
    (∀ f : DB, (∀ en ∈ t.log, en.isLoad = true → en.flags.getLsbD 4 = false → en.level.toNat = t.level →
        ∀ r ∈ en.dests, r ∉ f.b.refs true 0 false) → exec (.logrd f) s = .next (s.after c q e (x.passed f.b.len)
      (t.put ((cx.units f.c).map fun _ => .g f.d.toNat (t.logWord (cx.bval true 0 false .n f.b)))))) ∧
    (∀ f : DA, cx.takes f.c = true → k.Idle → cx.Passes →
      let y := cx.takeSeq s 0
      let s0 := s.setCore c y.core
      let id := { s0.identOf c cx.slot with owner := owner, tag := (reqTag c q cx.slot (t.seq + 1)).toNat }
      let r := s0.replayLog y id t.log
      let cx1 := y.reload r.1
      let puts := fun (v : DWord) => exec (.logre f) s = .next (s.after c q e (x.passed 8) (t.put [.g f.d.toNat v]))
      (t.record.ovf = true → puts 2) ∧ (t.record.ovf = false → t.log = [] → puts 3) ∧
      (t.record.ovf = false → t.log ≠ [] → cx.seqFree s = true → r.2.2 = .done → exec (.logre f) s =
        .next (({ cx1 with t := (cx1.t.replayed r.2.1 []).dropLog } : Cx).write r.1 8 [.g f.d.toNat 0])) ∧
      (∀ en rest cls, t.record.ovf = false → t.log ≠ [] → cx.seqFree s = true → r.2.2 = .bad (en :: rest) cls →
        let t1 := (cx1.t.replayed r.2.1 (en :: rest)).recordFault cls (reqTag c q cx.slot en.seq)
          (if en.flags.getLsbD 0 then 0xFFFF else en.lane) en.va.toNat (en.pc.setWidth 56) false
        exec (.logre f) s = .next (({ cx1 with t := t1 } : Cx).write (r.1.count (r.1.partOf (c / 32)) 7 1) 8 [.g f.d.toNat 1]))) ∧
    (t.log = [] →
      (∀ f : DB, exec (.pmrd f) s = .next (s.after c q e (x.passed f.b.len)
        (t.put ((cx.units f.c).map fun _ => .g f.d.toNat (k.counter q (cx.bval true 0 false .n f.b)))))) ∧
      (∀ f : DB, cx.takes f.c = true → exec (.tmark f) s = .next (s.afterCore c q e
        (k.note cx.slot e 7 (cx.bval true 0 false .n f.b * 2 ^ 16)) (x.passed f.b.len) t)) ∧
      (∀ f : CodeF, cx.acts f.c = true →
        ((∀ l, k.lslotOf cx.slot = some l → l.launch.dbgown = 0) → exec (.brk f) s = .next (cx.trap s 0x0B f.code 0xFFFF 0 8)) ∧
        (∀ l, k.lslotOf cx.slot = some l → l.launch.dbgown ≠ 0 → exec (.brk f) s =
          .next ((s.setCore c (cx.core.askStop cx.slot (.halt 0x0B (some (e, x.pc + 8))))).dbgEvent c cx.slot 1 f.code.toNat x.pc 0).bump)) ∧
      (∀ f : DABX, cx.takes f.c = true →
        let base := (t.rg f.a.toNat).toNat
        let n := cx.bval true 0 true .n f.b
        let s0 := s.setCore c cx.core
        let id := { s0.identOf c cx.slot with owner := owner }
        let r := s0.watchRange id (!f.x) (n / 32) base
        let v := r.1.used owner
        let w := if r.2 then v.dropCopies id.part (sharedVa base) (id.dom base) base n else v
        (base % 32 ≠ 0 ∨ n % 32 ≠ 0 ∨ n = 0 → exec (.wtch f) s = .next (s.after c q e (x.passed f.b.len) (t.put [.g f.d.toNat 1]))) ∧
        (base % 32 = 0 → n % 32 = 0 → n ≠ 0 → r.1.waitsFor owner = false → exec (.wtch f) s =
          .next ((cx.reload w).write w f.b.len [.g f.d.toNat (if r.2 then 0 else 2)])))) ∧
    (let w := fun (bs : List Byte) (j : Nat) => BitVec.ofNat 64 (numAt bs (8 * j) 8)
     ∀ i : Nat, (i < 8 → t.level = 0 → t.logWord i = 0) ∧
      (i < 8 → t.level ≠ 0 → ∀ fr, t.frames[t.level - 1]? = some fr → t.logWord i = w fr.bytes i) ∧
      (8 ≤ i → i < 16 → t.logWord i = w (t.record.bytes t.log.length) (i - 8)) ∧
      (∀ j en, i < 8 → t.log[j]? = some en → t.logWord (16 + 8 * j + i) = w en.bytes i) ∧
      (16 + 8 * t.log.length ≤ i → t.logWord i = 0))

/-- Context save and load, halt and resume (R344, R345, R349, R350), and `lnch` (R382): their statuses, and what each does where it
succeeds. Choices of the model: a `halt`, of a team or broadcast, has class 0 (assumption 75); `ctxsv` and `ctxld` move their images in one
step (assumption 82); `ctxld` reads under a SEQ of its own (assumption 110). -/
def Obligations.ContextAndLaunchInstructions : Prop :=
  (∀ (s : State) (c q e : Nat) (t : Team), Plain s c q e t → (s.core c).Idle → (Cx.at s c q e t).Passes →
    let cx := Cx.at s c q e t
    let k := s.core c
    let x := k.entry q e
    let owner := cx.owner s
    let tag := (reqTag c q cx.slot (t.seq + 1)).toNat
    let puts := fun (ins : Instr) (k1 : Core) (len : Nat) (d : Reg) (v : DWord) =>
      exec ins s = .next (s.afterCore c q e k1 (x.passed len) (t.put [.g d.toNat v]))
    (∀ f : DACX, cx.takes f.c = true →
      let slot := (t.rg f.cc.toNat).toNat % 64
      let va := (t.rg f.a.toNat).toNat
      let saves := fun (bytes : List Byte) =>
        let cx1 := cx.takeSeq s 0
        let s0 := s.setCore c cx1.core
        let id := { s0.identOf c cx.slot with owner := owner, tag := tag }
        let r := s0.homeWrite id va bytes
        let w := (r.1.used owner).forget c id va bytes.length
        r.1.waitsFor owner = false → r.2 = none → exec (.ctxsv f) s = .next ((cx1.reload w).write w 8 [.g f.d.toNat 0])
      (k.named slot = none → (f.x = true → va % 64 = 0 → puts (.ctxsv f) k 8 f.d 1) ∧ (va % 64 = 0 → puts (.ctxld f) k 8 f.d 1) ∧
        puts (.halt f) k 8 f.d 1 ∧ puts (.resm f) k 8 f.d 1) ∧
      (∀ u, k.named slot = some u → u.isHalted = false → (f.x = true → va % 64 = 0 → puts (.ctxsv f) k 8 f.d 2) ∧
        (va % 64 = 0 → puts (.ctxld f) k 8 f.d 2) ∧ puts (.resm f) k 8 f.d 2 ∧
        (x.snap = none → exec (.halt f) s = .next (s.setCore c
          (let k1 := ({ cx with x := { x with snap := some 0, stall := none } } : Cx).core
           if f.x then (k1.broadcast u.block 0).poll else k1.askStop slot (.halt 0 none))).bump)) ∧
      (∀ u, k.named slot = some u → u.isHalted = true →
        (x.snap = none → puts (.halt f) k 8 f.d 2) ∧
        (x.snap.isSome = true → (f.x = true → k.blockAcked u.block = true) → puts (.halt f) k 8 f.d 0) ∧
        (let k1 := if f.x then ((k.teamsOf u.block).foldl Core.resumeTeam k).endBroadcast u.block else k.resumeTeam slot
         exec (.resm f) s = .next (({ cx with k := k1 } : Cx).write s 8 [.g f.d.toNat 0])) ∧
        (f.x = true → va % 64 = 0 → cx.seqFree s = true → saves (k.image slot u true true)) ∧
        (va % 64 = 0 → cx.seqFree s = true →
          let y := cx.takeSeq s 0
          let s0 := s.setCore c y.core
          let r := s0.homeReadAt { s0.identOf c cx.slot with owner := owner, tag := tag } va (imageSize u.n u.nregs true)
          let w := r.1.used owner
          let cx1 := y.reload w
          ∀ bs, r.1.waitsFor owner = false → r.2 = .inl bs →
            (cx1.k.loadImage slot u bs (bs.drop (imageSize u.n u.nregs false)) true = none →
              exec (.ctxld f) s = .next (cx1.write w 8 [.g f.d.toNat 3])) ∧
            (∀ k1, cx1.k.loadImage slot u bs (bs.drop (imageSize u.n u.nregs false)) true = some k1 → exec (.ctxld f) s =
              .next (({ cx1 with k := if f.x then (k1.clearSkip slot).resumeTeam slot else k1.clearSkip slot } : Cx).write w 8 [.g f.d.toNat 0])))) ∧
      (f.x = false → va % 64 = 0 → k.leaseOk cx.slot va (imageSize t.n t.nregs true) false true = true →
        (cx.core.single q cx.slot = false → puts (.ctxsv f) k 8 f.d 2) ∧
        (cx.core.single q cx.slot = true → cx.seqFree s = true →
          let y := cx.takeSeq s 0
          let t1 := y.t.put [.g f.d.toNat 1]
          let cx2 : Cx := { y with x := { x with pc := x.pc + 8 }, t := t1 }
          saves (cx2.core.image cx.slot t1 false true)))) ∧
    (∀ f : DAB, cx.takes f.c = true →
      let n := cx.bval true 0 false .n f.b
      let y := cx.takeSeq s 0
      let s0 := s.setCore c y.core
      let id := { s0.identOf c cx.slot with owner := owner, tag := tag }
      let r := s0.reserve id.part n id.asid owner tag
      let s1 := r.1.used owner
      let cx1 := y.reload s1
      (n > 255 → puts (.lnch f) k f.b.len f.d 3) ∧
      (∀ st i, n ≤ 255 → cx.seqFree s = true → r.2 = .inl (st, i, none) → r.1.waitsFor owner = false → exec (.lnch f) s =
        .next (cx1.write s1 f.b.len [.g f.d.toNat (BitVec.ofNat 64 st)])) ∧
      (∀ i h, n ≤ 255 → cx.seqFree s = true → r.2 = .inl (0, i, some h) → r.1.waitsFor owner = false →
        let s2 := s1.fresh.2
        let p := s2.putPacket (cx1.ident s2 (2 ^ 61 + s1.fresh.1)) h (t.packet f.a.toNat i)
        let w := (p.1.forget c (p.1.identOf c cx.slot) h 64).wakeAgents (p.1.partOf (c / 32))
        p.1.waitsFor (2 ^ 61 + s1.fresh.1) = false → p.2 = none → exec (.lnch f) s =
          .next (((cx1.reload p.1).reload w).write w f.b.len [.g f.d.toNat (BitVec.ofNat 64 (i % 2 ^ 56 * 2 ^ 8))])))) ∧
  (∀ (s : State) (c b : Nat) (blk : Block), (s.core c).block? b = some blk → blk.bcast.isSome = true → blk.acked = false →
    (∀ i ∈ (s.core c).teamsOf b, ∀ u, (s.core c).team? i = some u → u.isHalted = true ∨ u.mode = TMode.retired) →
    (∀ y ∈ (s.core c).stores, y.slot ∉ (s.core c).teamsOf b) → (∀ y ∈ (s.core c).refused, y.slot ∉ (s.core c).teamsOf b) → s.blockSessions c b = false →
    (∀ y ∈ (s.core c).seqs, y.block = some b → y.flight = []) →
    exec (.broadcastAcknowledged c b) s = .next (s.setCore c ((s.core c).setBlock b { blk with acked := true })).bump)

/-! ## The agents -/

/-- The privileged instructions of the agent slot (R392, R393), and the end of its task (R394): each acts in the state in which the
fragment is put back, and its status or value goes to gD. -/
def Obligations.AgentInstructions : Prop :=
  (∀ (s : State) (c q e : Nat) (t : Team), Plain s c q e t →
    let cx := Cx.at s c q e t
    let k := s.core c
    let x := k.entry q e
    let s0 := s.setCore c cx.core
    let part := s.partOf (c / 32)
    let ends := fun (ins : Instr) (w : State) (len : Nat) (d : Reg) (v : DWord) =>
      exec ins s = .next ((cx.reload w).write w len [.g d.toNat v])
    let owner := cx.owner s
    let gated := fun (ins : Instr) (w : State) (len : Nat) (d : Reg) (v : DWord) => w.waitsFor owner = false →
      let u := w.used owner
      exec ins s = .next (((cx.reload u).reload u).write u len [.g d.toNat v])
    let puts := fun (ins : Instr) (len : Nat) (d : Reg) (v : DWord) => exec ins s = .next (s.after c q e (x.passed len) (t.put [.g d.toNat v]))
    (∀ f : DABCX, cx.takes f.c = true →
      let r := s0.placeAt c owner (t.rg f.a.toNat).toNat (cx.bval true 0 true .n f.b) (t.rg f.cc.toNat).toNat f.x
      gated (.place f) r.1 f.b.len f.d (BitVec.ofNat 64 r.2)) ∧
    (∀ f : DACX, cx.takes f.c = true →
      let slot := (t.rg f.cc.toNat).toNat % 64
      (32 ≤ slot ∨ k.team? slot = none → puts (.bkill f) 8 f.d (if x.snap.isSome then 0 else 1)) ∧
      (∀ u, slot < 32 → k.team? slot = some u →
        (x.snap = none → exec (.bkill f) s = .next
          ((s.setCore c ({ cx with x := { x with snap := some 0, stall := none } } : Cx).core).killStart c u.block).bump) ∧
        (x.snap.isSome = true → k.blockAcked u.block = true → gated (.bkill f) (s0.killEnd c u.block owner) 8 f.d 0))) ∧
    (∀ f : DA, cx.takes f.c = true →
      let a := t.rg f.a.toNat
      (s.ownUnit part (mgmtUnit a) = false → puts (.mrd f) 8 f.d 0) ∧
      (s.ownUnit part (mgmtUnit a) = true →
        let g := s0.mgmtRead (mgmtUnit a) (mgmtOff a) owner (s.agentTag c)
        gated (.mrd f) g.1 8 f.d g.2)) ∧
    (∀ f : DAB, cx.takes f.c = true →
      let a := t.rg f.a.toNat
      (s.ownUnit part (mgmtUnit a) = false → puts (.mwr f) f.b.len f.d 1) ∧
      (∀ w, s.ownUnit part (mgmtUnit a) = true →
        s0.mgmtWrite (mgmtUnit a) (mgmtOff a) (BitVec.ofNat 64 (cx.bval true 0 true .n f.b)) owner = some w → gated (.mwr f) w f.b.len f.d 0)) ∧
    (∀ f : DAX, cx.takes f.c = true →
      let v := t.rg f.a.toNat
      let w := s0.noteAgents part v
      ends (.anote f) (if f.x then w.noteDevices v (s.agentTag c) else w) 8 f.d 0) ∧
    (∀ f : DB, cx.takes f.c = true →
      let n := cx.bval true 0 false .n f.b
      (∀ v rest, k.agent.notes = v :: rest → exec (.await f) s =
        .next (s.afterCore c q e { k with agent := { k.agent with notes := rest, await := none } } (x.passed f.b.len) (t.put [.g f.d.toNat v]))) ∧
      (k.agent.notes = [] → k.agent.await = none → (n = 0 → puts (.await f) f.b.len f.d 0) ∧
        (n ≠ 0 → exec (.await f) s =
          .next (s.afterCore c q e { k with agent := { k.agent with await := some (k.cyc.toNat + n, e, f.d.toNat, f.b.len) } }
            { x with stall := some (s.epoch, reasonMemory) } t)))) ∧
    (∀ cc : Ctl, cx.takes cc = true → k.Idle → cx.Passes →
      let k1 := cx.core.note cx.slot e 9 0
      exec (.agentExit cc) s = .next (s.setCore c ({ k1 with agent := { k1.agent with
        wake := true, verdict := if k1.agent.pred.isSome then some (t.pg 0, 2) else k1.agent.verdict } } : Core).endAgent).bump)) ∧
  (∀ (s : State) (c e deadline d len : Nat) (t : Team),
    let k := s.core c
    let x := k.entry 0 e
    k.agent.await = some (deadline, e, d, len) → deadline ≤ k.cyc.toNat → k.agent.notes = [] → x.team = agentSlot → x.st = .running →
    k.team? agentSlot = some t → x.pend = [] → x.inner = none → x.mask ≠ 0 →
    exec (.awaitTimeout c) s =
      .next (s.afterCore c 0 e { k with agent := { k.agent with await := none } } (x.passed len) (t.put [.g d 0])))

/-! ## Commands, leases, pre-emption and debug steps -/

/-- How a claimed command runs (R317, R318, R348, R383 to R390, R144): its lease, its start, the placing and retiring of its blocks, and
its end. -/
def Obligations.CommandSteps : Prop :=
  (∀ (s : State) (n : Nat) (m : Cmd), s.cmd? n = some m →
    let part := cmdPart n
    let p := s.part part
    let own := cmdOwner part m.q m.idx
    let on := fun (w : State) (f : Cmd → Cmd) => w.onCmd part m.q m.idx f
    let done := fun (ins : Instr) (w : State) => w.waitsFor own = false → exec ins s = .next (w.used own).bump
    (∀ slice granted, m.stage = .lease granted → slice ∈ p.run → slice ∉ granted →
      s.reaches (s.agentTag m.core) slice = true → s.islandOn (islandStack + slice) = true →
      (∀ r ∈ p.resid, r.slice ≠ slice ∨ m.awaits r = false) →
      let id := s.cmdIdent part m
      (∀ w, s.grantRanges part slice id m.ranges = .ok w →
        let recs := w.leaseRecs part slice m
        (w.slice slice).leases.length + recs.length ≤ 4096 → exec (.leaseRequest slice n) s = .next (on
          (w.setSlice slice { w.slice slice with leases := (w.slice slice).leases ++ recs }) fun m => { m with stage := .lease (slice :: granted) }).bump) ∧
      (∀ w v, s.grantRanges part slice id m.ranges = .wait w v → exec (.leaseRequest slice n) s = .next (w.setPart part { w.part part with
        resid := (w.part part).resid ++ [⟨slice, m.q, m.idx, sharedVa (v * 2 ^ 16), id.dom (v * 2 ^ 16), v, none, false⟩] }).bump) ∧
      (∀ w cls v, s.grantRanges part slice id m.ranges = .refuse w cls v →
        exec (.leaseRequest slice n) s = .next (on w fun m => m.endWith 2 cls 0 (BitVec.ofNat 64 (v * 2 ^ 16))).bump)) ∧
    (∀ granted s1, m.stage = .lease granted → (∀ i ∈ p.run, i ∈ granted) → (∀ r ∈ p.resid, m.awaits r = false) →
      (s.leaseAway part m (s.remoteRuns part m.ranges) = (s1, none) →
        let w := (m.launch.bufs.filter fun b => decide (b.mode % 2 = 1)).foldl (fun s b => s.acquireRange part (s.cmdIdent part m) b) s1
        let r := w.snapshots part m
        let g := r.1.goLive part m
        g.waitsFor own = false → exec (.leaseGranted n) s =
          .next (r.2.foldl (fun s b => s.dbgPost (m.job part m.core 4 b)) (g.used own)).bump) ∧
      (∀ cls v, s.leaseAway part m (s.remoteRuns part m.ranges) = (s1, some (cls, v)) →
        done (.leaseGranted n) (on s1 fun m => m.leaseRefused cls v))) ∧
    (m.stage = .token → p.coop = none → exec (.leaseGranted n) s = .next (s.goLive part m).bump) ∧
    (m.kind = 1 → m.stage = .claimed →
      (Core.reset.room m.launch 0 0 0 = none → exec (.launchCommand n m.core) s = .next (on s fun m => m.endWith 6 0 0 0).bump) ∧
      (Core.reset.room m.launch 0 0 0 ≠ none →
        exec (.launchCommand n m.core) s = .next (on s fun m => { m with stage := .lease [] }).bump)) ∧
    (∀ core, m.kind = 1 → s.corePart core = some part → s.placesOther core part m = false →
      let owner := placeOwner core part m.q m.idx
      let id := s.agentIdent part m.asid owner (s.agentTag core)
      let room := (s.core core).room m.launch part (m.qid part) m.idx
      let gate := fun (r : State × Taken) => r.1.waitsFor owner = false →
        let w := r.1.used owner
        exec (.blockPlacement core n) s = .next (match r.2 with
          | .block b => if m.flags.getLsbD 3 then
              w.dbgPost (m.job part core 5 (toLeBytes 8 b ++ toLeBytes 2 core ++ toLeBytes 8 (w.core core).cyc.toNat)) else w
          | _ => w).bump
      (∀ pl w bs f, s.placing core part m.q m.idx = true → room = some pl →
        s.homeRead id m.launch.fmap ((m.launch.framen + 7) / 8) = (w, .inl bs) → clearBit bs m.launch.framen = some f →
        gate (w.takeTicket part core m id pl f)) ∧
      (∀ s1, s.placing core part m.q m.idx = false → m.places = true → s.agentClaims core = true → p.preempts m.asid = false →
        s.outranked part core owner (n % 65536) = (s1, false) →
        (∀ f rest w, m.saved = f :: rest → s1.restoreFirst part core m id f = (w, true) → gate (w, .nothing)) ∧
        (∀ pl w t w0 bs w1 f, m.saved = [] → room = some pl → s1.ticketOf id m.cmpl = (w, some t) →
          (outsideClusters m.launch core = true → (s.core core).agent.settled m.key t = true) → w.replayTurn id m t core = (w0, true) →
          w0.homeRead id m.launch.fmap ((m.launch.framen + 7) / 8) = (w1, .inl bs) → clearBit bs m.launch.framen = some f →
          gate (w1.takeTicket part core m id pl f)))) ∧
    (m.kind = 2 → p.preempts m.asid = false →
      let arg := fun i => m.args[i]?.getD 0
      (m.stage = .claimed → m.covers (arg 1) (arg 2) 0 = false →
        exec (.bulkCopyCommand n) s = .next (s.complete part m 1 0x04 0 (BitVec.ofNat 64 (arg 1))).bump) ∧
      (m.stage = .claimed → m.covers (arg 1) (arg 2) 0 = true → m.covers (arg 0) (arg 2) 1 = true →
        (s.bulk.filter fun b => decide (b.1 = part)).length < 4 * ((List.range 12).filter fun g => (entryCe p.pent).getLsbD g).length →
        exec (.bulkCopyCommand n) s = .next (on { s with bulk := s.bulk ++ [(part, m.q, m.idx)] } fun m => { m with stage := .other }).bump) ∧
      (m.stage = .other → done (.bulkCopyCommand n) (s.bulkRun part m))) ∧
    (m.stage = .claimed →
      (∀ w, m.kind = 3 → s.allDone (s.cmdIdent part m) (m.args.take 4) = (w, .inl true) →
        done (.waitCommand n) ((w.acquire m.core).complete part m 0 0 0 0)) ∧
      (m.kind = 4 → m.args[2]?.getD 0 % 256 ≠ 1 → ∀ w, s.homePut (s.cmdIdent part m) (m.args[0]?.getD 0) 8 (m.args[1]?.getD 0) = (w, none) →
        done (.signalCommand n) (w.complete part m 0 0 0 0)) ∧
      (m.kind = 4 → m.args[2]?.getD 0 % 256 = 1 →
        ∀ w ph, s.tbArrive (s.cmdIdent part m) (m.args[0]?.getD 0) (m.args[1]?.getD 0 % 2 ^ 32) = (w, .inl ph) →
        done (.signalCommand n) (w.complete part m 0 0 0 0)) ∧
      (m.kind = 5 → done (.markerCommand n) (s.complete part m 0 0 0 0))) ∧
    (∀ result cls fpc fva, m.stage = .ending result cls fpc fva → part < 12 → (∀ b ∈ s.rbuf, b.leases own = false) →
      (m.kind ≠ 1 ∨ result ≠ 1 ∧ result ≠ 3 ∧ result ≠ 5 →
        done (.commandEnd (384 + part) (n % 65536)) (s.complete part m result cls fpc fva)) ∧
      (m.kind = 1 → result = 1 ∨ result = 3 ∨ result = 5 →
        let id := s.cmdIdent part m
        let kills := (s.blocksOf part m).filter (s.toKill result)
        let due := kills.filter s.killDue
        (m.told = false ∨ due ≠ [] →
          let w := if m.told then s else (s.homePut id (m.cmpl + 32) 8 m.launch.blocks).1.noteAgents part (m.note part)
          done (.commandEnd (384 + part) (n % 65536)) (on (due.foldl (fun s cb => s.killStart cb.1 cb.2) w) fun m => { m with told := true })) ∧
        (m.told = true → due = [] → s.beingPlaced part m = false → kills = s.blocksOf part m → (∀ cb ∈ kills, s.killAcked cb = true) →
          (s.savedKilled part m result).length = m.saved.length →
          let frames := (kills.filterMap fun cb => ((s.core cb.1).block? cb.2).map (·.frame)) ++ s.savedKilled part m result ++ m.lost
          let w := kills.foldl (fun s cb => s.killEnd cb.1 cb.2 own) s
          let idw := w.cmdIdent part m
          let w1 := ((frames.foldl (fun s f => s.freeFrame idw m.launch.fmap f) w).addWord idw (m.cmpl + 40) frames.length).1
          done (.commandEnd (384 + part) (n % 65536)) (w1.completeLaunch part m result cls fpc fva))))) ∧
  (∀ (s : State) (slice i : Nat) (r : Residency),
    let part := s.partOf slice
    let w := s.setPart part { s.part part with resid := (s.part part).resid.eraseIdx i }
    (s.part part).resid[i]? = some r → r.slice = slice → r.refused = false →
    exec (.residencyAnswer slice i true) s = .next w.bump ∧
    (r.dev = none → exec (.residencyAnswer slice i false) s =
      .next (w.onCmd part r.q r.idx fun m => m.endWith 2 0x11 0 (BitVec.ofNat 64 (r.vpn * 2 ^ 16))).bump) ∧
    (r.dev ≠ none → exec (.residencyAnswer slice i false) s = .next (s.setPart part { s.part part with
      resid := (s.part part).resid.set i { r with refused := true } }).bump)) ∧
  (∀ (s : State) (c b : Nat) (blk : Block) (l : LSlot), (s.core c).block? b = some blk → (s.core c).lslot? blk.lslot = some l → blk.ending = none →
    blk.gone = false → blk.saved = false → s.blockDone c b = true →
    let owner := retireOwner c b
    let id := s.agentIdent l.part l.asid owner (s.agentTag c)
    let w := ((s.closeWins c b owner).freeFrame id l.launch.fmap blk.frame).addWord id (l.launch.cmpl + 40) 1
    let w1 := w.1.setCore c ((w.1.core c).retireBlock b)
    let w2 := match (w1.part l.part).cmd? l with
      | some m => if m.stage = CStage.live ∧ w.2 = some (m.launch.blocks - 1) then w1.completeLaunch l.part m 0 0 0 0 owner else w1
      | none => w1
    (∀ m, (w1.part l.part).cmd? l = some m → w1.beingPlaced l.part m = false) →
    w2.waitsFor owner = false → exec (.blockRetire c b) s = .next (w2.used owner).bump) ∧
  (∀ (s : State) (c b : Nat) (blk : Block) (l : LSlot) (cls : BitVec 8) (slot : Nat) (fpc fva : DWord), c < 384 →
    (s.core c).block? b = some blk → (s.core c).lslot? blk.lslot = some l → blk.ending = some (cls, slot, fpc, fva) → blk.acked = true →
    let owner := faultOwner c b
    let b1 := { blk with dumpAt := some (blk.dumpAt.getD (s.core c).cyc) }
    let s0 := s.setCore c ((s.core c).setBlock b b1)
    let w := s0.writeDump (s.agentIdent l.part l.asid owner (s.agentTag c)) c b l cls slot
    let w1 := (w.setCore c ((w.core c).setBlock b { b1 with ending := none, dumpAt := none }).sweep).onCmd l.part (l.q % 256) l.idx
      fun m => m.endWith 1 cls fpc fva
    w1.waitsFor owner = false → exec (.commandEnd c b) s = .next (w1.used owner).bump) ∧
  (∀ (s : State) (c part : Nat), s.corePart c = some part →
    let owner := scanOwner c
    let claims := fun (w : State) (t : ClaimTry) =>
      let cr := (w.setClaim c (some t)).claimRun part c t
      let u := (((cr.1.used owner).setClaim c none).scanned c true).settleBusy part
      cr.1.waitsFor owner = false → exec (.agentScan c) s = .next (match cr.2 with
        | none => u
        | some (m, ldb, bl) => u.recordClaim part m t.packet ldb bl).bump
    (∀ t, (s.core c).agent.claim = some t → (s.core c).agent.dead = false → (s.core c).team? agentSlot = none → claims s t) ∧
    ((s.core c).agent.claim = none → s.agentFree c = true →
      let r : State × Found := if s.agentClaims c then
          (let qs := (s.livePrio part c).1.scanQueues part c
           qs.1.scanAll part c (s.livePrio part c).2 qs.2)
        else (s, .none)
      r.1.waitsFor owner = false →
      let w := r.1.used owner
      (r.2 = .none → exec (.agentScan c) s = .next (w.scanned c false).bump) ∧
      (r.2 = .error → exec (.agentScan c) s = .next (w.scanned c true).bump) ∧
      (∀ t, r.2 = .packet t → claims w t)))

/-- Pre-emption steps (R368 to R373), watch hits and predicate tasks (R415, R416), and reloads of an agent (R394, R433). A predicate task
that reaches its limit gives its hit the outcome true with EVENT 3. A choice of the model: the save of a block is a stop of its own, behind
the stops of its core's other engines (assumption 85). -/
def Obligations.PreemptWatchAndReloadSteps : Prop :=
  (∀ (s : State) (part : Nat) (e : Engine), e ∈ (s.part part).stops →
    let fin := fun (w : State) => exec (.preemptStop part e) s = .next (w.stopped! part e).bump
    let finBlock := fun (c : Nat) (w : State) => exec (.preemptStop part e) s = .next ((w.stopped! part e).freeAcked part c).bump
    ((∀ c w, e = .copyUnit c → s.stopCopies part c = some w → fin w) ∧ (∀ i w, e = .poolCopy i → s.stopBulk part i = some w → fin w) ∧
      (∀ i, e = .walkers i → fin s)) ∧
    (∀ c i, e = .sequencer c i → let q := (s.core c).seqs[i]?.getD Seq.empty
      q.flight = [] ∨ q.hold = false → fin s) ∧
    (∀ c slot t, e = .team c slot → (s.core c).team? slot = some t → t.mode ≠ .retired → s.blockStops part c t.block = true →
      s.blockEnds c t.block = false → ∀ k, (s.core c).stopTeam slot t = some k → fin (s.setCore c k)) ∧
    (∀ i, e = .moraine i →
      let ms := (s.slice i).mg.filter fun m => decide (m.part = part ∧ m.state ≤ 4) && (s.part part).preempts m.asid
      let w := ms.foldl (fun s m => s.spillSession i m) s
      w.waitsFor (2 ^ 55 + i) = false → fin (w.used (2 ^ 55 + i))) ∧
    (∀ c b blk l, e = .block c b → (s.part part).coreBusy c = false → s.blockStops part c b = true → s.blockEnds c b = false →
      s.retiring c b = false → s.blockDone c b = false → s.blockMoving c b = false → (s.core c).block? b = some blk → (s.core c).lslot? blk.lslot = some l →
      let owner := 2 ^ 54 + 32 * c + b
      let w := s.saveBlock c b (s.agentIdent part l.asid owner (s.agentTag c))
      w.waitsFor owner = false → finBlock c (w.used owner)) ∧
    (∀ c b, e = .block c b → (s.part part).coreBusy c = false → s.blockEnds c b = true → finBlock c (s.setCore c ((s.core c).unstop b)))) ∧
  (∀ (s : State) (part : Nat) (e : Engine), e ∈ (s.part part).pend → e ∉ (s.part part).stops →
    (s.part part).mayAck e = true →
    let p := s.part part
    let w0 := s.setPart part { p with pend := p.pend.erase e }
    let w := match engineCore e with
      | some c => w0.freeAcked part c
      | none => w0
    (p.pend.erase e ≠ [] → exec (.preemptAck part e) s = .next w.bump) ∧
    (p.pend.erase e = [] → p.pqueue = none → exec (.preemptAck part e) s = .next (w.preemptDone part).bump) ∧
    (∀ v, p.pend.erase e = [] → p.pqueue = some v → exec (.preemptAck part e) s =
      .next (((w.preemptDone part).setPart part { (w.preemptDone part).part part with pqueue := none }).collect part v).bump)) ∧
  (∀ (s : State) (c i : Nat) (h : Hit),
    let k := s.core c
    k.agent.pred = none → k.nextHit = some (i, h) →
    (k.isHeld h.slot = false → (∀ t, k.team? h.slot = some t → .watch ∉ t.stops) →
      exec (.watchHit c) s = .next (s.hitOutcome c i h true 2).bump) ∧
    (∀ t w1 o l, k.isHeld h.slot = true → k.team? h.slot = some t → .watch ∉ t.stops → k.lslotOf h.slot = some l →
      s.dbgOwner { s.identOf c h.slot with owner := hitOwner c } h.dbg = (w1, some o) → w1.waitsFor (hitOwner c) = false →
      let w := w1.used (hitOwner c)
      (h.beyond = true ∨ o.wpred = 0 → exec (.watchHit c) s = .next (w.hitOutcome c i h true 2).bump) ∧
      (h.beyond = false → o.wpred ≠ 0 → k.team? agentSlot = none → k.agent.dead = false → k.agent.out = false →
        let k1 := (w.core c).startAgent l.asid (BitVec.ofNat 56 o.wpred)
          [BitVec.ofNat 64 h.va, h.tag.setWidth 64, BitVec.ofNat 64 h.kind, h.pc.setWidth 64, BitVec.ofNat 64 h.dbg]
        exec (.watchHit c) s = .next (w.setCore c { k1 with agent := { k1.agent with pred := some (h.key, 0) } }).bump))) ∧
  (∀ (s : State) (c n : Nat) (key ev : Nat) (v : Bool), c < s.cores.length →
    let k := s.core c
    let w := s.setCore c { k with agent := { k.agent with pred := none, verdict := none } }
    k.agent.pred = some (key, n) →
    (k.agent.verdict = some (v, ev) →
      (k.hits.findIdx? (fun h => decide (h.key = key)) = none → exec (.watchPredicateExit c) s = .next w.bump) ∧
      (∀ i h, k.hits.findIdx? (fun h => decide (h.key = key)) = some i → k.hits[i]? = some h →
        exec (.watchPredicateExit c) s = .next (w.hitOutcome c i h v ev).bump)) ∧
    (k.agent.verdict = none → 65536 ≤ n →
      let k1 := (k.dropSlot agentSlot).endAgent
      let w1 := s.setCore c { k1 with agent := { k1.agent with pred := none, verdict := none } }
      (k1.hits.findIdx? (fun h => decide (h.key = key)) = none → exec (.watchPredicateLimit c) s = .next w1.bump) ∧
      (∀ i h, k1.hits.findIdx? (fun h => decide (h.key = key)) = some i → k1.hits[i]? = some h →
        exec (.watchPredicateLimit c) s = .next (w1.hitOutcome c i h true 3).bump))) ∧
  (∀ (s : State) (c i ev : Nat) (h : Hit) (t : Team), c < s.cores.length → (s.core c).team? h.slot = some t → t.mode = .held →
    (∀ x ∈ (s.core c).hits.eraseIdx i, x.slot ≠ h.slot) →
    ((s.hitOutcome c i h false ev).core c).team? h.slot = some { t with mode := .run }) ∧
  (∀ (s : State) (c : Nat),
    ((s.core c).agent.dead = true → exec (.agentReload c) s = .next (s.reloadDead c).bump) ∧
    ((s.core c).agent.dead = false → s.fwBusy = true → s.fwCore = c → (s.core c).blocks.all (·.isNone) = true →
      (s.core c).team? agentSlot = none → s.pinned c = false → exec (.agentReload c) s = .next (s.reloadUpdate c).bump) ∧
    (c < s.cores.length → (s.core c).agent.dead = true → ((s.reloadDead c).core c).agent.dead = false ∧
      ((s.reloadDead c).core c).agent.wake = true ∧ ((s.reloadDead c).core c).agent.serving = none))

/-! ## Management, host and fabric -/

/-- Writes of the queue page, of partition and tenant entries, of the pre-emption request and of the Firn's invalidation register (R312,
R357, R360, R367, R375, R390, R411, R422): what each changes, and when it is discarded. Each is 8 host-port bytes (R365), in whichever state
it finds the device. -/
def Obligations.QueueAndPartitionWrites : Prop :=
  (∀ (s : State) (part q : Nat) (v : DWord),
    let h := s.hostBytes 8
    let ends := fun (i : Instr) (w : State) => w.waitsFor regOwner = false → exec i s = .next (w.used regOwner)
    let n := q % 256
    let x := (h.part part).queue n
    let page := [Instr.doorbell part q, .queueRegister part q v, .queueDestroy part q v, .qstop part q v]
    (s.stopped = true → ∀ i ∈ page, ends i h.hostError.bump) ∧
    (s.stopped = false → (s.part part).valid = false → ∀ i ∈ page, ends i h.bump) ∧
    (s.stopped = false → (s.part part).valid = true →
      ends (.doorbell part q) (h.wakeAgents part).bump ∧
      ends (.queueRegister part q v) (if x.busy then h else h.setPart part ((h.part part).setQueue
        { x with valid := true, kill := v.getLsbD 62, desc := 64 * (v.extractLsb' 6 50).toNat })).bump ∧
      (let w := h.setPart part ((h.part part).setQueue { x with qen := v.getLsbD 63, qs := (v.extractLsb' 0 56).toNat })
       ends (.qstop part q v) (if v.getLsbD 63 then w else w.wakeAgents part).bump) ∧
      (let w0 := if x.valid then h.destroyHeader part x.desc else h
       let w := ((h.part part).cmds.filter fun m => decide (m.q = n)).foldl (fun s m => s.cancelAway part m) w0
       let p := w.part part
       let cmds := p.cmds.map fun m => if m.q = n ∧ (v.getLsbD 62 = true ∨ p.resid.any m.awaits = true) then m.endWith 3 0 0 0 else m
       let p1 : Part := { p with cmds := cmds, resid := p.resid.filter fun r => decide (r.q ≠ n ∨ r.dev.isSome) }
       ends (.queueDestroy part q v) ((w.setPart part (p1.setQueue { x with
         valid := false, kill := v.getLsbD 62, desc := 64 * (v.extractLsb' 6 50).toNat, busy := w.queueBusy part n })).wakeAgents part).bump))) ∧
  (∀ (s : State) (part t : Nat) (v : DWord),
    let h := s.hostBytes 8
    let ends := fun (i : Instr) (w : State) => w.waitsFor regOwner = false → exec i s = .next (w.used regOwner)
    let p := h.part part
    (h.pentErr part v ≠ 0 → ends (.pentWrite part v) (h.setPart part { p with err := BitVec.ofNat 8 (h.pentErr part v) }).bump) ∧
    (h.pentErr part v = 0 → let w := (p.run ++ entrySlices v).eraseDups.foldl (State.clearSlice regOwner) h
      ends (.pentWrite part v) (w.setPart part { w.part part with pent := v &&& 0x8FFFFFFFFFFFE000, err := 0 }).bump) ∧
    (p.tentErr t v ≠ 0 → ends (.tentWrite part t v) (h.setPart part { p with err := BitVec.ofNat 8 (p.tentErr t v) }).bump) ∧
    (p.tentErr t v = 0 → ends (.tentWrite part t v)
      (h.setPart part { p with tent := p.tent.set t (v &&& 0x87FFFFFF0000FFFF), err := 0 }).bump) ∧
    (p.pbusy = false → ends (.preq part v) (h.collect part v).bump) ∧
    (p.pbusy = true → p.pqueue = none → ends (.preq part v) (h.setPart part { p with pqueue := some v, err := 0 }).bump) ∧
    (p.pbusy = true → p.pqueue ≠ none → ends (.preq part v) (h.setPart part { p with err := 8 }).bump) ∧
    ends (.telbaseWrite part v) (h.setPart part { p with telbase := v / 64 * 64, telwr := 0 }).bump) ∧
  (∀ (s : State) (i : Nat) (v : DWord),
    let h := s.hostBytes 8
    let sl := s.slice i
    (sl.inval.length ≤ 64 → let w := (h.setSlice i { sl with inval := sl.inval ++ [v &&& 0xFFFE00FFFFFFFFFF] }).bump
      w.waitsFor regOwner = false → exec (.inval i v) s = .next (w.used regOwner)) ∧
    (∀ rest, sl.inval = v :: rest → exec (.invalComplete i) s = .next (s.setSlice i { sl.invalidate v with inval := rest }).bump) ∧
    (∀ t ∈ (sl.invalidate v).tlb, invalHits v t.dk t.id t.vpn t.size = false) ∧
    (∀ m ∈ (sl.invalidate v).misses, invalHits v m.dk m.dom (m.va / 2 ^ 16) 1 = true → m.res = none)) ∧
  (∀ (s : State) (part id : Nat) (dk : Bool), (s.part part).valid = true → s.slicesUp part = true →
    let owner := bumpOwner part
    let w := s.onSlices part (State.bumpSlice dk id owner)
    let w0 := w.used owner
    let g := idGen (w0.idEntry (w0.part part).first dk id)
    let w1 := w0.onCores part (Core.adopt dk id g part)
    w.waitsFor owner = false →
    exec (.generationBump part dk id) s = .next (({ w1 with free := w1.free + 1 } : State).noteAgents part (Config.freeWord w1.free)).bump)

/-- Writes of the device's control registers, draining, recalibration, temperature, firmware and attestation (R365, R401, R403, R428 to
R436). Choices of the model: a write of FWCTL while an update runs is ignored (assumption 52); where the verification fails FWSTAT takes a
free value with BUSY 0 (assumption 51); the layout of the report of an attestation and that of its signature (assumption 53); the power
controller sets an island of its own (assumption 112). -/
def Obligations.DeviceControlWrites : Prop :=
  (∀ (s : State) (v : DWord) (unit off : Nat),
    let h := s.hostBytes 8
    let ends := fun (i : Instr) (w : State) => w.waitsFor regOwner = false → exec i s = .next (w.used regOwner)
    (unit < 0x20 ∨ 0x2C ≤ unit → ends (.registerWrite unit off v) (h.plainWrite unit off v).bump) ∧
    (0x20 ≤ unit → unit < 0x2C → ends (.registerWrite unit off v) (if s.stopped then h.hostError.bump
      else if (s.part (unit - 0x20)).valid = false then h.bump else (h.plainWrite unit off v).bump)) ∧
    ends (.registerWrite 0x40 0x38 v) ({ h with herr := s.herr &&& ~~~v } : State).bump ∧
    ends (.registerWrite 0x40 0x40 v) ({ h with plim := v } : State).bump ∧
    (0x71 ≤ unit → ends (.registerWrite unit off v) h.bump) ∧
    (∀ i p, s.ports[i]? = some p → i < 24 → ∃ n, n ≤ 65535 ∧ ends (.registerWrite (0x50 + i) 0 v)
      ({ h with ports := s.ports.set i { p with backoff := v.extractLsb' 0 16, replays := n } } : State).bump) ∧
    (v.toNat ≤ 191 → (∀ sl ∈ s.slices, sl.isDrained = true) → ends (.devnumWrite v) ({ h with devnum := v } : State).bump) ∧
    (191 < v.toNat ∨ (∃ sl ∈ s.slices, sl.isDrained = false) → ends (.devnumWrite v) h.hostError.bump) ∧
    s.hostError.herr = (if s.herr = 0xFFFFFFFFFFFFFFFF then s.herr else s.herr + 1)) ∧
  (∀ (s : State) (e : Nat) (v : BitVec 128),
    let h := (s.hostBytes 8).hostBytes 8
    let ends := fun (w : State) => w.waitsFor regOwner = false → exec (.ownershipTableWrite e v) s = .next (w.used regOwner)
    let bad := 4096 ≤ e ∨ 191 < (v.extractLsb' 80 8).toNat ∨ (v.extractLsb' 40 40).toNat < (v.extractLsb' 0 40).toNat
    (bad → ends h.bump) ∧
    let w : State := { h with
      otable := (s.otable.filter fun p => decide (p.1 < e)) ++ [(e, v &&& 0x80000000FFFFFFFFFFFFFFFFFFFFFFFF)] ++
        s.otable.filter fun p => decide (e < p.1) }
    (¬ bad → ends w.bump) ∧ w.otEntry e = v &&& 0x80000000FFFFFFFFFFFFFFFFFFFFFFFF ∧
    ∀ e', e' ≠ e → w.otEntry e' = s.otEntry e') ∧
  (∀ (s : State) (i : Nat) (ok : Bool),
    let h := s.hostBytes 8
    let ends := fun (i : Instr) (w : State) => w.waitsFor regOwner = false → exec i s = .next (w.used regOwner)
    let sl := s.slice i
    ends (.sliceDrain i) (h.setSlice i { sl with sdrain := true }).bump ∧
    (let w := h.setSlice i { sl with sdrain := false, drained := false }
     ends (.sliceUndrain i) ({ w with cores := w.cores.mapIdx fun c k =>
       if c / 32 = i then { k with agent := { k.agent with wake := true } } else k } : State).bump) ∧
    (sl.isDrained = false ∨ sl.calbusy = true → ends (.scal i ok) h.bump) ∧
    (sl.isDrained = true → sl.calbusy = false → ends (.scal i ok) (h.setSlice i { sl with calbusy := true, calok := ok }).bump) ∧
    ((∀ a ∈ s.poison, a / 2 ^ 36 ≠ i) →
      s.calDone i = (s.setSlice i { sl with out := sl.out || !sl.calok, calbusy := false, calok := false }).bump) ∧
    (sl.sdrain = true → sl.drained = false → s.sliceIdle i = true → let owner := ownerName 7 [i]
      let w := s.flushSlice i owner
      w.waitsFor owner = false → exec (.sliceDrained i) s =
        .next ((w.used owner).setSlice i { w.slice i with tlb := [], drained := true }).bump)) ∧
  (∀ (s : State) (temp watts : Nat),
    let h := s.hostBytes 8
    let hot : State := ({ s with temp := (BitVec.ofNat 16 temp).setWidth 64, stopped := true, thermalLog := true } : State).bump
    let resumes := fun (w : State) => w.waitsFor regOwner = false → exec .thermalResume s = .next (w.used regOwner)
    (1840 ≤ temp → exec (.thermalStop temp) s = .next hot ∧ exec (.powerThrottle watts temp) s = .next hot) ∧
    (s.temp.toNat < 1520 → resumes ({ h with stopped := false } : State).bump) ∧
    (1520 ≤ s.temp.toNat → resumes h.hostError.bump) ∧
    (∀ i p, i < 512 → s.setIsland i p = { s with islands := s.islands.set i p }) ∧
    let hotter : Prop := s.plim.toNat < watts ∨ 1680 < temp
    let x := if hotter then (if s.throttle.1 ≤ s.throttle.2 then (s.throttle.1 + 1, s.throttle.2) else (s.throttle.1, s.throttle.2 + 1))
      else (0, 0)
    (temp < 1840 → exec (.powerThrottle watts temp) s = .next (({ s with
        temp := (BitVec.ofNat 16 temp).setWidth 64, throttle := x, free := s.free + 2 } : State).setIsland (Config.freeNat s.free)
          (Power.pick (Config.freeNat (s.free + 1)))).bump)) ∧
  (∀ (s : State) (v : DWord) (ok : Bool) (nonce addr : Nat),
    let h := s.hostBytes 8
    let ends := fun (i : Instr) (w : State) => w.waitsFor regOwner = false → exec i s = .next (w.used regOwner)
    let w : State := { h with fwctl := v &&& 0x80000000000101FF }
    let slot := if v.getLsbD 16 then 1 else 0
    (s.fwBusy = true → ends (.fwctlGo v ok) h.bump) ∧
    (s.fwBusy = false → v.getLsbD 63 = false → ends (.fwctlGo v ok) w.bump) ∧
    (s.fwBusy = false → v.getLsbD 63 = true → ends (.fwctlGo v ok) (if ok && s.verifies slot then
        match s.updateCores v with
        | c :: _ => { w with fwstat := fwStatus true c 0, fwTries := 0 }
        | [] => w
      else { w with fwstat := ((Config.freeWord s.free).setWidth 63).setWidth 64, free := s.free + 1 }).bump) ∧
    (let image := s.slotBytes s.image
     let body := toLeBytes 8 0x5A0C000100000000 ++ toLeBytes 32 Config.identityKey ++ toLeBytes 32 Config.romHash ++
       sha256 (Config.agentCode image) ++ sha256 (Config.controllerCode image) ++ sha256 (Config.manifest image) ++ sha256 s.journalBytes ++
       toLeBytes 32 nonce
     ends (.attestationRequest nonce addr) ({ h.hostBytes 32 with
       hostMem := putHost s.hostMem addr (body ++ toLeBytes 7856 (Config.signature body s.boots)) } : State).bump))

/-- The debugger's register commands (R352, R412, R413), trace control (R418), and the host's window (R425, R426, R436). Choices of the
model: where several of DSTAT's statuses hold, 3 comes before 2, before 4, before 1 (assumption 54); a function's addresses below 2^56 are
its memory, and a register is accessed in whole 8 bytes (assumption 113). -/
def Obligations.DebuggerAndHostAccesses : Prop :=
  (∀ (s : State) (v : DWord),
    let h := s.hostBytes 8
    let c := s.csel.toNat % 512
    let k := s.core c
    let d := DSel.of v
    let ends := fun (i : Instr) (k1 : Core) (st : DWord) =>
      let w := (h.setCore c { k1 with dstat := st }).bump
      w.waitsFor regOwner = false → exec i s = .next (w.used regOwner)
    ((k.team? d.slot = none ∨ ∃ t, k.team? d.slot = some t ∧ t.mode = TMode.retired) →
      ∀ i ∈ [Instr.dcmdRead v, .dcmdWrite v, .dcmdForcedWrite v], ends i k 3) ∧
    (∀ t, k.team? d.slot = some t →
      (t.isHalted = false → t.mode ≠ .retired → ∀ i ∈ [Instr.dcmdRead v, .dcmdWrite v, .dcmdForcedWrite v], ends i k 2) ∧
      (t.isHalted = true → d.inRange k t = false → ∀ i ∈ [Instr.dcmdRead v, .dcmdWrite v, .dcmdForcedWrite v], ends i k 4) ∧
      (t.isHalted = true → d.inRange k t = true → ends (.dcmdRead v) { k with ddata := d.read k t } 0 ∧
        (d.pcBad k.ddata = true → ends (.dcmdWrite v) k 4 ∧ ends (.dcmdForcedWrite v) k 4) ∧
        (d.pcBad k.ddata = false → d.ref ∈ t.busy → ends (.dcmdWrite v) k 1) ∧
        (d.pcBad k.ddata = false → d.ref ∉ t.busy → ends (.dcmdWrite v) (d.write k t k.ddata) 0) ∧
        (d.pcBad k.ddata = false →
          let k1 := k.cancelStatus d.slot d.ref
          ∀ u, k1.team? d.slot = some u →
            let w := ((h.cancelDrain c d.slot d.ref).setCore c { d.write k1 u k.ddata with dstat := 0 }).bump
            w.waitsFor regOwner = false → exec (.dcmdForcedWrite v) s = .next (w.used regOwner))))) ∧
  (∀ (s : State) (c : Nat) (v : DWord), ∃ k,
    (let w := ((s.hostBytes 8).setCore c k).bump
     w.waitsFor regOwner = false → exec (.trcctlWrite c v) s = .next (w.used regOwner)) ∧
    k = { s.core c with trcctl := v &&& 0xC0000001FFFFFFFF, trq := k.trq } ∧ (v.getLsbD 63 = false → k.trq = (s.core c).trq)) ∧
  (∀ (s : State) (fn va n : Nat) (bytes : List Byte),
    fn ≠ 0 → va < 2 ^ 56 →
    let hw := s.hostBytes bytes.length
    let hr := s.hostBytes n
    let absent := 12 < fn ∨ (s.part (fn - 1)).valid = false
    let answers := fun (w : State) (x : Option (List Byte)) => exec (.hostRead fn va n) s = .next ({ w with answers := x :: w.answers } : State).bump
    (s.stopped = true → exec (.hostWrite fn va bytes) s = .next hw.hostError.bump ∧ answers hr none) ∧
    (s.stopped = false → absent → exec (.hostWrite fn va bytes) s = .next hw.bump ∧ answers hr (some (List.replicate n 0xFF))) ∧
    (s.stopped = false → ¬ absent →
      let wr := hw.homeWrite (s.hostIdent fn) va bytes
      let rd := hr.homeRead (s.hostIdent fn) va n
      (wr.1.waitsFor (hostOwner fn) = false → exec (.hostWrite fn va bytes) s =
        .next (if wr.2.isSome then (wr.1.used (hostOwner fn)).hostError else wr.1.used (hostOwner fn)).bump) ∧
      (rd.1.waitsFor (hostOwner fn) = false → answers (rd.1.used (hostOwner fn)) (match rd.2 with | .inl bs => some bs | .inr _ => none)))) ∧
  (∀ (s w : State) (a : Nat) (v : DWord), a % 8 = 0 → (s.hostBytes 8).windowWrite a v = .next w → w.waitsFor (hostOwner 0) = false →
    exec (.hostWrite 0 a (toLeBytes 8 v.toNat)) s = .next (w.bump.used (hostOwner 0))) ∧
  (∀ (s : State) (n : Nat) (v : DWord), n < 24 →
    let h := s.hostBytes 8
    let at' := fun (unit off : Nat) => h.windowWrite (0x10000 * unit + off) v
    let same := fun (o : Out) (i : Instr) => exec i s = hostGate regOwner s o
    same (at' 0x40 0x08) (.devnumWrite v) ∧ same (at' 0x40 0x38) (.registerWrite 0x40 0x38 v) ∧
    (s.stopped = true → n < 12 → at' (0x20 + n) 0 = .next h.hostError.bump) ∧
    (s.stopped = false → n < 12 → at' (0x20 + n) 0x3000 = .next (h.setPart n { h.part n with hasid := v &&& 0x1FFF }).bump) ∧
    (v.extractLsb' 0 8 = 1 → same (at' 0x30 8) (.dcmdRead v)) ∧ (v.extractLsb' 0 8 = 2 → same (at' 0x30 8) (.dcmdWrite v)) ∧
    (v.extractLsb' 0 8 = 3 → same (at' 0x30 8) (.dcmdForcedWrite v)) ∧
    same (at' 0x30 0x38) (.trcctlWrite (s.csel.toNat % 512) v) ∧
    (v.getLsbD 62 = false → same (at' (0x50 + n) 0) (.registerWrite (0x50 + n) 0 v)) ∧
    (n < 12 → at' n 0 = .next (h.pentWrite n v (hostOwner 0)).bump ∧ same (at' n 0x10) (.preq n v) ∧ same (at' n 0x20) (.telbaseWrite n v))) ∧
  (∀ (s : State) (a : Nat), a % 8 = 0 → (windowUnit a < 0x20 ∨ 0x2C ≤ windowUnit a) →
    let w := s.hostBytes 8
    let r := w.mgmtRead (windowUnit a) (windowOff a) (hostOwner 0)
    r.1.waitsFor (hostOwner 0) = false → exec (.hostRead 0 a 8) s = .next ({ r.1.used (hostOwner 0) with
      answers := some (toLeBytes 8 r.2.toNat) :: s.answers } : State).bump)

/-- A port's links (R399 to R402): what an arriving flit does, resending, giving up and retraining; and a clock, start-up and a thermal
stop (R412, R421, R431, R436). Choices of the model: an acknowledgement needs no sequence of its own, a negative one acknowledges the flits
before the one it names, REPLAYS counts flits, and what FABF counts (assumption 67); BACKOFF counts clocks of the device (assumption 95);
where a message's fields stand in its flits (assumption 32). -/
def Obligations.LinksClockAndStartUp : Prop :=
  (∀ (s : State) (i : Nat) (p : Port) (f : Flit) (full : Bool), s.ports[i]? = some p → p.up = true → s.stopped = false →
    let w := s.flits 1
    let me := s.devnum.toNat % 256
    let takes := fun (x : State) => exec (.flitReceive i f full) s = .next x.bump
    (f.good = false ∨ full = true → takes ((w.setPort i { p with replies := p.replies ++ [Flit.make p.rxseq 4 me f.src.toNat 0 0] }).flits 1)) ∧
    (f.good = true → full = false →
      (f.kind = 3 → takes (w.setPort i (p.ackBefore (f.lseq + 1)))) ∧
      (f.kind = 4 → takes (w.setPort i { p.ackBefore f.lseq with resend := some (f.lseq, s.clock + p.backoff.toNat) })) ∧
      (f.kind ≠ 3 → f.kind ≠ 4 → f.lseq ≠ p.rxseq → takes w) ∧
      (f.kind ≠ 3 → f.kind ≠ 4 → f.lseq = p.rxseq →
        let g := p.gather f
        let w1 := (w.setPort i { g.1 with
          rxseq := p.rxseq + 1, replies := p.replies ++ [Flit.make f.lseq 3 me f.src.toNat 0 0] }).flits 1
        (g.2 = none → takes w1) ∧
        (∀ hdr num data, g.2 = some (hdr, num, data) →
          (f.kind = 1 → takes { w1 with agenda := w1.agenda ++ [.remoteRequest (remoteOf f.src.toNat f.tag.toNat hdr num data)] }) ∧
          (f.kind = 2 → takes (w1.answer num (Answer.of hdr data))) ∧ (f.kind ≠ 1 → f.kind ≠ 2 → takes w1)) ∧
        (p.parts = [] → f.body.testBit 175 = false →
          g = (p, some (f.body % 2 ^ 256, f.body / 2 ^ 256 % 2 ^ 176, f.body / 2 ^ 432)))))) ∧
  (∀ (s : State) (i : Nat) (p : Port), s.ports[i]? = some p → s.stopped = false →
    (∀ l due, p.up = true → p.tries < 16 → p.resend = some (l, due) → due ≤ s.clock →
      let n := ((p.window.take 64).filter fun f => decide ((f.lseq - l).toNat < 2 ^ 15)).length
      exec (.replayResend i) s = .next (if n = 0 then s.setPort i { p with resend := none } else
        (s.setPort i { p with replays := min 65535 (p.replays + n), tries := p.tries + 1, resend := none }).flits n).bump) ∧
    (p.up = true → p.tries < 16 → p.window ≠ [] →
      exec (.flitUnacknowledged i) s = .next ((s.setPort i
        { p with replays := min 65535 (p.replays + 1), tries := p.tries + 1 }).flits 1).bump) ∧
    (p.up = true → 16 ≤ p.tries → exec (.portDown i) s = .next (p.out.foldl (fun s num => s.answer num (Answer.plain 0x16 0))
      ((s.setPort i { p with up := false, window := [], replies := [], out := [], parts := [], resend := none, tries := 0 }).lostWalks p.window)).bump) ∧
    (p.up = true → ∀ ok, exec (.retrain i ok) s = .next (s.setPort i { p with train := none }).bump) ∧
    (p.up = false → exec (.retrain i true) s = .next (s.setPort i
      { p with up := true, window := [], out := [], replies := [], parts := [], resend := none, tries := 0, txseq := 0, rxseq := 0, train := none }).bump) ∧
    (p.up = false → exec (.retrain i false) s = .next ((s.setPort i { p with train := none }).addJournal ⟨17 + i, 0, 1, p.setting, s.boots⟩).bump)) ∧
  (∀ (s : State) (i : Nat) (p : Port) (ok : Bool), s.ports[i]? = some p → s.stopped = true →
    exec (.retrain i ok) s = .next (s.setPort i { p with train := some ok }).bump) ∧
  (∀ s : State, s.on = true → s.stopped = false → ∃ s', exec .clock s = .next s' ∧ s'.mem = s.mem ∧ s'.slices = s.slices ∧
    s'.ports = s.ports ∧ s'.clock = s.clock + 1 ∧ (∀ c < s.cores.length, s.coreRuns c = false → s'.core c = s.core c) ∧
    ∀ c < s.cores.length, s.coreRuns c = true → ∃ el st, s'.core c =
      { s.core c with cyc := (s.core c).cyc + 1, elig := el, stallc := st, eligN := List.replicate 4 0 }) ∧
  (∀ (s : State) (fails : List Nat), ∃ s', exec (.powerOn fails) s = .next s' ∧ s'.on = true ∧ s'.mem = [] ∧ s'.devnum = 0 ∧ s'.plim = 2600 ∧
    s'.boots = (s.boots + 1) % 2 ^ 64 ∧
    s'.store = s.store ∧ s'.hostMem = s.hostMem ∧ (∀ sl ∈ s'.slices, sl.sdrain = true ∧ sl.drained = true ∧ sl.fctl = 0 ∧ sl.lines = [] ∧ sl.tlb = []) ∧
    (∀ k ∈ s'.cores, k = { Core.reset with agent := k.agent }) ∧ (∀ p ∈ s'.ports, p = { Port.reset with up := p.up }) ∧
    s'.parts = List.replicate 12 Part.reset) ∧
  (∀ s : State, s.on = true → s.agenda = [] → s.stopped = true → step s = .next s)

/-! ## What holds of every instruction, of reset and of a step -/

/-- A team-wide instruction whose gp predicate is false only moves the PC on (R51). -/
def Obligations.FalsePredicateHasNoEffect : Prop :=
  ∀ (s : State) (c q e : Nat) (t : Team), Plain s c q e t →
    let cx := Cx.at s c q e t
    let passes := fun (i : Instr) (len : Nat) => exec i s = .next (s.after c q e (((s.core c).entry q e).passed len) t)
    (∀ f : DA, cx.takes f.c = false → ∀ i ∈ [Instr.logre f, .logdr f, .mrd f], passes i 8) ∧
    (∀ f : DB, cx.takes f.c = false → ∀ i ∈ [Instr.ffc f, .mset f, .tmark f, .await f], passes i f.b.len) ∧
    (∀ f : DAB, cx.takes f.c = false → ∀ i ∈ [Instr.regrp f, .mstart f, .lnch f, .mwr f], passes i f.b.len) ∧
    (∀ f : DAX, cx.takes f.c = false → ∀ i ∈ [Instr.mstq f, .anote f], passes i 8) ∧
    (∀ f : DACX, cx.takes f.c = false → ∀ i ∈ [Instr.ctxsv f, .ctxld f, .halt f, .resm f, .bkill f], passes i 8) ∧
    (∀ f : DABX, cx.takes f.c = false → passes (.wtch f) f.b.len) ∧
    (∀ f : DABCX, cx.takes f.c = false → passes (.place f) f.b.len) ∧
    (∀ f : BarF, cx.takes f.c = false →
      (∀ i ∈ [Instr.binit f, .barr f, .tbinit f, .tbarr f], passes i f.b.len) ∧
      ((∀ o st, ((s.core c).entry q e).bw ≠ some (o, some st)) → passes (.bwait f) f.b.len) ∧ (cx.tbAnswer = none → passes (.tbwait f) f.b.len)) ∧
    (∀ f : CopyF, cx.takes f.c = false → ∀ i ∈ [Instr.cp f, .cp2d f, .cpz f, .cpx f], passes i f.b.len) ∧
    (∀ f : DABC, cx.takes f.c = false → f.c.la = 0 → ∀ i ∈ [Instr.dqpush f, .dqpop f, .dqsteal f], passes i f.b.len) ∧
    (∀ f : MgF, cx.takes f.c = false →
      ∀ i ∈ [Instr.mgopen f, .mgclose f, .mgcloseAbort f, .mgdrain f, .mgadd f, .mgst f], passes i f.b.len) ∧
    (∀ f : StashF, cx.takes f.c = false → passes (.stmap f) f.b.len ∧ passes (.stunmap f) 8 ∧ passes (.stflush f) 8) ∧
    (∀ cc : Ctl, cx.takes cc = false → passes (.agentExit cc) 8)

/-- The machine right after reset (R171, R306, R357, R401, R412, R428): nothing stands in memory or in any slot, the registers hold what
their tables give, and the state has its form. -/
def Obligations.ResetState : Prop :=
  let s := State.reset
  s.Formed ∧ s.on = false ∧ s.stopped = false ∧ (∀ a, memGet s.mem a = Config.blankByte) ∧
  s.devRead 0x00 = 0x5A0C000100000000 ∧ s.devRead 0x08 = 0 ∧ s.devRead 0x28 = 0 ∧ s.devRead 0x30 = 0 ∧ s.devRead 0x38 = 0 ∧
  s.devRead 0x40 = 2600 ∧ s.devRead 0x48 = 0 ∧ s.devRead 0x50 = 0 ∧
  (∀ p ∈ s.ports, p.read = 64) ∧
  (∀ p ∈ s.parts, p.valid = false ∧ p.read 0 = 0 ∧ p.read 8 = 0 ∧ (∀ i < 16, p.read (0x100 + 8 * i) = 0) ∧ p.read 0x20 = 0) ∧
  (∀ sl ∈ s.slices, sl.lines = [] ∧ sl.tlb = [] ∧ sl.firnRead 0 = 0 ∧ sl.firnRead 0x28 = 0) ∧
  (∀ k ∈ s.cores, (∀ i, k.team? i = none) ∧ (∀ l ∈ k.leases, l.valid = false) ∧ (∀ w ∈ k.wins, w.valid = false) ∧
    (∀ q e, (k.entry q e).st = .free) ∧ k.trcctl = 0 ∧ k.cyc = 0 ∧ ∀ x ∈ k.seqs, x.block = none ∧ x.status = 0)

/-- A step runs the instruction the fetched word decodes to (R50, R68, R164, R165): of the fragment that stands first in its quadrant, and
of the stream that may issue; where its sources or resources are missing the next fragment tries; a step asked from outside comes first, one of the
host that still waits for another device is asked again, and before start-up there is only start-up. -/
def Obligations.StepRunsTheDecodedInstruction : Prop :=
  (∀ (s s1 s2 : State) (c q e : Nat) (es : List Nat) (t : Team) (i : Instr), s.on = true → s.stopped = false → s.agenda = [] → c < 384 → q < 4 →
    s.turn = turnsPerCore * c + q →
    let k := s.core c
    s.coreRuns c = true → k.lateEntry q = none → k.boostEntry q = none → k.candidates s.epoch q = e :: es → k.team? (k.entry q e).team = some t → k.insOf q e = none →
    ({ s with cur := .frag c q e } : State).fetchFrag c q e t = .got s1 (.ok i) →
    ((s1.core c).datapathHeld q e && needsDatapath i) = false → exec i s1 = .next s2 →
    let s3 := (s1.countStart s2 c q e).keepIns c q e i
    (s3.epoch ≠ s.epoch → s.started s3 c q = true →
      step s = .next ((s3.setCore c ((s3.core c).ageOthers q (es.filter (s3.canStart exec c q)))).setTurn (s.turn + 1))) ∧
    (s3.epoch ≠ s.epoch → s.started s3 c q = false → step s = .next (s3.setTurn s.turn)) ∧
    (∀ s4, s3.epoch = s.epoch → s3.tryFrags exec c q es = .next s4 →
      step s = .next (s4.setTurn (if s.keepsTurn s4 s.turn then s.turn else s.turn + 1)))) ∧
  (∀ (s s2 : State) (c q e : Nat) (t : Team) (i : Instr), (s.core c).team? ((s.core c).entry q e).team = some t →
    (s.core c).insOf q e = some i → exec i { s with cur := .frag c q e } = .next s2 → s.runFrag exec c q e = .next s2) ∧
  (∀ (s s1 s2 : State) (c j b : Nat) (x : Seq) (i : Instr), s.on = true → s.stopped = false → s.agenda = [] → c < 384 → j < 2 →
    s.turn = turnsPerCore * c + 4 + j → s.coreRuns c = true → (s.core c).seqs[j]? = some x → x.eligible s.epoch = true → x.block = some b →
    ({ s with cur := .stream c j } : State).fetchStream c j b = .got s1 (.ok i) → exec i s1 = .next s2 →
    step s = .next (s2.setTurn (s.turn + 1))) ∧
  (∀ (s w : State) (id : Ident) (a : Nat) (inside : Nat → Nat → Bool) (L : Limits) (bs : List Byte), inside a 8 = true →
    s.homeRead id a 8 = (w, .inl bs) →
    let x : BitVec 64 := BitVec.ofNat 64 (leBytes bs)
    (needsParcel x = false → s.fetchWord id a inside L = .got (w.dropAnswers id.owner) (decodeWord L x 0)) ∧
    (∀ w' ps, needsParcel x = true → inside (a + 8) 4 = true → w.homeRead id (a + 8) 4 = (w', .inl ps) →
      s.fetchWord id a inside L = .got (w'.dropAnswers id.owner) (decodeWord L x (BitVec.ofNat 32 (leBytes ps))))) ∧
  (∀ (s s2 : State) (i : Instr) (rest : List Instr), s.on = true → s.stopped = false → s.agenda = i :: rest →
    s.unitUp i = true → exec i { s with agenda := rest, cur := .none } = .next s2 →
    step s = .next (if (hostStep i || isBump i) && decide (s.rbuf.length < s2.rbuf.length) then { s2 with agenda := putBack i s2.agenda } else s2)) ∧
  (∀ s : State, s.on = false → s.agenda = [] → step s = exec (.powerOn []) s)

/-- In which order the fragments of a quadrant try, so that the first eligible one starts (R165): each stands before the next by the first
key that differs: boosted, the earlier boost, the agent slot, the higher priority, the older team, the lower entry. -/
def Obligations.IssueOrder : Prop :=
  ∀ (k : Core) (epoch q : Nat),
    (∀ e, e ∈ k.candidates epoch q ↔ e < 64 ∧ k.eligible epoch q e = true) ∧ k.pick epoch q = (k.candidates epoch q).head? ∧
    (∀ pre e mid f post t u, k.candidates epoch q = pre ++ e :: (mid ++ f :: post) →
      k.team? (k.entry q e).team = some t → k.team? (k.entry q f).team = some u →
      let x := k.entry q e
      let y := k.entry q f
      let agent := fun (z : Entry) => decide (z.team = agentSlot)
      (x.boost.isSome = true ∧ y.boost.isSome = false ∨ x.boost.isSome = y.boost.isSome ∧
        (x.boost.getD 0 < y.boost.getD 0 ∨ x.boost.getD 0 = y.boost.getD 0 ∧
          (agent x = true ∧ agent y = false ∨ agent x = agent y ∧
            (min u.prio 255 < min t.prio 255 ∨ min t.prio 255 = min u.prio 255 ∧ (t.age < u.age ∨ t.age = u.age ∧ e < f))))))

/-- Where an access goes: the home slice (R303), the ownership entry that decides (R404), and the plane a request to another device takes
(R400): plane (h + VA[20:16]) mod 24 if its port is up, else the next one above it, counting modulo 24, whose port is up. -/
def Obligations.HomesAndPlanes : Prop :=
  (∀ f n va : Nat, let v := BitVec.ofNat 56 va
    homeSlice f n va = f + (v.extractLsb' 16 16 ^^^ v.extractLsb' 32 16 ^^^ (v.extractLsb' 48 8).setWidth 16).toNat % n) ∧
  (∀ (s : State) (part va : Nat), let p := s.part part
    ((∀ e ∈ s.otable, otServes e.2 p.first va = false) → s.home part va = .here (homeSlice p.first p.size va)) ∧
    (∀ pre i e rest, s.otable = pre ++ (i, e) :: rest → (∀ y ∈ pre, otServes y.2 p.first va = false) → otServes e p.first va = true →
      s.home part va = if (e.extractLsb' 80 8).toNat = s.devnum.toNat % 256 then .here (homeSlice p.first p.size va)
        else .away (e.extractLsb' 80 8).toNat (e.extractLsb' 92 4).toNat)) ∧
  (∀ (s : State) (h va : Nat), let first := (h + ((BitVec.ofNat 64 va).extractLsb' 16 5).toNat) % 24
    let up := fun (p : Nat) => ∃ x, s.ports[p]? = some x ∧ x.up = true
    (∀ p, s.plane h va = some p ↔ ∃ i < 24, p = (first + i) % 24 ∧ up p ∧ ∀ j < i, ¬ up ((first + j) % 24)) ∧
    (s.plane h va = none ↔ ∀ p < 24, ¬ up p))

/-- Words that the spec's own texts give decode to the instructions they stand for (R49 to R56). -/
def Obligations.SpecWordsDecode : Prop :=
  let L : Limits := ⟨.team, 256, 1024, 4⟩
  let p7 : Ctl := ⟨false, 7, false, 0⟩
  let gp7 : Ctl := ⟨true, 7, false, 0⟩
  decodeWord L 0x00000001_81E0F001 0x00010000 = .ok (.add ⟨gp7, .s, 3, 3, .lit 0x00010000, false⟩) ∧
  decodeWord L 0x07FFFC8484C14001 0 = .ok (.add ⟨⟨false, 2, true, 0⟩, .s, 9, 9, .imm 0xFFFF9, false⟩) ∧
  decodeWord L 0x268000010180E110 0 = .ok (.cvt ⟨p7, .s32, .f32, 3, 2, .rtz, false, false⟩) ∧
  decodeWord L 0x01F8000200C0E491 0 = .ok (.cmp ⟨p7, .lt, .f32, 1, 4, .imm 0x3F000, false⟩) ∧
  decodeWord L 0x008184140000E056 0 = .ok (.exvn ⟨p7, 40, 8, 3, false, true⟩) ∧
  decodeWord L 0x0000030004402019 0 = .ok (.brd ⟨⟨false, 1, false, 0⟩, 6, 8⟩) ∧
  decodeWord L 0x000008010340E164 0 = .ok (.ld ⟨p7, .b64, 6, 2, .imm 16, false⟩) ∧
  decodeWord L 0x000000810540E029 0 = .ok (.atom ⟨p7, .add, .s32, 10, 2, .imm 1, 0, false, false, false, false⟩) ∧
  decodeWord L 0x000000808240F06E 0 = .ok (.barr ⟨gp7, 4, 1, .imm 1, false⟩) ∧
  decodeWord L 0x000080010300F0B7 0 = .ok (.dqsteal ⟨gp7, 6, 2, .reg 0, 1⟩) ∧
  decodeWord L 0x000000010180E13F 0 = .illegal 1

/-- Decoding the encoding of a well-formed instruction gives it back (R49 to R58): no bit of an operand is lost, and what follows it in
memory is left. -/
def Obligations.DecodeAfterEncode : Prop :=
  ∀ (L : Limits) (i : Instr), i.wellFormed L = true → ∃ x l, encode i = some (x, l) ∧ decodeWord L x l = .ok i ∧
    ∀ rest, decodeBytes L (encodeBytes i ++ rest) = some (.ok i, rest)

/-- Every step keeps the form of a state: memory in canonical form, and as many cores, slices, partitions and ports as there are. -/
def Obligations.StepKeepsTheForm : Prop :=
  ∀ s s' : State, s.Formed → step s = .next s' → s'.Formed
end

