-- ==== Sys2Proof/Laws/State.lean ====
section
/-! SUPPORT. One lemma per field and update of State, Core and their parts, and what an update reads back. -/

namespace Sys2Proof.Machine

/-! `State.setCore` -/

@[simp] theorem State.setCore_on (s : State) (c : Nat) (k : Core) : (s.setCore c k).on = s.on := rfl
@[simp] theorem State.setCore_cur (s : State) (c : Nat) (k : Core) : (s.setCore c k).cur = s.cur := rfl
@[simp] theorem State.setCore_agenda (s : State) (c : Nat) (k : Core) : (s.setCore c k).agenda = s.agenda := rfl
@[simp] theorem State.setCore_turn (s : State) (c : Nat) (k : Core) : (s.setCore c k).turn = s.turn := rfl
@[simp] theorem State.setCore_epoch (s : State) (c : Nat) (k : Core) : (s.setCore c k).epoch = s.epoch := rfl
@[simp] theorem State.setCore_nextId (s : State) (c : Nat) (k : Core) : (s.setCore c k).nextId = s.nextId := rfl
@[simp] theorem State.setCore_free (s : State) (c : Nat) (k : Core) : (s.setCore c k).free = s.free := rfl
@[simp] theorem State.setCore_mem (s : State) (c : Nat) (k : Core) : (s.setCore c k).mem = s.mem := rfl
@[simp] theorem State.setCore_poison (s : State) (c : Nat) (k : Core) : (s.setCore c k).poison = s.poison := rfl
@[simp] theorem State.setCore_softErr (s : State) (c : Nat) (k : Core) : (s.setCore c k).softErr = s.softErr := rfl
@[simp] theorem State.setCore_hardErr (s : State) (c : Nat) (k : Core) : (s.setCore c k).hardErr = s.hardErr := rfl
@[simp] theorem State.setCore_watch (s : State) (c : Nat) (k : Core) : (s.setCore c k).watch = s.watch := rfl
@[simp] theorem State.setCore_slices (s : State) (c : Nat) (k : Core) : (s.setCore c k).slices = s.slices := rfl
@[simp] theorem State.setCore_parts (s : State) (c : Nat) (k : Core) : (s.setCore c k).parts = s.parts := rfl
@[simp] theorem State.setCore_ports (s : State) (c : Nat) (k : Core) : (s.setCore c k).ports = s.ports := rfl
@[simp] theorem State.setCore_otable (s : State) (c : Nat) (k : Core) : (s.setCore c k).otable = s.otable := rfl
@[simp] theorem State.setCore_devnum (s : State) (c : Nat) (k : Core) : (s.setCore c k).devnum = s.devnum := rfl
@[simp] theorem State.setCore_fwctl (s : State) (c : Nat) (k : Core) : (s.setCore c k).fwctl = s.fwctl := rfl
@[simp] theorem State.setCore_fwstat (s : State) (c : Nat) (k : Core) : (s.setCore c k).fwstat = s.fwstat := rfl
@[simp] theorem State.setCore_herr (s : State) (c : Nat) (k : Core) : (s.setCore c k).herr = s.herr := rfl
@[simp] theorem State.setCore_plim (s : State) (c : Nat) (k : Core) : (s.setCore c k).plim = s.plim := rfl
@[simp] theorem State.setCore_temp (s : State) (c : Nat) (k : Core) : (s.setCore c k).temp = s.temp := rfl
@[simp] theorem State.setCore_stopped (s : State) (c : Nat) (k : Core) : (s.setCore c k).stopped = s.stopped := rfl
@[simp] theorem State.setCore_throttle (s : State) (c : Nat) (k : Core) : (s.setCore c k).throttle = s.throttle := rfl
@[simp] theorem State.setCore_islands (s : State) (c : Nat) (k : Core) : (s.setCore c k).islands = s.islands := rfl
@[simp] theorem State.setCore_rails (s : State) (c : Nat) (k : Core) : (s.setCore c k).rails = s.rails := rfl
@[simp] theorem State.setCore_clock (s : State) (c : Nat) (k : Core) : (s.setCore c k).clock = s.clock := rfl
@[simp] theorem State.setCore_store (s : State) (c : Nat) (k : Core) : (s.setCore c k).store = s.store := rfl
@[simp] theorem State.setCore_csel (s : State) (c : Nat) (k : Core) : (s.setCore c k).csel = s.csel := rfl
@[simp] theorem State.setCore_journal (s : State) (c : Nat) (k : Core) : (s.setCore c k).journal = s.journal := rfl
@[simp] theorem State.setCore_image (s : State) (c : Nat) (k : Core) : (s.setCore c k).image = s.image := rfl
@[simp] theorem State.setCore_boots (s : State) (c : Nat) (k : Core) : (s.setCore c k).boots = s.boots := rfl
@[simp] theorem State.setCore_answers (s : State) (c : Nat) (k : Core) : (s.setCore c k).answers = s.answers := rfl
@[simp] theorem State.setCore_hostMem (s : State) (c : Nat) (k : Core) : (s.setCore c k).hostMem = s.hostMem := rfl
@[simp] theorem State.setCore_fwTries (s : State) (c : Nat) (k : Core) : (s.setCore c k).fwTries = s.fwTries := rfl
@[simp] theorem State.setCore_thermalLog (s : State) (c : Nat) (k : Core) : (s.setCore c k).thermalLog = s.thermalLog := rfl
@[simp] theorem State.setCore_surge (s : State) (c : Nat) (k : Core) : (s.setCore c k).surge = s.surge := rfl
@[simp] theorem State.setCore_bulk (s : State) (c : Nat) (k : Core) : (s.setCore c k).bulk = s.bulk := rfl
@[simp] theorem State.setCore_rbuf (s : State) (c : Nat) (k : Core) : (s.setCore c k).rbuf = s.rbuf := rfl
@[simp] theorem State.setCore_held (s : State) (c : Nat) (k : Core) : (s.setCore c k).held = s.held := rfl
@[simp] theorem State.setCore_dbgq (s : State) (c : Nat) (k : Core) : (s.setCore c k).dbgq = s.dbgq := rfl
@[simp] theorem State.setCore_parked (s : State) (c : Nat) (k : Core) : (s.setCore c k).parked = s.parked := rfl

/-! `State.setSlice` -/

@[simp] theorem State.setSlice_on (s : State) (i : Nat) (x : Slice) : (s.setSlice i x).on = s.on := rfl
@[simp] theorem State.setSlice_cur (s : State) (i : Nat) (x : Slice) : (s.setSlice i x).cur = s.cur := rfl
@[simp] theorem State.setSlice_agenda (s : State) (i : Nat) (x : Slice) : (s.setSlice i x).agenda = s.agenda := rfl
@[simp] theorem State.setSlice_turn (s : State) (i : Nat) (x : Slice) : (s.setSlice i x).turn = s.turn := rfl
@[simp] theorem State.setSlice_epoch (s : State) (i : Nat) (x : Slice) : (s.setSlice i x).epoch = s.epoch := rfl
@[simp] theorem State.setSlice_nextId (s : State) (i : Nat) (x : Slice) : (s.setSlice i x).nextId = s.nextId := rfl
@[simp] theorem State.setSlice_free (s : State) (i : Nat) (x : Slice) : (s.setSlice i x).free = s.free := rfl
@[simp] theorem State.setSlice_mem (s : State) (i : Nat) (x : Slice) : (s.setSlice i x).mem = s.mem := rfl
@[simp] theorem State.setSlice_poison (s : State) (i : Nat) (x : Slice) : (s.setSlice i x).poison = s.poison := rfl
@[simp] theorem State.setSlice_softErr (s : State) (i : Nat) (x : Slice) : (s.setSlice i x).softErr = s.softErr := rfl
@[simp] theorem State.setSlice_hardErr (s : State) (i : Nat) (x : Slice) : (s.setSlice i x).hardErr = s.hardErr := rfl
@[simp] theorem State.setSlice_watch (s : State) (i : Nat) (x : Slice) : (s.setSlice i x).watch = s.watch := rfl
@[simp] theorem State.setSlice_cores (s : State) (i : Nat) (x : Slice) : (s.setSlice i x).cores = s.cores := rfl
@[simp] theorem State.setSlice_parts (s : State) (i : Nat) (x : Slice) : (s.setSlice i x).parts = s.parts := rfl
@[simp] theorem State.setSlice_ports (s : State) (i : Nat) (x : Slice) : (s.setSlice i x).ports = s.ports := rfl
@[simp] theorem State.setSlice_otable (s : State) (i : Nat) (x : Slice) : (s.setSlice i x).otable = s.otable := rfl
@[simp] theorem State.setSlice_devnum (s : State) (i : Nat) (x : Slice) : (s.setSlice i x).devnum = s.devnum := rfl
@[simp] theorem State.setSlice_fwctl (s : State) (i : Nat) (x : Slice) : (s.setSlice i x).fwctl = s.fwctl := rfl
@[simp] theorem State.setSlice_fwstat (s : State) (i : Nat) (x : Slice) : (s.setSlice i x).fwstat = s.fwstat := rfl
@[simp] theorem State.setSlice_herr (s : State) (i : Nat) (x : Slice) : (s.setSlice i x).herr = s.herr := rfl
@[simp] theorem State.setSlice_plim (s : State) (i : Nat) (x : Slice) : (s.setSlice i x).plim = s.plim := rfl
@[simp] theorem State.setSlice_temp (s : State) (i : Nat) (x : Slice) : (s.setSlice i x).temp = s.temp := rfl
@[simp] theorem State.setSlice_stopped (s : State) (i : Nat) (x : Slice) : (s.setSlice i x).stopped = s.stopped := rfl
@[simp] theorem State.setSlice_throttle (s : State) (i : Nat) (x : Slice) : (s.setSlice i x).throttle = s.throttle := rfl
@[simp] theorem State.setSlice_islands (s : State) (i : Nat) (x : Slice) : (s.setSlice i x).islands = s.islands := rfl
@[simp] theorem State.setSlice_rails (s : State) (i : Nat) (x : Slice) : (s.setSlice i x).rails = s.rails := rfl
@[simp] theorem State.setSlice_clock (s : State) (i : Nat) (x : Slice) : (s.setSlice i x).clock = s.clock := rfl
@[simp] theorem State.setSlice_store (s : State) (i : Nat) (x : Slice) : (s.setSlice i x).store = s.store := rfl
@[simp] theorem State.setSlice_csel (s : State) (i : Nat) (x : Slice) : (s.setSlice i x).csel = s.csel := rfl
@[simp] theorem State.setSlice_journal (s : State) (i : Nat) (x : Slice) : (s.setSlice i x).journal = s.journal := rfl
@[simp] theorem State.setSlice_image (s : State) (i : Nat) (x : Slice) : (s.setSlice i x).image = s.image := rfl
@[simp] theorem State.setSlice_boots (s : State) (i : Nat) (x : Slice) : (s.setSlice i x).boots = s.boots := rfl
@[simp] theorem State.setSlice_answers (s : State) (i : Nat) (x : Slice) : (s.setSlice i x).answers = s.answers := rfl
@[simp] theorem State.setSlice_hostMem (s : State) (i : Nat) (x : Slice) : (s.setSlice i x).hostMem = s.hostMem := rfl
@[simp] theorem State.setSlice_fwTries (s : State) (i : Nat) (x : Slice) : (s.setSlice i x).fwTries = s.fwTries := rfl
@[simp] theorem State.setSlice_thermalLog (s : State) (i : Nat) (x : Slice) : (s.setSlice i x).thermalLog = s.thermalLog := rfl
@[simp] theorem State.setSlice_surge (s : State) (i : Nat) (x : Slice) : (s.setSlice i x).surge = s.surge := rfl
@[simp] theorem State.setSlice_bulk (s : State) (i : Nat) (x : Slice) : (s.setSlice i x).bulk = s.bulk := rfl
@[simp] theorem State.setSlice_rbuf (s : State) (i : Nat) (x : Slice) : (s.setSlice i x).rbuf = s.rbuf := rfl
@[simp] theorem State.setSlice_held (s : State) (i : Nat) (x : Slice) : (s.setSlice i x).held = s.held := rfl
@[simp] theorem State.setSlice_dbgq (s : State) (i : Nat) (x : Slice) : (s.setSlice i x).dbgq = s.dbgq := rfl
@[simp] theorem State.setSlice_parked (s : State) (i : Nat) (x : Slice) : (s.setSlice i x).parked = s.parked := rfl

/-! `State.setPart` -/

@[simp] theorem State.setPart_on (s : State) (i : Nat) (x : Part) : (s.setPart i x).on = s.on := rfl
@[simp] theorem State.setPart_cur (s : State) (i : Nat) (x : Part) : (s.setPart i x).cur = s.cur := rfl
@[simp] theorem State.setPart_agenda (s : State) (i : Nat) (x : Part) : (s.setPart i x).agenda = s.agenda := rfl
@[simp] theorem State.setPart_turn (s : State) (i : Nat) (x : Part) : (s.setPart i x).turn = s.turn := rfl
@[simp] theorem State.setPart_epoch (s : State) (i : Nat) (x : Part) : (s.setPart i x).epoch = s.epoch := rfl
@[simp] theorem State.setPart_nextId (s : State) (i : Nat) (x : Part) : (s.setPart i x).nextId = s.nextId := rfl
@[simp] theorem State.setPart_free (s : State) (i : Nat) (x : Part) : (s.setPart i x).free = s.free := rfl
@[simp] theorem State.setPart_mem (s : State) (i : Nat) (x : Part) : (s.setPart i x).mem = s.mem := rfl
@[simp] theorem State.setPart_poison (s : State) (i : Nat) (x : Part) : (s.setPart i x).poison = s.poison := rfl
@[simp] theorem State.setPart_softErr (s : State) (i : Nat) (x : Part) : (s.setPart i x).softErr = s.softErr := rfl
@[simp] theorem State.setPart_hardErr (s : State) (i : Nat) (x : Part) : (s.setPart i x).hardErr = s.hardErr := rfl
@[simp] theorem State.setPart_watch (s : State) (i : Nat) (x : Part) : (s.setPart i x).watch = s.watch := rfl
@[simp] theorem State.setPart_cores (s : State) (i : Nat) (x : Part) : (s.setPart i x).cores = s.cores := rfl
@[simp] theorem State.setPart_slices (s : State) (i : Nat) (x : Part) : (s.setPart i x).slices = s.slices := rfl
@[simp] theorem State.setPart_ports (s : State) (i : Nat) (x : Part) : (s.setPart i x).ports = s.ports := rfl
@[simp] theorem State.setPart_otable (s : State) (i : Nat) (x : Part) : (s.setPart i x).otable = s.otable := rfl
@[simp] theorem State.setPart_devnum (s : State) (i : Nat) (x : Part) : (s.setPart i x).devnum = s.devnum := rfl
@[simp] theorem State.setPart_fwctl (s : State) (i : Nat) (x : Part) : (s.setPart i x).fwctl = s.fwctl := rfl
@[simp] theorem State.setPart_fwstat (s : State) (i : Nat) (x : Part) : (s.setPart i x).fwstat = s.fwstat := rfl
@[simp] theorem State.setPart_herr (s : State) (i : Nat) (x : Part) : (s.setPart i x).herr = s.herr := rfl
@[simp] theorem State.setPart_plim (s : State) (i : Nat) (x : Part) : (s.setPart i x).plim = s.plim := rfl
@[simp] theorem State.setPart_temp (s : State) (i : Nat) (x : Part) : (s.setPart i x).temp = s.temp := rfl
@[simp] theorem State.setPart_stopped (s : State) (i : Nat) (x : Part) : (s.setPart i x).stopped = s.stopped := rfl
@[simp] theorem State.setPart_throttle (s : State) (i : Nat) (x : Part) : (s.setPart i x).throttle = s.throttle := rfl
@[simp] theorem State.setPart_islands (s : State) (i : Nat) (x : Part) : (s.setPart i x).islands = s.islands := rfl
@[simp] theorem State.setPart_rails (s : State) (i : Nat) (x : Part) : (s.setPart i x).rails = s.rails := rfl
@[simp] theorem State.setPart_clock (s : State) (i : Nat) (x : Part) : (s.setPart i x).clock = s.clock := rfl
@[simp] theorem State.setPart_store (s : State) (i : Nat) (x : Part) : (s.setPart i x).store = s.store := rfl
@[simp] theorem State.setPart_csel (s : State) (i : Nat) (x : Part) : (s.setPart i x).csel = s.csel := rfl
@[simp] theorem State.setPart_journal (s : State) (i : Nat) (x : Part) : (s.setPart i x).journal = s.journal := rfl
@[simp] theorem State.setPart_image (s : State) (i : Nat) (x : Part) : (s.setPart i x).image = s.image := rfl
@[simp] theorem State.setPart_boots (s : State) (i : Nat) (x : Part) : (s.setPart i x).boots = s.boots := rfl
@[simp] theorem State.setPart_answers (s : State) (i : Nat) (x : Part) : (s.setPart i x).answers = s.answers := rfl
@[simp] theorem State.setPart_hostMem (s : State) (i : Nat) (x : Part) : (s.setPart i x).hostMem = s.hostMem := rfl
@[simp] theorem State.setPart_fwTries (s : State) (i : Nat) (x : Part) : (s.setPart i x).fwTries = s.fwTries := rfl
@[simp] theorem State.setPart_thermalLog (s : State) (i : Nat) (x : Part) : (s.setPart i x).thermalLog = s.thermalLog := rfl
@[simp] theorem State.setPart_surge (s : State) (i : Nat) (x : Part) : (s.setPart i x).surge = s.surge := rfl
@[simp] theorem State.setPart_bulk (s : State) (i : Nat) (x : Part) : (s.setPart i x).bulk = s.bulk := rfl
@[simp] theorem State.setPart_rbuf (s : State) (i : Nat) (x : Part) : (s.setPart i x).rbuf = s.rbuf := rfl
@[simp] theorem State.setPart_held (s : State) (i : Nat) (x : Part) : (s.setPart i x).held = s.held := rfl
@[simp] theorem State.setPart_dbgq (s : State) (i : Nat) (x : Part) : (s.setPart i x).dbgq = s.dbgq := rfl
@[simp] theorem State.setPart_parked (s : State) (i : Nat) (x : Part) : (s.setPart i x).parked = s.parked := rfl

/-! `State.setPort` -/

@[simp] theorem State.setPort_on (s : State) (i : Nat) (x : Port) : (s.setPort i x).on = s.on := rfl
@[simp] theorem State.setPort_cur (s : State) (i : Nat) (x : Port) : (s.setPort i x).cur = s.cur := rfl
@[simp] theorem State.setPort_agenda (s : State) (i : Nat) (x : Port) : (s.setPort i x).agenda = s.agenda := rfl
@[simp] theorem State.setPort_turn (s : State) (i : Nat) (x : Port) : (s.setPort i x).turn = s.turn := rfl
@[simp] theorem State.setPort_epoch (s : State) (i : Nat) (x : Port) : (s.setPort i x).epoch = s.epoch := rfl
@[simp] theorem State.setPort_nextId (s : State) (i : Nat) (x : Port) : (s.setPort i x).nextId = s.nextId := rfl
@[simp] theorem State.setPort_free (s : State) (i : Nat) (x : Port) : (s.setPort i x).free = s.free := rfl
@[simp] theorem State.setPort_mem (s : State) (i : Nat) (x : Port) : (s.setPort i x).mem = s.mem := rfl
@[simp] theorem State.setPort_poison (s : State) (i : Nat) (x : Port) : (s.setPort i x).poison = s.poison := rfl
@[simp] theorem State.setPort_softErr (s : State) (i : Nat) (x : Port) : (s.setPort i x).softErr = s.softErr := rfl
@[simp] theorem State.setPort_hardErr (s : State) (i : Nat) (x : Port) : (s.setPort i x).hardErr = s.hardErr := rfl
@[simp] theorem State.setPort_watch (s : State) (i : Nat) (x : Port) : (s.setPort i x).watch = s.watch := rfl
@[simp] theorem State.setPort_cores (s : State) (i : Nat) (x : Port) : (s.setPort i x).cores = s.cores := rfl
@[simp] theorem State.setPort_slices (s : State) (i : Nat) (x : Port) : (s.setPort i x).slices = s.slices := rfl
@[simp] theorem State.setPort_parts (s : State) (i : Nat) (x : Port) : (s.setPort i x).parts = s.parts := rfl
@[simp] theorem State.setPort_otable (s : State) (i : Nat) (x : Port) : (s.setPort i x).otable = s.otable := rfl
@[simp] theorem State.setPort_devnum (s : State) (i : Nat) (x : Port) : (s.setPort i x).devnum = s.devnum := rfl
@[simp] theorem State.setPort_fwctl (s : State) (i : Nat) (x : Port) : (s.setPort i x).fwctl = s.fwctl := rfl
@[simp] theorem State.setPort_fwstat (s : State) (i : Nat) (x : Port) : (s.setPort i x).fwstat = s.fwstat := rfl
@[simp] theorem State.setPort_herr (s : State) (i : Nat) (x : Port) : (s.setPort i x).herr = s.herr := rfl
@[simp] theorem State.setPort_plim (s : State) (i : Nat) (x : Port) : (s.setPort i x).plim = s.plim := rfl
@[simp] theorem State.setPort_temp (s : State) (i : Nat) (x : Port) : (s.setPort i x).temp = s.temp := rfl
@[simp] theorem State.setPort_stopped (s : State) (i : Nat) (x : Port) : (s.setPort i x).stopped = s.stopped := rfl
@[simp] theorem State.setPort_throttle (s : State) (i : Nat) (x : Port) : (s.setPort i x).throttle = s.throttle := rfl
@[simp] theorem State.setPort_islands (s : State) (i : Nat) (x : Port) : (s.setPort i x).islands = s.islands := rfl
@[simp] theorem State.setPort_rails (s : State) (i : Nat) (x : Port) : (s.setPort i x).rails = s.rails := rfl
@[simp] theorem State.setPort_clock (s : State) (i : Nat) (x : Port) : (s.setPort i x).clock = s.clock := rfl
@[simp] theorem State.setPort_store (s : State) (i : Nat) (x : Port) : (s.setPort i x).store = s.store := rfl
@[simp] theorem State.setPort_csel (s : State) (i : Nat) (x : Port) : (s.setPort i x).csel = s.csel := rfl
@[simp] theorem State.setPort_journal (s : State) (i : Nat) (x : Port) : (s.setPort i x).journal = s.journal := rfl
@[simp] theorem State.setPort_image (s : State) (i : Nat) (x : Port) : (s.setPort i x).image = s.image := rfl
@[simp] theorem State.setPort_boots (s : State) (i : Nat) (x : Port) : (s.setPort i x).boots = s.boots := rfl
@[simp] theorem State.setPort_answers (s : State) (i : Nat) (x : Port) : (s.setPort i x).answers = s.answers := rfl
@[simp] theorem State.setPort_hostMem (s : State) (i : Nat) (x : Port) : (s.setPort i x).hostMem = s.hostMem := rfl
@[simp] theorem State.setPort_fwTries (s : State) (i : Nat) (x : Port) : (s.setPort i x).fwTries = s.fwTries := rfl
@[simp] theorem State.setPort_thermalLog (s : State) (i : Nat) (x : Port) : (s.setPort i x).thermalLog = s.thermalLog := rfl
@[simp] theorem State.setPort_surge (s : State) (i : Nat) (x : Port) : (s.setPort i x).surge = s.surge := rfl
@[simp] theorem State.setPort_bulk (s : State) (i : Nat) (x : Port) : (s.setPort i x).bulk = s.bulk := rfl
@[simp] theorem State.setPort_rbuf (s : State) (i : Nat) (x : Port) : (s.setPort i x).rbuf = s.rbuf := rfl
@[simp] theorem State.setPort_held (s : State) (i : Nat) (x : Port) : (s.setPort i x).held = s.held := rfl
@[simp] theorem State.setPort_dbgq (s : State) (i : Nat) (x : Port) : (s.setPort i x).dbgq = s.dbgq := rfl
@[simp] theorem State.setPort_parked (s : State) (i : Nat) (x : Port) : (s.setPort i x).parked = s.parked := rfl

/-! `State.bump` -/

@[simp] theorem State.bump_on (s : State) : (s.bump).on = s.on := rfl
@[simp] theorem State.bump_cur (s : State) : (s.bump).cur = s.cur := rfl
@[simp] theorem State.bump_agenda (s : State) : (s.bump).agenda = s.agenda := rfl
@[simp] theorem State.bump_turn (s : State) : (s.bump).turn = s.turn := rfl
@[simp] theorem State.bump_nextId (s : State) : (s.bump).nextId = s.nextId := rfl
@[simp] theorem State.bump_free (s : State) : (s.bump).free = s.free := rfl
@[simp] theorem State.bump_mem (s : State) : (s.bump).mem = s.mem := rfl
@[simp] theorem State.bump_poison (s : State) : (s.bump).poison = s.poison := rfl
@[simp] theorem State.bump_softErr (s : State) : (s.bump).softErr = s.softErr := rfl
@[simp] theorem State.bump_hardErr (s : State) : (s.bump).hardErr = s.hardErr := rfl
@[simp] theorem State.bump_watch (s : State) : (s.bump).watch = s.watch := rfl
@[simp] theorem State.bump_cores (s : State) : (s.bump).cores = s.cores := rfl
@[simp] theorem State.bump_slices (s : State) : (s.bump).slices = s.slices := rfl
@[simp] theorem State.bump_parts (s : State) : (s.bump).parts = s.parts := rfl
@[simp] theorem State.bump_ports (s : State) : (s.bump).ports = s.ports := rfl
@[simp] theorem State.bump_otable (s : State) : (s.bump).otable = s.otable := rfl
@[simp] theorem State.bump_devnum (s : State) : (s.bump).devnum = s.devnum := rfl
@[simp] theorem State.bump_fwctl (s : State) : (s.bump).fwctl = s.fwctl := rfl
@[simp] theorem State.bump_fwstat (s : State) : (s.bump).fwstat = s.fwstat := rfl
@[simp] theorem State.bump_herr (s : State) : (s.bump).herr = s.herr := rfl
@[simp] theorem State.bump_plim (s : State) : (s.bump).plim = s.plim := rfl
@[simp] theorem State.bump_temp (s : State) : (s.bump).temp = s.temp := rfl
@[simp] theorem State.bump_stopped (s : State) : (s.bump).stopped = s.stopped := rfl
@[simp] theorem State.bump_throttle (s : State) : (s.bump).throttle = s.throttle := rfl
@[simp] theorem State.bump_islands (s : State) : (s.bump).islands = s.islands := rfl
@[simp] theorem State.bump_rails (s : State) : (s.bump).rails = s.rails := rfl
@[simp] theorem State.bump_clock (s : State) : (s.bump).clock = s.clock := rfl
@[simp] theorem State.bump_store (s : State) : (s.bump).store = s.store := rfl
@[simp] theorem State.bump_csel (s : State) : (s.bump).csel = s.csel := rfl
@[simp] theorem State.bump_journal (s : State) : (s.bump).journal = s.journal := rfl
@[simp] theorem State.bump_image (s : State) : (s.bump).image = s.image := rfl
@[simp] theorem State.bump_boots (s : State) : (s.bump).boots = s.boots := rfl
@[simp] theorem State.bump_answers (s : State) : (s.bump).answers = s.answers := rfl
@[simp] theorem State.bump_hostMem (s : State) : (s.bump).hostMem = s.hostMem := rfl
@[simp] theorem State.bump_fwTries (s : State) : (s.bump).fwTries = s.fwTries := rfl
@[simp] theorem State.bump_thermalLog (s : State) : (s.bump).thermalLog = s.thermalLog := rfl
@[simp] theorem State.bump_surge (s : State) : (s.bump).surge = s.surge := rfl
@[simp] theorem State.bump_bulk (s : State) : (s.bump).bulk = s.bulk := rfl
@[simp] theorem State.bump_rbuf (s : State) : (s.bump).rbuf = s.rbuf := rfl
@[simp] theorem State.bump_dbgq (s : State) : (s.bump).dbgq = s.dbgq := rfl
@[simp] theorem State.bump_parked (s : State) : (s.bump).parked = s.parked := rfl

/-! `State.count` -/

@[simp] theorem State.count_on (s : State) (i j n : Nat) : (s.count i j n).on = s.on := rfl
@[simp] theorem State.count_cur (s : State) (i j n : Nat) : (s.count i j n).cur = s.cur := rfl
@[simp] theorem State.count_agenda (s : State) (i j n : Nat) : (s.count i j n).agenda = s.agenda := rfl
@[simp] theorem State.count_turn (s : State) (i j n : Nat) : (s.count i j n).turn = s.turn := rfl
@[simp] theorem State.count_epoch (s : State) (i j n : Nat) : (s.count i j n).epoch = s.epoch := rfl
@[simp] theorem State.count_nextId (s : State) (i j n : Nat) : (s.count i j n).nextId = s.nextId := rfl
@[simp] theorem State.count_free (s : State) (i j n : Nat) : (s.count i j n).free = s.free := rfl
@[simp] theorem State.count_mem (s : State) (i j n : Nat) : (s.count i j n).mem = s.mem := rfl
@[simp] theorem State.count_poison (s : State) (i j n : Nat) : (s.count i j n).poison = s.poison := rfl
@[simp] theorem State.count_softErr (s : State) (i j n : Nat) : (s.count i j n).softErr = s.softErr := rfl
@[simp] theorem State.count_hardErr (s : State) (i j n : Nat) : (s.count i j n).hardErr = s.hardErr := rfl
@[simp] theorem State.count_watch (s : State) (i j n : Nat) : (s.count i j n).watch = s.watch := rfl
@[simp] theorem State.count_cores (s : State) (i j n : Nat) : (s.count i j n).cores = s.cores := rfl
@[simp] theorem State.count_slices (s : State) (i j n : Nat) : (s.count i j n).slices = s.slices := rfl
@[simp] theorem State.count_ports (s : State) (i j n : Nat) : (s.count i j n).ports = s.ports := rfl
@[simp] theorem State.count_otable (s : State) (i j n : Nat) : (s.count i j n).otable = s.otable := rfl
@[simp] theorem State.count_devnum (s : State) (i j n : Nat) : (s.count i j n).devnum = s.devnum := rfl
@[simp] theorem State.count_fwctl (s : State) (i j n : Nat) : (s.count i j n).fwctl = s.fwctl := rfl
@[simp] theorem State.count_fwstat (s : State) (i j n : Nat) : (s.count i j n).fwstat = s.fwstat := rfl
@[simp] theorem State.count_herr (s : State) (i j n : Nat) : (s.count i j n).herr = s.herr := rfl
@[simp] theorem State.count_plim (s : State) (i j n : Nat) : (s.count i j n).plim = s.plim := rfl
@[simp] theorem State.count_temp (s : State) (i j n : Nat) : (s.count i j n).temp = s.temp := rfl
@[simp] theorem State.count_stopped (s : State) (i j n : Nat) : (s.count i j n).stopped = s.stopped := rfl
@[simp] theorem State.count_throttle (s : State) (i j n : Nat) : (s.count i j n).throttle = s.throttle := rfl
@[simp] theorem State.count_islands (s : State) (i j n : Nat) : (s.count i j n).islands = s.islands := rfl
@[simp] theorem State.count_rails (s : State) (i j n : Nat) : (s.count i j n).rails = s.rails := rfl
@[simp] theorem State.count_clock (s : State) (i j n : Nat) : (s.count i j n).clock = s.clock := rfl
@[simp] theorem State.count_store (s : State) (i j n : Nat) : (s.count i j n).store = s.store := rfl
@[simp] theorem State.count_csel (s : State) (i j n : Nat) : (s.count i j n).csel = s.csel := rfl
@[simp] theorem State.count_journal (s : State) (i j n : Nat) : (s.count i j n).journal = s.journal := rfl
@[simp] theorem State.count_image (s : State) (i j n : Nat) : (s.count i j n).image = s.image := rfl
@[simp] theorem State.count_boots (s : State) (i j n : Nat) : (s.count i j n).boots = s.boots := rfl
@[simp] theorem State.count_answers (s : State) (i j n : Nat) : (s.count i j n).answers = s.answers := rfl
@[simp] theorem State.count_hostMem (s : State) (i j n : Nat) : (s.count i j n).hostMem = s.hostMem := rfl
@[simp] theorem State.count_fwTries (s : State) (i j n : Nat) : (s.count i j n).fwTries = s.fwTries := rfl
@[simp] theorem State.count_thermalLog (s : State) (i j n : Nat) : (s.count i j n).thermalLog = s.thermalLog := rfl
@[simp] theorem State.count_surge (s : State) (i j n : Nat) : (s.count i j n).surge = s.surge := rfl
@[simp] theorem State.count_bulk (s : State) (i j n : Nat) : (s.count i j n).bulk = s.bulk := rfl
@[simp] theorem State.count_rbuf (s : State) (i j n : Nat) : (s.count i j n).rbuf = s.rbuf := rfl
@[simp] theorem State.count_held (s : State) (i j n : Nat) : (s.count i j n).held = s.held := rfl
@[simp] theorem State.count_dbgq (s : State) (i j n : Nat) : (s.count i j n).dbgq = s.dbgq := rfl
@[simp] theorem State.count_parked (s : State) (i j n : Nat) : (s.count i j n).parked = s.parked := rfl

/-! `Core.setEntry` -/

@[simp] theorem Core.setEntry_slots (k : Core) (q e : Nat) (x : Entry) : (k.setEntry q e x).slots = k.slots := rfl
@[simp] theorem Core.setEntry_blocks (k : Core) (q e : Nat) (x : Entry) : (k.setEntry q e x).blocks = k.blocks := rfl
@[simp] theorem Core.setEntry_lslots (k : Core) (q e : Nat) (x : Entry) : (k.setEntry q e x).lslots = k.lslots := rfl
@[simp] theorem Core.setEntry_leases (k : Core) (q e : Nat) (x : Entry) : (k.setEntry q e x).leases = k.leases := rfl
@[simp] theorem Core.setEntry_seqs (k : Core) (q e : Nat) (x : Entry) : (k.setEntry q e x).seqs = k.seqs := rfl
@[simp] theorem Core.setEntry_accs (k : Core) (q e : Nat) (x : Entry) : (k.setEntry q e x).accs = k.accs := rfl
@[simp] theorem Core.setEntry_engTurn (k : Core) (q e : Nat) (x : Entry) : (k.setEntry q e x).engTurn = k.engTurn := rfl
@[simp] theorem Core.setEntry_engBusy (k : Core) (q e : Nat) (x : Entry) : (k.setEntry q e x).engBusy = k.engBusy := rfl
@[simp] theorem Core.setEntry_reqs (k : Core) (q e : Nat) (x : Entry) : (k.setEntry q e x).reqs = k.reqs := rfl
@[simp] theorem Core.setEntry_stores (k : Core) (q e : Nat) (x : Entry) : (k.setEntry q e x).stores = k.stores := rfl
@[simp] theorem Core.setEntry_puts (k : Core) (q e : Nat) (x : Entry) : (k.setEntry q e x).puts = k.puts := rfl
@[simp] theorem Core.setEntry_dqs (k : Core) (q e : Nat) (x : Entry) : (k.setEntry q e x).dqs = k.dqs := rfl
@[simp] theorem Core.setEntry_tbs (k : Core) (q e : Nat) (x : Entry) : (k.setEntry q e x).tbs = k.tbs := rfl
@[simp] theorem Core.setEntry_sessions (k : Core) (q e : Nat) (x : Entry) : (k.setEntry q e x).sessions = k.sessions := rfl
@[simp] theorem Core.setEntry_walks (k : Core) (q e : Nat) (x : Entry) : (k.setEntry q e x).walks = k.walks := rfl
@[simp] theorem Core.setEntry_exvs (k : Core) (q e : Nat) (x : Entry) : (k.setEntry q e x).exvs = k.exvs := rfl
@[simp] theorem Core.setEntry_midways (k : Core) (q e : Nat) (x : Entry) : (k.setEntry q e x).midways = k.midways := rfl
@[simp] theorem Core.setEntry_refused (k : Core) (q e : Nat) (x : Entry) : (k.setEntry q e x).refused = k.refused := rfl
@[simp] theorem Core.setEntry_wins (k : Core) (q e : Nat) (x : Entry) : (k.setEntry q e x).wins = k.wins := rfl
@[simp] theorem Core.setEntry_stash (k : Core) (q e : Nat) (x : Entry) : (k.setEntry q e x).stash = k.stash := rfl
@[simp] theorem Core.setEntry_rown (k : Core) (q e : Nat) (x : Entry) : (k.setEntry q e x).rown = k.rown := rfl
@[simp] theorem Core.setEntry_l1 (k : Core) (q e : Nat) (x : Entry) : (k.setEntry q e x).l1 = k.l1 := rfl
@[simp] theorem Core.setEntry_gcache (k : Core) (q e : Nat) (x : Entry) : (k.setEntry q e x).gcache = k.gcache := rfl
@[simp] theorem Core.setEntry_hits (k : Core) (q e : Nat) (x : Entry) : (k.setEntry q e x).hits = k.hits := rfl
@[simp] theorem Core.setEntry_agent (k : Core) (q e : Nat) (x : Entry) : (k.setEntry q e x).agent = k.agent := rfl
@[simp] theorem Core.setEntry_ddata (k : Core) (q e : Nat) (x : Entry) : (k.setEntry q e x).ddata = k.ddata := rfl
@[simp] theorem Core.setEntry_dstat (k : Core) (q e : Nat) (x : Entry) : (k.setEntry q e x).dstat = k.dstat := rfl
@[simp] theorem Core.setEntry_trcbase (k : Core) (q e : Nat) (x : Entry) : (k.setEntry q e x).trcbase = k.trcbase := rfl
@[simp] theorem Core.setEntry_trclen (k : Core) (q e : Nat) (x : Entry) : (k.setEntry q e x).trclen = k.trclen := rfl
@[simp] theorem Core.setEntry_trcptr (k : Core) (q e : Nat) (x : Entry) : (k.setEntry q e x).trcptr = k.trcptr := rfl
@[simp] theorem Core.setEntry_trcctl (k : Core) (q e : Nat) (x : Entry) : (k.setEntry q e x).trcctl = k.trcctl := rfl
@[simp] theorem Core.setEntry_trq (k : Core) (q e : Nat) (x : Entry) : (k.setEntry q e x).trq = k.trq := rfl
@[simp] theorem Core.setEntry_trclost (k : Core) (q e : Nat) (x : Entry) : (k.setEntry q e x).trclost = k.trclost := rfl
@[simp] theorem Core.setEntry_elig (k : Core) (q e : Nat) (x : Entry) : (k.setEntry q e x).elig = k.elig := rfl
@[simp] theorem Core.setEntry_stallc (k : Core) (q e : Nat) (x : Entry) : (k.setEntry q e x).stallc = k.stallc := rfl
@[simp] theorem Core.setEntry_issue (k : Core) (q e : Nat) (x : Entry) : (k.setEntry q e x).issue = k.issue := rfl
@[simp] theorem Core.setEntry_gerr (k : Core) (q e : Nat) (x : Entry) : (k.setEntry q e x).gerr = k.gerr := rfl
@[simp] theorem Core.setEntry_whits (k : Core) (q e : Nat) (x : Entry) : (k.setEntry q e x).whits = k.whits := rfl
@[simp] theorem Core.setEntry_cyc (k : Core) (q e : Nat) (x : Entry) : (k.setEntry q e x).cyc = k.cyc := rfl
@[simp] theorem Core.setEntry_eligN (k : Core) (q e : Nat) (x : Entry) : (k.setEntry q e x).eligN = k.eligN := rfl
@[simp] theorem Core.setEntry_nextAge (k : Core) (q e : Nat) (x : Entry) : (k.setEntry q e x).nextAge = k.nextAge := rfl
@[simp] theorem Core.setEntry_nextBoost (k : Core) (q e : Nat) (x : Entry) : (k.setEntry q e x).nextBoost = k.nextBoost := rfl

/-! `Core.setTeam` -/

@[simp] theorem Core.setTeam_quads (k : Core) (i : Nat) (t : Team) : (k.setTeam i t).quads = k.quads := rfl
@[simp] theorem Core.setTeam_blocks (k : Core) (i : Nat) (t : Team) : (k.setTeam i t).blocks = k.blocks := rfl
@[simp] theorem Core.setTeam_lslots (k : Core) (i : Nat) (t : Team) : (k.setTeam i t).lslots = k.lslots := rfl
@[simp] theorem Core.setTeam_leases (k : Core) (i : Nat) (t : Team) : (k.setTeam i t).leases = k.leases := rfl
@[simp] theorem Core.setTeam_seqs (k : Core) (i : Nat) (t : Team) : (k.setTeam i t).seqs = k.seqs := rfl
@[simp] theorem Core.setTeam_accs (k : Core) (i : Nat) (t : Team) : (k.setTeam i t).accs = k.accs := rfl
@[simp] theorem Core.setTeam_engTurn (k : Core) (i : Nat) (t : Team) : (k.setTeam i t).engTurn = k.engTurn := rfl
@[simp] theorem Core.setTeam_engBusy (k : Core) (i : Nat) (t : Team) : (k.setTeam i t).engBusy = k.engBusy := rfl
@[simp] theorem Core.setTeam_reqs (k : Core) (i : Nat) (t : Team) : (k.setTeam i t).reqs = k.reqs := rfl
@[simp] theorem Core.setTeam_stores (k : Core) (i : Nat) (t : Team) : (k.setTeam i t).stores = k.stores := rfl
@[simp] theorem Core.setTeam_puts (k : Core) (i : Nat) (t : Team) : (k.setTeam i t).puts = k.puts := rfl
@[simp] theorem Core.setTeam_dqs (k : Core) (i : Nat) (t : Team) : (k.setTeam i t).dqs = k.dqs := rfl
@[simp] theorem Core.setTeam_tbs (k : Core) (i : Nat) (t : Team) : (k.setTeam i t).tbs = k.tbs := rfl
@[simp] theorem Core.setTeam_sessions (k : Core) (i : Nat) (t : Team) : (k.setTeam i t).sessions = k.sessions := rfl
@[simp] theorem Core.setTeam_walks (k : Core) (i : Nat) (t : Team) : (k.setTeam i t).walks = k.walks := rfl
@[simp] theorem Core.setTeam_exvs (k : Core) (i : Nat) (t : Team) : (k.setTeam i t).exvs = k.exvs := rfl
@[simp] theorem Core.setTeam_midways (k : Core) (i : Nat) (t : Team) : (k.setTeam i t).midways = k.midways := rfl
@[simp] theorem Core.setTeam_refused (k : Core) (i : Nat) (t : Team) : (k.setTeam i t).refused = k.refused := rfl
@[simp] theorem Core.setTeam_wins (k : Core) (i : Nat) (t : Team) : (k.setTeam i t).wins = k.wins := rfl
@[simp] theorem Core.setTeam_stash (k : Core) (i : Nat) (t : Team) : (k.setTeam i t).stash = k.stash := rfl
@[simp] theorem Core.setTeam_rown (k : Core) (i : Nat) (t : Team) : (k.setTeam i t).rown = k.rown := rfl
@[simp] theorem Core.setTeam_l1 (k : Core) (i : Nat) (t : Team) : (k.setTeam i t).l1 = k.l1 := rfl
@[simp] theorem Core.setTeam_gcache (k : Core) (i : Nat) (t : Team) : (k.setTeam i t).gcache = k.gcache := rfl
@[simp] theorem Core.setTeam_hits (k : Core) (i : Nat) (t : Team) : (k.setTeam i t).hits = k.hits := rfl
@[simp] theorem Core.setTeam_agent (k : Core) (i : Nat) (t : Team) : (k.setTeam i t).agent = k.agent := rfl
@[simp] theorem Core.setTeam_ddata (k : Core) (i : Nat) (t : Team) : (k.setTeam i t).ddata = k.ddata := rfl
@[simp] theorem Core.setTeam_dstat (k : Core) (i : Nat) (t : Team) : (k.setTeam i t).dstat = k.dstat := rfl
@[simp] theorem Core.setTeam_trcbase (k : Core) (i : Nat) (t : Team) : (k.setTeam i t).trcbase = k.trcbase := rfl
@[simp] theorem Core.setTeam_trclen (k : Core) (i : Nat) (t : Team) : (k.setTeam i t).trclen = k.trclen := rfl
@[simp] theorem Core.setTeam_trcptr (k : Core) (i : Nat) (t : Team) : (k.setTeam i t).trcptr = k.trcptr := rfl
@[simp] theorem Core.setTeam_trcctl (k : Core) (i : Nat) (t : Team) : (k.setTeam i t).trcctl = k.trcctl := rfl
@[simp] theorem Core.setTeam_trq (k : Core) (i : Nat) (t : Team) : (k.setTeam i t).trq = k.trq := rfl
@[simp] theorem Core.setTeam_trclost (k : Core) (i : Nat) (t : Team) : (k.setTeam i t).trclost = k.trclost := rfl
@[simp] theorem Core.setTeam_elig (k : Core) (i : Nat) (t : Team) : (k.setTeam i t).elig = k.elig := rfl
@[simp] theorem Core.setTeam_stallc (k : Core) (i : Nat) (t : Team) : (k.setTeam i t).stallc = k.stallc := rfl
@[simp] theorem Core.setTeam_issue (k : Core) (i : Nat) (t : Team) : (k.setTeam i t).issue = k.issue := rfl
@[simp] theorem Core.setTeam_gerr (k : Core) (i : Nat) (t : Team) : (k.setTeam i t).gerr = k.gerr := rfl
@[simp] theorem Core.setTeam_whits (k : Core) (i : Nat) (t : Team) : (k.setTeam i t).whits = k.whits := rfl
@[simp] theorem Core.setTeam_cyc (k : Core) (i : Nat) (t : Team) : (k.setTeam i t).cyc = k.cyc := rfl
@[simp] theorem Core.setTeam_eligN (k : Core) (i : Nat) (t : Team) : (k.setTeam i t).eligN = k.eligN := rfl
@[simp] theorem Core.setTeam_nextAge (k : Core) (i : Nat) (t : Team) : (k.setTeam i t).nextAge = k.nextAge := rfl
@[simp] theorem Core.setTeam_nextBoost (k : Core) (i : Nat) (t : Team) : (k.setTeam i t).nextBoost = k.nextBoost := rfl

/-! `Core.setBlock` -/

@[simp] theorem Core.setBlock_quads (k : Core) (i : Nat) (b : Block) : (k.setBlock i b).quads = k.quads := rfl
@[simp] theorem Core.setBlock_slots (k : Core) (i : Nat) (b : Block) : (k.setBlock i b).slots = k.slots := rfl
@[simp] theorem Core.setBlock_lslots (k : Core) (i : Nat) (b : Block) : (k.setBlock i b).lslots = k.lslots := rfl
@[simp] theorem Core.setBlock_leases (k : Core) (i : Nat) (b : Block) : (k.setBlock i b).leases = k.leases := rfl
@[simp] theorem Core.setBlock_seqs (k : Core) (i : Nat) (b : Block) : (k.setBlock i b).seqs = k.seqs := rfl
@[simp] theorem Core.setBlock_accs (k : Core) (i : Nat) (b : Block) : (k.setBlock i b).accs = k.accs := rfl
@[simp] theorem Core.setBlock_engTurn (k : Core) (i : Nat) (b : Block) : (k.setBlock i b).engTurn = k.engTurn := rfl
@[simp] theorem Core.setBlock_engBusy (k : Core) (i : Nat) (b : Block) : (k.setBlock i b).engBusy = k.engBusy := rfl
@[simp] theorem Core.setBlock_reqs (k : Core) (i : Nat) (b : Block) : (k.setBlock i b).reqs = k.reqs := rfl
@[simp] theorem Core.setBlock_stores (k : Core) (i : Nat) (b : Block) : (k.setBlock i b).stores = k.stores := rfl
@[simp] theorem Core.setBlock_puts (k : Core) (i : Nat) (b : Block) : (k.setBlock i b).puts = k.puts := rfl
@[simp] theorem Core.setBlock_dqs (k : Core) (i : Nat) (b : Block) : (k.setBlock i b).dqs = k.dqs := rfl
@[simp] theorem Core.setBlock_tbs (k : Core) (i : Nat) (b : Block) : (k.setBlock i b).tbs = k.tbs := rfl
@[simp] theorem Core.setBlock_sessions (k : Core) (i : Nat) (b : Block) : (k.setBlock i b).sessions = k.sessions := rfl
@[simp] theorem Core.setBlock_walks (k : Core) (i : Nat) (b : Block) : (k.setBlock i b).walks = k.walks := rfl
@[simp] theorem Core.setBlock_exvs (k : Core) (i : Nat) (b : Block) : (k.setBlock i b).exvs = k.exvs := rfl
@[simp] theorem Core.setBlock_midways (k : Core) (i : Nat) (b : Block) : (k.setBlock i b).midways = k.midways := rfl
@[simp] theorem Core.setBlock_refused (k : Core) (i : Nat) (b : Block) : (k.setBlock i b).refused = k.refused := rfl
@[simp] theorem Core.setBlock_wins (k : Core) (i : Nat) (b : Block) : (k.setBlock i b).wins = k.wins := rfl
@[simp] theorem Core.setBlock_stash (k : Core) (i : Nat) (b : Block) : (k.setBlock i b).stash = k.stash := rfl
@[simp] theorem Core.setBlock_rown (k : Core) (i : Nat) (b : Block) : (k.setBlock i b).rown = k.rown := rfl
@[simp] theorem Core.setBlock_l1 (k : Core) (i : Nat) (b : Block) : (k.setBlock i b).l1 = k.l1 := rfl
@[simp] theorem Core.setBlock_gcache (k : Core) (i : Nat) (b : Block) : (k.setBlock i b).gcache = k.gcache := rfl
@[simp] theorem Core.setBlock_hits (k : Core) (i : Nat) (b : Block) : (k.setBlock i b).hits = k.hits := rfl
@[simp] theorem Core.setBlock_agent (k : Core) (i : Nat) (b : Block) : (k.setBlock i b).agent = k.agent := rfl
@[simp] theorem Core.setBlock_ddata (k : Core) (i : Nat) (b : Block) : (k.setBlock i b).ddata = k.ddata := rfl
@[simp] theorem Core.setBlock_dstat (k : Core) (i : Nat) (b : Block) : (k.setBlock i b).dstat = k.dstat := rfl
@[simp] theorem Core.setBlock_trcbase (k : Core) (i : Nat) (b : Block) : (k.setBlock i b).trcbase = k.trcbase := rfl
@[simp] theorem Core.setBlock_trclen (k : Core) (i : Nat) (b : Block) : (k.setBlock i b).trclen = k.trclen := rfl
@[simp] theorem Core.setBlock_trcptr (k : Core) (i : Nat) (b : Block) : (k.setBlock i b).trcptr = k.trcptr := rfl
@[simp] theorem Core.setBlock_trcctl (k : Core) (i : Nat) (b : Block) : (k.setBlock i b).trcctl = k.trcctl := rfl
@[simp] theorem Core.setBlock_trq (k : Core) (i : Nat) (b : Block) : (k.setBlock i b).trq = k.trq := rfl
@[simp] theorem Core.setBlock_trclost (k : Core) (i : Nat) (b : Block) : (k.setBlock i b).trclost = k.trclost := rfl
@[simp] theorem Core.setBlock_elig (k : Core) (i : Nat) (b : Block) : (k.setBlock i b).elig = k.elig := rfl
@[simp] theorem Core.setBlock_stallc (k : Core) (i : Nat) (b : Block) : (k.setBlock i b).stallc = k.stallc := rfl
@[simp] theorem Core.setBlock_issue (k : Core) (i : Nat) (b : Block) : (k.setBlock i b).issue = k.issue := rfl
@[simp] theorem Core.setBlock_gerr (k : Core) (i : Nat) (b : Block) : (k.setBlock i b).gerr = k.gerr := rfl
@[simp] theorem Core.setBlock_whits (k : Core) (i : Nat) (b : Block) : (k.setBlock i b).whits = k.whits := rfl
@[simp] theorem Core.setBlock_cyc (k : Core) (i : Nat) (b : Block) : (k.setBlock i b).cyc = k.cyc := rfl
@[simp] theorem Core.setBlock_eligN (k : Core) (i : Nat) (b : Block) : (k.setBlock i b).eligN = k.eligN := rfl
@[simp] theorem Core.setBlock_nextAge (k : Core) (i : Nat) (b : Block) : (k.setBlock i b).nextAge = k.nextAge := rfl
@[simp] theorem Core.setBlock_nextBoost (k : Core) (i : Nat) (b : Block) : (k.setBlock i b).nextBoost = k.nextBoost := rfl

/-! `Core.setSeq` -/

@[simp] theorem Core.setSeq_quads (k : Core) (i : Nat) (q : Seq) : (k.setSeq i q).quads = k.quads := rfl
@[simp] theorem Core.setSeq_slots (k : Core) (i : Nat) (q : Seq) : (k.setSeq i q).slots = k.slots := rfl
@[simp] theorem Core.setSeq_blocks (k : Core) (i : Nat) (q : Seq) : (k.setSeq i q).blocks = k.blocks := rfl
@[simp] theorem Core.setSeq_lslots (k : Core) (i : Nat) (q : Seq) : (k.setSeq i q).lslots = k.lslots := rfl
@[simp] theorem Core.setSeq_leases (k : Core) (i : Nat) (q : Seq) : (k.setSeq i q).leases = k.leases := rfl
@[simp] theorem Core.setSeq_accs (k : Core) (i : Nat) (q : Seq) : (k.setSeq i q).accs = k.accs := rfl
@[simp] theorem Core.setSeq_engTurn (k : Core) (i : Nat) (q : Seq) : (k.setSeq i q).engTurn = k.engTurn := rfl
@[simp] theorem Core.setSeq_engBusy (k : Core) (i : Nat) (q : Seq) : (k.setSeq i q).engBusy = k.engBusy := rfl
@[simp] theorem Core.setSeq_reqs (k : Core) (i : Nat) (q : Seq) : (k.setSeq i q).reqs = k.reqs := rfl
@[simp] theorem Core.setSeq_stores (k : Core) (i : Nat) (q : Seq) : (k.setSeq i q).stores = k.stores := rfl
@[simp] theorem Core.setSeq_puts (k : Core) (i : Nat) (q : Seq) : (k.setSeq i q).puts = k.puts := rfl
@[simp] theorem Core.setSeq_dqs (k : Core) (i : Nat) (q : Seq) : (k.setSeq i q).dqs = k.dqs := rfl
@[simp] theorem Core.setSeq_tbs (k : Core) (i : Nat) (q : Seq) : (k.setSeq i q).tbs = k.tbs := rfl
@[simp] theorem Core.setSeq_sessions (k : Core) (i : Nat) (q : Seq) : (k.setSeq i q).sessions = k.sessions := rfl
@[simp] theorem Core.setSeq_walks (k : Core) (i : Nat) (q : Seq) : (k.setSeq i q).walks = k.walks := rfl
@[simp] theorem Core.setSeq_exvs (k : Core) (i : Nat) (q : Seq) : (k.setSeq i q).exvs = k.exvs := rfl
@[simp] theorem Core.setSeq_midways (k : Core) (i : Nat) (q : Seq) : (k.setSeq i q).midways = k.midways := rfl
@[simp] theorem Core.setSeq_refused (k : Core) (i : Nat) (q : Seq) : (k.setSeq i q).refused = k.refused := rfl
@[simp] theorem Core.setSeq_wins (k : Core) (i : Nat) (q : Seq) : (k.setSeq i q).wins = k.wins := rfl
@[simp] theorem Core.setSeq_stash (k : Core) (i : Nat) (q : Seq) : (k.setSeq i q).stash = k.stash := rfl
@[simp] theorem Core.setSeq_rown (k : Core) (i : Nat) (q : Seq) : (k.setSeq i q).rown = k.rown := rfl
@[simp] theorem Core.setSeq_l1 (k : Core) (i : Nat) (q : Seq) : (k.setSeq i q).l1 = k.l1 := rfl
@[simp] theorem Core.setSeq_gcache (k : Core) (i : Nat) (q : Seq) : (k.setSeq i q).gcache = k.gcache := rfl
@[simp] theorem Core.setSeq_hits (k : Core) (i : Nat) (q : Seq) : (k.setSeq i q).hits = k.hits := rfl
@[simp] theorem Core.setSeq_agent (k : Core) (i : Nat) (q : Seq) : (k.setSeq i q).agent = k.agent := rfl
@[simp] theorem Core.setSeq_ddata (k : Core) (i : Nat) (q : Seq) : (k.setSeq i q).ddata = k.ddata := rfl
@[simp] theorem Core.setSeq_dstat (k : Core) (i : Nat) (q : Seq) : (k.setSeq i q).dstat = k.dstat := rfl
@[simp] theorem Core.setSeq_trcbase (k : Core) (i : Nat) (q : Seq) : (k.setSeq i q).trcbase = k.trcbase := rfl
@[simp] theorem Core.setSeq_trclen (k : Core) (i : Nat) (q : Seq) : (k.setSeq i q).trclen = k.trclen := rfl
@[simp] theorem Core.setSeq_trcptr (k : Core) (i : Nat) (q : Seq) : (k.setSeq i q).trcptr = k.trcptr := rfl
@[simp] theorem Core.setSeq_trcctl (k : Core) (i : Nat) (q : Seq) : (k.setSeq i q).trcctl = k.trcctl := rfl
@[simp] theorem Core.setSeq_trq (k : Core) (i : Nat) (q : Seq) : (k.setSeq i q).trq = k.trq := rfl
@[simp] theorem Core.setSeq_trclost (k : Core) (i : Nat) (q : Seq) : (k.setSeq i q).trclost = k.trclost := rfl
@[simp] theorem Core.setSeq_elig (k : Core) (i : Nat) (q : Seq) : (k.setSeq i q).elig = k.elig := rfl
@[simp] theorem Core.setSeq_stallc (k : Core) (i : Nat) (q : Seq) : (k.setSeq i q).stallc = k.stallc := rfl
@[simp] theorem Core.setSeq_issue (k : Core) (i : Nat) (q : Seq) : (k.setSeq i q).issue = k.issue := rfl
@[simp] theorem Core.setSeq_gerr (k : Core) (i : Nat) (q : Seq) : (k.setSeq i q).gerr = k.gerr := rfl
@[simp] theorem Core.setSeq_whits (k : Core) (i : Nat) (q : Seq) : (k.setSeq i q).whits = k.whits := rfl
@[simp] theorem Core.setSeq_cyc (k : Core) (i : Nat) (q : Seq) : (k.setSeq i q).cyc = k.cyc := rfl
@[simp] theorem Core.setSeq_eligN (k : Core) (i : Nat) (q : Seq) : (k.setSeq i q).eligN = k.eligN := rfl
@[simp] theorem Core.setSeq_nextAge (k : Core) (i : Nat) (q : Seq) : (k.setSeq i q).nextAge = k.nextAge := rfl
@[simp] theorem Core.setSeq_nextBoost (k : Core) (i : Nat) (q : Seq) : (k.setSeq i q).nextBoost = k.nextBoost := rfl

/-! `Team.put` -/

@[simp] theorem Team.put_block (t : Team) (ws : List Wr) : (t.put ws).block = t.block := rfl
@[simp] theorem Team.put_num (t : Team) (ws : List Wr) : (t.put ws).num = t.num := rfl
@[simp] theorem Team.put_quad (t : Team) (ws : List Wr) : (t.put ws).quad = t.quad := rfl
@[simp] theorem Team.put_n (t : Team) (ws : List Wr) : (t.put ws).n = t.n := rfl
@[simp] theorem Team.put_nregs (t : Team) (ws : List Wr) : (t.put ws).nregs = t.nregs := rfl
@[simp] theorem Team.put_m (t : Team) (ws : List Wr) : (t.put ws).m = t.m := rfl
@[simp] theorem Team.put_xwin (t : Team) (ws : List Wr) : (t.put ws).xwin = t.xwin := rfl
@[simp] theorem Team.put_regionPc (t : Team) (ws : List Wr) : (t.put ws).regionPc = t.regionPc := rfl
@[simp] theorem Team.put_regionMask (t : Team) (ws : List Wr) : (t.put ws).regionMask = t.regionMask := rfl
@[simp] theorem Team.put_level (t : Team) (ws : List Wr) : (t.put ws).level = t.level := rfl
@[simp] theorem Team.put_frames (t : Team) (ws : List Wr) : (t.put ws).frames = t.frames := rfl
@[simp] theorem Team.put_saves (t : Team) (ws : List Wr) : (t.put ws).saves = t.saves := rfl
@[simp] theorem Team.put_record (t : Team) (ws : List Wr) : (t.put ws).record = t.record := rfl
@[simp] theorem Team.put_serials (t : Team) (ws : List Wr) : (t.put ws).serials = t.serials := rfl
@[simp] theorem Team.put_seq (t : Team) (ws : List Wr) : (t.put ws).seq = t.seq := rfl
@[simp] theorem Team.put_flying (t : Team) (ws : List Wr) : (t.put ws).flying = t.flying := rfl
@[simp] theorem Team.put_strict (t : Team) (ws : List Wr) : (t.put ws).strict = t.strict := rfl
@[simp] theorem Team.put_mode (t : Team) (ws : List Wr) : (t.put ws).mode = t.mode := rfl
@[simp] theorem Team.put_stops (t : Team) (ws : List Wr) : (t.put ws).stops = t.stops := rfl
@[simp] theorem Team.put_arrival (t : Team) (ws : List Wr) : (t.put ws).arrival = t.arrival := rfl
@[simp] theorem Team.put_busy (t : Team) (ws : List Wr) : (t.put ws).busy = t.busy := rfl
@[simp] theorem Team.put_ctxBase (t : Team) (ws : List Wr) : (t.put ws).ctxBase = t.ctxBase := rfl
@[simp] theorem Team.put_age (t : Team) (ws : List Wr) : (t.put ws).age = t.age := rfl
@[simp] theorem Team.put_prio (t : Team) (ws : List Wr) : (t.put ws).prio = t.prio := rfl
@[simp] theorem Team.put_saved (t : Team) (ws : List Wr) : (t.put ws).saved = t.saved := rfl
@[simp] theorem Team.put_drains (t : Team) (ws : List Wr) : (t.put ws).drains = t.drains := rfl

/-! ## What an update reads back -/

/-- A list reads back what was put into it. -/
theorem getD_set_same {α : Type} {xs : List α} {i : Nat} (h : i < xs.length) (x d : α) : ((xs.set i x)[i]?).getD d = x := by
  simp [h]

/-- A list reads elsewhere what it read before. -/
theorem getD_set_other {α : Type} (xs : List α) {i j : Nat} (h : i ≠ j) (x d : α) : ((xs.set i x)[j]?).getD d = (xs[j]?).getD d := by
  simp [h]

theorem State.core_setCore {s : State} {c : Nat} (h : c < s.cores.length) (k : Core) : (s.setCore c k).core c = k := getD_set_same h k _
theorem State.core_setCore_other (s : State) {c d : Nat} (h : c ≠ d) (k : Core) : (s.setCore c k).core d = s.core d := getD_set_other _ h k _
@[simp] theorem State.setCore_length (s : State) (c : Nat) (k : Core) : (s.setCore c k).cores.length = s.cores.length := by simp [State.setCore]
@[simp] theorem State.core_bump (s : State) (c : Nat) : s.bump.core c = s.core c := rfl
@[simp] theorem State.core_setSlice (s : State) (i : Nat) (x : Slice) (c : Nat) : (s.setSlice i x).core c = s.core c := rfl
@[simp] theorem State.core_setPart (s : State) (i : Nat) (x : Part) (c : Nat) : (s.setPart i x).core c = s.core c := rfl
@[simp] theorem State.core_count (s : State) (i j n c : Nat) : (s.count i j n).core c = s.core c := rfl
@[simp] theorem State.slice_setCore (s : State) (c : Nat) (k : Core) (i : Nat) : (s.setCore c k).slice i = s.slice i := rfl
@[simp] theorem State.part_setCore (s : State) (c : Nat) (k : Core) (i : Nat) : (s.setCore c k).part i = s.part i := rfl
@[simp] theorem State.slice_bump (s : State) (i : Nat) : s.bump.slice i = s.slice i := rfl
@[simp] theorem State.part_bump (s : State) (i : Nat) : s.bump.part i = s.part i := rfl
@[simp] theorem State.part_setSlice (s : State) (i : Nat) (x : Slice) (j : Nat) : (s.setSlice i x).part j = s.part j := rfl
@[simp] theorem State.slice_setPart (s : State) (i : Nat) (x : Part) (j : Nat) : (s.setPart i x).slice j = s.slice j := rfl
theorem State.slice_setSlice {s : State} {i : Nat} (h : i < s.slices.length) (x : Slice) : (s.setSlice i x).slice i = x := getD_set_same h x _
theorem State.slice_setSlice_other (s : State) {i j : Nat} (h : i ≠ j) (x : Slice) : (s.setSlice i x).slice j = s.slice j := getD_set_other _ h x _
theorem State.part_setPart {s : State} {i : Nat} (h : i < s.parts.length) (x : Part) : (s.setPart i x).part i = x := getD_set_same h x _
theorem State.part_setPart_other (s : State) {i j : Nat} (h : i ≠ j) (x : Part) : (s.setPart i x).part j = s.part j := getD_set_other _ h x _

theorem Core.team_setTeam {k : Core} {i : Nat} (h : i < k.slots.length) (t : Team) : (k.setTeam i t).team? i = some t := getD_set_same h _ _
theorem Core.team_setTeam_other (k : Core) {i j : Nat} (h : i ≠ j) (t : Team) : (k.setTeam i t).team? j = k.team? j := getD_set_other _ h _ _
@[simp] theorem Core.team_setEntry (k : Core) (q e : Nat) (x : Entry) (i : Nat) : (k.setEntry q e x).team? i = k.team? i := rfl
@[simp] theorem Core.entry_setTeam (k : Core) (i : Nat) (t : Team) (q e : Nat) : (k.setTeam i t).entry q e = k.entry q e := rfl
@[simp] theorem Core.block_setTeam (k : Core) (i : Nat) (t : Team) (b : Nat) : (k.setTeam i t).block? b = k.block? b := rfl
@[simp] theorem Core.block_setEntry (k : Core) (q e : Nat) (x : Entry) (b : Nat) : (k.setEntry q e x).block? b = k.block? b := rfl
theorem Core.block_setBlock {k : Core} {i : Nat} (h : i < k.blocks.length) (b : Block) : (k.setBlock i b).block? i = some b := getD_set_same h _ _

/-- A quadrant that exists reads back the entry put into it. -/
theorem Core.entry_setEntry {k : Core} {q e : Nat} (hq : q < k.quads.length) (he : e < (k.quad q).length) (x : Entry) :
    (k.setEntry q e x).entry q e = x := by
  unfold Core.entry Core.quad Core.setEntry
  simp only [getD_set_same hq]
  exact getD_set_same he x _

theorem Core.entry_setEntry_other (k : Core) {q e r f : Nat} (h : q ≠ r ∨ e ≠ f) (x : Entry) :
    (k.setEntry q e x).entry r f = k.entry r f := by
  unfold Core.entry Core.quad Core.setEntry
  by_cases hqr : q = r
  · subst hqr
    have hef : e ≠ f := by rcases h with h | h; exact absurd rfl h; exact h
    by_cases hq : q < k.quads.length
    · simp only [getD_set_same hq]; exact getD_set_other _ hef x _
    · simp [List.set_eq_of_length_le (Nat.le_of_not_lt hq)]
  · simp only [getD_set_other _ hqr]

/-- The mode of an outcome does not change what it is. -/
@[simp] theorem mapNext_next (f : State → State) (s : State) : mapNext f (.next s) = .next (f s) := rfl
@[simp] theorem mapNext_fault (f : State → State) (r : Fault) : mapNext f (.fault r) = .fault r := rfl
@[simp] theorem mapNext_refused (f : State → State) (r : Refusal) : mapNext f (.refused r) = .refused r := rfl
@[simp] theorem ifDue_next (s : State) : ifDue (.next s) = some (.next s) := rfl
@[simp] theorem ifDue_refused (r : Refusal) : ifDue (.refused r) = none := rfl

end Sys2Proof.Machine
end

