-- ==== Sys2Proof/Laws/Issue.lean ====
section
/-! SUPPORT. What issuing an instruction comes to for a fragment with nothing in its way. -/

namespace Sys2Proof.Machine

theorem Core.entry_pend {k : Core} {q e : Nat} (h : (k.quad q).all (fun x => x.pend.isEmpty) = true) : (k.entry q e).pend = [] := by
  unfold Core.entry
  cases hx : (k.quad q)[e]? with
  | none => rfl
  | some x =>
    have := List.all_eq_true.mp h x (List.mem_of_getElem? hx)
    simpa using this

/-- No other fragment of the quadrant has a pending write. -/
theorem Cx.otherPends_quiet (s : State) (c q e : Nat) (t : Team) (h : ((s.core c).quad q).all (fun x => x.pend.isEmpty) = true) :
    (Cx.at s c q e t).otherPends = [] := by
  unfold Cx.otherPends
  rw [List.flatten_eq_nil_iff]
  intro l hl
  obtain ⟨i, hi, rfl⟩ := List.mem_mapIdx.mp hl
  split
  · have := List.all_eq_true.mp h _ (List.getElem_mem hi)
    simpa using this
  · rfl

/-- `withFrag` gives the context of a quiet fragment. -/
theorem withFrag_quiet {s : State} {c q e : Nat} {t : Team} (h : Quiet s c q e t) (f : Cx → Out) :
    withFrag s f = f (Cx.at s c q e t) := by
  obtain ⟨hc, -, -, -, ht, hp, -, -, -, hm⟩ := h
  have hx := Core.entry_pend (e := e) hp
  unfold withFrag
  rw [hc]
  simp only [ht, hm, hx, List.filter_nil, Team.commit, List.foldl_nil]
  congr 2
  rw [← hx]

/-- The scoreboard lets a quiet fragment go (R60, R149, R202, R331). -/
theorem Cx.hold_quiet {s : State} {c q e : Nat} {t : Team} (h : Quiet s c q e t) (rds wrs : List RegRef) :
    (Cx.at s c q e t).hold rds wrs = .go := by
  obtain ⟨-, -, -, -, -, hp, hb, hl, -⟩ := h
  have hx := Core.entry_pend (e := e) hp
  unfold Cx.hold
  rw [Cx.otherPends_quiet s c q e t hp]
  simp [hx, hb, hl]

theorem Cx.yieldTo_quiet {s : State} {c q e : Nat} {t : Team} (h : Quiet s c q e t) (wrs : List RegRef) :
    (Cx.at s c q e t).yieldTo wrs = Cx.at s c q e t := by
  have hx := Core.entry_pend (e := e) h.2.2.2.2.2.1
  unfold Cx.yieldTo
  simp only [hx, List.filter_nil, Team.commit, List.foldl_nil]
  congr 1
  rw [← hx]

theorem Cx.join_quiet {s : State} {c q e : Nat} {t : Team} (h : Quiet s c q e t) (rds : List RegRef) :
    (Cx.at s c q e t).join s rds = Cx.at s c q e t := by
  unfold Cx.join
  simp [h.2.2.2.2.2.2.2.2.1]

/-- Issue by a quiet fragment is the instruction's own effect. -/
theorem issue_quiet {s : State} {c q e : Nat} {t : Team} (h : Quiet s c q e t) (rds wrs : Cx → List RegRef) (f : Cx → Out) :
    issue s rds wrs f = f (Cx.at s c q e t) := by
  have hm : ((Cx.at s c q e t).k.midway? (Cx.at s c q e t).x) = none := h.2.2.2.2.2.2.2.2.2
  unfold issue
  rw [withFrag_quiet h]
  simp only [hm, Option.isSome_none, Bool.false_eq_true, if_false, Cx.hold_quiet h, Cx.yieldTo_quiet h, Cx.join_quiet h]

theorem Cx.close_quiet {s : State} {c q e : Nat} {t : Team} (h : Quiet s c q e t) : (Cx.at s c q e t).close = some (Cx.at s c q e t) := by
  have hx := Core.entry_pend (e := e) h.2.2.2.2.2.1
  unfold Cx.close
  simp only [hx, List.all_nil, if_true, Team.commit, List.foldl_nil]
  congr 2
  rw [← hx]

/-- An instruction that closes the windows has nothing to close in a quiet fragment: it acts, or passes. -/
theorem issueClosed_quiet {s : State} {c q e : Nat} {t : Team} (h : Quiet s c q e t) (len : Nat) (acts : Cx → Bool) (rds wrs : Cx → List RegRef)
    (f : Cx → Cx → Out) : issueClosed s len acts rds wrs f =
      if acts (Cx.at s c q e t) then f (Cx.at s c q e t) (Cx.at s c q e t) else .next ((Cx.at s c q e t).next s len) := by
  unfold issueClosed
  rw [issue_quiet h]
  simp only [Cx.closing, Cx.close_quiet h]

theorem Core.slot_lt {k : Core} {i : Nat} {t : Team} (h : k.team? i = some t) : i < k.slots.length := by
  unfold Core.team? at h
  by_contra hn
  rw [List.getElem?_eq_none (by omega)] at h
  cases h

/-- A plain fragment's instruction ends: its entry and team are put back and nothing else changes. -/
theorem Cx.next_plain {s : State} {c q e : Nat} {t : Team} (h : Plain s c q e t) (t' : Team) (len : Nat) :
    ({ Cx.at s c q e t with t := t' } : Cx).next s len = s.after c q e (((s.core c).entry q e).passed len) t' := by
  obtain ⟨⟨-, -, hq, he, -, hp, -⟩, hi, hm⟩ := h
  have hx := Core.entry_pend (e := e) hp
  simp only [Cx.next, Cx.finish, Cx.core, Cx.slot, Core.meet, Core.entry_setTeam, Core.entry_setEntry hq he, hi, hm, hx, tickPends,
    List.map_nil, ne_eq, not_false_eq_true, and_self, if_true]
  simp only [State.after, Entry.passed, hi]

theorem Cx.write_plain {s : State} {c q e : Nat} {t : Team} (h : Plain s c q e t) (len : Nat) (ws : List Wr) :
    (Cx.at s c q e t).write s len ws = s.after c q e (((s.core c).entry q e).passed len) (t.put ws) := Cx.next_plain h _ len

/-- With lookahead 0 a long-latency result is written at once (R60). -/
theorem Cx.writeLate_plain {s : State} {c q e : Nat} {t : Team} (h : Plain s c q e t) (len : Nat) (dests : List RegRef) (ws : List Wr) :
    (Cx.at s c q e t).writeLate s len 0 dests ws = s.after c q e (((s.core c).entry q e).passed len) (t.put ws) := Cx.write_plain h len ws

/-- With lookahead n the result waits in the entry for n followers (R60). -/
theorem Cx.writeLate_window {s : State} {c q e : Nat} {t : Team} (h : Plain s c q e t) (len la : Nat) (hla : la ≠ 0) (dests : List RegRef)
    (ws : List Wr) :
    (Cx.at s c q e t).writeLate s len la dests ws =
      s.after c q e { ((s.core c).entry q e).passed len with pend := [⟨0, dests, ws, la, true⟩] } t := by
  obtain ⟨⟨-, -, hq, he, -, hp, -⟩, hi, hm⟩ := h
  have hx := Core.entry_pend (e := e) hp
  simp only [Cx.writeLate, hla, if_false, Cx.core, Cx.slot, Core.meet, Core.entry_setTeam, Core.entry_setEntry hq he, hi, hm, hx, tickPends,
    List.map_nil, List.nil_append, ne_eq, not_false_eq_true, and_self, if_true]

end Sys2Proof.Machine
end

