-- ==== Sys2Proof/Laws/Memory.lean ====
section
/-! SUPPORT. Laws of byte storage: what a byte reads as after a write, and that every operation keeps the canonical form. -/

namespace Sys2Proof.Machine

/-- Every address listed is above a bound. -/
def memAbove (b : Nat) (m : List Host.Cell) : Prop := ∀ c ∈ m, b < c.1

theorem memWf_tail {c : Host.Cell} {m : List Host.Cell} (h : memWf (c :: m) = true) : memWf m = true := by
  cases m with
  | nil => rfl
  | cons d m => obtain ⟨a, x⟩ := c; obtain ⟨b, y⟩ := d; simp [memWf] at h; exact h.2

theorem memWf_head {a : Nat} {x : Byte} {m : List Host.Cell} (h : memWf ((a, x) :: m) = true) : x ≠ Config.blankByte := by
  cases m with
  | nil => simpa [memWf] using h
  | cons d m => obtain ⟨b, y⟩ := d; simp [memWf] at h; exact h.1.1

theorem memWf_above {a : Nat} {x : Byte} {m : List Host.Cell} (h : memWf ((a, x) :: m) = true) : memAbove a m := by
  induction m generalizing a x with
  | nil => intro c hc; cases hc
  | cons d m ih =>
    obtain ⟨b, y⟩ := d
    have ht := memWf_tail h
    simp [memWf] at h
    intro c hc
    rcases List.mem_cons.mp hc with rfl | hc
    · exact h.1.2
    · exact Nat.lt_trans h.1.2 (ih ht c hc)

theorem memWf_cons {a : Nat} {x : Byte} {m : List Host.Cell} (hx : x ≠ Config.blankByte) (ha : memAbove a m) (hm : memWf m = true) :
    memWf ((a, x) :: m) = true := by
  cases m with
  | nil => simpa [memWf] using hx
  | cons d m => obtain ⟨b, y⟩ := d; simp [memWf]; exact ⟨⟨hx, ha (b, y) (List.mem_cons_self ..)⟩, hm⟩

theorem memPut_above {b a : Nat} {v : Byte} {m : List Host.Cell} (hb : b < a) (hm : memAbove b m) : memAbove b (memPut m a v) := by
  induction m with
  | nil => intro c hc; unfold memPut at hc; split at hc <;> simp at hc; subst hc; exact hb
  | cons d m ih =>
    obtain ⟨e, y⟩ := d
    have hr : memAbove b m := fun c hc => hm c (List.mem_cons_of_mem _ hc)
    have he : b < e := hm (e, y) (List.mem_cons_self ..)
    intro c hc
    unfold memPut at hc
    split at hc
    · split at hc
      · exact hm c hc
      · rcases List.mem_cons.mp hc with rfl | hc
        · exact hb
        · exact hm c hc
    · split at hc
      · split at hc
        · exact hr c hc
        · rcases List.mem_cons.mp hc with rfl | hc
          · exact hb
          · exact hr c hc
      · rcases List.mem_cons.mp hc with rfl | hc
        · exact he
        · exact ih hr c hc

/-- Writing a byte keeps the canonical form. -/
theorem memPut_wf {m : List Host.Cell} (a : Nat) (v : Byte) (h : memWf m = true) : memWf (memPut m a v) = true := by
  induction m with
  | nil => unfold memPut; split <;> simp_all [memWf]
  | cons d m ih =>
    obtain ⟨b, x⟩ := d
    have hx := memWf_head h
    have ht := memWf_tail h
    have hb := memWf_above h
    unfold memPut
    split
    · rename_i hab
      split
      · exact h
      · rename_i hv
        refine memWf_cons hv (fun c hc => ?_) h
        rcases List.mem_cons.mp hc with rfl | hc
        · exact hab
        · exact Nat.lt_trans hab (hb c hc)
    · split
      · rename_i hab
        split
        · exact ht
        · rename_i hv; subst hab; exact memWf_cons hv hb ht
      · rename_i h1 h2
        exact memWf_cons hx (memPut_above (by omega) hb) (ih ht)

theorem memPutBytes_wf {m : List Host.Cell} (a : Nat) (vs : List Byte) (h : memWf m = true) : memWf (memPutBytes m a vs) = true := by
  induction vs generalizing m a with
  | nil => exact h
  | cons v vs ih => exact ih (a + 1) (memPut_wf a v h)

theorem memPutNat_wf {m : List Host.Cell} (a n x : Nat) (h : memWf m = true) : memWf (memPutNat m a n x) = true :=
  memPutBytes_wf a _ h

theorem memPutMasked_wf {m : List Host.Cell} (a : Nat) (mask : Word) (x : Sector) (h : memWf m = true) :
    memWf (memPutMasked m a mask x) = true := by
  unfold memPutMasked
  suffices hs : ∀ (l : List Nat) (m : List Host.Cell), memWf m = true →
      memWf (l.foldl (fun m i => if mask.getLsbD i then memPut m (a + i) (x.extractLsb' (8 * i) 8) else m) m) = true from hs _ m h
  intro l
  induction l with
  | nil => intro m h; exact h
  | cons i l ih =>
    intro m h
    simp only [List.foldl_cons]
    apply ih
    split
    · exact memPut_wf _ _ h
    · exact h

/-- A listed address below every other reads as unlisted elsewhere. -/
theorem memGet_below {b : Nat} {m : List Host.Cell} (h : memAbove b m) {a : Nat} (ha : a ≤ b) : memGet m a = Config.blankByte := by
  induction m with
  | nil => rfl
  | cons d m ih =>
    obtain ⟨e, y⟩ := d
    have he : b < e := h (e, y) (List.mem_cons_self ..)
    have hr : memAbove b m := fun c hc => h c (List.mem_cons_of_mem _ hc)
    unfold memGet
    rw [if_neg (by omega)]
    exact ih hr

/-- A byte just written reads back. -/
theorem memGet_memPut_same {m : List Host.Cell} (a : Nat) (v : Byte) (h : memWf m = true) : memGet (memPut m a v) a = v := by
  induction m with
  | nil => unfold memPut; split <;> simp_all [memGet]
  | cons d m ih =>
    obtain ⟨b, x⟩ := d
    have ht := memWf_tail h
    have hb := memWf_above h
    unfold memPut
    split
    · rename_i hab
      split
      · rename_i hv
        have : memGet ((b, x) :: m) a = Config.blankByte := by
          unfold memGet; rw [if_neg (by omega)]; exact memGet_below hb (by omega)
        rw [this, hv]
      · simp [memGet]
    · split
      · rename_i hab
        subst hab
        split
        · rename_i hv; rw [hv]; exact memGet_below hb (Nat.le_refl _)
        · simp [memGet]
      · rename_i h1 h2
        unfold memGet
        rw [if_neg h2]
        exact ih ht

/-- A write leaves every other byte alone. -/
theorem memGet_memPut_other {m : List Host.Cell} (a : Nat) (v : Byte) {c : Nat} (hc : c ≠ a) :
    memGet (memPut m a v) c = memGet m c := by
  induction m with
  | nil => unfold memPut; split <;> simp [memGet, hc]
  | cons d m ih =>
    obtain ⟨b, x⟩ := d
    unfold memPut
    split
    · split
      · rfl
      · simp [memGet, hc]
    · split
      · rename_i hab
        subst hab
        split
        · simp [memGet, hc]
        · simp [memGet, hc]
      · unfold memGet
        split
        · rfl
        · exact ih

/-- Reset memory is in canonical form. -/
theorem reset_mem_wf : Memory.wf State.reset.mem = true := rfl

end Sys2Proof.Machine
end

