-- ==== Sys2Proof/Laws/Regs.lean ====
section
/-! SUPPORT. What a list of writes does to a team, and what an instruction that only reads and writes registers comes to. -/

namespace Sys2Proof.Machine

/-! ## One write, a list of writes -/

theorem setBit8_other (x : BitVec 8) (i j : Nat) (b : Bool) (hij : i ≠ j) : (setBit8 x i b).getLsbD j = x.getLsbD j := by
  by_cases hj : j < 8
  · unfold setBit8
    have h2 : (BitVec.ofNat 8 (2 ^ i)).getLsbD j = false := by
      rw [BitVec.getLsbD_ofNat, Nat.testBit_two_pow]
      simp [hij]
    split
    · rw [BitVec.getLsbD_or, h2, Bool.or_false]
    · rw [BitVec.getLsbD_and, BitVec.getLsbD_not, h2]; simp [hj]
  · rw [BitVec.getLsbD_of_ge _ j (by omega), BitVec.getLsbD_of_ge _ j (by omega)]

theorem setBit8_same (x : BitVec 8) (i : Nat) (b : Bool) (hi : i < 8) : (setBit8 x i b).getLsbD i = b := by
  unfold setBit8
  have h2 : (BitVec.ofNat 8 (2 ^ i)).getLsbD i = true := by
    rw [BitVec.getLsbD_ofNat, Nat.testBit_two_pow]
    simp [hi]
  split
  · rw [BitVec.getLsbD_or, h2, Bool.or_true]; simp_all
  · rw [BitVec.getLsbD_and, BitVec.getLsbD_not, h2]; simp_all

/-- A write leaves alone every register it does not name, and flags only rise. -/
theorem Lane.put_frame (L : Nat) (l : Lane) (w : Wr) :
    (∀ r, w.ref? ≠ some (.v L r) → (Lane.put L l w).r r = l.r r) ∧
    (∀ i, w.ref? ≠ some (.p L i) → (Lane.put L l w).pr i = l.pr i) ∧
    (Lane.put L l w).stack = l.stack ∧ (Lane.put L l w).wid = l.wid ∧ (Lane.put L l w).olid = l.olid ∧
    (Lane.put L l w).team = l.team ∧ (Lane.put L l w).status &&& l.status = l.status := by
  cases w with
  | v M r x =>
    by_cases h : M = L
    · subst h
      refine ⟨fun i hi => ?_, fun _ _ => ?_, ?_, ?_, ?_, ?_, ?_⟩ <;> simp_all [Lane.put, Lane.r, Lane.pr, Wr.ref?]
    · simp [Lane.put, h]
  | p M i b =>
    by_cases h : M = L ∧ i < 7
    · obtain ⟨rfl, hi⟩ := h
      refine ⟨fun _ _ => ?_, fun j hj => ?_, ?_, ?_, ?_, ?_, ?_⟩ <;> simp [Lane.put, Lane.r, hi]
      simp only [Wr.ref?, Option.some.injEq, RegRef.p.injEq, true_and, ne_eq] at hj
      rw [Lane.pr, Lane.pr, setBit8_other _ _ _ _ hj]
    · simp [Lane.put, h]
  | afl M f =>
    by_cases h : M = L
    · have : Lane.put L l (.afl M f) = { l with status := addAfl l.status f } := by simp [Lane.put, h]
      rw [this]
      refine ⟨fun _ _ => rfl, fun _ _ => rfl, rfl, rfl, rfl, rfl, ?_⟩
      show addAfl l.status f &&& l.status = l.status
      unfold addAfl
      ext i
      simp only [BitVec.getElem_and, BitVec.getElem_or]
      cases l.status[i] <;> simp
    · simp [Lane.put, h]
  | g r x => simp [Lane.put]
  | gp i b => simp [Lane.put]
  | ff f => simp [Lane.put]

/-- A list of writes, the same. -/
theorem Lane.puts_frame (L : Nat) (ws : List Wr) (l : Lane) :
    (∀ r, .v L r ∉ ws.filterMap Wr.ref? → (ws.foldl (Lane.put L) l).r r = l.r r) ∧
    (∀ i, .p L i ∉ ws.filterMap Wr.ref? → (ws.foldl (Lane.put L) l).pr i = l.pr i) ∧
    (ws.foldl (Lane.put L) l).stack = l.stack ∧ (ws.foldl (Lane.put L) l).wid = l.wid ∧ (ws.foldl (Lane.put L) l).olid = l.olid ∧
    (ws.foldl (Lane.put L) l).team = l.team ∧ (ws.foldl (Lane.put L) l).status &&& l.status = l.status := by
  induction ws generalizing l with
  | nil => simp
  | cons w ws ih =>
    obtain ⟨h1, h2, h3, h4, h5, h6, h7⟩ := ih (Lane.put L l w)
    obtain ⟨g1, g2, g3, g4, g5, g6, g7⟩ := Lane.put_frame L l w
    have hm : ∀ {x : RegRef}, x ∉ (w :: ws).filterMap Wr.ref? → x ∉ ws.filterMap Wr.ref? ∧ w.ref? ≠ some x := by
      intro x hx
      simp only [List.mem_filterMap, List.mem_cons, not_exists, not_and] at hx ⊢
      exact ⟨fun a ha => hx a (.inr ha), hx w (.inl rfl)⟩
    refine ⟨fun r hr => ?_, fun i hi => ?_, h3.trans g3, h4.trans g4, h5.trans g5, h6.trans g6, ?_⟩
    · exact (h1 r (hm hr).1).trans (g1 r (hm hr).2)
    · exact (h2 i (hm hi).1).trans (g2 i (hm hi).2)
    · rw [List.foldl_cons]
      generalize (ws.foldl (Lane.put L) (Lane.put L l w)).status = a at *
      rw [← g7] at ⊢
      rw [← h7] at ⊢
      ext i
      simp only [BitVec.getElem_and]
      cases a[i] <;> simp

theorem putGs_frame (ws : List Wr) (g : List DWord) (r : Nat) (h : .g r ∉ ws.filterMap Wr.ref?) : (ws.foldl putG g)[r]? = g[r]? := by
  induction ws generalizing g with
  | nil => rfl
  | cons w ws ih =>
    simp only [List.mem_filterMap, List.mem_cons, not_exists, not_and] at h ih
    rw [List.foldl_cons, ih _ fun a ha => h a (.inr ha)]
    have := h w (.inl rfl)
    cases w <;> simp_all [putG, Wr.ref?]

theorem putGps_frame (ws : List Wr) (gp : BitVec 8) (i : Nat) (h : .gp i ∉ ws.filterMap Wr.ref?) :
    (ws.foldl putGp gp).getLsbD i = gp.getLsbD i := by
  induction ws generalizing gp with
  | nil => rfl
  | cons w ws ih =>
    simp only [List.mem_filterMap, List.mem_cons, not_exists, not_and] at h ih
    rw [List.foldl_cons, ih _ fun a ha => h a (.inr ha)]
    have := h w (.inl rfl)
    cases w with
    | gp j b =>
      simp only [Wr.ref?, Option.some.injEq, RegRef.gp.injEq] at this
      show (if j < 7 then setBit8 gp j b else gp).getLsbD i = gp.getLsbD i
      by_cases hj : j < 7
      · rw [if_pos hj]; exact setBit8_other gp j i b this
      · rw [if_neg hj]
    | _ => rfl

theorem putFfs_rise (ws : List Wr) (ff : Word) : (ws.foldl putFf ff) &&& ff = ff := by
  induction ws generalizing ff with
  | nil => simp
  | cons w ws ih =>
    have hw : putFf ff w &&& ff = ff := by
      cases w <;> simp only [putFf, BitVec.and_self]
      all_goals
        ext i
        simp only [BitVec.getElem_and, BitVec.getElem_or]
        cases ff[i] <;> simp
    have := ih (putFf ff w)
    rw [List.foldl_cons]
    generalize ws.foldl putFf (putFf ff w) = a at *
    rw [← hw, ← this]
    ext i
    simp only [BitVec.getElem_and]
    cases a[i] <;> simp

/-- Lane L of a team after a list of writes. -/
theorem Team.lane_put (t : Team) (ws : List Wr) (L : Nat) :
    (t.put ws).lane L = if L < t.lanes.length then ws.foldl (Lane.put L) (t.lane L) else Lane.none := by
  unfold Team.lane Team.put
  simp only [List.getElem?_mapIdx]
  by_cases h : L < t.lanes.length
  · simp [h]
  · simp [h]

/-- What a list of writes leaves alone in a team without a log and joins. -/
theorem Team.put_frame (t : Team) (ws : List Wr) (hl : t.log = []) (hj : t.joins = []) :
    Team.Frame t (t.put ws) (ws.filterMap Wr.ref?) := by
  refine ⟨?_, fun L r h => ?_, fun L i h => ?_, fun r h => ?_, fun i h => ?_, fun L => ?_, fun L => ?_, putFfs_rise ws t.fflags⟩
  · simp [Team.put, hl, hj, joinsWithout]
  all_goals try rw [Team.lane_put]
  · by_cases hn : L < t.lanes.length
    · rw [if_pos hn]; exact (Lane.puts_frame L ws _).1 r h
    · rw [if_neg hn]; simp [Team.lane, List.getElem?_eq_none (Nat.le_of_not_lt hn)]
  · by_cases hn : L < t.lanes.length
    · rw [if_pos hn]; exact (Lane.puts_frame L ws _).2.1 i h
    · rw [if_neg hn]; simp [Team.lane, List.getElem?_eq_none (Nat.le_of_not_lt hn)]
  · unfold Team.rg Team.put
    rw [putGs_frame ws t.g r h]
  · unfold Team.pg Team.put
    rw [putGps_frame ws t.gp i h]
  · by_cases hn : L < t.lanes.length
    · rw [if_pos hn]; obtain ⟨-, -, h1, h2, h3, -⟩ := Lane.puts_frame L ws (t.lane L); exact ⟨h1, h2, h3⟩
    · rw [if_neg hn]; simp [Team.lane, List.getElem?_eq_none (Nat.le_of_not_lt hn)]
  · by_cases hn : L < t.lanes.length
    · rw [if_pos hn]; exact (Lane.puts_frame L ws _).2.2.2.2.2.2
    · rw [if_neg hn]; simp [Team.lane, List.getElem?_eq_none (Nat.le_of_not_lt hn)]

/-- A frame over some registers is a frame over more. -/
theorem Team.Frame.mono {t t' : Team} {ds ds' : List RegRef} (h : Team.Frame t t' ds) (hs : ∀ x ∈ ds, x ∈ ds') : Team.Frame t t' ds' := by
  obtain ⟨h1, h2, h3, h4, h5, h6⟩ := h
  exact ⟨h1, fun L r hr => h2 L r fun hm => hr (hs _ hm), fun L i hi => h3 L i fun hm => hi (hs _ hm),
    fun r hr => h4 r fun hm => hr (hs _ hm), fun i hi => h5 i fun hm => hi (hs _ hm), h6⟩

/-! ## Instructions that only read and write registers -/

/-- A register instruction of a plain fragment is its writes. -/
theorem regOp_plain {s : State} {c q e : Nat} {t : Team} (h : Plain s c q e t) (cc : Ctl) (late : Bool) (len : Nat)
    (rds wrs : Nat → List RegRef) (f : Cx → Nat → List Wr) :
    regOp cc late len rds wrs f s = .next (s.wrote c q e t len (if late then cc.la.toNat else 0)
      (((Cx.at s c q e t).units cc).flatMap wrs) (((Cx.at s c q e t).units cc).flatMap (f (Cx.at s c q e t)))) := by
  unfold regOp
  rw [issue_quiet h.1]
  congr 1
  generalize (if late = true then cc.la.toNat else 0) = la
  by_cases hla : la = 0
  · subst hla
    rw [Cx.writeLate_plain h]
    simp [State.wrote]
  · rw [Cx.writeLate_window h _ _ hla]
    simp [State.wrote, hla]

/-- An instruction that acts once for a plain fragment is its writes, if its gp predicate holds, and none else. -/
theorem onceOp_plain {s : State} {c q e : Nat} {t : Team} (h : Plain s c q e t) (cc : Ctl) (late : Bool) (len : Nat)
    (rds wrs : Cx → List RegRef) (f : Cx → List Wr) :
    onceOp cc late len rds wrs f s = .next (s.wrote c q e t len (if late then cc.la.toNat else 0)
      (if (Cx.at s c q e t).takes cc then wrs (Cx.at s c q e t) else [])
      (if (Cx.at s c q e t).takes cc then f (Cx.at s c q e t) else [])) := by
  unfold onceOp
  rw [issue_quiet h.1]
  generalize (if late = true then cc.la.toNat else 0) = la
  by_cases ht : (Cx.at s c q e t).takes cc = true <;> by_cases hla : la = 0
  all_goals simp only [ht, if_true, Bool.false_eq_true, if_false]
  all_goals congr 1
  · subst hla; rw [Cx.writeLate_plain h]; simp [State.wrote]
  · rw [Cx.writeLate_window h _ _ hla]; simp [State.wrote, hla]
  · subst hla; rw [Cx.writeLate_plain h]; simp [State.wrote]
  · rw [Cx.writeLate_window h _ _ hla]; simp [State.wrote, hla]

/-- The registers a result's writes name. -/
theorem dstWr_refs (w : Bool) (L : Nat) (ext : Ext) (d : Reg) (x : Nat) :
    ∀ r ∈ (dstWr w L ext d x).filterMap Wr.ref?, r ∈ regRefs w L (decide (ext = .wide)) d := by
  unfold dstWr regRefs
  cases w <;> cases ext <;> simp [Wr.ref?]

theorem flag_ref (w : Bool) (L : Nat) (f : Flags) : (flagWr w L f).ref? = none := by cases w <;> rfl
theorem pred_ref (w : Bool) (L : Nat) (r : Reg) (b : Bool) : (predWr w L r b).ref? = some (predRef w L r) := by cases w <;> rfl

/-! Registers that the writes of each shape name. -/

theorem refs_dst {w : Bool} {L : Nat} {ext : Ext} {d : Reg} {x : Nat} {wide : Bool} (h : decide (ext = .wide) = wide) :
    ∀ r ∈ (dstWr w L ext d x).filterMap Wr.ref?, r ∈ regRefs w L wide d := by
  subst h; exact dstWr_refs w L ext d x
theorem refs_bits {w : Bool} {L : Nat} {ext : Ext} {d : Reg} {x : Nat} {fl : Flags} {wide : Bool} (h : decide (ext = .wide) = wide) :
    ∀ r ∈ (dstWr w L ext d x ++ [flagWr w L fl]).filterMap Wr.ref?, r ∈ regRefs w L wide d := by
  simpa [flag_ref] using refs_dst (w := w) (L := L) (d := d) (x := x) h
theorem refs_scan {L : Nat} {ext : Ext} {d : Reg} {x : Nat} {fl : Flags} {wide : Bool} (h : decide (ext = .wide) = wide) :
    ∀ r ∈ (dstWr false L ext d x ++ [Wr.afl L fl]).filterMap Wr.ref?, r ∈ regRefs false L wide d :=
  refs_bits (w := false) h
theorem refs_carry {w : Bool} {L : Nat} {ext : Ext} {d cc : Reg} {x : Nat} {b : Bool} (h : decide (ext = .wide) = false) :
    ∀ r ∈ (dstWr w L ext d x ++ [predWr w L cc b]).filterMap Wr.ref?, r ∈ predRef w L cc :: regRefs w L false d := by
  have := refs_dst (w := w) (L := L) (d := d) (x := x) h
  simp only [List.filterMap_append, List.filterMap_cons, List.filterMap_nil, pred_ref, List.mem_append, List.mem_cons, List.not_mem_nil, or_false]
  rintro r (hr | rfl)
  · exact .inr (this r hr)
  · exact .inl rfl
theorem refs_cmp {w : Bool} {L : Nat} {d : Reg} {b : Bool} {fl : Flags} :
    ∀ r ∈ [predWr w L d b, flagWr w L fl].filterMap Wr.ref?, r ∈ [predRef w L d] := by
  simp [pred_ref, flag_ref]
theorem refs_pred {w : Bool} {L : Nat} {d : Reg} {b : Bool} : ∀ r ∈ [predWr w L d b].filterMap Wr.ref?, r ∈ [predRef w L d] := by
  simp [pred_ref]
theorem refs_p {L d : Nat} {b : Bool} : ∀ r ∈ [Wr.p L d b].filterMap Wr.ref?, r ∈ [RegRef.p L d] := by simp [Wr.ref?]

/-- One arm of the next lemma. -/
theorem regForm_arm {s : State} {c q e : Nat} {t : Team} (h : Plain s c q e t) {i : Instr} {r r' : RegForm} (hr : some r' = some r)
    {rds : Nat → List RegRef} {f : Cx → Nat → List Wr} (hi : exec i s = regOp r'.c r'.late r'.len rds r'.dests f s)
    (hf : ∀ L, ∀ x ∈ (f (Cx.at s c q e t) L).filterMap Wr.ref?, x ∈ r'.dests L) :
    ∃ ws : Nat → List Wr, exec i s = .next (s.wrote c q e t r.len (if r.late then r.c.la.toNat else 0)
    (((Cx.at s c q e t).units r.c).flatMap r.dests) (((Cx.at s c q e t).units r.c).flatMap ws)) ∧ ∀ L, ∀ x ∈ (ws L).filterMap Wr.ref?, x ∈ r.dests L := by
  cases hr
  exact ⟨_, hi.trans (regOp_plain h _ _ _ _ _ _), hf⟩

/-- Every register form of a plain fragment is some writes, and they name only the form's destinations. -/
theorem regForm_runs {s : State} {c q e : Nat} {t : Team} (h : Plain s c q e t) {i : Instr} {r : RegForm} (hr : regForm i = some r) :
    ∃ ws : Nat → List Wr, exec i s = .next (s.wrote c q e t r.len (if r.late then r.c.la.toNat else 0)
    (((Cx.at s c q e t).units r.c).flatMap r.dests) (((Cx.at s c q e t).units r.c).flatMap ws)) ∧ ∀ L, ∀ x ∈ (ws L).filterMap Wr.ref?, x ∈ r.dests L := by
  cases i with
  | add f =>
    refine regForm_arm h hr (by simp only [exec, execAdd, intOp2]; rfl) fun L => ?_
    dsimp only; exact refs_bits (by cases f.ty <;> rfl)
  | sub f =>
    refine regForm_arm h hr (by simp only [exec, execSub, intOp2]; rfl) fun L => ?_
    dsimp only; exact refs_bits (by cases f.ty <;> rfl)
  | min f =>
    refine regForm_arm h hr (by simp only [exec, execMin, intOp2]; rfl) fun L => ?_
    dsimp only; exact refs_bits (by cases f.ty <;> rfl)
  | max f =>
    refine regForm_arm h hr (by simp only [exec, execMax, intOp2]; rfl) fun L => ?_
    dsimp only; exact refs_bits (by cases f.ty <;> rfl)
  | mul f =>
    refine regForm_arm h hr (by simp only [exec, execMul, intOp2]; rfl) fun L => ?_
    dsimp only; exact refs_bits (by cases f.ty <;> rfl)
  | mulh f =>
    refine regForm_arm h hr (by simp only [exec, execMulh, intOp2]; rfl) fun L => ?_
    dsimp only; exact refs_bits (by cases f.ty <;> rfl)
  | div f =>
    refine regForm_arm h hr (by simp only [exec, execDiv, intOp2]; rfl) fun L => ?_
    dsimp only; exact refs_bits (by cases f.ty <;> rfl)
  | rem f =>
    refine regForm_arm h hr (by simp only [exec, execRem, intOp2]; rfl) fun L => ?_
    dsimp only; exact refs_bits (by cases f.ty <;> rfl)
  | addc f =>
    refine regForm_arm h hr (by simp only [exec, execAddc, carryOp]; rfl) fun L => ?_
    dsimp only; exact refs_carry (by cases f.ty <;> rfl)
  | subb f =>
    refine regForm_arm h hr (by simp only [exec, execSubb, carryOp]; rfl) fun L => ?_
    dsimp only; exact refs_carry (by cases f.ty <;> rfl)
  | adda f =>
    refine regForm_arm h hr (by simp only [exec, execAdda]; rfl) fun L => ?_
    dsimp only; exact refs_dst rfl
  | mad f =>
    refine regForm_arm h hr (by simp only [exec, execMad]; rfl) fun L => ?_
    dsimp only; exact refs_bits (by cases f.ty <;> rfl)
  | abs f =>
    refine regForm_arm h hr (by simp only [exec, execAbs, intOp1]; rfl) fun L => ?_
    dsimp only; exact refs_bits (by cases f.ty <;> rfl)
  | neg f =>
    refine regForm_arm h hr (by simp only [exec, execNeg, intOp1]; rfl) fun L => ?_
    dsimp only; exact refs_bits (by cases f.ty <;> rfl)
  | not f =>
    refine regForm_arm h hr (by simp only [exec, execNot, bitOp1, intOp1]; rfl) fun L => ?_
    dsimp only; exact refs_bits rfl
  | popc f =>
    refine regForm_arm h hr (by simp only [exec, execPopc, bitOp1, intOp1]; rfl) fun L => ?_
    dsimp only; exact refs_bits rfl
  | clz f =>
    refine regForm_arm h hr (by simp only [exec, execClz, bitOp1, intOp1]; rfl) fun L => ?_
    dsimp only; exact refs_bits rfl
  | ctz f =>
    refine regForm_arm h hr (by simp only [exec, execCtz, bitOp1, intOp1]; rfl) fun L => ?_
    dsimp only; exact refs_bits rfl
  | brev f =>
    refine regForm_arm h hr (by simp only [exec, execBrev, bitOp1, intOp1]; rfl) fun L => ?_
    dsimp only; exact refs_bits rfl
  | and f =>
    refine regForm_arm h hr (by simp only [exec, execAnd, bitOp2, intOp2]; rfl) fun L => ?_
    dsimp only; exact refs_bits rfl
  | or f =>
    refine regForm_arm h hr (by simp only [exec, execOr, bitOp2, intOp2]; rfl) fun L => ?_
    dsimp only; exact refs_bits rfl
  | xor f =>
    refine regForm_arm h hr (by simp only [exec, execXor, bitOp2, intOp2]; rfl) fun L => ?_
    dsimp only; exact refs_bits rfl
  | andn f =>
    refine regForm_arm h hr (by simp only [exec, execAndn, bitOp2, intOp2]; rfl) fun L => ?_
    dsimp only; exact refs_bits rfl
  | shl f =>
    refine regForm_arm h hr (by simp only [exec, execShl, bitOp2, intOp2]; rfl) fun L => ?_
    dsimp only; exact refs_bits rfl
  | shr f =>
    refine regForm_arm h hr (by simp only [exec, execShr, bitOp2, intOp2]; rfl) fun L => ?_
    dsimp only; exact refs_bits rfl
  | sar f =>
    refine regForm_arm h hr (by simp only [exec, execSar, bitOp2, intOp2]; rfl) fun L => ?_
    dsimp only; exact refs_bits rfl
  | rol f =>
    refine regForm_arm h hr (by simp only [exec, execRol, bitOp2, intOp2]; rfl) fun L => ?_
    dsimp only; exact refs_bits rfl
  | ror f =>
    refine regForm_arm h hr (by simp only [exec, execRor, bitOp2, intOp2]; rfl) fun L => ?_
    dsimp only; exact refs_bits rfl
  | bfe f =>
    refine regForm_arm h hr (by simp only [exec, execBfe, intOp2]; rfl) fun L => ?_
    dsimp only; exact refs_bits (by cases f.ty <;> rfl)
  | bfi f =>
    refine regForm_arm h hr (by simp only [exec, execBfi]; rfl) fun L => ?_
    dsimp only; exact refs_dst rfl
  | pairAdd f =>
    refine regForm_arm h hr (by simp only [exec, execPairAdd, pairArith, pairOp]; rfl) fun L => ?_
    dsimp only; exact refs_bits rfl
  | pairSub f =>
    refine regForm_arm h hr (by simp only [exec, execPairSub, pairArith, pairOp]; rfl) fun L => ?_
    dsimp only; exact refs_bits rfl
  | pairMin f =>
    refine regForm_arm h hr (by simp only [exec, execPairMin, pairArith, pairOp]; rfl) fun L => ?_
    dsimp only; exact refs_bits rfl
  | pairMax f =>
    refine regForm_arm h hr (by simp only [exec, execPairMax, pairArith, pairOp]; rfl) fun L => ?_
    dsimp only; exact refs_bits rfl
  | pairShl f =>
    refine regForm_arm h hr (by simp only [exec, execPairShl, pairShift, pairOp]; rfl) fun L => ?_
    dsimp only; exact refs_bits rfl
  | pairShr f =>
    refine regForm_arm h hr (by simp only [exec, execPairShr, pairShift, pairOp]; rfl) fun L => ?_
    dsimp only; exact refs_bits rfl
  | pairSar f =>
    refine regForm_arm h hr (by simp only [exec, execPairSar, pairShift, pairOp]; rfl) fun L => ?_
    dsimp only; exact refs_bits rfl
  | pairAnd f =>
    refine regForm_arm h hr (by simp only [exec, execPairAnd, pairLogic, pairOp]; rfl) fun L => ?_
    dsimp only; exact refs_bits rfl
  | pairOr f =>
    refine regForm_arm h hr (by simp only [exec, execPairOr, pairLogic, pairOp]; rfl) fun L => ?_
    dsimp only; exact refs_bits rfl
  | pairXor f =>
    refine regForm_arm h hr (by simp only [exec, execPairXor, pairLogic, pairOp]; rfl) fun L => ?_
    dsimp only; exact refs_bits rfl
  | pairMul f =>
    refine regForm_arm h hr (by simp only [exec, execPairMul, pairArith, pairOp]; rfl) fun L => ?_
    dsimp only; exact refs_bits rfl
  | floatAdd f =>
    refine regForm_arm h hr (by simp only [exec, execFloatAdd, floatOp2]; rfl) fun L => ?_
    dsimp only; exact refs_bits (by cases f.ty <;> rfl)
  | floatSub f =>
    refine regForm_arm h hr (by simp only [exec, execFloatSub, floatOp2]; rfl) fun L => ?_
    dsimp only; exact refs_bits (by cases f.ty <;> rfl)
  | floatMul f =>
    refine regForm_arm h hr (by simp only [exec, execFloatMul, floatOp2]; rfl) fun L => ?_
    dsimp only; exact refs_bits (by cases f.ty <;> rfl)
  | floatDiv f =>
    refine regForm_arm h hr (by simp only [exec, execFloatDiv, floatOp2]; rfl) fun L => ?_
    dsimp only; exact refs_bits (by cases f.ty <;> rfl)
  | floatMin f =>
    refine regForm_arm h hr (by simp only [exec, execFloatMin, floatOp2]; rfl) fun L => ?_
    dsimp only; exact refs_bits (by cases f.ty <;> rfl)
  | floatMax f =>
    refine regForm_arm h hr (by simp only [exec, execFloatMax, floatOp2]; rfl) fun L => ?_
    dsimp only; exact refs_bits (by cases f.ty <;> rfl)
  | fma f =>
    refine regForm_arm h hr (by simp only [exec, execFma, floatOp3]; rfl) fun L => ?_
    dsimp only; exact refs_bits (by cases f.ty <;> rfl)
  | fms f =>
    refine regForm_arm h hr (by simp only [exec, execFms, floatOp3]; rfl) fun L => ?_
    dsimp only; exact refs_bits (by cases f.ty <;> rfl)
  | fnma f =>
    refine regForm_arm h hr (by simp only [exec, execFnma, floatOp3]; rfl) fun L => ?_
    dsimp only; exact refs_bits (by cases f.ty <;> rfl)
  | rcp f =>
    refine regForm_arm h hr (by simp only [exec, execRcp, floatOp1]; rfl) fun L => ?_
    dsimp only; exact refs_bits (by cases f.ty <;> rfl)
  | sqrt f =>
    refine regForm_arm h hr (by simp only [exec, execSqrt, floatOp1]; rfl) fun L => ?_
    dsimp only; exact refs_bits (by cases f.ty <;> rfl)
  | exp2 f =>
    refine regForm_arm h hr (by simp only [exec, execExp2, floatOp1]; rfl) fun L => ?_
    dsimp only; exact refs_bits (by cases f.ty <;> rfl)
  | log2 f =>
    refine regForm_arm h hr (by simp only [exec, execLog2, floatOp1]; rfl) fun L => ?_
    dsimp only; exact refs_bits (by cases f.ty <;> rfl)
  | sin f =>
    refine regForm_arm h hr (by simp only [exec, execSin, floatOp1]; rfl) fun L => ?_
    dsimp only; exact refs_bits (by cases f.ty <;> rfl)
  | cos f =>
    refine regForm_arm h hr (by simp only [exec, execCos, floatOp1]; rfl) fun L => ?_
    dsimp only; exact refs_bits (by cases f.ty <;> rfl)
  | tanh f =>
    refine regForm_arm h hr (by simp only [exec, execTanh, floatOp1]; rfl) fun L => ?_
    dsimp only; exact refs_bits (by cases f.ty <;> rfl)
  | sig f =>
    refine regForm_arm h hr (by simp only [exec, execSig, floatOp1]; rfl) fun L => ?_
    dsimp only; exact refs_bits (by cases f.ty <;> rfl)
  | gelu f =>
    refine regForm_arm h hr (by simp only [exec, execGelu, floatOp1]; rfl) fun L => ?_
    dsimp only; exact refs_bits (by cases f.ty <;> rfl)
  | add2 f =>
    refine regForm_arm h hr (by simp only [exec, execAdd2, packedOp2]; rfl) fun L => ?_
    dsimp only; exact refs_bits rfl
  | sub2 f =>
    refine regForm_arm h hr (by simp only [exec, execSub2, packedOp2]; rfl) fun L => ?_
    dsimp only; exact refs_bits rfl
  | mul2 f =>
    refine regForm_arm h hr (by simp only [exec, execMul2, packedOp2]; rfl) fun L => ?_
    dsimp only; exact refs_bits rfl
  | min2 f =>
    refine regForm_arm h hr (by simp only [exec, execMin2, packedOp2]; rfl) fun L => ?_
    dsimp only; exact refs_bits rfl
  | max2 f =>
    refine regForm_arm h hr (by simp only [exec, execMax2, packedOp2]; rfl) fun L => ?_
    dsimp only; exact refs_bits rfl
  | fma2 f =>
    refine regForm_arm h hr (by simp only [exec, execFma2]; rfl) fun L => ?_
    dsimp only; exact refs_bits rfl
  | cvt f =>
    refine regForm_arm h hr (by simp only [exec, execCvt]; rfl) fun L => ?_
    dsimp only; exact refs_bits (by cases f.dst <;> rfl)
  | cmp f =>
    refine regForm_arm h hr (by simp only [exec, execCmp]; rfl) fun L => ?_
    dsimp only; exact refs_cmp
  | mov f =>
    refine regForm_arm h hr (by simp only [exec, execMov, movOp]; rfl) fun L => ?_
    dsimp only; exact refs_dst rfl
  | movd f =>
    refine regForm_arm h hr (by simp only [exec, execMovd, movOp]; rfl) fun L => ?_
    dsimp only; exact refs_dst rfl
  | sel f =>
    refine regForm_arm h hr (by simp only [exec, execSel, selOp]; rfl) fun L => ?_
    dsimp only; exact refs_dst rfl
  | seld f =>
    refine regForm_arm h hr (by simp only [exec, execSeld, selOp]; rfl) fun L => ?_
    dsimp only; exact refs_dst rfl
  | pand f =>
    refine regForm_arm h hr (by simp only [exec, execPand, predOp]; rfl) fun L => ?_
    dsimp only; exact refs_pred
  | por f =>
    refine regForm_arm h hr (by simp only [exec, execPor, predOp]; rfl) fun L => ?_
    dsimp only; exact refs_pred
  | pxor f =>
    refine regForm_arm h hr (by simp only [exec, execPxor, predOp]; rfl) fun L => ?_
    dsimp only; exact refs_pred
  | pandn f =>
    refine regForm_arm h hr (by simp only [exec, execPandn, predOp]; rfl) fun L => ?_
    dsimp only; exact refs_pred
  | pmov f =>
    refine regForm_arm h hr (by simp only [exec, execPmov, predOp]; rfl) fun L => ?_
    dsimp only; exact refs_pred
  | ptst f =>
    refine regForm_arm h hr (by simp only [exec, execPtst]; rfl) fun L => ?_
    dsimp only; exact refs_pred
  | pget f =>
    refine regForm_arm h hr (by simp only [exec, execPget]; rfl) fun L => ?_
    dsimp only; exact refs_dst rfl
  | sval f =>
    refine regForm_arm h hr (by simp only [exec, execSval]; rfl) fun L => ?_
    dsimp only; exact refs_dst (by cases svalWide f.a <;> rfl)
  | gtov f =>
    refine regForm_arm h hr (by simp only [exec, execGtov]; rfl) fun L => ?_
    dsimp only; exact refs_dst (by cases f.x <;> rfl)
  | pbc f =>
    refine regForm_arm h hr (by simp only [exec, execPbc]; rfl) fun L => ?_
    dsimp only; exact refs_p
  | scan f =>
    refine regForm_arm h hr (by simp only [exec, execScan]; rfl) fun L => ?_
    dsimp only; exact refs_scan (by cases f.ty.wide <;> rfl)
  | _ => cases hr
end Sys2Proof.Machine
end

