-- ==== Sys2Proof/Tests/Slice0.lean ====
section
/-! SUPPORT. Tests: words of the spec's own texts decode to the instructions they stand for; a term for each check of WellFormed that the
check refuses; small steps with results from the spec; a witness for the hypotheses of each statement. -/

namespace Sys2Proof.Tests
open Sys2Proof Sys2Proof.Machine
-- One theorem at a time: each of the kernel's evaluations below runs on a thread of its own otherwise, and they fill the memory.
set_option Elab.async false

/-! ## Decoding: words written out in the spec -/

/-- Team code, agent code and stream code with every register. -/
def team : Limits := ⟨.team, 256, 1024, 4⟩
def agent : Limits := ⟨.agent, 8, 32, 4⟩
def stream : Limits := ⟨.stream, 256, 1024, 4⟩
def p7 : Ctl := ⟨false, 7, false, 0⟩
def gp7 : Ctl := ⟨true, 7, false, 0⟩

/-- 03_encoding.md: the fields of a float multiply-add, of an add with a parcel, and of one with a short immediate and a predicate. -/
theorem test_word_fma : decodeWord team 0x200086030328E00B 0 = .ok (.fma ⟨⟨false, 7, false, 4⟩, .f32, 6, 6, .bank 12, 1, .rtz, false, false⟩) := by
  decide +kernel
theorem test_word_add_lit : decodeWord team 0x0000000181E0F001 0x00010000 = .ok (.add ⟨gp7, .s, 3, 3, .lit 0x00010000, false⟩) := by
  decide +kernel
theorem test_word_add_imm : decodeWord team 0x07FFFC8484C14001 0 = .ok (.add ⟨⟨false, 2, true, 0⟩, .s, 9, 9, .imm 0xFFFF9, false⟩) := by
  decide +kernel
/-- 09_prog_postfix.md, 10_prog_horner.md. -/
theorem test_word_and : decodeWord team 0x007FFF8C0840E005 0 = .ok (.and ⟨p7, .s, 16, 24, .imm 0xFFFF, false⟩) := by decide +kernel
theorem test_word_exvn2 : decodeWord team 0x000284080000E056 0 = .ok (.exvn ⟨p7, 16, 8, 5, false, false⟩) := by decide +kernel
theorem test_word_fadd : decodeWord team 0x01EE660080C0E009 0 = .ok (.floatAdd ⟨p7, .f32, 1, 1, .imm 0x3DCCC, .rne, false, false⟩) := by
  decide +kernel
theorem test_word_fadd_lit :
    decodeWord team 0x0000000080E0E009 0x3DCCCCCD = .ok (.floatAdd ⟨p7, .f32, 1, 1, .lit 0x3DCCCCCD, .rne, false, false⟩) := by decide +kernel
theorem test_word_fadd_bank : decodeWord team 0x0000038080A0E009 0 = .ok (.floatAdd ⟨p7, .f32, 1, 1, .bank 7, .rne, false, false⟩) := by
  decide +kernel
theorem test_word_illegal : decodeWord team 0x00C0E1253DCCCCCD 0 = .illegal 3 := by decide +kernel
/-- 04_lane.md, 05_lane_exv.md. -/
theorem test_word_cvt : decodeWord team 0x268000010180E110 0 = .ok (.cvt ⟨p7, .s32, .f32, 3, 2, .rtz, false, false⟩) := by decide +kernel
theorem test_word_cmp : decodeWord team 0x01F8000200C0E491 0 = .ok (.cmp ⟨p7, .lt, .f32, 1, 4, .imm 0x3F000, false⟩) := by decide +kernel
theorem test_word_exvn : decodeWord team 0x008184140000E056 0 = .ok (.exvn ⟨p7, 40, 8, 3, false, true⟩) := by decide +kernel
/-- 06_team.md, 07_team_wide.md, 11_prog_filter.md, 21_prog_fault_dump.md. -/
theorem test_word_brd : decodeWord team 0x0000030004402019 0 = .ok (.brd ⟨⟨false, 1, false, 0⟩, 6, 8⟩) := by decide +kernel
theorem test_word_bra : decodeWord team 0x07FFF2000040E018 0 = .ok (.bra ⟨p7, 0, .rel20 0xFFFE4⟩) := by decide +kernel
theorem test_word_red : decodeWord team 0x000000018280F0A1 0 = .ok (.red ⟨gp7, .add, .f32, 5, 3, .rne, false, false⟩) := by decide +kernel
theorem test_word_sval : decodeWord team 0x000000048080F015 0 = .ok (.sval ⟨gp7, 1, 9⟩) := by decide +kernel
theorem test_word_gtov : decodeWord team 0x000000010100E01E 0 = .ok (.gtov ⟨p7, 2, 2, false⟩) := by decide +kernel
theorem test_word_regrp : decodeWord team 0x0000008481C0F023 0 = .ok (.regrp ⟨gp7, 3, 9, .imm 1⟩) := by decide +kernel
theorem test_word_ballot : decodeWord team 0x000000010140F0DF 0 = .ok (.ballot ⟨gp7, 2, 2, .simm 0, false⟩) := by decide +kernel
/-- 08_core_memory.md. -/
theorem test_word_ld : decodeWord team 0x000008010340E164 0 = .ok (.ld ⟨p7, .b64, 6, 2, .imm 16, false⟩) := by decide +kernel
theorem test_word_atom : decodeWord team 0x000000810540E029 0 = .ok (.atom ⟨p7, .add, .s32, 10, 2, .imm 1, 0, false, false, false, false⟩) := by
  decide +kernel
/-- 12_core_engines.md, 13_core_matrix.md. -/
theorem test_word_cpl : decodeWord team 0x000481020A20E06C 0 = .ok (.cpl ⟨p7, .b64, 20, 4, .bank 2, 9, false⟩) := by decide +kernel
theorem test_word_cp : decodeWord team 0x280083020520F02D 0 = .ok (.cp ⟨gp7, false, 10, 4, .bank 6, 1, true, false, true, false⟩) := by
  decide +kernel
theorem test_word_barr : decodeWord team 0x000000808240F06E 0 = .ok (.barr ⟨gp7, 4, 1, .imm 1, false⟩) := by decide +kernel
theorem test_word_mstart : decodeWord team 0x0000020800A0F033 0 = .ok (.mstart ⟨gp7, 1, 16, .bank 4⟩) := by decide +kernel
theorem test_word_mmul : decodeWord stream 0x030100800000E034 0 = .ok (.mmul ⟨p7, 0, 0, 1, 2, true, 2⟩) ∧
    decodeWord team 0x030100800000E034 0 = .illegal 9 := by decide +kernel
/-- 14_die_memory_model.md, 15_die_moraine.md, 16_prog_spgemm.md, 17_package_memory.md. -/
theorem test_word_dqsteal : decodeWord team 0x000080010300F0B7 0 = .ok (.dqsteal ⟨gp7, 6, 2, .reg 0, 1⟩) := by decide +kernel
theorem test_word_mgput : decodeWord team 0x010302820400E078 0 = .ok (.mgput ⟨p7, 8, 4, .reg 5, 6, false, 2⟩) := by decide +kernel
theorem test_word_xsect : decodeWord team 0x000604840A00E031 0 = .ok (.xsect ⟨p7, 20, 8, .reg 9, 12⟩) := by decide +kernel
theorem test_word_shfi : decodeWord team 0x00008A040680E020 0 = .ok (.shfi ⟨p7, 13, 8, .reg 20, 1, false⟩) := by decide +kernel
theorem test_word_gath : decodeWord team 0x0003868506002030 0 = .ok (.gath ⟨⟨false, 1, false, 0⟩, 12, 10, .reg 13, 7, 0, false⟩) := by
  decide +kernel
theorem test_word_walk : decodeWord team 0x200302820A20E079 0 = .ok (.walkRnd ⟨p7, 20, 4, .bank 5, 6, 4⟩) := by decide +kernel
/-- 18_package_faults.md, 20_package_launch.md, 23: log, breakpoint, launch, management read. -/
theorem test_word_logre : decodeWord team 0x000000000100F07B 0 = .ok (.logre ⟨gp7, 2, 0⟩) := by decide +kernel
theorem test_word_brk : decodeWord team 0x000003800040E0FB 0 = .ok (.brk ⟨p7, 7⟩) := by decide +kernel
theorem test_word_lnch : decodeWord team 0x0000020400C0F03A 0 = .ok (.lnch ⟨gp7, 1, 8, .imm 4⟩) := by decide +kernel
theorem test_word_mrd : decodeWord agent 0x000000018100F0BC 0 = .ok (.mrd ⟨gp7, 2, 3⟩) ∧ decodeWord team 0x000000018100F0BC 0 = .illegal 8 := by
  decide +kernel
/-- A reserved major opcode is detail 0x1 (R63); the spec's bytes come lowest address first (R49). -/
theorem test_word_reserved : decodeWord team 0x000000010180E13F 0 = .illegal 1 := by decide +kernel
theorem test_bytes : decodeBytes team [0xBC, 0xF0, 0x00, 0x81, 0x01, 0x00, 0x00, 0x00, 7] = some (.illegal 8, [7]) := by decide +kernel

/-! ## WellFormed: an ill-formed term for each check -/

def mulF : IntB := ⟨p7, .s, 3, 4, .reg 5, false⟩
theorem wf_ok : (Instr.mul mulF).wellFormed team = true := by decide +kernel
/-- Modifier: saturation on an instruction that has none (R82, R63). -/
theorem wf_mod : (Instr.min { mulF with sat := true }).wellFormed team = false ∧ (Instr.min mulF).wellFormed team = true := by decide +kernel
/-- B kind: `stflush`-like forms take no immediate; a short immediate where a long one is asked (R54). -/
theorem wf_bk : (Instr.add { mulF with b := .simm 1 }).wellFormed team = false := by decide +kernel
/-- Lane or team-wide form: a vote has no lane form (R51). -/
theorem wf_form : (Instr.vany ⟨p7, 1, 2, false⟩).wellFormed team = false := by decide +kernel
/-- Operand limit: register 16 of a launch that declares 16 (R57). -/
theorem wf_lim : (Instr.mul { mulF with d := 16 }).wellFormed ⟨.team, 16, 8, 0⟩ = false ∧
    (Instr.mul { mulF with d := 15 }).wellFormed ⟨.team, 16, 8, 0⟩ = true := by decide +kernel
/-- Privilege: a management read in team code (R63). -/
theorem wf_priv : (Instr.mrd ⟨gp7, 2, 3⟩).wellFormed team = false ∧ (Instr.mrd ⟨gp7, 2, 3⟩).wellFormed agent = true := by decide +kernel
/-- Context: a stream instruction in team code (R63). -/
theorem wf_ctx : (Instr.mmul ⟨p7, 0, 0, 1, 2, true, 2⟩).wellFormed team = false ∧
    (Instr.mmul ⟨p7, 0, 0, 1, 2, true, 2⟩).wellFormed stream = true := by decide +kernel
/-- A field that an instruction does not use. -/
theorem wf_canon : (Instr.lsr ⟨p7, 3, 1⟩).wellFormed team = false ∧ (Instr.lsr ⟨p7, 3, 0⟩).wellFormed team = true := by decide +kernel


/-! ## Small states -/

/-- A team of four lanes: even registers hold multiples of 64, p is 0x55, gi holds 64 i. -/
def lane (L : Nat) : Lane :=
  ⟨(List.range 16).map fun i => if i % 2 = 0 then BitVec.ofNat 32 (64 * (4 * L + i)) else 0, 0x55#8, [7, 9], 0, 0, L, 0⟩
def team0 : Team :=
  { block := 0, num := 0, quad := 0, n := 4, nregs := 16, lanes := (List.range 4).map lane, g := (List.range 64).map fun i => BitVec.ofNat 64 (64 * i)
    gp := 0x0F#8, m := List.replicate 8 ModReg.zero, fflags := 0, xwin := 0, regionPc := 0, regionMask := 0, level := 0, frames := [], saves := []
    record := DefRec.clear, log := [], serials := List.replicate 32 none, seq := 7, flying := [], strict := false, mode := .run, stops := []
    arrival := none, busy := [], joins := [], ctxBase := 0, areaDirty := false, age := 0, prio := 0, saved := none, drains := [] }
/-- A running fragment. -/
def entry (slot pc m : Nat) : Entry := { Entry.empty with st := .running, team := slot, pc := BitVec.ofNat 56 pc, mask := BitVec.ofNat 1024 m }
def launch : Launch :=
  { flags := 0, cmpl := 0x3000, ldesc := 0, bufl := 0, w := [], e1 := 1, e2 := 1, e3 := 1, e4 := 1, e5 := 1, acc := 0, entry := 0, code := 0
    codelen := 64, stream := 0, streamlen := 32, kbank := 0, lanes := 4, regs := 16, scratch := 4096, trapent := 0x400, htab := 0, frames := 0x8000
    fmap := 0x3100, framen := 8, framesz := 0, dump := 0, dumplen := 0, clmask := 0, dbgown := 0, bufs := [⟨0, 0x4000, 3, 1⟩] }
def lslot : LSlot :=
  { part := 0, q := 0, idx := 0, asid := 0, sdom := 0, gen := 0, sgen := 0, launch := launch, kbank := List.replicate 256 0
    htab := List.replicate 16 0 }
def block : Block :=
  { lslot := 0, ticket := 0, frame := 0, slots := [0], size := 4096, scratch := [(32, 1), (64, 2)], seq := some (0, 0, 4), bcast := none, acked := false
    ending := none, coop := false, live := [], stopping := false, gone := false, saved := false, dumpAt := none }
def core : Machine.Core :=
  { Core.reset with blocks := Core.reset.blocks.set 0 (some block), lslots := Core.reset.lslots.set 0 (some lslot)
                    leases := Core.reset.leases.set 0 ⟨true, 0, 3, 0x10000, 0, 0⟩ }
/-- Partition 0 of one slice, its Firn and one TLB entry for the first 64 KiB. -/
def part : Part := { Part.reset with pent := BitVec.ofNat 64 (2 ^ 63 + 1 * 2 ^ 52) }
def slice : Slice := { Slice.reset with fctl := 1, asidbase := 0x1000, framebase := 0x2000, tlb := [⟨false, 0, 0, 1, 0x10000, true, true⟩] }
/-- Fragment 0 of quadrant 0 of core 0 issues for team t of the slot its entry x names; the identifier entry of ASID 0 and the frame record
of frame 1 stand in memory. -/
def st (t : Team) (x : Entry) (f : Machine.Core → Machine.Core) : State :=
  { State.reset with
    on := true, cur := .frag 0 0 0, cores := [f ((core.setTeam x.team t).setEntry 0 0 x), Core.reset], mem := [(0x1007, 0x80), (0x200F, 0x80)]
    slices := slice :: List.replicate 11 Slice.reset, parts := part :: List.replicate 11 Part.reset }
def x0 : Entry := entry 0 0x100 0xF
def base : State := st team0 x0 id
/-- The state with another core 0, and the team its issuing entry names. -/
def on (s : State) (f : Machine.Core → Machine.Core) : State := s.setCore 0 (f (s.core 0))
def tm (s : State) : Team := ((s.core 0).team? ((s.core 0).entry 0 0).team).getD team0
abbrev Pl (s : State) : Prop := Plain s 0 0 0 (tm s)
abbrev cx (s : State) : Cx := Cx.at s 0 0 0 (tm s)
def fst' {α β : Type} : Sum α β → Option α
  | .inl a => some a
  | .inr _ => none

theorem stops_of_slots {k : Machine.Core} (h : k.slots.all (fun o => match o with | some t => t.stops.isEmpty | none => true) = true) :
    ∀ i u, k.team? i = some u → u.stops = [] := by
  intro i u hu
  have hm : some u ∈ k.slots := by
    unfold Core.team? at hu
    cases hk : k.slots[i]? with
    | none => simp [hk] at hu
    | some o => simp [hk] at hu; subst hu; exact List.mem_of_getElem? hk
  have := List.all_eq_true.mp h _ hm
  simpa using this

theorem wit_plain : Pl base := by decide +kernel

/-! ## Witnesses: operands and states that meet the hypotheses of each statement -/

theorem wit_RegisterFormsComplete : Pl base ∧ (∃ r, regForm (.mul mulF) = some r ∧ r.late = true ∧ r.c.la = 0) ∧
    ∃ r, regForm (.mul { mulF with c := ⟨false, 7, false, 15⟩ }) = some r ∧ r.late = true ∧ r.c.la ≠ 0 :=
  ⟨wit_plain, ⟨_, rfl, rfl, rfl⟩, _, rfl, rfl, by decide⟩
theorem wit_IntegerArithmetic : Pl base := wit_plain
theorem wit_LogicShiftBitFieldGroup : Pl base := wit_plain
theorem wit_PairForms : Pl base := wit_plain
theorem wit_MovesPredicatesCompares : Pl base ∧ cmpKind .s32 = .int .s 32 ∧ cmpKind .n64 = .int .n 64 ∧
    cmpKind .f32 = .flt .f32 ∧ (14 : Reg).toNat ≤ 14 := ⟨wit_plain, by decide +kernel⟩
theorem wit_FloatForms : Pl base := wit_plain
theorem wit_FloatSpecialOperands :
    (Fmt.f32.operand false 0x7FC00001).isNaN = true ∧ (Fmt.f32.operand true 0x7FA00000).sNaN = true ∧
    (Fmt.f32.operand false 0x7F800000) = .inf false ∧ (Fmt.f64.operand true 0xFFF0000000000000) = .inf true ∧
    (∃ e, Fmt.f32.operand false 0x80000000 = .fin true 0 e) ∧ (∃ k e, Fmt.f32.operand false 0xBF800000 = .fin true (k + 1) e) ∧
    (∃ e, Fmt.f32.operand true 0x00000001 = .fin false 0 e) ∧ (Fmt.f32.operand false 0x3F800000).isNaN = false :=
  ⟨by decide +kernel, by decide +kernel, by decide +kernel, by decide +kernel, ⟨_, rfl⟩, ⟨_, _, rfl⟩, ⟨_, rfl⟩, by decide +kernel⟩
theorem wit_StackMoves : Pl base ∧ (tm base).lanes.length = (tm base).n := ⟨wit_plain, by decide +kernel⟩
/-- A stack that is full, and one that is empty. -/
def stackSt (n : Nat) : State := st { team0 with lanes := team0.lanes.map fun l => { l with stack := List.replicate n 5 } } x0 id
theorem wit_StackMoves_full : Pl (stackSt 8) ∧ Pl (stackSt 0) ∧ (tm (stackSt 8)).lanes.length = 4 ∧ ((tm (stackSt 8)).lane 3).stack.length = 8 := by
  decide +kernel
theorem wit_StatusAndWindowRegisters : Pl base ∧ (tm base).lanes.length = (tm base).n ∧ (cx base).acqBusy = false ∧
    (0x1021 : Word).getLsbD 12 = true ∧ (0 : Word).getLsbD 12 = false := ⟨wit_plain, by decide +kernel⟩
theorem wit_ExecuteVectorLanes : Pl base ∧ (tm base).lanes.length = (tm base).n ∧ (base.core 0).exvs = [] ∧ ((base.core 0).entry 0 0).op = none ∧
    (tm base).stops = [] ∧ (⟨p7, 40, 8, 1, false, false⟩ : ExvF).m = false := ⟨wit_plain, by decide +kernel⟩
/-- Words of an integer and of a float type at the ends of the ranges of their opcodes; each format of a conversion. -/
theorem wit_ExecuteVectorLanes_words : (∀ n ∈ [0x00, 0x08, 0x10, 0x22, 0x50, 0x57, 0x58, 0x61, 0x68, 0x6A],
      lwOp (BitVec.ofNat 32 (n + 2 ^ 13)) = n ∧ lwKind (BitVec.ofNat 32 (n + 2 ^ 13)) = .int .n 32) ∧
    (∀ n ∈ [0x30, 0x48], lwOp (BitVec.ofNat 32 (n + 3 * 2 ^ 13)) = n ∧ lwKind (BitVec.ofNat 32 (n + 3 * 2 ^ 13)) = .flt .f16) ∧
    (∀ i ∈ [2, 3, 4], lwImm (BitVec.ofNat 32 (0x48 + i * 2 ^ 16)) ∈ [2, 3, 4]) := by decide +kernel
theorem wit_ExecuteVectorSteps : Pl base ∧ (base.core 0).exvs = [] ∧ (base.core 0).sessions = [] ∧ ((base.core 0).entry 0 0).op = none ∧
    (⟨p7, 40, 8, 3, true, false⟩ : ExvF).t = false ∧ (tm base).stops = [] ∧ (cx base).acqBusy = false := ⟨wit_plain, by decide +kernel⟩
/-- With every lane out of a predicate, and with every lane in: the two ends of a vote. -/
theorem wit_TeamWideForms : Pl base ∧ (cx base).active = [0, 1, 2, 3] ∧ (cx base).takes gp7 = true ∧ (cx base).takes ⟨true, 4, false, 0⟩ = false ∧
    (tm base).n ≤ 1024 ∧ (10 : BitVec 4).toNat ≤ 10 := by decide +kernel

/-! ### Control flow -/

theorem wit_BranchesJumpsAndLoops : Pl base ∧ (cx base).takes gp7 = true ∧ (cx base).takes ⟨true, 7, true, 0⟩ = false ∧
    ((tm base).rg 4).setWidth 56 &&& 3 = (0 : PCWord) := by decide +kernel
def odd : State := st { team0 with g := team0.g.set 4 0x102 } x0 id
theorem wit_BranchesJumpsAndLoops_bad : Pl odd ∧ (cx odd).takes gp7 = true ∧ ((tm odd).rg 4).setWidth 56 &&& 3 ≠ (0 : PCWord) := by decide +kernel
/-- No lane left, every lane left, and a split of lanes 0 and 1 from lanes 2 and 3. -/
def half : State := st { team0 with lanes := team0.lanes.map fun l => if l.olid < 2 then l else { l with p := 0 } } x0 id
theorem wit_DivergentBranch : Pl half ∧ x0.mask &&& ~~~(maskOf ((cx half).part p7)) = 0 ∧ maskOf ((cx half).part ⟨false, 1, false, 0⟩) = 0 ∧
    x0.mask &&& ~~~(maskOf ((cx half).part ⟨false, 1, false, 0⟩)) ≠ 0 := by decide +kernel
theorem wit_DivergentBranch_split : Pl half ∧ (let f : BrdF := ⟨⟨false, 0, false, 0⟩, 6, 8⟩
    maskOf ((cx half).part f.c) ≠ 0 ∧ x0.mask &&& ~~~(maskOf ((cx half).part f.c)) ≠ 0 ∧
    x0.pc + 4 * f.tgt.signExtend 56 ≠ x0.pc + 4 * f.join.signExtend 56 ∧ x0.pc + 8 ≠ x0.pc + 4 * f.join.signExtend 56 ∧
    (List.range 64).find? (fun i => decide (((half.core 0).entry 0 i).st = .free)) = some 1 ∧ (half.core 0).single 0 0 = true ∧
    ((half.core 0).entry 0 0).live 0 = true ∧ ((half.core 0).entry 0 0).st = .running ∧ ((half.core 0).quad 0).length = 64 ∧
    ((half.core 0).entry 0 2).st = .free) := by decide +kernel
abbrev Qt (s : State) : Prop := Quiet s 0 0 0 (tm s)
def brdF : BrdF := ⟨⟨false, 0, false, 0⟩, 6, 8⟩
abbrev Parts (s : State) : Prop := maskOf ((cx s).part brdF.c) ≠ 0 ∧ ((s.core 0).entry 0 0).mask &&& ~~~(maskOf ((cx s).part brdF.c)) ≠ 0
/-- No fragment of the team has a join to reach. -/
def still (k : Machine.Core) (slot : Nat) : Bool := (List.range 64).all fun i => (k.reach 0 i slot).isNone && (k.fuse 0 i slot).isNone
theorem still_all {k : Machine.Core} {slot : Nat} (h : (k.quad 0).length = 64) (d : still k slot = true) :
    (∀ i, k.reach 0 i slot = none) ∧ ∀ i, k.fuse 0 i slot = none := by
  have e : ∀ i, ¬ i < 64 → k.entry 0 i = Entry.empty := by
    intro i hi
    have : (k.quad 0)[i]? = none := List.getElem?_eq_none (by omega)
    simp [Core.entry, this]
  have d' : ∀ i, i < 64 → k.reach 0 i slot = none ∧ k.fuse 0 i slot = none := by
    intro i hi
    have := List.all_eq_true.mp d i (List.mem_range.mpr hi)
    simpa using this
  constructor <;> intro i <;> by_cases hi : i < 64
  · exact (d' i hi).1
  · cases hk : k.team? slot <;> simp [Core.reach, e i hi, hk, Entry.empty, Entry.live]
  · exact (d' i hi).2
  · simp [Core.fuse, e i hi, Entry.empty]
/-- The two lanes of a nested split run in entry 0, inside the record of entry 5, where the others wait. -/
def inside : Entry := { entry 0 0x100 0xF with inner := some ⟨false, 5⟩ }
def nested : State := st (tm half) inside fun k =>
  k.setEntry 0 5 { Entry.empty with st := .record, team := 0, isRec := true, jaddr := 0x800, inner := none, outer := none }
def nestedEnd : Machine.Core :=
  (((nested.core 0).setEntry 0 1 { Entry.empty with
      st := .running, team := 0, pc := 0x118, mask := maskOf ((cx nested).part brdF.c), inner := some ⟨false, 1⟩, isRec := true, jaddr := 0x120
      outer := inside.inner }).setEntry 0 0
    { inside.passed 8 with mask := inside.mask &&& ~~~(maskOf ((cx nested).part brdF.c)), inner := some ⟨false, 1⟩ }).setTeam 0 (tm nested)
theorem wit_DivergentBranch_nested : Qt nested ∧ Parts nested ∧ (nested.core 0).freeEntry 0 false = some 1 ∧ (∀ i, nestedEnd.reach 0 i 0 = none) ∧
    ∀ i, nestedEnd.fuse 0 i 0 = none :=
  ⟨by decide +kernel, by decide +kernel, by decide +kernel, still_all (by decide +kernel) (by decide +kernel)⟩
/-- Every other entry of the quadrant runs for another team. -/
def crowded (serials : List (Option Serial)) : State := st { tm half with serials := serials } x0 fun k =>
  { k with quads := k.quads.set 0 (x0 :: List.replicate 63 (entry 3 0x200 1)) }
def crowdedEnd : Machine.Core :=
  let s := crowded (List.replicate 32 none)
  ((s.core 0).setEntry 0 0 { x0.jumped 0x118 with mask := maskOf ((cx s).part brdF.c), inner := some ⟨true, 0⟩ }).setTeam 0
    { tm s with
      serials := (tm s).serials.set 0 (some ⟨0x120, 0x108, none, x0.mask &&& ~~~(maskOf ((cx s).part brdF.c)), 0⟩), areaDirty := true }
theorem wit_DivergentBranch_serial : let s := crowded (List.replicate 32 none)
    Qt s ∧ Parts s ∧ (s.core 0).freeEntry 0 false = none ∧ (∀ i, crowdedEnd.reach 0 i 0 = none) ∧ ∀ i, crowdedEnd.fuse 0 i 0 = none :=
  ⟨by decide +kernel, by decide +kernel, by decide +kernel, still_all (by decide +kernel) (by decide +kernel)⟩
theorem wit_DivergentBranch_overflow : let s := crowded (List.replicate 32 (some ⟨0x300, 0x200, none, 1, 0⟩))
    Qt s ∧ Parts s ∧ (s.core 0).freeEntry 0 false = none ∧
    (List.range 32).find? (fun i => ((tm s).serials[i]?.getD none).isNone) = none := by decide +kernel
abbrev St (s : State) : Prop := Steady s 0 0 0 (tm s)
theorem steady_half : St half := ⟨by decide +kernel, by decide +kernel, by decide +kernel, by decide +kernel, stops_of_slots (by decide +kernel), by decide +kernel⟩
theorem steady_base : St base := ⟨by decide +kernel, by decide +kernel, by decide +kernel, by decide +kernel, stops_of_slots (by decide +kernel), by decide +kernel⟩
theorem alone {k : Machine.Core} {q e slot : Nat} (h : (k.quad q).length = 64)
    (d : ∀ i, i < 64 → i ≠ e → (k.entry q i).team ≠ slot ∨ (k.entry q i).st = .free) :
    ∀ i, i ≠ e → (k.entry q i).team ≠ slot ∨ (k.entry q i).st = .free := by
  intro i hi
  by_cases hl : i < 64
  · exact d i hl hi
  · right
    have : (k.quad q)[i]? = none := List.getElem?_eq_none (by omega)
    simp [Core.entry, this, Entry.empty]
theorem alone_half : ∀ i, i ≠ 0 → ((half.core 0).entry 0 i).team ≠ 0 ∨ ((half.core 0).entry 0 i).st = .free :=
  alone (by decide +kernel) (by decide +kernel)
/-- Entry 0 jumps by 8 words to the join at 0x120, where entry 5 waits. -/
def waiting5 : Entry :=
  { Entry.empty with st := .waiting, team := 0, pc := 0x120, mask := 0xC, inner := some ⟨false, 5⟩, isRec := true, jaddr := 0x120, outer := none }
def joining : State := st team0 { entry 0 0x100 3 with inner := some ⟨false, 5⟩ } fun k => k.setEntry 0 5 waiting5
theorem alone2 {k : Machine.Core} {q e n slot : Nat} (h : (k.quad q).length = 64)
    (d : ∀ i, i < 64 → i ≠ e → i ≠ n → (k.entry q i).team ≠ slot ∨ (k.entry q i).st = .free) :
    ∀ i, i ≠ e → i ≠ n → (k.entry q i).team ≠ slot ∨ (k.entry q i).st = .free := by
  intro i hi hn
  by_cases hl : i < 64
  · exact d i hl hi hn
  · right
    have : (k.quad q)[i]? = none := List.getElem?_eq_none (by omega)
    simp [Core.entry, this, Entry.empty]
theorem wit_DivergentBranch_join : Qt joining ∧ (let x := (joining.core 0).entry 0 0
    let y := (joining.core 0).entry 0 5
    x.st = .running ∧ x.frozen = false ∧ x.isRec = false ∧ x.mask ≠ 0 ∧ x.inner = some ⟨false, 5⟩ ∧ x.pc + 4 * (8 : BitVec 20).signExtend 56 = y.jaddr ∧
    y.st = .waiting ∧ y.frozen = false ∧ y.isRec = true ∧ y.team = x.team ∧ y.inner = some ⟨false, 5⟩ ∧ y.outer = none ∧ team0.mode ≠ .retired ∧
    ((joining.core 0).quad 0).length = 64) ∧
    ∀ i, i ≠ 0 → i ≠ 5 → ((joining.core 0).entry 0 i).team ≠ 0 ∨ ((joining.core 0).entry 0 i).st = .free :=
  ⟨by decide +kernel, by decide +kernel, alone2 (by decide +kernel) (by decide +kernel)⟩
/-- A fragment inside serial record 2, whose join is at 0x120, with lanes pending and with none. -/
def serialAt (pending : Nat) : Serial := ⟨0x120, 0x108, none, BitVec.ofNat 1024 pending, 0xC⟩
def serialS (pending : Nat) : State :=
  st { team0 with serials := (List.replicate 32 none).set 2 (some (serialAt pending)) } { entry 0 0x100 3 with inner := some ⟨true, 2⟩ } id
theorem wit_DivergentBranch_reach : (∀ p ∈ [0, 0xC], let s := serialS p
      Qt s ∧ (tm s).serials[2]? = some (some (serialAt p)) ∧ (s.core 0).slots.length = 33 ∧ ((s.core 0).quad 0).length = 64 ∧
      (0x100 : PCWord) + 4 * (8 : BitVec 20).signExtend 56 = (serialAt p).jaddr ∧ (serialAt p).resume ≠ (serialAt p).jaddr ∧
      ((serialAt p).pending ≠ 0 ↔ p ≠ 0)) ∧
    ∀ i, i ≠ 0 → (((serialS 0).core 0).entry 0 i).team ≠ 0 ∨ (((serialS 0).core 0).entry 0 i).st = .free :=
  ⟨by decide +kernel, alone (by decide +kernel) (by decide +kernel)⟩
theorem wit_ExitLeavesLanes : Pl half ∧ St half ∧ (half.core 0).Idle ∧ (cx half).Passes ∧ x0.st = .running ∧ x0.frozen = false ∧
    (half.core 0).single 0 0 = true ∧ (∀ i, i ≠ 0 → ((half.core 0).entry 0 i).team ≠ 0 ∨ ((half.core 0).entry 0 i).st = .free) ∧
    (cx half).part ⟨false, 1, false, 0⟩ = [] ∧ (cx half).part ⟨false, 0, false, 0⟩ = [0, 1] ∧ (cx half).part p7 = [0, 1, 2, 3] ∧
    (tm half).serials.all (·.isNone) = true ∧ (tm half).busy = [] ∧ (half.core 0).slotIdle 0 = true :=
  ⟨by decide +kernel, steady_half, by decide +kernel, by decide +kernel, rfl, rfl, by decide +kernel, alone_half, by decide +kernel⟩
theorem wit_WaitsFaultChecksAndRegions : Pl base ∧ (base.core 0).Idle ∧ (cx base).Passes := ⟨wit_plain, by decide +kernel⟩
/-- A team with a deferred fault recorded at its level. -/
def faulted : State := st { team0 with record := { DefRec.clear with valid := true, cls := 0x10 } } x0 id
theorem wit_WaitsFaultChecksAndRegions_stop : Pl faulted ∧ (faulted.core 0).Idle ∧ ¬ (cx faulted).Passes ∧ (cx faulted).acts p7 = true ∧
    (cx faulted).takes gp7 = true ∧ (cx faulted).active ≠ [] ∧ (cx faulted).part p7 ≠ [] := by decide +kernel

/-! ### Exceptions -/

theorem wit_TrapEntersTheHandler : Pl base ∧ St base ∧ (base.core 0).tbs = [] ∧ (∃ l, (base.core 0).lslotOf 0 = some l ∧ l.launch.trapent ≠ 0) ∧
    deliversToHandler 0x0A = true ∧ (tm base).level < 3 ∧ (tm base).mode ≠ .regrp ∧
    0 ∈ ((List.range 64).filter fun i => decide (((base.core 0).entry 0 i).st ≠ .free ∧ ((base.core 0).entry 0 i).team = 0)) ∧
    ((base.core 0).quad 0).length = 64 :=
  ⟨wit_plain, steady_base, by decide +kernel, ⟨lslot, by decide +kernel, by decide +kernel⟩, by decide +kernel⟩
def frame (cls : BitVec 8) : Frame := ⟨0x100, 0x108, cls, 0, 1, false, false, 7, 0xFFFF, 0, 0, 1, 0⟩
theorem wit_ExceptionDelivery : (∃ l, (base.core 0).lslotOf 0 = some l ∧ l.launch.trapent ≠ 0) ∧ (frame 0x0A).cls ≠ 0x02 ∧ (frame 0x0A).cls ≠ 0x04 ∧
    (frame 0x0A).cls ≠ 0x0B ∧ (frame 0x04).cls = 0x04 ∧ (base.core 0).lslotOf 5 = none ∧ 0 ≠ agentSlot ∧ (base.core 0).team? 0 = some team0 ∧
    team0.mode = .run ∧ (base.core 0).block? 0 = some block ∧ block.ending = none :=
  ⟨⟨lslot, by decide +kernel, by decide +kernel⟩, by decide +kernel⟩
theorem wit_InstructionsThatTrap : Pl base ∧ (cx base).acts p7 = true ∧ (cx base).acts ⟨true, 7, true, 0⟩ = false := ⟨wit_plain, by decide +kernel⟩
theorem wit_TrapReturn : Pl base ∧ St base ∧ (tm base).level = 0 := ⟨wit_plain, steady_base, by decide +kernel⟩
/-- The handler of a trap that fragment 0 raised at PC 0x100. -/
def inHandler : State :=
  st { team0 with level := 1, frames := [frame 0x0A], saves := [[⟨0, 0, entry 0 0x100 0xF, true⟩]] } (entry 0 0x400 0xF) id
theorem wit_TrapReturn_handler : Pl inHandler ∧ (let k := inHandler.core 0
    (tm inHandler).level ≠ 0 ∧ k.liveOf 0 0 = [0] ∧ (k.entry 0 0).isRec = false ∧ (tm inHandler).frames.getLast? = some (frame 0x0A) ∧
    (tm inHandler).saves.getLast? = some [⟨0, 0, entry 0 0x100 0xF, true⟩] ∧ (k.quad 0).length = 64 ∧ (entry 0 0x100 0xF).inner = none ∧
    (entry 0 0x100 0xF).mask ≠ 0 ∧ (entry 0 0x100 0xF).isRec = false ∧ (entry 0 0x100 0xF).team = 0 ∧ (entry 0 0x100 0xF).st = .running ∧
    (entry 0 0x100 0xF).pend = []) ∧ St inHandler ∧
    ∀ i, i ≠ 0 → ((inHandler.core 0).entry 0 i).team ≠ 0 ∨ ((inHandler.core 0).entry 0 i).st = .free :=
  ⟨by decide +kernel, by decide +kernel,
    ⟨by decide +kernel, by decide +kernel, by decide +kernel, by decide +kernel, stops_of_slots (by decide +kernel), by decide +kernel⟩,
    alone (by decide +kernel) (by decide +kernel)⟩

/-! ### Memory -/

abbrev May (s : State) : Prop := (cx s).MayAccess s
theorem may_base : May base := by decide +kernel
def ldF : MemF := ⟨p7, .b32, 4, 2, .imm 0, false⟩
def atF : AtomF := ⟨p7, .add, .s32, 4, 2, .imm 1, 0, false, false, false, false⟩
def mredF : MredF := ⟨p7, .add, .s32, 4, 2, 6, 3⟩
def mcstF : McstF := ⟨p7, true, 4, 2, 6, 3⟩
abbrev lease (s : State) (rd wr : Bool) : BitVec 8 × (Acc → Bool) := (0x04, fun a => (cx s).k.leaseOk (cx s).slot a.va a.size rd wr)
abbrev Fit (as : List Acc) (kind : ReqKind) : Prop := as ≠ [] ∧ (kind.parts as).length ≤ 4096
theorem wit_RequestsLeaveTheCore : Pl base ∧ May base := ⟨wit_plain, may_base⟩
theorem wit_RequestsLeaveTheCore_ld : let as := (cx base).globalAccs p7 2 (.imm 0) 4 4
    Fit as (.load false false false false) ∧ Passing as [(0x03, Acc.aligned), lease base true false] ∧
    ∀ a ∈ as, (cx base).k.l1Hit (base.identOf 0 0) a.va a.size = none := by decide +kernel
theorem wit_RequestsLeaveTheCore_atom : (let as := (cx base).atomAccs atF
    Fit as (.atomic .add .s32 false false false false false) ∧ Passing as [(0x03, Acc.aligned), lease base true true]) ∧
    (cx base).k.Idle ∧ (cx base).Passes := by decide +kernel
theorem wit_RequestsLeaveTheCore_mred : let as := ((List.range 4).map ((cx base).mcstAccs p7 2 6 4 4)).flatten
    Fit as (.atomic .add .s32 false true false false true) ∧ Passing as (cx base).mcstConds := by decide +kernel
theorem wit_RequestsLeaveTheCore_pf : Fit (((cx base).globalAccs p7 2 (.imm 0) 1 0).filter fun a => (cx base).k.leaseOk (cx base).slot a.va 1 true false)
    (.prefetch true) := by decide +kernel
/-- The whole allocation lies in a stash window. -/
def windowed : State := on base fun k => { k with wins := k.wins.set 0 ⟨true, false, 0, 0, 2048, 4096⟩ }
theorem wit_RequestsLeaveTheCore_lds : Pl windowed ∧ May windowed ∧ (let as := (cx windowed).scratchAccs ldF
    Fit (as.filterMap fun a => (windowed.core 0).stashAcc 0 a) (.stash false false) ∧ Passing as ((cx windowed).scratchConds ldF false) ∧
    (windowed.core 0).sessions = [] ∧ (∀ a ∈ as, ((windowed.core 0).winAt 0 a.va).isSome = true) ∧ (windowed.core 0).stash = []) := by decide +kernel
def cached : State := on base fun k => { k with l1 := (List.range 64).map fun i => ⟨32 * i, false, 0, 0, true, true, 5, 0xFF, 0, false⟩ }
def lineOf (a : Acc) : CSector := ⟨a.va / 32 * 32, false, 0, 0, true, true, 5, 0xFF, 0, false⟩
theorem wit_LoadsServedByTheL1 : Pl cached ∧ May cached ∧ (cached.core 0).Idle ∧ (let as := (cx cached).globalAccs p7 2 (.imm 0) 4 4
    as ≠ [] ∧ ldF.c.la = 0 ∧ Passing as [(0x03, Acc.aligned), lease cached true false] ∧
    ∀ a ∈ as, (cx cached).k.l1Hit (cached.identOf 0 0) a.va a.size = some (lineOf a) ∧ (lineOf a).watch = false) := by decide +kernel
theorem wit_StoresEnterTheBuffer : Pl base ∧ May base ∧ (cx base).k.Idle ∧ (cx base).Passes ∧ (let as := (cx base).storeAccs ldF
    as ≠ [] ∧ (sectorsOf as).length ≤ 512 ∧
    Passing as [(0x03, Acc.aligned), lease base false true, (0x06, (cx base).l1Writable base)]) := by decide +kernel
theorem wit_StoresEnterTheBuffer_mcst : let gs := (List.range 4).map ((cx base).mcstAccs p7 2 6 4 8)
    gs.flatten ≠ [] ∧ (gs.map fun g => (sectorsOf g).length).sum ≤ 512 ∧
    Passing gs.flatten ((cx base).mcstConds ++ [(0x06, (cx base).l1Writable base)]) := by decide +kernel
theorem wit_ScratchpadAccesses : Pl base ∧ May base ∧ (base.core 0).sessions = [] ∧ (base.core 0).wins.all (fun w => !w.valid) = true ∧
    Passing ((cx base).scratchAccs ldF) ((cx base).scratchConds ldF false) ∧ Passing ((cx base).scratchAccs ldF) ((cx base).scratchConds ldF true) ∧
    (let f := { atF with sp := true }
     (cx base).atomAccs f ≠ [] ∧
     Passing ((cx base).atomAccs f) [(0x03, Acc.aligned), (0x05, fun a => (base.core 0).inRange 0 a.va a.size)]) := by decide +kernel
theorem wit_AtomicLanesInOrder : atTyKind .f32 = .flt .f32 ∧ atTyKind .s32 = .int .s 32 := ⟨rfl, rfl⟩
/-- Addresses that are not aligned; then aligned ones outside every lease; then offsets outside the allocation. -/
def awry (x : Word) : State := st { team0 with lanes := team0.lanes.map fun l => { l with v := l.v.set 2 x } } (entry 0 0x100 1) id
theorem wit_MemoryChecksTrap : ∀ x ∈ [(0x41, (0x03 : BitVec 8)), (0x20000, 0x04)], let s := awry x.1
    Pl s ∧ May s ∧ (s.core 0).Idle ∧ (cx s).Passes ∧
    firstFail ((cx s).globalAccs p7 2 (.imm 0) 4 4) [(0x03, Acc.aligned), lease s true false] = some (x.2, 0, x.1.toNat) ∧
    firstFail ((cx s).storeAccs ldF) [(0x03, Acc.aligned), lease s false true, (0x06, (cx s).l1Writable s)] = some (x.2, 0, x.1.toNat) ∧
    (cx s).units p7 ≠ [] ∧
    firstFail ((cx s).atomAccs atF) [(0x03, Acc.aligned), lease s true true] = some (x.2, 0, x.1.toNat) := by decide +kernel
theorem wit_MemoryChecksTrap_range :
    firstFail ((cx (awry 0x41)).scratchAccs ldF) ((cx (awry 0x41)).scratchConds ldF false) = some (0x03, 0, 0x41) ∧
    firstFail ((cx (awry 4096)).scratchAccs ldF) ((cx (awry 4096)).scratchConds ldF false) = some (0x05, 0, 4096) := by decide +kernel
theorem wit_MemoryChecksTrap_mred :
    firstFail (((List.range 1).map ((cx (awry 0x41)).mcstAccs p7 2 6 4 4)).flatten) (cx (awry 0x41)).mcstConds = some (0x03, 0, 0x1C1) := by
  decide +kernel
theorem wit_FenceOrders : Pl base ∧ (base.core 0).Idle ∧ (cx base).Passes := ⟨wit_plain, by decide +kernel⟩

/-! ### Stash windows -/

def stashF : StashF := ⟨gp7, 5, 4, .reg 6, 0, false⟩
/-- g4 is the global base, g6 the window in the allocation. -/
def mapS (gbase soff slen : Nat) (f : Machine.Core → Machine.Core) : State :=
  st { team0 with g := (team0.g.set 4 (BitVec.ofNat 64 gbase)).set 6 (BitVec.ofNat 64 (soff + slen * 2 ^ 20)) } x0 f
abbrev MapAt (s : State) (gbase soff slen : Nat) : Prop := Pl s ∧ (cx s).takes stashF.c = true ∧ (cx s).acqBusy = false ∧
  ((tm s).rg 4).toNat = gbase ∧ (cx s).bval true 0 true .n stashF.b = soff + slen * 2 ^ 20
theorem wit_StashWindows : let s := mapS 4096 0 4096 id
    MapAt s 4096 0 4096 ∧ (s.core 0).leaseOk 0 4096 4096 true true = true ∧ (s.core 0).mapStatus 0 0 4096 0 4096 = 0 := by decide +kernel
theorem wit_StashWindows_empty : let s := mapS 4096 4096 0 id
    MapAt s 4096 4096 0 ∧ ((s.core 0).wins[0]?.getD StashWin.empty).valid = false := by decide +kernel
theorem wit_StashWindows_lease : let s := mapS 0x20000 0 32 id
    MapAt s 0x20000 0 32 ∧ (s.core 0).leaseOk 0 0x20000 32 true true = false := by decide +kernel
theorem wit_StashWindows_overlap : let s := mapS 4096 0 4096 fun k => { k with wins := k.wins.set 7 ⟨true, true, 3, 0, 32, 8160⟩ }
    MapAt s 4096 0 4096 ∧ ((s.core 0).wins[0]?.getD StashWin.empty).valid = false ∧
    ∃ v ∈ (s.core 0).wins.filter (·.valid), overlaps v.gbase v.slen 4096 4096 = true := by decide +kernel
/-- The window is the block's own: with a dirty sector and with none; and it is another block's. -/
def dirtyWin (block : Nat) (owned : BitVec 8) : State := mapS 4096 0 4096 fun k => { k with
  wins := k.wins.set 0 ⟨true, false, block, 0, 2048, 4096⟩, stash := [⟨4096, false, 0, 0, true, true, 9, 0xFF, owned, false⟩] }
abbrev OwnWin (s : State) : Prop := MapAt s 4096 0 4096 ∧ (s.core 0).Idle ∧ (cx s).seqFree s = true ∧
  ((s.core 0).wins[0]?.getD StashWin.empty).valid = true ∧ ((s.core 0).wins[0]?.getD StashWin.empty).block = (tm s).block
theorem wit_StashWindows_flush : OwnWin (dirtyWin 0 0x80) ∧ (let s := dirtyWin 0 0x80
    let s0 := s.setCore 0 ((cx s).takeSeq s 0).core
    (s0.stashFlush 0 { s0.identOf 0 0 with owner := (cx s).owner s } ((s.core 0).wins[0]?.getD StashWin.empty)).1.waitsFor ((cx s).owner s) = false) := by
  decide +kernel
theorem wit_StashWindows_clean : OwnWin (dirtyWin 0 0) ∧ (∀ y ∈ ((dirtyWin 0 0).core 0).stash, y.owned = 0) ∧
    (dirtyWin 0 0).held = [] ∧ (dirtyWin 0 0).rbuf = [] := by decide +kernel
theorem wit_StashWindows_other : MapAt (dirtyWin 1 0) 4096 0 4096 ∧
    (((dirtyWin 1 0).core 0).wins[0]?.getD StashWin.empty).block ≠ (tm (dirtyWin 1 0)).block := by decide +kernel

/-! ### Streams and barriers -/

def seqX (xs : List Nat) (fl : List MatOp) : Seq :=
  { Seq.empty with block := some 0, pc := 0x800, x := xs.map fun n => BitVec.ofNat 64 n, c := [1, 2, 3, 4, 5, 0, 7, 64], status := 0x1000, flight := fl }
/-- Context 0 of core 0 issues. -/
def str (q : Seq) : State := { on base (fun k => { k with seqs := [q, Seq.empty] }) with cur := .stream 0 0 }
def xs : List Nat := [0, 64, 64 + 64 * 2 ^ 32, 512, 128, 32 + 2 ^ 33, 1024, 0]
def op (id : Nat) (load : Bool) (acc : Nat) : MatOp :=
  ⟨id, load, .f32, acc, 0, 64, if load then 32 else 64 + 64 * 2 ^ 32, 0, 0, 0x800, [], some 0, false⟩
def calm : State := str (seqX xs [])
abbrev Sg0 (s : State) (q : Seq) : Prop := Streaming s 0 0 q 0
def barF : BarF := ⟨gp7, 5, 2, .imm 1, false⟩
theorem wit_StreamInstructionsAndStops : Sg0 calm (seqX xs []) ∧ (seqX xs []).flight = [] := by decide +kernel
/-- Three operations in flight: the most with which a stream issues. -/
theorem wit_StreamInstructionsAndStops_flight : let q := seqX xs [op 900 true 0, op 901 false 1, op 902 true 2]
    Sg0 (str q) q := by decide +kernel
/-- Object 255 begins at 4080, the last in the allocation; object 256 lies outside. -/
theorem wit_StreamInstructionsAndStops_range : (calm.core 0).inRange 0 (16 * 255) 16 = true ∧ (calm.core 0).inRange 0 (16 * 256) 16 = false ∧
    (windowed.core 0).winMeets 0 (16 * 127) 16 = true ∧ (windowed.core 0).winMeets 0 (16 * 128) 16 = false := by decide +kernel
/-- Fragment state at a barrier: EXPECT 2, PEND 2, PHASE 0 at object 2, waiting as said. -/
def atBar (bw : Option (Nat × Option Nat)) : State := st team0 { x0 with bw := bw } fun k => k.barInit 0 2 2
abbrev BarAt (s : State) : Prop := Pl s ∧ (s.core 0).Idle ∧ (cx s).Passes ∧ (cx s).takes gp7 = true ∧ (cx s).barBlock = 0 ∧
  (s.core 0).inRange 0 32 16 = true ∧ (s.core 0).winMeets 0 32 16 = false
theorem wit_BarrierInstructionsAndObjects : BarAt (atBar none) := by decide +kernel
theorem wit_BarrierInstructionsAndObjects_phase : let s := atBar none
    ((s.core 0).entry 0 0).bw = none ∧ (s.core 0).barField 0 2 3 ≠ (cx s).bval true 0 false .n (.imm 1) ∧
    (s.core 0).barField 0 2 3 = (cx s).bval true 0 false .n (.imm 0) := by decide +kernel
theorem wit_BarrierInstructionsAndObjects_released : BarAt (atBar (some (2, some 1))) := by decide +kernel
theorem wit_BarrierInstructionsAndObjects_stream : let q := seqX xs []
    let s := str q
    Sg0 s q ∧ (s.core 0).inRange 0 32 16 = true ∧ (s.core 0).winMeets 0 32 16 = false ∧ (s.core 0).rangeBusy 0 32 16 true = false ∧ q.bw = none ∧
    (s.core 0).barField 0 2 3 = 0 := by decide +kernel
theorem wit_BarrierInstructionsAndObjects_streamDone : let q := { seqX xs [] with bw := some (2, some 1) }
    Sg0 (str q) q := by decide +kernel
theorem wit_BarrierInstructionsAndObjects_object : (core.block? 0 = some block ∧ Memory.wf block.scratch = true ∧ 2 < 2 ^ 32) ∧
    (let k := core.barInit 0 2 2
     k.barField 0 2 1 - 1 ≠ 0 ∧ k.barField 0 2 1 - 2 = 0 ∧ k.barField 0 2 1 - 3 = 0 ∧ k.barField 0 2 2 = 0) := by decide +kernel
theorem wit_TransactionBarriers : Pl base ∧ (cx base).acqBusy = false ∧ (cx base).takes gp7 = true ∧ ((tm base).rg 2).toNat % 16 = 0 ∧
    (base.core 0).leaseOk 0 ((tm base).rg 2).toNat 16 true true = true ∧ (cx base).seqFree base = true ∧ (base.core 0).Idle ∧ (cx base).Passes ∧
    (cx base).tbAnswer = none := by decide +kernel
def tbR (kind : Nat) (done : Option (Option DWord)) : TbReq := ⟨40, kind, true, 0, 0, 0, 3, 0x100, 64, 1, 3, none, done⟩
def tbS (r : TbReq) : State := st team0 { x0 with op := some 40 } fun k => { k with tbs := [r] }
theorem wit_TransactionBarriers_answer : let s := tbS (tbR 2 (some (some 0)))
    Pl s ∧ (cx s).tbAnswer = some (tbR 2 (some (some 0)), some 0) ∧ (cx s).seqFree s = true ∧ ((tm s).rg 2).toNat % 16 = 0 ∧
    (s.core 0).leaseOk 0 ((tm s).rg 2).toNat 16 true true = true := by decide +kernel
theorem wit_TransactionBarrierSteps : ∀ kind ∈ [0, 1, 2], let s := tbS (tbR kind none)
    (s.core 0).tbs[0]? = some (tbR kind none) ∧ s.home (s.identOf 0 0).part 64 = .here 0 ∧ (s.core 0).earlier 40 0 64 = false := by decide +kernel
def idFor (s : State) (owner : Nat) (tag : Nat) : Ident := { s.identOf 0 0 with owner := owner, tag := tag }
theorem wit_TransactionBarrierSteps_init : (let s := tbS (tbR 0 none)
    let r := s.homePut (idFor s 40 (reqTag 0 0 0 3).toNat) 64 16 (tbInitNat 1)
    r.2.isNone = true ∧ r.1.waitsFor 40 = false) := by decide +kernel
theorem wit_TransactionBarrierSteps_read : (let s := tbS (tbR 1 none)
    let id := idFor s 40 (reqTag 0 0 0 3).toNat
    let rd := s.homeNat id 64 16
    fst' rd.2 = some 0 ∧ rd.1.waitsFor 40 = false ∧ (rd.1.homePut id 64 16 (tbArriveNat 0 1).1).2.isNone = true ∧
    (rd.1.homePut id 64 16 (tbArriveNat 0 1).1).1.waitsFor 40 = false) ∧ 0 / 2 ^ 96 % 2 ^ 32 ≠ (1 : Word).toNat := by
  decide +kernel
/-- The page of the object is homed on device 3. -/
theorem wit_TransactionBarrierSteps_away : let s := { tbS (tbR 0 none) with otable := [(0, 2 ^ 127 + 3 * 2 ^ 80)], ports := List.replicate 24 { Port.reset with up := true } }
    (s.core 0).tbs[0]? = some (tbR 0 none) ∧ s.home (s.identOf 0 0).part 64 = .away 3 0 ∧ (s.core 0).earlier 40 0 64 = false ∧
    s.reaches (reqTag 0 0 0 3).toNat (s.exitSlice (idFor s 40 (reqTag 0 0 0 3).toNat) 64) = true ∧ (s.plane 3 64).isSome = true := by decide +kernel
theorem wit_TransactionBarrierSteps_answer : let s := tbS (tbR 2 (some (some 0)))
    (s.core 0).tbs[0]? = some (tbR 2 (some (some 0))) ∧ ((s.core 0).entry 0 0).op = some 40 := by decide +kernel
/-- PEND 2 less 1, and less 2 and 3. -/
theorem wit_TransactionBarrierSteps_count : tbInitNat 2 < 2 ^ 128 ∧ tbInitNat 2 / 2 ^ 32 % 2 ^ 32 = 2 ∧ 2 > 1 ∧ 2 ≤ 2 ∧ 2 ≤ 3 := by decide +kernel

/-! ### Engines -/

def cplF : CplF := ⟨p7, .b64, 4, 2, .imm 0, 8, false⟩
def cpF : CopyF := ⟨gp7, false, 5, 8, .imm 64, 2, false, false, false, false⟩
abbrev CanCopy (s : State) : Prop := Pl s ∧ (cx s).seqFree s = true ∧ (s.core 0).sessions = [] ∧ (s.core 0).sectorsOut ≤ 2048 ∧ (cx s).takes gp7 = true
theorem wit_CopySessionsStart : CanCopy base := by decide +kernel
theorem wit_CopySessionsStart_cpl :
    let ls := ((cx base).part p7).map fun L =>
      (L, wrapN 64 (((tm base).rd false L true 2 : Int) + intVal .s 32 ((cx base).bval false L false .s (.imm 0))), (tm base).rd false L false 8)
    let es : List Extent := ls.flatMap fun y => [⟨y.1, y.2.1, 8, true, true, false⟩, ⟨y.1, y.2.2, 8, false, false, true⟩]
    ls ≠ [] ∧ ls.length ≤ 1024 ∧ ((cx base).extFail 8 es).isNone = true := by decide +kernel
/-- g8 = 512 and g9 = 576: 64 bytes; with a transaction barrier at g10 = 640 and object 2; and no byte at all. -/
theorem wit_CopySessionsStart_cp : (∀ n ∈ [64, 0], ((cx base).extFail 1
      ((([⟨teamWideLane, 512, n, true, false, true⟩, ⟨teamWideLane, 576, n, true, true, false⟩] : List Extent).filter fun y => decide (y.n > 0)) ++
        [⟨teamWideLane, 640, 16, true, true, true⟩])).isNone = true) ∧ ((tm base).rg 8).toNat = 512 ∧ ((tm base).rg 9).toNat = 576 ∧
    ((tm base).rg 10).toNat % 16 = 0 ∧ (cx base).barBlock = 0 ∧ (base.core 0).inRange 0 32 16 = true ∧ (base.core 0).winMeets 0 32 16 = false := by
  decide +kernel
/-- Two rows of 32 bytes, 64 apart. -/
def twoRows : State := st { team0 with g := (team0.g.set 10 (32 + 2 * 2 ^ 32)).set 11 (64 + 64 * 2 ^ 32) } x0 id
theorem wit_CopySessionsStart_cp2d : CanCopy twoRows ∧ ((tm twoRows).rg 10).toNat % 2 ^ 32 = 32 ∧ ((tm twoRows).rg 10).toNat / 2 ^ 32 = 2 ∧
    intVal .s 32 ((tm twoRows).rg 11).toNat = 64 ∧ rowAddr false 512 64 1 = 576 ∧
    ((cx twoRows).extFail 1 ([⟨teamWideLane, 512, 32, true, false, true⟩, ⟨teamWideLane, 576, 32, true, true, false⟩,
      ⟨teamWideLane, 576, 32, true, false, true⟩, ⟨teamWideLane, 640, 32, true, true, false⟩])).isNone = true := by decide +kernel
/-- Eight elements of two bytes. -/
theorem wit_CopySessionsStart_cpz :
    ((cx base).extFail 1 [⟨teamWideLane, 512, 32, true, false, true⟩, ⟨teamWideLane, 576, 4, true, false, true⟩,
      ⟨teamWideLane, 640, 64, true, true, false⟩]).isNone = true ∧
    ((cx base).extFail 1 [⟨teamWideLane, 512, 64, true, false, true⟩, ⟨teamWideLane, 576, 32, true, true, false⟩,
      ⟨teamWideLane, 640, 4, true, true, false⟩]).isNone = true := by decide +kernel
theorem wit_CopySessionsStart_scat : (cx base).part p7 = 0 :: [1, 2, 3] ∧ (((tm base).lane 0).r2 0).toNat % 4 = 0 ∧
    (((tm base).lane 0).r2 2).toNat % 8 = 0 ∧ ((tm base).lane 0).r 6 = 384 ∧
    ((cx base).extFail 1 [⟨0, (((tm base).lane 0).r2 0).toNat, 4 * 384, true, true, false⟩,
      ⟨0, (((tm base).lane 0).r2 2).toNat, 8 * 384, true, true, false⟩]).isNone = true := by decide +kernel
def ses : Session :=
  { id := 50, kind := .cp 512 1024 32, ds := false, ss := false, major := 0x2D, minor := 0, slot := 0, block := 0, lslot := 0, seq := 3, pc := 0x100
    dest := [.g 5], bar := none, barBlk := 0, tbar := none, mute := false, ranges := [(true, 512, 32)], done := 0, codes := [], fault := none
    wrote := [], arriving := false }
def copying : State := st { team0 with busy := [.g 5] } x0 fun k => { k with sessions := [ses] }
theorem wit_SessionsEnd : (copying.core 0).sessions[0]? = some ses ∧ (copying.core 0).sessionReady ses = true ∧ copying.sessionHeld 0 ses = false := by
  decide +kernel
theorem wit_SessionsEnd_move : let r := copying.sessionMove 0 ses ses.pieces.length
    r.lease.isNone = true ∧ r.s.arrivesAway 0 r.x = false ∧
    (r.s.endSession 0 r.x (ses.dest.map fun _ => r.x.codes.headD 0) r.x.fault r.x.globals).waitsFor 50 = false := by decide +kernel
def arrived' : Session := { ses with arriving := true }
theorem wit_SessionsEnd_arriving : let s := st { team0 with busy := [.g 5] } x0 fun k => { k with sessions := [arrived'] }
    (s.core 0).sessions[0]? = some arrived' ∧ (s.core 0).sessionReady arrived' = true ∧ s.sessionHeld 0 arrived' = false ∧ arrived'.arriving = true ∧
    (s.endSession 0 arrived' arrived'.results arrived'.fault arrived'.globals).waitsFor 50 = false := by decide +kernel
/-- A session that has moved its data and is to arrive at device 3. -/
def tbarX : Session := { ses with tbar := some 0x20000 }
theorem wit_SessionsEnd_away : let s := { st { team0 with busy := [.g 5] } x0 (fun k => { k with sessions := [tbarX] }) with
      otable := [(0, 2 ^ 127 + 3 * 2 ^ 80 + 2 * 2 ^ 40 + 2)] }
    let r := s.sessionMove 0 tbarX tbarX.pieces.length
    (s.core 0).sessions[0]? = some tbarX ∧ (s.core 0).sessionReady tbarX = true ∧ s.sessionHeld 0 tbarX = false ∧ r.lease.isNone = true ∧
    r.s.arrivesAway 0 r.x = true ∧ r.s.waitsFor 50 = false := by decide +kernel
def cancelled : State := st team0 x0 fun k => { k with
  sessions := [ses], cyc := 2 ^ 20 + 5, blocks := k.blocks.set 0 (some { block with bcast := some 5 }) }
theorem wit_SessionsEnd_cancel : ((cancelled.core 0).block? 0).map (·.bcast) = some (some 5) ∧ 5 + 2 ^ 20 ≤ (cancelled.core 0).cyc.toNat ∧
    cancelled.blockCancels 0 0 = true := by decide +kernel
theorem wit_SessionsEnd_groups : [1, 0, 2, 0].length = 4 ∧ 4 % 4 < 4 / 4 % 4 ∧ 14 % 4 < 14 / 4 % 4 := by decide
/-- Handle 1 names a dense matrix of 4 rows of 8 words, 32 bytes apart, at 0x100. -/
def gathS : State :=
  { st team0 x0 (fun k => { k with lslots := k.lslots.set 0 (some { lslot with htab := lslot.htab.set 1 0x800 } ) }) with
    mem := [(0x1007, 0x80), (0x200F, 0x80), (0x10800, 1), (0x10801, 2), (0x10809, 1), (0x10810, 4), (0x10814, 8), (0x10818, 32)] }
def gathF : GathF := ⟨p7, 4, 1, .reg 3, 2, 1, false⟩
theorem wit_GatherAndIntersect : Pl gathS ∧ (cx gathS).acqBusy = false ∧ (cx gathS).part p7 ≠ [] := by decide +kernel
/-- What the issuing instruction asks of other devices is asked under this name, and the tag its requests carry. -/
def own (s : State) : Nat := (cx s).owner s
def nextTag : Nat := (reqTag 0 0 0 (team0.seq + 1)).toNat
/-- The state in which the instruction has taken the next SEQ, and the name under which it then asks. -/
def taken (s : State) : State := s.setCore 0 ((cx s).takeSeq s 0).core
def takenId (s : State) (tag : Nat) : Ident := { (taken s).identOf 0 0 with owner := own s, tag := tag }
def gathOn (s : State) : Cx := (cx s).takeSeq s (maskOf [0, 1, 2, 3])
def gathId (s : State) : Ident := { (s.setCore 0 (gathOn s).core).identOf 0 0 with owner := own s, tag := nextTag }
def gathD (s : State) : GSt × TDesc := (gathOn s).gathDesc (s.setCore 0 (gathOn s).core) (gathId s) 1
theorem wit_GatherAndIntersect_desc : let gd := gathD gathS
    gd.1.bad.isNone = true ∧ (gathS.core 0).leaseOk 0 gd.2.base gd.2.span true false = true ∧ gd.2.known = true ∧ gd.2.valid = true ∧ gd.2.kind = 1 ∧
    gd.2.rows = 4 ∧ gd.2.cols = 8 ∧ gd.2.wide = false ∧ (cx gathS).seqFree gathS = true := by decide +kernel
theorem wit_GatherAndIntersect_lanes : let gd := gathD gathS
    let a := (gathOn gathS).gathLanes gathF (gathId gathS) gd.2 [0, 1, 2, 3] gd.1
    a.g.bad.isNone = true ∧ a.faults.isEmpty = true ∧ a.g.watched.isEmpty = true ∧ a.g.s.waitsFor (own gathS) = false := by decide +kernel
theorem wit_GatherAndIntersect_absent : (⟨0⟩ : TDesc).known = false := by decide +kernel

/-! ### The matrix engine -/

theorem wit_MatrixInstructions : Pl base ∧ (base.core 0).Idle ∧ (cx base).takes gp7 = true ∧ (base.core 0).ctxOf (tm base).block = some 0 ∧
    seqState ((base.core 0).seqs[0]?.getD Seq.empty).status ≠ 1 ∧ (cx base).bval true 0 true .n (.imm 4) % 4 = 0 := by decide +kernel
def noCtx : State := st team0 x0 fun k => { k with blocks := k.blocks.set 0 (some { block with seq := none }) }
theorem wit_MatrixInstructions_none : Pl noCtx ∧ (noCtx.core 0).Idle ∧ (noCtx.core 0).ctxOf (tm noCtx).block = none := by decide +kernel
def busyCtx : State := st team0 x0 fun k => { k with seqs := [seqX xs [], { seqX xs [] with status := 0x2000 }] }
theorem wit_MatrixInstructions_busy : Pl busyCtx ∧ (busyCtx.core 0).Idle ∧ (busyCtx.core 0).ctxOf (tm busyCtx).block = some 0 ∧
    seqState ((busyCtx.core 0).seqs[0]?.getD Seq.empty).status = 1 ∧ seqState (0x2000 : Word) = 2 := by decide +kernel
def sx : Sx := ⟨0, 0, calm.core 0, seqX xs [], 0⟩
abbrev rowsAt (a pitch : Nat) : List Nat := (List.range 128).map fun r => (a + r * pitch) % 2 ^ 64
/-- The last accumulator; and the last pair for f64. -/
theorem wit_MatrixInstructions_mzero : Sg0 calm (seqX xs []) ∧ (calm.core 0).accTyOk 0 .f32 3 = true ∧ sx.accBusy 3 = false ∧
    (calm.core 0).accTyOk 0 .f64 2 = true ∧ sx.accBusy 2 = false := by decide +kernel
/-- x1 = 64 is the address, x5 the pitch 32. -/
theorem wit_MatrixInstructions_mld : 64 % 32 = 0 ∧ (∀ a ∈ rowsAt 64 32, sx.leased a 512 true false = true) ∧
    ∀ a ∈ rowsAt 64 32, sx.leased a 1024 true false = true := by decide +kernel
theorem wit_MatrixInstructions_mmul : 3 < ((calm.core 0).grant 0).2 ∧ (seqX xs []).flight.length < 4 ∧ sx.leased 0 64 true false = true ∧
    (∀ a ∈ rowsAt 64 64, sx.leased a 64 true false = true) ∧
    (let id := { calm.identBlk 0 0 with owner := streamOwner 0 0 }
     let r1 := calm.blockCode id 0
     let r2 := r1.1.blockCode id 64
     r2.1.waitsFor id.owner = false ∧
     ∀ a ∈ rowsAt 0 64, ({ sx with k := r2.1.core 0 } : Sx).leased a (64 * rowBlocks r1.2 r2.2) true false = true) := by decide +kernel
theorem wit_MatrixInstructions_mout : sx.readsPending ((rowsAt 64 32).map fun a => (a, moutRowLen 0 false)) = false ∧ sx.pairBad 3 = false ∧
    (∀ a ∈ rowsAt 64 32, sx.leased a (moutRowLen 0 false) false true = true) ∧ sx.leased 0 512 true false = true ∧
    sx.readsPending [(64, 1024)] = false ∧ sx.leased 64 1024 false true = true := by decide +kernel
/-- What `mstat` writes and `mout` of one row, and where they end. -/
theorem wit_MatrixInstructions_end : let id := { calm.identBlk 0 0 with owner := streamOwner 0 0 }
    let w := calm.writeRows id (((List.range 128).map ((calm.core 0).mstatRow 3)).mapIdx fun r o => (64 + 8 * r, o.1))
    w.1.waitsFor id.owner = false ∧ w.2.isNone = true := by decide +kernel
theorem wit_MatrixInstructions_moutEnd : let id := { calm.identBlk 0 0 with owner := streamOwner 0 0 }
    let out := (List.range 128).map fun r => moutRow (calm.core 0) 3 r (Fmt.f32.decode 2) (fun j => Fmt.f32.decode ((List.replicate 128 0)[j]?.getD 0)) .none 0 false
    let w := calm.unpin.writeRows id ((rowsAt 64 32).zip (out.map (·.1)))
    w.1.waitsFor id.owner = false ∧ w.2.isNone = true := by decide +kernel
/-- A load that is ready, and a product whose turn it is, both with every row at one address. -/
def ready (o : MatOp) (busy : Nat) : State := str' (seqX xs [o]) busy
where str' (q : Seq) (busy : Nat) : State := on (str q) fun k => { k with engBusy := busy, cyc := 5 }
def opL : MatOp := { op 900 true 0 with xc := 0 }
def opM : MatOp := { op 900 false 0 with xc := 0 }
theorem wit_MatrixEngineSteps_load : let s := ready opL 5
    (s.core 0).seqs[0]? = some (seqX xs [opL]) ∧ (s.core 0).doneOp 0 = some (0, opL) ∧ (seqX xs [opL]).block = some 0 := by decide +kernel
theorem wit_MatrixEngineSteps_mul : let s := ready opM 5
    (s.core 0).seqs[0]? = some (seqX xs [opM]) ∧ (s.core 0).doneOp 0 = some (0, opM) := by decide +kernel
def readsM : State × List Nat × Option (BitVec 8 × Nat) :=
  let s := ready opM 5
  s.readAll { s.identBlk 0 0 with owner := 900 } 64 (blocksA opM.xa 0 (rowBlocks 0 0) ++ blocksB opM.xb 0)
theorem wit_MatrixEngineSteps_read : readsM.2.2.isNone = true ∧ readsM.1.unpin.waitsFor 900 = false ∧
    ((readsM.1.unpin.core 0).seqs[0]?.getD Seq.empty).stopping.isNone = true := by decide +kernel
def pinned : State := base.setSlice 0 { base.slice 0 with pins := [⟨0, 0, 900, 4 * 2 ^ 20 - 4096, true⟩, ⟨0, 0, 901, 4096, false⟩] }
theorem wit_MatrixEngineSteps_pin : (pinned.slices[0]?).map (·.pins.find? fun p => !p.granted) = some (some ⟨0, 0, 901, 4096, false⟩) ∧
    (((pinned.slice 0).pins.filter (·.granted)).map (·.bytes)).sum + 4096 ≤ 4 * 2 ^ 20 := by decide +kernel
/-- An engine that has been idle long enough to start cold, after another start 16 clocks before. -/
def cold : State := { on (str (seqX xs [opM])) (fun k => { k with cyc := 100000 }) with clock := 100, surge := [(0, 84, 0), (1, 100, 3)] }
theorem wit_MatrixEngineSteps_cold : 0 ∈ clusterCores 0 ∧ 0 < cold.cores.length ∧ (cold.core 0).coldWait = some (0, 0) ∧
    (cold.core 0).seqs[0]? = some (seqX xs [opM]) ∧ (seqX xs [opM]).readyOp = some (0, opM) ∧
    (∀ d ∈ clusterCores 0, d ≠ 0 → (cold.core d).coldWait = none) ∧ (∀ g ∈ cold.surge, g.1 = 0 → g.2.1 + 16 ≤ cold.clusterClock 0) := by
  decide +kernel
/-- Pairings of each kind and none, an even and an odd pair, and operands of the lengths a product takes. -/
theorem wit_MatrixEngineSteps_product : ((calm.core 0).grant 0).1 + 1 + 1 < (calm.core 0).accs.length ∧ pairing 1 2 = none ∧ pairing 4 6 = some .f32 ∧
    pairing 0xC 0xD = some .s32 ∧ pairing 1 1 = some .f64 ∧ (calm.core 0).f64Ok 0 0 = true ∧ (calm.core 0).f64Ok 0 1 = false ∧
    (List.replicate 512 0).length = 128 * rowBlocks 4 0xF ∧ (List.replicate 128 0).length = 128 := by decide +kernel
theorem wit_MatrixEngineSteps_block : blkMult 4 0 = none ∧ blkMult 30 30 = none ∧ (blkMult 6 6).isSome = true ∧ (blkMult 0x11 0x7F11) = none ∧
    (blkMult 0x11 0x7E11).isSome = true := by decide +kernel
def infOf (ps : List (FV × FV)) (old : FV) (n : Bool) : Bool := decide (old = .inf n) || ps.any fun p => !p.1.isNaN && !p.2.isNaN &&
  !invalidProduct p.1 p.2 && (decide (p.1 = .inf true ∨ p.1 = .inf false) || decide (p.2 = .inf true ∨ p.2 = .inf false)) &&
  decide ((p.1.isNeg != p.2.isNeg) = n)
/-- Infinity times zero; infinities of both signs; a NaN beside an infinity; an infinity of each sign; finite values, and integers. -/
theorem wit_MatrixEngineSteps_sums : let one : FV := .fin false 1 0
    let inv := ((.inf false, .fin true 0 0) : FV × FV)
    invalidProduct inv.1 inv.2 = true ∧ infOf [(.inf true, one)] (.inf false) true = true ∧ infOf [(.inf true, one)] (.inf false) false = true ∧
    (infOf [(.nan false, .inf true)] (.inf true) true = true ∧ infOf [(.nan false, .inf true)] (.inf true) false = false ∧
      invalidProduct (.nan false) (.inf true) = false) ∧
    (infOf [(.inf true, one)] one true = true ∧ infOf [(.inf true, one)] one false = false ∧ infOf [(one, one)] (.inf false) false = true ∧
      infOf [(one, one)] (.inf false) true = false) ∧
    infOf [(one, .fin true 3 (-2))] one true = false ∧ infOf [(one, .fin true 3 (-2))] one false = false := by decide +kernel
/-- A format of whole bytes and one that is not. -/
theorem wit_MatrixInstructions_rows : (blkFmt 8).map (·.width % 8) = some 0 ∧ (blkFmt 0x14).map (·.width % 8) = some 3 ∧
    ((calm.core 0).acc 0).tag = 0 := by decide +kernel

/-! ### Deques, Moraine, walks -/

/-- A deque of eight at address 0 with its ring at 0x100. -/
def dqMem (top bottom : Nat) : List Host.Cell := memPutNat [(0x1007, 0x80), (0x200F, 0x80)] 0x10000 32 (0x100 + top * 2 ^ 64 + bottom * 2 ^ 96 + 3 * 2 ^ 128)
def dqR (kind : Nat) : DqReq := ⟨80, kind, 0, 0, 0, 3, 0x100, 0, 0, 4242, 5, 1, none⟩
def dqS (kind top bottom : Nat) : State := { st team0 x0 (fun k => { k with dqs := [dqR kind] }) with mem := dqMem top bottom }
theorem wit_DequeInstructionsAndSteps : Pl base ∧ (cx base).acqBusy = false ∧ (cx base).takes gp7 = true ∧ ((tm base).rg 0).toNat % 32 = 0 ∧
    (base.core 0).leaseOk 0 ((tm base).rg 0).toNat 32 true true = true ∧ (cx base).seqFree base = true ∧ (base.core 0).Idle ∧ (cx base).Passes := by
  decide +kernel
theorem wit_DequeInstructionsAndSteps_step : let s := dqS 1 0 3
    s.dqWaiting 0 = [(0, dqR 1)] ∧ s.home (s.identOf 0 0).part 0 = .here 0 ∧ (s.dqApply (s.identOf 0 0) 1 0 4242).2.isLeft = true := by
  decide +kernel
/-- Malformed, full, empty, with one element, one short of full, and with the counters about to wrap. -/
theorem wit_DequeInstructionsAndSteps_heads :
    (∀ x ∈ [(0, 8, true, 8), (3, 3, true, 0), (0xFFFFFFFF, 0, true, 1), (5, 12, true, 7), (0, 9, false, 9)], let s := dqS 0 x.1 x.2.1
      let r := s.homeNat (s.identOf 0 0) 0 32
      (fst' r.2).map (fun v => ((dqHead v).wf 0, (dqHead v).count, (dqHead v).cap)) = some (x.2.2.1, x.2.2.2, 8)) ∧
    (let s := dqS 0 0xFFFFFFFF 0
     let id := s.identOf 0 0
     (s.homePut id (0x100 + 8 * (0 % 8)) 8 4242).2.isNone = true ∧ (s.homePut id 8 8 (0xFFFFFFFF + 1 * 2 ^ 32)).2.isNone = true ∧
     (fst' (s.homeNat id (0x100 + 8 * 7) 8).2).isSome = true) := by decide +kernel
/-- Handle 1 names a Moraine descriptor at 0x800: b32, one row, 2^32 - 1 columns, output 0x4000. -/
def mgMem (kind : Byte) : List Host.Cell :=
  [(0x1007, 0x80), (0x200F, 0x80), (0x10800, kind), (0x10809, 0x40), (0x10810, 1), (0x10814, 255), (0x10815, 255), (0x10816, 255), (0x10817, 255)]
def mgSess (state : Nat) : MgSess :=
  { part := 0, q := 0, idx := 0, asid := 0, sdom := 0, handle := 1, state := state, ety := 0, out := 0x4000, outlen := 0, rows := 1, cols := 4294967295
    cap := 4, result := 0, ents := [], regions := [], runs := [], nruns := 0, seqs := [(255, 2 ^ 24 - 1), (7, 2 ^ 24)], accepted := 0, dropped := 0
    flags := 0, outcome := 0, need := 0, drain := none }
def mgS (kind : Byte) (ms : List MgSess) : State :=
  { (st team0 x0 (fun k => { k with lslots := k.lslots.set 0 (some { lslot with htab := lslot.htab.set 1 0x800 } ) })).setSlice 0
      { slice with mg := ms } with mem := mgMem kind }
def mgRef (s : State) (h : Nat) : Option MgRef := ((s.core 0).lslotOf 0).bind fun l => s.mgRef l h
theorem wit_MoraineInstructions : ∀ n ∈ [0, 1, 3, 4, 5], let s := mgS 0x10 (if n = 0 then [] else [mgSess n])
    Pl s ∧ (s.core 0).Idle ∧ (cx s).Passes ∧ (cx s).part p7 ≠ [] ∧ (cx s).takes gp7 = true ∧ (cx s).seqFree s = true ∧
    (mgRef s 0).isNone = true ∧ (mgRef s 1).isSome = true ∧ s.unitReached (reqTag 0 0 0 0).toNat 0 = true ∧ (((mgRef s 1).bind s.mgFind).map (·.state)) = if n = 0 then none else some n := by
  decide +kernel
theorem wit_MoraineInstructions_add : 4096 % 32 = 0 ∧ 32 ≠ 0 ∧ ((mgS 0x10 [mgSess 1]).core 0).leaseOk 0 4096 32 true true = true ∧
    (mgSess 3).regions.length < 8 := by decide +kernel
theorem wit_MoraineInstructions_open : ∀ x ∈ [((0x10 : Byte), true), (0x11, false)], let s := mgS x.1 []
    let got := (taken s).homeReadAt { (taken s).identOf 0 0 with owner := own s } 0x800 64
    got.1.waitsFor (own s) = false ∧
    (fst' got.2).map (fun bs => ((⟨leBytes bs⟩ : TDesc).mgWf, (⟨leBytes bs⟩ : TDesc).field 32 8)) = some (x.2, 0) := by decide +kernel
theorem wit_MoraineInstructions_full : ((mgS 0x10 ((List.range 16).map fun i => { mgSess 1 with handle := 20 + i })).slice 0).mg.length = 16 ∧
    (((mgRef (mgS 0x10 ((List.range 16).map fun i => { mgSess 1 with handle := 20 + i })) 1).bind
      (mgS 0x10 ((List.range 16).map fun i => { mgSess 1 with handle := 20 + i })).mgFind).isNone = true) := by decide +kernel
def put : Put := ⟨70, 0, 3, 0x100, 0, 0, 0, 0, 1, false, [(0, 0, 4294967294, 255, 8)], none⟩
def putS : State := on (mgS 0x10 [mgSess 1]) fun k => { k with puts := [put] }
theorem wit_MoraineSteps : (putS.core 0).puts.find? (fun p => p.held.isNone) = some put ∧ put.ref.isSome = true ∧
    putS.unitReached (reqTag 0 0 0 3).toNat 0 = true ∧ (put.ref.map fun r => (State.mgApply r 70 false put.ents putS).1.waitsFor 70) = some false := by
  decide +kernel
/-- The last row, column, stream and sequence number; and one past each. -/
theorem wit_MoraineSteps_entry : (put.ref.bind putS.mgFind).map (·.state) = some 1 ∧ (mgSess 1).drops false 0 4294967294 255 = none ∧
    (putS.slice 0).mgMustSpill (mgSess 1) = false ∧ (mgSess 1).seqOf 255 < 2 ^ 24 ∧ (mgSess 1).drops false 0 0 256 = some 1 ∧
    (mgSess 1).drops false 1 0 255 = some 2 ∧ (mgSess 1).drops true 0 0 255 = some 4 ∧ (mgSess 1).drops false 0 0 7 = some 8 := by decide +kernel
def drained : MgSess := { mgSess 4 with drain := some (0, 0, 3, 0x100, 5) }
theorem wit_MoraineSteps_drain : let s := mgS 0x10 [drained]
    let owner := 2 ^ 62 + (64 * 0 + 0) * 65536 + 3
    (s.slice 0).mg[0]? = some drained ∧ s.unitReached noTag 0 = true ∧
    (s.drainRun (drained.ident s owner) drained).1.waitsFor owner = false := by decide +kernel
/-- A run at an address with no page, a run of zeros, an image too long, one that fits, and an output or a RESULT with no page. -/
theorem wit_MoraineSteps_runs : ∀ x ∈ [((2 ^ 40, 1, 0, 0x4000, 0) : Nat × Nat × Nat × Nat × Nat), (0x4000, 1, 0, 0x4000, 1), (0, 0, 0, 0x4000, 2),
      (0, 0, 65536, 0x4000, 3), (0, 0, 65536, 2 ^ 40, 4)], let s := mgS 0x10 []
    let m := { mgSess 4 with regions := [⟨x.1, 4096, 0, true⟩], runs := List.replicate x.2.1 (0, 0, 1), ents := [⟨0, 9, 255, 0, 5⟩]
                             out := x.2.2.2.1, outlen := x.2.2.1 }
    let r := s.mgRuns (m.ident s 80) m
    let y := mgImage m.wide (mgMerge m.ety (mgSort (r.2.1 ++ m.ents)))
    let w := r.1.homeWrite (m.ident s 80) m.out y.1
    let w' := w.1.homeWrite (m.ident s 80) (2 ^ 40) (mgResultDesc m 1 1 1 1 y.1.length)
    r.2.2.2.isSome = decide (x.2.2.2.2 = 0) ∧ r.2.2.1 = decide (x.2.2.2.2 = 1) ∧ decide (y.1.length ≤ m.outlen) = decide (3 ≤ x.2.2.2.2) ∧
    w.2.isSome = decide (x.2.2.2.2 = 4) ∧ w'.2.isSome = true := by decide +kernel
theorem wit_MoraineSteps_sorted : [(⟨3, 9, 1, 0, 5⟩ : MgEnt), ⟨3, 9, 1, 1, 5⟩, ⟨4, 0, 0, 0, 1⟩].Pairwise (fun a b => mgKey a ≤ mgKey b) ∧
    [((0, 0, 1) : Nat × Nat × Nat), (0, 4294967295, 2), (4294967295, 1, 4294967295)].Pairwise
      (fun a b => a.1 < b.1 ∨ (a.1 = b.1 ∧ a.2.1 < b.2.1)) := by decide +kernel
theorem wit_MoraineSteps_result : (mgSess 4).ety < 256 ∧ (mgSess 4).out < 2 ^ 64 ∧ (mgSess 4).rows < 2 ^ 32 ∧ (mgSess 4).cols < 2 ^ 32 := by decide +kernel
def walkF : WalkF := ⟨p7, 4, 2, .imm 0, 8, 0⟩
def walk (kind : WalkKind) (x n lo hi h : Nat) : Walk :=
  ⟨90, kind, 0, 0, 0, 1, 3, 0x100, 4, BitVec.ofNat 64 x, 7, 0, n, lo, hi, none, h, 0x800, none, [], none, 0, false⟩
def walkS (w : Walk) : State :=
  (st { team0 with busy := [.v 1 4, .v 1 5, .v 1 6] } x0 (fun k => { k with walks := [w] })).setSlice 0
    { slice with leases := [⟨0, 0, false, 0, 0, 0, 3, none⟩] }
theorem wit_Walks : Pl base ∧ (cx base).part p7 ≠ [] ∧ (base.core 0).walks.length + ((cx base).part p7).length ≤ 1024 ∧ (cx base).seqFree base = true := by
  decide +kernel
abbrev HopAt (w : Walk) (r : Bool) : Prop := ((walkS w).core 0).walks[0]? = some w ∧ w.away = none ∧
  ((walkS w).core 0).blockStopping w.block = false ∧ ((walkS w).core 0).behind w.id w.slot w.seq = r ∧
  (walkS w).islandOn (islandSerac + w.slice) = true ∧
  ((walkS w).walkStep none w { (walkS w).identOf 0 w.slot with owner := w.id, tag := (reqTag 0 0 w.slot w.seq).toNat }).1.waitsFor w.id = false
def stepOf (w : Walk) : Nat :=
  match ((walkS w).walkStep none w { (walkS w).identOf 0 w.slot with owner := w.id, tag := (reqTag 0 0 w.slot w.seq).toNat }).2 with
  | .go _ => 0
  | .stop _ code => 16 + code
  | .fault _ cls _ => 256 + cls.toNat
  | .forward _ => 1
  | .leave _ _ => 2
theorem wit_Walks_hop : HopAt (walk .chase 0x100 65535 0 65535 65534) false ∧ (walk .chase 0x100 65535 0 65535 65534).nextVa = some 0x100 ∧
    (walkS (walk .chase 0x100 5 0 5 0)).home 0 0x100 = .here 0 ∧ HopAt { walk .chase 0x100 5 0 5 0 with slice := 3 } false := by decide +kernel
/-- Hop counts at and over the limit, the last hop done, a null and an unaligned pointer, and a read. -/
theorem wit_Walks_chase : stepOf (walk .chase 0x100 65536 0 0 0) = 22 ∧ stepOf (walk .chase 0x100 65535 0 0 65535) = 16 ∧
    stepOf (walk .chase 0 5 0 0 4) = 19 ∧ stepOf (walk .chase 0x104 5 0 0 4) = 20 ∧ stepOf (walk .chase 0x100 5 0 0 4) = 19 := by decide +kernel
theorem wit_Walks_rnd : stepOf { walk .rnd 0 5 0 0 0 with desc := 0 } = 21 ∧ stepOf (walk .rnd 0 5 0 0 0) = 21 ∧ stepOf (walk .rnd 0 0 0 0 0) = 16 := by
  decide +kernel
/-- A graph of two vertices and four edges with ROWPTR at 0x100 and COLIDX at 0x140: vertex 1 and vertex 2, row bounds in and out of order. -/
def graph : Nat := 0x100 * 2 ^ 64 + 2 * 2 ^ 128 + 0x140 * 2 ^ 192 + 4 * 2 ^ 256
theorem wit_Walks_rndRow : (⟨graph⟩ : TDesc).field 16 4 = 2 ∧ (⟨graph⟩ : TDesc).field 32 8 = 4 ∧
    stepOf { walk .rnd 2 5 0 0 0 with hdr := some graph } = 20 ∧ stepOf { walk .rnd 1 5 0 0 0 with hdr := some graph } = 0 ∧
    stepOf { walk .rnd 1 5 0 0 0 with hdr := some graph, got := [3] } = 0 ∧ stepOf { walk .rnd 1 5 0 0 0 with hdr := some graph, got := [4, 4] } = 19 ∧
    stepOf { walk .rnd 1 5 0 0 0 with hdr := some graph, got := [4, 3] } = 20 ∧
    stepOf { walk .rnd 1 5 0 0 0 with hdr := some graph, got := [3, 5] } = 20 ∧
    stepOf { walk .rnd 1 5 0 0 0 with hdr := some graph, got := [3, 4] } = 0 := by decide +kernel
theorem wit_Walks_seek : stepOf (walk .seek 0x100 8 4 4 3) = 16 ∧ stepOf (walk .seek 0x100 8 4 5 2) = 0 ∧ 0x100 % 4 = 0 := by decide +kernel

/-! ### The core's own steps and the memory side -/

def regF : DAB := ⟨gp7, 2, 9, .imm 1⟩
def inSet (set : Nat) (mask : Nat) : State := st { team0 with g := team0.g.set 9 (BitVec.ofNat 64 set) } (entry 0 0x100 mask) id
theorem wit_RegroupAndIssueSteps : ∀ x ∈ [(1, 15, true), (2, 15, false), (0xFFFFFFFF, 15, true)], let s := inSet x.1 x.2.1
    Pl s ∧ (s.core 0).Idle ∧ (cx s).Passes ∧ (cx s).takes gp7 = true ∧ ((s.core 0).entry 0 0).mask = (s.core 0).allLanes 0 (tm s) ∧
    (((tm s).rg 9).setWidth 32).getLsbD (tm s).num = x.2.2 := by decide +kernel
/-- A second fragment holds lane 3. -/
def apart : State := st team0 (entry 0 0x100 7) fun k => k.setEntry 0 5 (entry 0 0x200 8)
theorem wit_RegroupAndIssueSteps_apart : Pl apart ∧ (apart.core 0).Idle ∧ ((apart.core 0).entry 0 0).mask ≠ (apart.core 0).allLanes 0 (tm apart) := by
  decide +kernel
/-- Teams 0 and 1 of a block have arrived, at one place or not. -/
def arrived (pc : Nat) : State :=
  st { team0 with mode := .regrp, arrival := some ⟨0x100, 8, 3, 1, 2⟩ } x0 fun k =>
    { (k.setTeam 1 { team0 with num := 1, mode := .regrp, arrival := some ⟨BitVec.ofNat 56 pc, 8, 3, 1, 2⟩ }).setEntry 0 1 (entry 1 pc 1) with
      blocks := k.blocks.set 0 (some { block with slots := [0, 1] }) }
def membersAt (s : State) : Option (List (PCWord × Word)) :=
  match (s.core 0).team? 0 with
  | some t => t.arrival.bind fun a => ((s.core 0).group t a).map fun g => g.map fun m => (m.arr.pc, m.arr.set)
  | none => none
theorem wit_RegroupAndIssueSteps_group : (tm (arrived 0x100)).mode = .regrp ∧ membersAt (arrived 0x100) = some [(0x100, 3), (0x100, 3)] ∧
    membersAt (arrived 0x108) = some [(0x100, 3), (0x108, 3)] := by decide +kernel
def dueEntry : Entry := { x0 with pend := [⟨0, [.g 3], [.g 3 7], 0, true⟩, ⟨1, [.g 4], [.g 4 7], 2, true⟩], age := 256 }
theorem wit_RegroupAndIssueSteps_late : let x := ((st team0 dueEntry id).core 0).entry 0 0
    x.st ≠ .free ∧ x.pend.any (fun p => decide (p.left = 0) && p.ready) = true ∧ ((st team0 dueEntry id).core 0).team? x.team = some team0 ∧
    x.st = .running ∧ x.boost = none ∧ 256 ≤ x.age := by decide +kernel
/-- The line of address 128 stands in the slice's L2. -/
def filled : State := match base.ensure 0 (base.identOf 0 0) 128 true true with
  | .ok s _ => s
  | .bad s _ => s
def hitKey : Staged → Option Nat
  | .hit key => some key
  | _ => none
def loadReq : Req := ⟨60, .load false false false false, 0, 0, 0, 3, 0x100, 0, 1, [⟨0, 128, 4, 4, 0, 0⟩], 0, 0, [], [], [128], [], []⟩
def storeEnt : StoreEnt := ⟨61, 0, 3, 0x100, 0, 128, 0xF, 5, [⟨0, 128, 4, 4, 5, 0⟩], false, 0, 0, none, false, false, true⟩
def atomReq : Req := { loadReq with kind := .atomic .add .s32 false false false false false }
def withReq (s : State) (r : Req) : State := on s fun k => { k with reqs := [r] }
theorem wit_MemoryAnswers_load : let s := withReq filled loadReq
    let r := s.stage 0 (s.reqIdent 0 loadReq) 128 true false (loadReq.missed.contains 128)
    (s.core 0).reqs[0]? = some loadReq ∧ loadReq.todo[0]? = some 128 ∧ (s.core 0).earlier 60 0 128 = false ∧ s.stale 0 0 0 0 128 false = false ∧
    s.home (s.reqIdent 0 loadReq).part 128 = .here 0 ∧ hitKey r.2 = some 16 ∧
    fst' (r.1.readWay 0 16 (s.reqIdent 0 loadReq) 128 none).2 = some 0 ∧
    (r.1.readWay 0 16 (s.reqIdent 0 loadReq) 128 none).1.waitsFor 60 = false ∧
    ((r.1.readWay 0 16 (s.reqIdent 0 loadReq) 128 none).1.cached 0 16 (s.reqIdent 0 loadReq) 128 0).watch = false := by decide +kernel
theorem wit_MemoryAnswers_store : let s := on filled fun k => { k with stores := [storeEnt] }
    let id := s.storeIdent 0 storeEnt
    let r := s.stage 0 id 128 false true true
    (s.core 0).stores[0]? = some storeEnt ∧ (s.core 0).earlier 61 0 128 = false ∧ s.stale 0 0 0 0 128 true = false ∧ s.home id.part 128 = .here 0 ∧
    hitKey r.2 = some 16 ∧ ((r.1.slice 0).way? 16).map (fun l => l.watch.getLsbD (subOf 128)) = some false ∧
    (r.1.writeWay 0 16 id 128 0xF 5 (some ⟨none, 0, false⟩)).2.isNone = true ∧
    (((r.1.writeWay 0 16 id 128 0xF 5 (some ⟨none, 0, false⟩)).1.slice 0).way? 16).isSome = true := by decide +kernel
theorem wit_MemoryAnswers_atomic : let s := withReq filled atomReq
    let m := s.atomMay 0 0 128 (reqTag 0 0 0 3).toNat 60
    let sa := m.1.used 60
    let id := sa.reqIdent 0 atomReq
    let r := sa.stage 0 id 128 false true (atomReq.missed.contains 128)
    (s.core 0).reqs[0]? = some atomReq ∧ (s.core 0).earlier 60 0 128 = false ∧ s.stale 0 0 0 0 128 true = false ∧
    m.2 = true ∧ m.1.waitsFor 60 = false ∧ sa.home id.part 128 = .here 0 ∧ hitKey r.2 = some 16 ∧
    fst' (r.1.readWay 0 16 id 128 none).2 = some 0 ∧
    (((r.1.readWay 0 16 id 128 none).1.slice 0).way? 16).map (fun l => l.watch.getLsbD (subOf 128)) = some false ∧
    (r.1.readWay 0 16 id 128 none).1.waitsFor 60 = false := by decide +kernel
def missOf (res : Option (Sum (BitVec 8) (Nat × Bool × Bool))) : State :=
  base.setSlice 0 { slice with misses := [⟨128, false, 0, 0, false, 0, 0, res⟩] }
def anyMiss : Miss := ⟨128, false, 0, 0, false, 0, 0, none⟩
theorem wit_MemoryAnswers_miss : ((missOf none).slice 0).misses[0]? = some anyMiss ∧
    ((missOf (some (.inr (0x10080, true, true)))).slice 0).misses[0]? = some { anyMiss with res := some (.inr (0x10080, true, true)) } ∧
    (missOf none).stackUp 0 = true ∧
    ((missOf none).dropStale 0 (anyMiss.ident 0) 128).waitsFor (anyMiss.ident 0).owner = false ∧
    (let s := missOf (some (.inr (0x10080, true, true)))
     ((s.setSlice 0 { s.slice 0 with misses := [] }).fill 0 (anyMiss.ident 0) 128 0x10080 true true).1.waitsFor (anyMiss.ident 0).owner = false) := by
  decide +kernel
def refused (slot : Nat) : State := on base fun k => { k with refused := [⟨3, slot, 7, 0x100, 0x10, 64, 2, false, []⟩] }
theorem wit_MemoryAnswers_refused : ((refused 9).core 0).team? 9 = none ∧ 9 ≤ agentSlot ∧ 0 ≤ agentSlot ∧ ((refused 0).core 0).team? 0 = some team0 ∧
    team0.saved ≠ some true ∧ team0.strict = false ∧ ((refused 0).core 0).reqs = [] ∧ ((refused 0).core 0).stores = [] ∧ 0 < (refused 0).cores.length :=
  by decide +kernel
theorem wit_MemoryAnswers_stops : ∀ i u, ((refused 0).core 0).team? i = some u → u.stops = [] := stops_of_slots (by decide +kernel)
theorem wit_MemoryAnswers_stale : let s := (withReq base { loadReq with gen := 5 }).setSlice 0 { slice with leases := [⟨0, 0, false, 0, 0, 0, 3, none⟩] }
    (s.core 0).reqs[0]? = some { loadReq with gen := 5 } ∧ ∃ va ∈ loadReq.todo, s.stale 0 0 5 0 va false = true := by decide +kernel
def remote (first va : Nat) (op : RemoteOp) : RemoteReq := ⟨3, 0, 7, va, false, 0, 0, first, 0, none, none, op⟩
def remoteEnd (r : RemoteReq) : Option (Bool × Bool) := match base.serveRemote 0 r with
  | .ans s1 _ => some (true, s1.waitsFor (ownerName 10 [r.num, r.dev]))
  | .quiet s1 => some (false, s1.waitsFor (ownerName 10 [r.num, r.dev]))
  | .hold => none
/-- No partition begins at slice 5; partition 0 begins at slice 0 and answers, or has a lease wait in silence for its residency. -/
theorem wit_MemoryAnswers_remote : base.stopped = false ∧ base.servedBy 5 = none ∧ base.servedBy 0 = some 0 ∧
    remoteEnd (remote 0 128 .load) = some (true, false) ∧ remoteEnd (remote 0 0x20000 (.lease 2 1)) = some (false, false) := by decide +kernel
theorem wit_MemoryAnswers_record : (tm faulted).record.valid = true ∧ (tm base).record.valid = false := by decide +kernel

/-! ### Log, context, launch and debug instructions -/

abbrev Rd (s : State) : Prop := Ready s 0 0 0 (tm s)
def logEnt : LogEntry := ⟨0, 4, 0, 0, 1, 4, 0, 3, 0x10, 0, 0x100, 64, 0⟩
def logged (rec : DefRec) (log : List LogEntry) : State := st { team0 with record := rec, log := log } x0 id
def recd : DefRec := { DefRec.clear with valid := true, cls := 0x10 }
/-- One entry logged, two, none, and an overflow. -/
theorem wit_LogAndDebugInstructions : ∀ s ∈ [logged recd [logEnt], logged recd ([logEnt, logEnt]), base, logged { recd with ovf := true } [logEnt]],
    Rd s ∧ (cx s).takes gp7 = true := by decide +kernel
/-- A register as index while an entry is logged: it is none of the registers the entry's load will write. -/
theorem wit_LogAndDebugInstructions_index : logEnt.dests ≠ [] ∧ ∀ r ∈ logEnt.dests, r ∉ ([.g 6] : List RegRef) := by decide +kernel
/-- How the replay ends: 0 with every entry done, 1 with entries left. -/
def replayEnd (s : State) : Nat := match ((taken s).replayLog ((cx s).takeSeq s 0) (takenId s nextTag) (tm s).log).2.2 with
  | .done => 0
  | .bad (_ :: _) _ => 1
  | _ => 2
def loggedAt (va : DWord) : State := logged DefRec.clear [{ logEnt with va := va }]
theorem wit_LogAndDebugInstructions_replay : ∀ x ∈ [((64 : DWord), 0), (0x20000, 1)], let s := loggedAt x.1
    Rd s ∧ (s.core 0).Idle ∧ (cx s).Passes ∧ (cx s).takes gp7 = true ∧ (cx s).seqFree s = true ∧ (tm s).record.ovf = false ∧ (tm s).log ≠ [] ∧
    replayEnd s = x.2 := by decide +kernel
theorem wit_LogAndDebugInstructions_ovf : let s := logged { DefRec.clear with ovf := true } [logEnt]
    Rd s ∧ (s.core 0).Idle ∧ (cx s).Passes ∧ (tm s).record.ovf = true := by decide +kernel
theorem wit_LogAndDebugInstructions_brk : (tm base).log = [] ∧ (cx base).acts p7 = true ∧
    ((base.core 0).lslotOf 0).map (·.launch.dbgown) = some 0 := by decide +kernel
def owned : State := st team0 x0 fun k => { k with lslots := k.lslots.set 0 (some { lslot with launch := { launch with dbgown := 0x4000 } }) }
theorem wit_LogAndDebugInstructions_owner : Rd owned ∧ ((owned.core 0).lslotOf 0).map (·.launch.dbgown) = some 0x4000 := by decide +kernel
/-- `wtch` of 32 bytes at g4 = 256, of none, and at an address that is not aligned. -/
theorem wit_LogAndDebugInstructions_wtch : ((tm base).rg 4).toNat % 32 = 0 ∧ (cx base).bval true 0 true .n (.imm 32) = 32 ∧
    (cx base).bval true 0 true .n (.imm 0) = 0 ∧ ((tm odd).rg 4).toNat % 32 ≠ 0 ∧
    (let s0 := base.setCore 0 (cx base).core
     (s0.watchRange { s0.identOf 0 0 with owner := own base } true 1 256).1.waitsFor (own base) = false) := by decide +kernel
/-- The frame's words at level 3, the record's, an entry's, and past the last. -/
theorem wit_LogAndDebugInstructions_word : let t := { team0 with level := 3, frames := [frame 1, frame 1, frame 1], record := recd, log := [logEnt] }
    t.level ≠ 0 ∧ (t.frames[t.level - 1]?).isSome = true ∧ team0.level = 0 ∧ 16 + 8 * t.log.length ≤ 24 ∧ t.log[0]? = some logEnt := by decide +kernel

def dacx : DACX := ⟨gp7, 5, 8, 3, true⟩
/-- g3 names the slot, g8 = 512 the address. -/
def ctxS (slot : Nat) (f : Machine.Core → Machine.Core) : State := st { team0 with g := team0.g.set 3 (BitVec.ofNat 64 slot) } x0 f
abbrev CtxAt (s : State) (slot : Nat) : Prop := Pl s ∧ (s.core 0).Idle ∧ (cx s).Passes ∧ (cx s).takes dacx.c = true ∧
  ((tm s).rg 3).toNat % 64 = slot ∧ ((tm s).rg 8).toNat % 64 = 0
theorem wit_ContextAndLaunchInstructions_none : CtxAt (ctxS 5 id) 5 ∧ ((ctxS 5 id).core 0).named 5 = none ∧ CtxAt (ctxS 32 id) 32 ∧
    ((ctxS 32 id).core 0).named 32 = none := by decide +kernel
theorem wit_ContextAndLaunchInstructions_runs : let s := ctxS 0 id
    CtxAt s 0 ∧ ((s.core 0).named 0).map (·.isHalted) = some false ∧ ((s.core 0).entry 0 0).snap = none := by decide +kernel
def two (k : Machine.Core) : Machine.Core :=
  { (k.setTeam 1 { team0 with num := 1, mode := .halted 0 none }).setEntry 0 1 (entry 1 0x200 0xF) with
    blocks := k.blocks.set 0 (some { block with slots := [0, 1] }) }
theorem wit_ContextAndLaunchInstructions_halted : let s := ctxS 1 two
    CtxAt s 1 ∧ ((s.core 0).named 1).map (·.isHalted) = some true ∧ ((s.core 0).entry 0 0).snap = none ∧ (cx s).seqFree s = true := by decide +kernel
def waitHalt : State := st { team0 with g := team0.g.set 3 1 } { x0 with snap := some 0 } fun k =>
  { two k with blocks := k.blocks.set 0 (some { block with slots := [0, 1], bcast := some 0, acked := true }) }
theorem wit_ContextAndLaunchInstructions_acked : CtxAt waitHalt 1 ∧ ((waitHalt.core 0).named 1).map (·.isHalted) = some true ∧
    ((waitHalt.core 0).entry 0 0).snap.isSome = true ∧ (waitHalt.core 0).blockAcked 0 = true := by decide +kernel
/-- An image of 77,376 bytes is too long to write in a test: the first 64 bytes are written, and read, as the others are. -/
theorem wit_ContextAndLaunchInstructions_saved : let s := ctxS 1 two
    let r := (taken s).homeWrite (takenId s nextTag) 512 (toLeBytes 64 0x58430001)
    let q := (taken s).homeReadAt (takenId s nextTag) 512 64
    r.1.waitsFor (own s) = false ∧ r.2.isNone = true ∧ q.1.waitsFor (own s) = false ∧ (fst' q.2).isSome = true := by decide +kernel
theorem wit_ContextAndLaunchInstructions_load : imageSize 4 16 true = 77376 ∧
    (((ctxS 1 two).core 0).loadImage 1 { team0 with num := 1, mode := .halted 0 none } [] [] true).isNone = true := by decide +kernel
def wide (k : Machine.Core) : Machine.Core := { k with leases := k.leases.set 0 ⟨true, 0, 3, 0x20000, 0, 0⟩ }
/-- The team saves itself as one fragment; and cannot as two. -/
theorem wit_ContextAndLaunchInstructions_self : (cx base).core.single 0 0 = true ∧ (cx apart).core.single 0 0 = false ∧
    ((ctxS 0 wide).core 0).leaseOk 0 512 (imageSize 4 16 true) false true = true ∧ ((tm base).rg 8).toNat % 64 = 0 := by decide +kernel
/-- Queue 7 at 0x3400: a ring of two slots at 0x3800, open for device launches of ASID 0, empty or full. -/
def queueMem (wr : Nat) : List Host.Cell :=
  memPutNat [(0x1007, 0x80), (0x200F, 0x80)] 0x13400 32 (0x3800 + 1 * 2 ^ 64 + 1 * 2 ^ 80 + wr * 2 ^ 128 + 1 * 2 ^ 248)
def queueS (wr : Nat) : State :=
  { base with mem := queueMem wr, parts := { part with queues := [⟨7, true, false, false, 0x3400, false, 0⟩] } :: List.replicate 11 Part.reset }
def reserveS (s : State) : Option (Nat × Nat × Option Nat) × Bool :=
  let r := (taken s).reserve 0 7 0 (own s) nextTag
  (fst' r.2, r.1.waitsFor (own s))
theorem wit_ContextAndLaunchInstructions_lnch : (∀ n ∈ [255, 256], (cx base).bval true 0 false .n (.imm (BitVec.ofNat 20 n)) = n) ∧
    reserveS base = (some (2, 0, none), false) ∧ reserveS (queueS 0) = (some (0, 0, some 0x3800), false) ∧
    reserveS (queueS 2) = (some (1, 0, none), false) ∧ (cx (queueS 0)).seqFree (queueS 0) = true := by decide +kernel
theorem wit_ContextAndLaunchInstructions_put : let s := queueS 0
    let s1 := ((taken s).reserve 0 7 0 (own s) nextTag).1.used (own s)
    let y := ((cx s).takeSeq s 0).reload s1
    let p := s1.fresh.2.putPacket (y.ident s1.fresh.2 (2 ^ 61 + s1.fresh.1)) 0x3800 ((tm s).packet 8 0)
    p.1.waitsFor (2 ^ 61 + s1.fresh.1) = false ∧ p.2.isNone = true := by decide +kernel
def bcastBlk : Block := { block with bcast := some 0 }
def bcastS : State := st { team0 with mode := .halted 0 none } x0 fun k => { k with blocks := k.blocks.set 0 (some bcastBlk) }
theorem wit_ContextAndLaunchInstructions_broadcast : (bcastS.core 0).block? 0 = some bcastBlk ∧ bcastBlk.bcast.isSome = true ∧ bcastBlk.acked = false ∧
    (bcastS.core 0).teamsOf 0 = [0] ∧ ((bcastS.core 0).team? 0).map (·.isHalted) = some true ∧ (bcastS.core 0).stores = [] ∧
    (bcastS.core 0).refused = [] ∧
    bcastS.blockSessions 0 0 = false ∧ ∀ y ∈ (bcastS.core 0).seqs, y.block = some 0 → y.flight = [] := by decide +kernel

/-! ### The agents -/

/-- Agent code in the agent slot. -/
def agTeam : Team := { team0 with nregs := 8 }
def agS (f : Agent → Agent) : State := st agTeam (entry agentSlot 0x2000 1) fun k => { k with agent := f k.agent }
def ag : State := agS id
theorem wit_AgentInstructions : Pl ag ∧ (cx ag).takes gp7 = true ∧ (ag.core 0).Idle ∧ (cx ag).Passes ∧ ag.partOf (0 / 32) = 0 := by decide +kernel
theorem wit_AgentInstructions_place : let s0 := ag.setCore 0 (cx ag).core
    (s0.placeAt 0 (own ag) 512 0 0 false).1.waitsFor (own ag) = false := by decide +kernel
def agTwo (slot : Nat) : State := st { agTeam with g := team0.g.set 3 (BitVec.ofNat 64 slot) } (entry agentSlot 0x2000 1) fun k => k.setTeam 31 team0
theorem wit_AgentInstructions_bkill : Pl (agTwo 31) ∧ Pl (agTwo 30) ∧ ((tm (agTwo 31)).rg 3).toNat % 64 = 31 ∧ ((agTwo 31).core 0).team? 31 = some team0 ∧
    ((agTwo 30).core 0).team? 30 = none ∧ ((tm (agTwo 32)).rg 3).toNat % 64 = 32 := by decide +kernel
/-- Unit 0x20, the partition's own; 0x21, another's; and a register of one's own that is written. -/
theorem wit_AgentInstructions_mrd : mgmtUnit 0x200000 = 0x20 ∧ ag.ownUnit 0 0x20 = true ∧ ag.ownUnit 0 0x21 = false ∧
    ((ag.setCore 0 (cx ag).core).mgmtWrite 0x10 0x28 5 (own ag)).map (·.waitsFor (own ag)) = some false := by decide +kernel
def agNote : State := agS fun a => { a with notes := [5, 6] }
def agAwait : State := agS fun a => { a with await := some (0, 0, 3, 8) }
theorem wit_AgentInstructions_await : Pl agNote ∧ (agNote.core 0).agent.notes = [5, 6] ∧ (ag.core 0).agent.notes = [] ∧ (ag.core 0).agent.await = none := by
  decide +kernel
theorem wit_AgentInstructions_timeout : (agAwait.core 0).agent.await = some (0, 0, 3, 8) ∧ 0 ≤ (agAwait.core 0).cyc.toNat ∧
    (agAwait.core 0).agent.notes = [] ∧ ((agAwait.core 0).entry 0 0).team = agentSlot ∧ ((agAwait.core 0).entry 0 0).st = .running ∧
    (agAwait.core 0).team? agentSlot = some agTeam ∧ ((agAwait.core 0).entry 0 0).pend = [] ∧ ((agAwait.core 0).entry 0 0).inner = none ∧
    ((agAwait.core 0).entry 0 0).mask ≠ 0 := by decide +kernel

/-! ### Commands, leases, pre-emption and debug steps -/

def cmd (kind : Nat) (stage : CStage) (l : Launch) (args : List Nat) : Cmd :=
  { q := 0, idx := 0, asid := 0, sdom := 0, prio := 0, kind := kind, flags := 0, cmpl := 0x3000, launch := l, args := args, core := 0, stage := stage
    saved := [], lost := [], ords := [], done := 0, told := false }
def noTeams : State := { on base (fun _ => Core.reset) with cur := .none }
def partC (m : Cmd) : Part := { part with cmds := [m], queues := [⟨0, true, false, true, 0x3400, false, 0⟩] }
def cmdS (m : Cmd) : State := { noTeams with parts := partC m :: List.replicate 11 Part.reset }
inductive GrantKind | ok | wait (vpn : Nat) | refuse (cls : BitVec 8) (vpn : Nat)
deriving DecidableEq, Repr
def grantOf (s : State) (m : Cmd) : GrantKind := match s.grantRanges 0 0 (s.cmdIdent 0 m) m.ranges with
  | .ok _ => .ok
  | .wait _ v => .wait v
  | .refuse _ cls v => .refuse cls v
abbrev LeaseAt (s : State) (m : Cmd) : Prop := s.cmd? 0 = some m ∧ m.stage = .lease [] ∧ 0 ∈ (s.part 0).run ∧
  (∀ r ∈ (s.part 0).resid, r.slice ≠ 0 ∨ m.awaits r = false) ∧ s.reaches (s.agentTag 0) 0 = true ∧ s.islandOn (islandStack + 0) = true
def small : Launch := { launch with frames := 0x8000, framen := 0, framesz := 0, fmap := 0x3100 }
def beyond : Launch := { small with bufs := [⟨0x20000, 0x1000, 1, 0⟩] }
theorem wit_CommandSteps_grant : let m := cmd 1 (.lease []) small []
    LeaseAt (cmdS m) m ∧ grantOf (cmdS m) m = .ok ∧ ((cmdS m).slice 0).leases.length + ((cmdS m).leaseRecs 0 0 m).length ≤ 4096 := by decide +kernel
/-- Page 2 has no translation; and page 0 may not be written. -/
theorem wit_CommandSteps_wait : let m := cmd 1 (.lease []) beyond []
    LeaseAt (cmdS m) m ∧ grantOf (cmdS m) m = .wait 2 := by decide +kernel
def readOnly (s : State) : State := s.setSlice 0 { slice with tlb := [⟨false, 0, 0, 1, 0x10000, true, false⟩] }
theorem wit_CommandSteps_refuse : let m := cmd 1 (.lease []) small []
    LeaseAt (readOnly (cmdS m)) m ∧ grantOf (readOnly (cmdS m)) m = .refuse 0x10 0 := by decide +kernel
/-- The state in which the ranges of MODE 1 and 3 are acquired, and the launch goes live. -/
def granted (s : State) (m : Cmd) : State :=
  ((((m.launch.bufs.filter fun b => decide (b.mode % 2 = 1)).foldl (fun s b => s.acquireRange 0 (s.cmdIdent 0 m) b)
    (s.leaseAway 0 m (s.remoteRuns 0 m.ranges)).1).snapshots 0 m).1).goLive 0 m
theorem wit_CommandSteps_granted : let m := cmd 1 (.lease [0]) small []
    let s := cmdS m
    let r := s.leaseAway 0 m (s.remoteRuns 0 m.ranges)
    s.cmd? 0 = some m ∧ (∀ i ∈ (s.part 0).run, i ∈ [0]) ∧ (∀ y ∈ (s.part 0).resid, m.awaits y = false) ∧ r.2.isNone = true ∧
    (granted s m).waitsFor (cmdOwner 0 0 0) = false := by decide +kernel
/-- Page 2 is homed on device 3, to which no port leads. -/
def awayS (m : Cmd) : State := { cmdS m with otable := [(0, 2 ^ 127 + 3 * 2 ^ 80 + 2 * 2 ^ 40 + 2)] }
theorem wit_CommandSteps_refusedAway : let m := cmd 1 (.lease [0]) beyond []
    let s := awayS m
    let r := s.leaseAway 0 m (s.remoteRuns 0 m.ranges)
    s.cmd? 0 = some m ∧ (∀ y ∈ (s.part 0).resid, m.awaits y = false) ∧ r.2 = some (0x16, 2) ∧
    (r.1.onCmd 0 0 0 fun m => m.leaseRefused 0x16 2).waitsFor (cmdOwner 0 0 0) = false := by decide +kernel
theorem wit_CommandSteps_token : ((cmdS (cmd 1 .token small [])).part 0).coop = none := by decide +kernel
theorem wit_CommandSteps_room : (Core.reset.room small 0 0 0).isSome = true ∧
    (Core.reset.room { small with lanes := 1024, regs := 256, e1 := 33 } 0 0 0).isNone = true := by decide +kernel
def frames8 : Launch := { small with framen := 8 }
def liveM : Cmd := cmd 1 .live frames8 []
theorem wit_CommandSteps_place : let s := cmdS liveM
    s.cmd? 0 = some liveM ∧ s.corePart 0 = some 0 ∧ s.placesOther 0 0 liveM = false ∧ s.placing 0 0 0 0 = false ∧ liveM.places = true ∧
    s.agentClaims 0 = true ∧ (s.part 0).preempts 0 = false ∧ (s.outranked 0 0 (placeOwner 0 0 0 0) 0).2 = false ∧
    ((s.core 0).room frames8 0 (liveM.qid 0) 0).isSome = true ∧ outsideClusters frames8 0 = false := by decide +kernel
def placeId (s : State) : Ident := s.agentIdent 0 0 (placeOwner 0 0 0 0) (s.agentTag 0)
def frameOf (s : State) : Option Nat := match s.homeRead (placeId s) 0x3100 1 with
  | (_, .inl bs) => clearBit bs 8
  | _ => none
theorem wit_CommandSteps_ticket : let s := cmdS liveM
    let t := (s.outranked 0 0 (placeOwner 0 0 0 0) 0).1.ticketOf (placeId s) 0x3000
    t.2 = some 0 ∧ (t.1.replayTurn (placeId s) liveM 0 0).2 = true ∧ frameOf (t.1.replayTurn (placeId s) liveM 0 0).1 = some 0 ∧
    (((cmdS liveM).core 0).room frames8 0 (liveM.qid 0) 0).map (fun p => (s.takeTicket 0 0 liveM (placeId s) p 0).1.waitsFor (placeOwner 0 0 0 0)) =
      some false := by decide +kernel
/-- A ticket has been asked for, and its answer is there. -/
def placingS : State := { cmdS liveM with rbuf := [⟨placeOwner 0 0 0 0, 0, false, 0, 0x3020, 2, 0, 1, 9, some (.inl 0), false, false, false⟩] }
theorem wit_CommandSteps_placing : placingS.placing 0 0 0 0 = true ∧ placingS.placesOther 0 0 liveM = false ∧ frameOf placingS = some 0 := by
  decide +kernel
def savedM : Cmd := { liveM with saved := [1] }
theorem wit_CommandSteps_restore : let s := cmdS savedM
    s.cmd? 0 = some savedM ∧ savedM.places = true ∧ s.placing 0 0 0 0 = false ∧ (s.outranked 0 0 (placeOwner 0 0 0 0) 0).2 = false ∧
    (s.restoreFirst 0 0 savedM (placeId s) 1).2 = true ∧ (s.restoreFirst 0 0 savedM (placeId s) 1).1.waitsFor (placeOwner 0 0 0 0) = false := by
  decide +kernel
def copyArgs : List Nat := [0x200, 0x100, 64, 0, 0]
theorem wit_CommandSteps_copy : (∀ x ∈ [(CStage.claimed, small, true), (.claimed, { small with bufs := [] }, false), (.other, small, true)],
    let m := cmd 2 x.1 x.2.1 copyArgs
    (cmdS m).cmd? 0 = some m ∧ ((cmdS m).part 0).preempts 0 = false ∧ m.covers 0x100 64 0 = x.2.2 ∧ m.covers 0x200 64 1 = x.2.2) := by decide +kernel
def cePart (m : Cmd) : State := { noTeams with parts := { partC m with pent := part.pent ||| 2 ^ 40 } :: List.replicate 11 Part.reset }
theorem wit_CommandSteps_engines : let m := cmd 2 .claimed small copyArgs
    (cePart m).bulk = [] ∧ 0 < 4 * ((List.range 12).filter fun g => (entryCe ((cePart m).part 0).pent).getLsbD g).length := by decide +kernel
theorem wit_CommandSteps_bulk : let m := cmd 2 .other small copyArgs
    ((cmdS m).bulkRun 0 m).waitsFor (cmdOwner 0 0 0) = false := by decide +kernel
theorem wit_CommandSteps_others : (let m := cmd 3 .claimed small [0, 0, 0, 0, 0]
    fst' ((cmdS m).allDone ((cmdS m).cmdIdent 0 m) (m.args.take 4)).2 = some true ∧
    ((((cmdS m).allDone ((cmdS m).cmdIdent 0 m) (m.args.take 4)).1.acquire 0).complete 0 m 0 0 0 0).waitsFor (cmdOwner 0 0 0) = false) := by
  decide +kernel
theorem wit_CommandSteps_signal : (let m := cmd 4 .claimed small [0x200, 5, 0, 0, 0]
    ((cmdS m).homePut ((cmdS m).cmdIdent 0 m) 0x200 8 5).2.isNone = true) ∧
    (let m := cmd 4 .claimed small [0x200, 5, 1, 0, 0]
    (fst' ((cmdS m).tbArrive ((cmdS m).cmdIdent 0 m) 0x200 5).2).isSome = true) := by decide +kernel
theorem wit_CommandSteps_marker : let m := cmd 5 .claimed small []
    ((cmdS m).complete 0 m 0 0 0 0).waitsFor (cmdOwner 0 0 0) = false := by decide +kernel
theorem wit_CommandSteps_ending : ∀ r ∈ [0, 2, 1, 3, 5], let m := { cmd 1 (.ending r 4 5 6) small [] with told := true }
    let s := cmdS m
    s.cmd? 0 = some m ∧ (∀ b ∈ s.rbuf, b.leases (cmdOwner 0 0 0) = false) ∧ s.blocksOf 0 m = [] ∧ s.beingPlaced 0 m = false ∧
    (s.savedKilled 0 m r).length = m.saved.length ∧
    ((s.addWord (s.cmdIdent 0 m) (0x3000 + 40) 0).1.completeLaunch 0 m r 4 5 6).waitsFor (cmdOwner 0 0 0) = false ∧
    (s.complete 0 m r 4 5 6).waitsFor (cmdOwner 0 0 0) = false := by decide +kernel
/-- A block of a killed command: not broadcast yet, and its broadcast acknowledged. -/
def killS (told : Bool) (b : Block) : State :=
  { on base (fun k => { k with blocks := k.blocks.set 0 (some b) }) with
    parts := partC { cmd 1 (.ending 3 0 0 0) frames8 [] with told := told } :: List.replicate 11 Part.reset }
def killM (told : Bool) : Cmd := { cmd 1 (.ending 3 0 0 0) frames8 [] with told := told }
theorem wit_CommandSteps_killed :
    (let s := killS false block
     s.blocksOf 0 (killM false) = [(0, 0)] ∧ s.toKill 3 (0, 0) = true ∧ s.killDue (0, 0) = true ∧
     ((s.killStart 0 0).onCmd 0 0 0 fun m => { m with told := true }).waitsFor (cmdOwner 0 0 0) = false) ∧
    (let s := killS true { block with bcast := some 0, acked := true }
     s.blocksOf 0 (killM true) = [(0, 0)] ∧ s.toKill 3 (0, 0) = true ∧ s.killDue (0, 0) = false ∧ s.killAcked (0, 0) = true ∧
     s.beingPlaced 0 (killM true) = false) := by decide +kernel
def resid (dev : Option Nat) : Residency := ⟨0, 0, 0, false, 0, 2, dev, false⟩
def residS (dev : Option Nat) : State :=
  { noTeams with parts := { partC (cmd 1 (.lease []) beyond []) with resid := [resid dev] } :: List.replicate 11 Part.reset }
theorem wit_CommandSteps_residency : ∀ d ∈ [none, some 3], (residS d).partOf 0 = 0 ∧ ((residS d).part 0).resid[0]? = some (resid d) ∧
    (resid d).slice = 0 ∧ (resid d).refused = false := by decide +kernel
/-- A block whose team has left; and one whose command ends, its broadcast acknowledged. -/
def retiring : State := { on base (fun _ => core) with
  parts := partC liveM :: List.replicate 11 Part.reset }
theorem wit_CommandSteps_retire : (retiring.core 0).block? 0 = some block ∧ (retiring.core 0).lslot? 0 = some lslot ∧ block.ending = none ∧
    block.gone = false ∧ block.saved = false ∧ retiring.blockDone 0 0 = true := by decide +kernel
def endBlk : Block := { block with ending := some (4, 0, 5, 6), acked := true, bcast := some 0 }
def endS : State := { st { team0 with mode := .halted 4 none } x0 (fun k => { k with blocks := k.blocks.set 0 (some endBlk) }) with
  parts := partC liveM :: List.replicate 11 Part.reset }
theorem wit_CommandSteps_end : (endS.core 0).block? 0 = some endBlk ∧ (endS.core 0).lslot? 0 = some lslot ∧ endBlk.ending = some (4, 0, 5, 6) ∧
    endBlk.acked = true ∧
    (let s0 := endS.setCore 0 ((endS.core 0).setBlock 0 { endBlk with dumpAt := some 0 })
     (s0.writeDump (endS.agentIdent 0 0 (faultOwner 0 0) (endS.agentTag 0)) 0 0 lslot 4 0).waitsFor (faultOwner 0 0) = false) := by decide +kernel
/-- How a scan ends: 0 without a packet, 1 in error, 2 with a packet. -/
def scanOf (s : State) : Nat × Bool :=
  let qs := (s.livePrio 0 0).1.scanQueues 0 0
  let r := qs.1.scanAll 0 0 (s.livePrio 0 0).2 qs.2
  (match r.2 with | .none => 0 | .error => 1 | .packet _ => 2, r.1.waitsFor (scanOwner 0))
/-- Queue 7 holds one packet whose kind is 5 and number 0, in a slot of its ring that is leased to no one; and none at all. -/
def scanS (wr ring : Nat) : State :=
  { noTeams with
    mem := memPutNat (memPutNat [(0x1007, 0x80), (0x200F, 0x80)] 0x13400 32 (ring + 1 * 2 ^ 64 + 1 * 2 ^ 80 + wr * 2 ^ 128 + 1 * 2 ^ 248))
      0x13800 8 5
    parts := { part with queues := [⟨7, true, false, false, 0x3400, false, 0⟩] } :: List.replicate 11 Part.reset }
theorem wit_CommandSteps_scan : (∀ x ∈ [(0, 0x3800, 0), (1, 0x20000, 1), (1, 0x3800, 2)], let s := scanS x.1 x.2.1
    s.corePart 0 = some 0 ∧ s.agentFree 0 = true ∧ s.agentClaims 0 = true ∧ (s.core 0).agent.claim = none ∧ scanOf s = (x.2.2, false)) := by
  decide +kernel
def claim0 : ClaimTry := ⟨7, 0, 0x3400, 0, 0, toLeBytes 64 5⟩
def claimS : State := on (scanS 1 0x3800) fun k => { k with agent := { k.agent with claim := some claim0 } }
theorem wit_CommandSteps_claim : (claimS.core 0).agent.claim = some claim0 ∧ (claimS.core 0).agent.dead = false ∧
    (claimS.core 0).team? agentSlot = none ∧ ((claimS.setClaim 0 (some claim0)).claimRun 0 0 claim0).1.waitsFor (scanOwner 0) = false ∧
    ((claimS.setClaim 0 (some claim0)).claimRun 0 0 claim0).2.isSome = true := by decide +kernel


theorem wit_CommandSteps_retired : let owner := retireOwner 0 0
    let id := retiring.agentIdent 0 0 owner (retiring.agentTag 0)
    let w := ((retiring.closeWins 0 0 owner).freeFrame id 0x3100 0).addWord id (0x3000 + 40) 1
    let w1 := w.1.setCore 0 ((w.1.core 0).retireBlock 0)
    w.2 = some 0 ∧ ((w1.part 0).cmd? lslot).isSome = true ∧ w1.beingPlaced 0 liveM = false ∧
    (w1.completeLaunch 0 liveM 0 0 0 0 owner).waitsFor owner = false := by decide +kernel


def stopS (e : Engine) (s : State) : State := { s with parts := { partC liveM with stops := [e], pend := [e], pall := true, pbusy := true } :: List.replicate 11 Part.reset }
theorem wit_PreemptWatchAndReloadSteps_copy : (∀ e ∈ [Engine.copyUnit 0, .poolCopy 0, .walkers 11, .sequencer 0 1, .team 0 0, .moraine 0, .block 0 0],
      e ∈ ((stopS e base).part 0).stops) ∧
    ((stopS (.copyUnit 0) base).stopCopies 0 0).isSome = true ∧ ((stopS (.poolCopy 0) base).stopBulk 0 0).isSome = true ∧
    ((base.core 0).seqs[1]?.getD Seq.empty).flight = [] := by decide +kernel
theorem wit_PreemptWatchAndReloadSteps_team : let s := stopS (.team 0 0) base
    (s.core 0).team? 0 = some team0 ∧ team0.mode ≠ .retired ∧ s.blockStops 0 0 0 = true ∧ s.blockEnds 0 0 = false ∧
    ((s.core 0).stopTeam 0 team0).isSome = true := by decide +kernel
theorem wit_PreemptWatchAndReloadSteps_moraine : let s := stopS (.moraine 0) (mgS 0x10 [mgSess 1])
    let ms := (s.slice 0).mg.filter fun m => decide (m.part = 0 ∧ m.state ≤ 4) && (s.part 0).preempts m.asid
    ms = [mgSess 1] ∧ (ms.foldl (fun s m => s.spillSession 0 m) s).waitsFor (2 ^ 55 + 0) = false := by decide +kernel
/-- Its team is stopped: the block may be saved; and one that ends is not. -/
def stoppedBlk : State := stopS (.block 0 0) (st { team0 with saved := some true } x0 id)
theorem wit_PreemptWatchAndReloadSteps_block : (stoppedBlk.part 0).coreBusy 0 = false ∧ stoppedBlk.blockStops 0 0 0 = true ∧ stoppedBlk.blockEnds 0 0 = false ∧
    stoppedBlk.retiring 0 0 = false ∧ stoppedBlk.blockDone 0 0 = false ∧ stoppedBlk.blockMoving 0 0 = false ∧ (stoppedBlk.core 0).block? 0 = some block ∧
    (stoppedBlk.core 0).lslot? 0 = some lslot := by decide +kernel
def stoppedEnd : State := stopS (.block 0 0) endS
theorem wit_PreemptWatchAndReloadSteps_ending : (stoppedEnd.part 0).coreBusy 0 = false ∧ stoppedEnd.blockEnds 0 0 = true := by decide +kernel
def ackS (pend : List Engine) (q : Option DWord) : State := { base with
  parts := { part with stops := [], pend := pend, pall := true, pbusy := true, pqueue := q } :: List.replicate 11 Part.reset }
theorem wit_PreemptWatchAndReloadSteps_ack : ∀ x ∈ [([Engine.team 0 0, .copyUnit 0], (none : Option DWord)), ([.team 0 0], none), ([.team 0 0], some 0x8000000000000000)],
    let p := (ackS x.1 x.2).part 0
    .team 0 0 ∈ p.pend ∧ .team 0 0 ∉ p.stops ∧ p.mayAck (.team 0 0) = true ∧ p.pqueue = x.2 ∧
    (p.pend.erase (.team 0 0) = [] ↔ x.1.length = 1) := by decide +kernel
def hit (beyond : Bool) : Hit := ⟨0, 64, 5, 1, 0x100, 0x400, beyond⟩
def hitS (held : Bool) (hs : List Hit) (f : Agent → Agent) : State :=
  st (if held then { team0 with mode := .held } else team0) x0 fun k => { k with hits := hs, agent := f k.agent }
theorem wit_PreemptWatchAndReloadSteps_hit : let s := hitS false [hit false] id
    (s.core 0).agent.pred = none ∧ (s.core 0).nextHit = some (0, hit false) ∧ (s.core 0).isHeld 0 = false ∧ (tm s).stops = [] := by decide +kernel
/-- The debug owner at 0x400 names no predicate, or one at 0x4000. -/
def ownerS (pred : Nat) (b : Bool) : State := { hitS true [hit b] id with
  mem := memPutNat [(0x1007, 0x80), (0x200F, 0x80)] 0x10420 8 pred }
def ownerAt (s : State) : Option Nat := (s.dbgOwner (s.identOf 0 0) 0x400).2.map (·.wpred)
theorem wit_PreemptWatchAndReloadSteps_held : ∀ b ∈ [true, false], let s := ownerS 0 b
    (s.core 0).nextHit = some (0, hit b) ∧ (s.core 0).isHeld 0 = true ∧ (s.core 0).lslotOf 0 = some lslot ∧ (tm s).stops = [] ∧
    ownerAt s = some 0 := by decide +kernel
theorem wit_PreemptWatchAndReloadSteps_predicate : ownerAt (ownerS 0x4000 false) = some 0x4000 ∧ ((ownerS 0x4000 false).core 0).team? agentSlot = none ∧
    ((ownerS 0x4000 false).core 0).agent.dead = false ∧ ((ownerS 0x4000 false).core 0).agent.out = false := by decide +kernel
theorem wit_PreemptWatchAndReloadSteps_owner : ∀ p ∈ [0, 0x4000], let s := ownerS p false
    (s.dbgOwner { s.identOf 0 0 with owner := hitOwner 0 } 0x400).1.waitsFor (hitOwner 0) = false := by decide +kernel
def predS (v : Option (Bool × Nat)) (n : Nat) (hs : List Hit) : State := hitS true hs fun a => { a with pred := some ((hit false).key, n), verdict := v }
theorem wit_PreemptWatchAndReloadSteps_verdict : (∀ hs ∈ [[], [hit false]], ((predS (some (true, 2)) 7 hs).core 0).agent.verdict = some (true, 2)) ∧
    [hit false].findIdx? (fun h => decide (h.key = (hit false).key)) = some 0 ∧ ((predS none 65536 []).core 0).agent.verdict = none ∧
    ((predS none 65536 []).core 0).agent.pred = some ((hit false).key, 65536) ∧ ((predS none 65536 []).core 0).hits = [] ∧ 0 < base.cores.length := by
  decide +kernel
/-- The predicate runs over its limit while the hit waits. -/
theorem wit_PreemptWatchAndReloadSteps_limit : let k := (predS none 65536 [hit false]).core 0
    let k1 := (k.dropSlot agentSlot).endAgent
    k.agent.pred = some ((hit false).key, 65536) ∧ k.agent.verdict = none ∧
    k1.hits.findIdx? (fun h => decide (h.key = (hit false).key)) = some 0 ∧ k1.hits[0]? = some (hit false) := by decide +kernel
theorem wit_PreemptWatchAndReloadSteps_outcome : let s := hitS true [hit false] id
    (s.core 0).team? 0 = some { team0 with mode := .held } ∧ ∀ x ∈ (s.core 0).hits.eraseIdx 0, x.slot ≠ 0 := by decide +kernel
def updating : State := { noTeams with fwstat := fwStatus true 0 0 }
theorem wit_PreemptWatchAndReloadSteps_reload : ((hitS false [] fun a => { a with dead := true }).core 0).agent.dead = true ∧
    (updating.core 0).agent.dead = false ∧ updating.fwBusy = true ∧ updating.fwCore = 0 ∧ (updating.core 0).blocks.all (·.isNone) = true ∧
    (updating.core 0).team? agentSlot = none ∧ updating.pinned 0 = false := by decide +kernel

/-! ### Management, host and fabric -/

def haltAll : State := { base with stopped := true }
theorem wit_QueueAndPartitionWrites : haltAll.stopped = true ∧ base.stopped = false ∧ (base.part 0).valid = true ∧ (base.part 1).valid = false ∧
    ((base.hostBytes 8).hostBytes 8).waitsFor regOwner = false ∧ base.slicesUp 0 = true ∧
    (base.onSlices 0 (State.bumpSlice true 0 (bumpOwner 0))).waitsFor (bumpOwner 0) = false := by decide +kernel
def allDrained : State := { base with slices := List.replicate 12 { Slice.reset with sdrain := true, drained := true } }
/-- Slice 11 alone; and slices 11 and 12. -/
theorem wit_QueueAndPartitionWrites_entry : allDrained.pentErr 1 (2 ^ 63 + 11 * 2 ^ 56 + 1 * 2 ^ 52 + 2 ^ 41 + 2 ^ 13) = 0 ∧ allDrained.pentErr 1 (2 ^ 63 + 11 * 2 ^ 56 + 2 * 2 ^ 52 + 2 ^ 41 + 2 ^ 13) ≠ 0 := by decide +kernel
theorem wit_QueueAndPartitionWrites_tenant : (base.part 0).tentErr 0 (2 ^ 63) = 0 ∧ (base.part 0).tentErr 15 (2 ^ 63) ≠ 0 ∧
    (base.part 0).tentErr 15 0 = 0 := by decide +kernel
theorem wit_QueueAndPartitionWrites_preq : (base.part 0).pbusy = false ∧ ((ackS [] none).part 0).pbusy = true ∧
    ((ackS [] none).part 0).pqueue.isNone = true ∧ ((ackS [] (some 3)).part 0).pqueue.isSome = true := by decide +kernel
def invals (n : Nat) : State := base.setSlice 0 { slice with inval := List.replicate n 5 }
theorem wit_QueueAndPartitionWrites_inval : ((invals 64).slice 0).inval.length ≤ 64 ∧ ((invals 1).slice 0).inval = 5 :: [] := by decide +kernel
theorem wit_DeviceControlWrites : 0x71 ≤ 0x71 ∧ (base.ports[23]?).isSome = true ∧ (191 : DWord).toNat ≤ 191 ∧ 191 < (192 : DWord).toNat ∧
    (∃ sl ∈ base.slices, sl.isDrained = false) := by decide +kernel
theorem wit_DeviceControlWrites_drained : (∀ sl ∈ allDrained.slices, sl.isDrained = true) ∧ (allDrained.slice 11).calbusy = false ∧
    (base.slice 0).isDrained = false ∧ (∀ a ∈ base.poison, a / 2 ^ 36 ≠ 0) := by decide +kernel
def draining : State := base.setSlice 3 { Slice.reset with sdrain := true }
theorem wit_DeviceControlWrites_draining : (draining.slice 3).sdrain = true ∧ (draining.slice 3).drained = false ∧ draining.sliceIdle 3 = true ∧
    (draining.flushSlice 3 (ownerName 7 [3])).waitsFor (ownerName 7 [3]) = false := by decide +kernel
/-- Entry 4,095, device 191 and a range of one page; and one past each. -/
theorem wit_DeviceControlWrites_table : (let v : BitVec 128 := 191 * 2 ^ 80 + 5 * 2 ^ 40 + 5
      ¬ (4096 ≤ 4095 ∨ 191 < (v.extractLsb' 80 8).toNat ∨ (v.extractLsb' 40 40).toNat < (v.extractLsb' 0 40).toNat)) ∧ 4096 ≤ 4096 ∧
    191 < ((192 * 2 ^ 80 : BitVec 128).extractLsb' 80 8).toNat ∧
    ((4 * 2 ^ 40 + 5 : BitVec 128).extractLsb' 40 40).toNat < ((4 * 2 ^ 40 + 5 : BitVec 128).extractLsb' 0 40).toNat := by decide +kernel
theorem wit_DeviceControlWrites_heat : 511 < 512 ∧ 1840 ≤ 1840 ∧ base.temp.toNat < 1520 ∧ 1520 ≤ ({ base with temp := 1520 } : State).temp.toNat ∧
    2600 ≤ base.plim.toNat ∧ base.plim.toNat < 2601 ∧ 1680 ≤ 1680 ∧ 1680 < 1681 := by decide +kernel
theorem wit_DeviceControlWrites_firmware : (0 : DWord).getLsbD 63 = false ∧ (2 ^ 63 : DWord).getLsbD 63 = true ∧ base.fwBusy = false ∧
    updating.fwBusy = true ∧ (base.updateCores (2 ^ 63)).head? = some 0 := by decide +kernel
def dbg : State := { ctxS 1 two with csel := 0 }
/-- A register command for a slot, file, number and lane. -/
def dsel (slot file n lane : Nat) : DWord := BitVec.ofNat 64 (slot * 2 ^ 8 + file * 2 ^ 16 + n * 2 ^ 20 + lane * 2 ^ 30)
theorem wit_DebuggerAndHostAccesses_slots : ((dbg.core 0).team? 5).isNone = true ∧ ((dbg.core 0).team? 1).map (·.isHalted) = some true ∧
    ((dbg.core 0).team? 0).map (·.isHalted) = some false := by decide +kernel
/-- Slot 5 is empty; slot 0 runs; slot 1 is halted: v15 of lane 3, g63, the PC of entry 1 are in range, v16, lane 4 and g64 are not. -/
theorem wit_DebuggerAndHostAccesses_range : (∀ x ∈ [(0, 15, 3, true), (0, 16, 3, false), (0, 15, 4, false), (1, 63, 0, true), (1, 64, 0, false),
    (7, 1, 0, true), (7, 2, 0, false)], (DSel.of (dsel 1 x.1 x.2.1 x.2.2.1)).slot = 1 ∧
      (DSel.of (dsel 1 x.1 x.2.1 x.2.2.1)).inRange (dbg.core 0) { team0 with num := 1, mode := .halted 0 none } = x.2.2.2) ∧
    (DSel.of (dsel 1 7 1 0)).pcBad 0x102 = true ∧ (DSel.of (dsel 1 7 1 0)).pcBad 0x104 = false ∧ (DSel.of (dsel 1 0 3 0)).pcBad 0x102 = false := by
  decide +kernel
def statusWait : State := st team0 x0 fun k => k.setTeam 1 { team0 with num := 1, mode := .halted 0 none, busy := [.g 5, .v 0 3] }
theorem wit_DebuggerAndHostAccesses_busy : ((statusWait.core 0).team? 1).map (·.busy) = some [.g 5, .v 0 3] ∧ (DSel.of (dsel 1 1 5 0)).ref = .g 5 ∧
    (DSel.of (dsel 1 1 6 0)).ref = .g 6 ∧ (((statusWait.core 0).cancelStatus 1 (.g 5)).team? 1).isSome = true := by decide +kernel
theorem wit_DebuggerAndHostAccesses_trace : (2 ^ 62 : DWord).getLsbD 63 = false := by decide +kernel
/-- The virtual functions of partitions 0 and 11, one past them, and a partition that does not exist. -/
theorem wit_DebuggerAndHostAccesses_host : (base.part (1 - 1)).valid = true ∧ (base.part (12 - 1)).valid = false ∧ 12 < 13 ∧ 2 ^ 56 - 1 < 2 ^ 56 ∧
    haltAll.stopped = true ∧ base.stopped = false ∧
    ((base.hostBytes 8).homeWrite (base.hostIdent 1) 128 (toLeBytes 8 5)).1.waitsFor (hostOwner 1) = false ∧
    ((base.hostBytes 8).homeRead (base.hostIdent 1) 128 8).1.waitsFor (hostOwner 1) = false := by decide +kernel
theorem wit_DebuggerAndHostAccesses_window : 8 % 8 = 0 ∧ windowUnit 0x1F0000 < 0x20 ∧ 0x2C ≤ windowUnit 0x2C0000 ∧ 23 < 24 ∧ 11 < 12 ∧
    (1 : DWord).extractLsb' 0 8 = 1 ∧ (2 : DWord).extractLsb' 0 8 = 2 ∧ (3 : DWord).extractLsb' 0 8 = 3 ∧ (0 : DWord).getLsbD 62 = false := by
  decide +kernel
def flit (seq : BitVec 16) : Flit := .make seq 1 0 1 7 55
def port (resend : Option (BitVec 16)) (tries : Nat) : Port :=
  { Port.reset with up := true, window := [flit 0, flit 1], txseq := 2, out := [7], resend := resend.map fun l => (l, 64), tries := tries }
def portS (p : Port) : State := { base with ports := base.ports.set 23 p }
theorem good_make (seq : BitVec 16) (kind : Byte) (src dst tag body : Nat) : (Flit.make seq kind src dst tag body).good = true := by
  simp only [Flit.make, Flit.good, Flit.bytes, decide_eq_true_eq]
theorem wit_LinksClockAndStartUp : (flit 0).good = true ∧ (flit 1).good = true ∧ ∀ kind, (Flit.make 0 kind 0 1 7 55).good = true :=
  ⟨good_make .., good_make .., fun _ => good_make ..⟩
theorem wit_LinksClockAndStartUp_port : Port.reset.rxseq = 0 ∧ Port.reset.parts = [] ∧ Nat.testBit 55 175 = false ∧ base.stopped = false := by
  decide +kernel
theorem wit_LinksClockAndStartUp_resend : (port (some 0) 15).tries < 16 ∧ (port (some 0) 15).resend = some (0, 64) ∧ 64 ≤ ({ portS (port (some 0) 15) with clock := 64 } : State).clock ∧ (port none 15).window ≠ [] ∧
    16 ≤ (port none 16).tries ∧ Port.reset.up = false ∧ (portS Port.reset).ports[23]? = some Port.reset := by decide +kernel
/-- A core that runs, and one whose island is gated. -/
def gated : State := { base with islands := base.islands.set 0 .gated }
theorem wit_LinksClockAndStartUp_clock : base.on = true ∧ base.stopped = false ∧ base.coreRuns 0 = true ∧ gated.coreRuns 0 = false ∧ haltAll.on = true ∧
    haltAll.agenda = [] ∧ haltAll.stopped = true := by decide +kernel

/-! ### What holds of every instruction, of reset and of a step -/

theorem wit_FalsePredicateHasNoEffect : Pl base ∧ (cx base).takes ⟨true, 4, false, 0⟩ = false ∧ (cx base).takes ⟨true, 7, true, 0⟩ = false := by
  decide +kernel
theorem wit_ResetState : State.reset.on = false := by decide +kernel
def longCode (k : Machine.Core) : Machine.Core := { k with lslots := k.lslots.set 0 (some { lslot with launch := { launch with codelen := 0x1000 } }) }
/-- The instruction i at 0x100 of fragment 0, with a second fragment behind it, of entry 1. -/
def fetchS (i : Instr) (t : Team) (f : Machine.Core → Machine.Core) : State :=
  let w := (encode i).getD (0, 0)
  { st t (entry 0 0x100 7) (fun k => f (longCode (k.setEntry 0 1 (entry 0 0x100 8)))) with
    cur := .none, mem := memPutNat (memPutNat [(0x1007, 0x80), (0x200F, 0x80)] 0x10100 8 w.1.toNat) 0x10108 4 w.2.toNat }
def addI : Instr := .add ⟨p7, .s, 3, 3, .lit 5, false⟩
/-- Whether the fetched instruction is i, whether its attempt changes something, and whether it starts. -/
def attempt (s : State) (i : Instr) : Option (Bool × Bool) :=
  match ({ s with cur := .frag 0 0 0 } : State).fetchFrag 0 0 0 (tm s) with
  | .got s1 (.ok j) =>
    if i = j then match exec i s1 with
      | .next s2 => let s3 := (s1.countStart s2 0 0 0).keepIns 0 0 0 j; some (decide (s3.epoch ≠ s.epoch), s.started s3 0 0)
      | _ => none
    else none
  | _ => none
abbrev Turn (s : State) : Prop := s.on = true ∧ s.stopped = false ∧ s.agenda = [] ∧ s.turn = turnsPerCore * 0 + 0 ∧ s.coreRuns 0 = true ∧
  (s.core 0).lateEntry 0 = none ∧ (s.core 0).boostEntry 0 = none ∧ (s.core 0).candidates s.epoch 0 = 0 :: [1] ∧ (s.core 0).team? 0 = some (tm s) ∧
  (s.core 0).insOf 0 0 = none ∧ (s.core 0).datapathHeld 0 0 = false
theorem wit_StepRunsTheDecodedInstruction : let s := fetchS addI team0 id
    Turn s ∧ attempt s addI = some (true, true) := by decide +kernel
/-- Its destination awaits a session's status: it stalls, and entry 1 tries. -/
theorem wit_StepRunsTheDecodedInstruction_stall : let s := fetchS addI { team0 with busy := [.v 0 3] } id
    Turn s ∧ attempt s addI = some (false, false) := by decide +kernel
/-- A wait that started before and is released now ends: it does not start again. -/
def waitI : Instr := .bwait ⟨gp7, 5, 2, .imm 0, false⟩
theorem wit_StepRunsTheDecodedInstruction_wait : let s := fetchS waitI team0 fun k => k.setEntry 0 0 { entry 0 0x100 7 with bw := some (2, some 1) }
    Turn s ∧ attempt s waitI = some (true, false) := by decide +kernel
/-- A stream before `mzero a3` at 0x800. -/
def mzeroF : AccF := ⟨p7, 3, 0, 0, .f32⟩
def streamS : State :=
  { on calm (fun k => { k with lslots := k.lslots.set 0 (some { lslot with launch := { launch with stream := 0x800 } }) }) with
    cur := .none, turn := turnsPerCore * 0 + 4 + 0
    mem := memPutNat [(0x1007, 0x80), (0x200F, 0x80)] 0x10800 8 ((encode (.mzero mzeroF)).getD (0, 0)).1.toNat }
def streamAttempt : Bool := match ({ streamS with cur := .stream 0 0 } : State).fetchStream 0 0 0 with
  | .got s1 (.ok j) => decide (j = .mzero mzeroF) && (match exec j s1 with | .next _ => true | _ => false)
  | _ => false
theorem wit_StepRunsTheDecodedInstruction_stream : streamS.on = true ∧ streamS.agenda = [] ∧ streamS.coreRuns 0 = true ∧
    (streamS.core 0).seqs[0]? = some (seqX xs []) ∧ (seqX xs []).eligible streamS.epoch = true ∧ (seqX xs []).block = some 0 ∧ streamAttempt = true := by
  decide +kernel
/-- A word of 8 bytes and one of 12, and the steps from outside and of start-up. -/
theorem wit_StepRunsTheDecodedInstruction_word : let s := fetchS addI team0 id
    let id := s.identOf 0 0
    (fst' (s.homeRead id 0x100 8).2).isSome = true ∧ (fst' ((s.homeRead id 0x100 8).1.homeRead id 0x108 4).2).isSome = true ∧
    needsParcel (((encode addI).getD (0, 0)).1) = true ∧ needsParcel (((encode (.fchk p7)).getD (0, 0)).1) = false ∧
    launch.inCode 56 8 = true ∧ launch.inCode 57 8 = false := by decide +kernel
/-- The entry keeps the instruction it has begun. -/
theorem wit_StepRunsTheDecodedInstruction_kept : let s := fetchS addI team0 fun k => { k.setEntry 0 0 { entry 0 0x100 7 with op := some 40 } with midways := [⟨40, 0, 3, team0, some addI, none⟩] }
    (s.core 0).insOf 0 0 = some addI ∧ (match exec addI { s with cur := .frag 0 0 0 } with | .next _ => true | _ => false) = true := by decide +kernel
theorem wit_StepRunsTheDecodedInstruction_asked : base.unitUp .clock = true ∧ (match exec .clock { base with cur := .none } with | .next _ => true | _ => false) = true ∧
    State.reset.on = false ∧ State.reset.agenda = [] := by decide +kernel
theorem wit_IssueOrder : ((fetchS addI team0 id).core 0).candidates 0 0 = [] ++ 0 :: ([] ++ 1 :: []) := by decide +kernel
/-- An entry for pages 0 to 4 of slices from 0 on that names device 0, the device itself, and one that names device 5. -/
def owner (dev : Nat) : BitVec 128 := BitVec.ofNat 128 (2 ^ 127 + dev * 2 ^ 80 + 4 * 2 ^ 40)
theorem wit_HomesAndPlanes : otServes (owner 5) 0 0x40000 = true ∧ otServes (owner 5) 0 0x50000 = false ∧ otServes 0 0 0 = false ∧
    (∀ e ∈ base.otable, otServes e.2 0 0 = false) := by decide +kernel
theorem wit_SpecWordsDecode : decodeWord team 0x0000000181E0F001 0x00010000 = .ok (.add ⟨gp7, .s, 3, 3, .lit 0x00010000, false⟩) := test_word_add_lit
theorem wit_DecodeAfterEncode : (∀ i ∈ [Instr.add ⟨p7, .s, 255, 255, .imm 0xFFFFF, true⟩, .ld ldF, .bra ⟨p7, 0, .rel20 0xFFFE4⟩], i.wellFormed team = true) ∧
    (Instr.mrd ⟨gp7, 2, 3⟩).wellFormed agent = true ∧ (Instr.mzero mzeroF).wellFormed stream = true := by decide +kernel
/-- The machine that powers on has its form and takes a step. -/
theorem wit_StepKeepsTheForm : State.reset.Formed ∧ ∃ s', step State.reset = .next s' := by
  refine ⟨by decide +kernel, ?_⟩
  have h : (match step State.reset with | .next _ => true | _ => false) = true := by decide +kernel
  cases hs : step State.reset with
  | next s' => exact ⟨s', rfl⟩
  | fault _ => simp [hs] at h
  | refused _ => simp [hs] at h

/-! ## Small steps: results from the spec's rules and examples -/

/-- One lane with registers v0, v1, … and one step of i: a register of the lane, and the lane's status and the flags. -/
def one (v : List Word) : State := st { team0 with n := 1, lanes := [⟨v, 1, [], 0, 0, 0, 0⟩] } (entry 0 0x100 1) id
def after (i : Instr) (s : State) (f : State → Bool) : Bool := match exec i s with
  | .next s' => f s'
  | _ => false
def gives (i : Instr) (v : List Word) (r : Nat) (x fl : Word) : Bool :=
  after i (one v) fun s => decide (((tm s).lane 0).r r = x ∧ (tm s).fflags = fl)
def setsP (i : Instr) (v : List Word) (p : Nat) (b : Bool) : Bool := after i (one v) fun s => decide (((tm s).lane 0).pr p = b)
def rr (a b : Reg) : IntB := ⟨p7, .s, 9, a, .reg b, false⟩
def ru (a : Reg) (sat : Bool) : IntU := ⟨p7, .s, 9, a, sat⟩
abbrev zs : List Word := List.replicate 16 0
def ab (a b : Word) : List Word := (zs.set 1 a).set 2 b

/-- 04_lane.md: sums wrap and clamp; the chained add leaves its carry. -/
theorem test_add_wraps : gives (.add (rr 1 2)) (ab 0x7FFFFFFF 1) 9 0x80000000 0 = true := by decide +kernel
theorem test_add_sat : gives (.add { rr 1 2 with sat := true }) (ab 0x7FFFFFFF 1) 9 0x7FFFFFFF 0x80 = true := by decide +kernel
theorem test_addc : setsP (.addc ⟨p7, .n, 9, 1, .reg 2, 3, false⟩) (ab 0xFFFFFFFF 1) 3 true = true := by decide +kernel
theorem test_subb : setsP (.subb ⟨p7, .n, 9, 1, .reg 2, 3, false⟩) (ab 0 1) 3 true = true := by decide +kernel
/-- 04_lane.md:189 the remainder of -7 by 2; a division by zero gives 0 and IDZ, its remainder the dividend; -2^31 by -1 sets IOV. -/
theorem test_rem : gives (.rem (rr 1 2)) (ab 0xFFFFFFF9 2) 9 0xFFFFFFFF 0 = true := by decide +kernel
theorem test_div_zero : gives (.div (rr 1 2)) (ab 9 0) 9 0 0x20 = true ∧ gives (.rem (rr 1 2)) (ab 9 0) 9 9 0x20 = true := by decide +kernel
theorem test_div_over : gives (.div (rr 1 2)) (ab 0x80000000 0xFFFFFFFF) 9 0x80000000 0x40 = true := by decide +kernel
/-- 04_lane.md:187, 191. -/
theorem test_abs : gives (.abs (ru 1 false)) (ab 0x80000000 0) 9 0x80000000 0 = true ∧ gives (.neg (ru 1 true)) (ab 0x80000000 0) 9 0x7FFFFFFF 0x80 = true := by
  decide +kernel
theorem test_mulh : gives (.mulh { rr 1 2 with ty := .n }) (ab 0xFFFFFFFF 0xFFFFFFFF) 9 0xFFFFFFFE 0 = true := by decide +kernel
theorem test_min_signed : gives (.min (rr 1 2)) (ab 0xFFFFFFFF 1) 9 0xFFFFFFFF 0 = true ∧ gives (.min { rr 1 2 with ty := .n }) (ab 0xFFFFFFFF 1) 9 1 0 = true := by
  decide +kernel
/-- R83: counts of 32 and more, the rotation count modulo 32, and the bit counts of zero. -/
theorem test_shl : gives (.shl (rr 1 2)) (ab 1 32) 9 0 0 = true ∧ gives (.shl (rr 1 2)) (ab 1 31) 9 0x80000000 0 = true := by decide +kernel
theorem test_sar : gives (.sar (rr 1 2)) (ab 0x80000000 40) 9 0xFFFFFFFF 0 = true := by decide +kernel
theorem test_ror : gives (.ror (rr 1 2)) (ab 1 33) 9 0x80000000 0 = true ∧ gives (.rol (rr 1 2)) (ab 0x80000001 33) 9 3 0 = true := by decide +kernel
theorem test_clz : gives (.clz (ru 1 false)) (ab 0 0) 9 32 0 = true ∧ gives (.ctz (ru 1 false)) (ab 8 0) 9 3 0 = true := by decide +kernel
theorem test_brev : gives (.brev (ru 1 false)) (ab 1 0) 9 0x80000000 0 = true ∧ gives (.popc (ru 1 false)) (ab 0xF0F 0) 9 8 0 = true := by decide +kernel
/-- A field of 4 bits at bit 4, sign-extended. -/
theorem test_bfe : gives (.bfe (rr 1 2)) (ab 0x80 0x404) 9 0xFFFFFFF8 0 = true := by decide +kernel
/-- Logic reads a 64-bit immediate as a bit pattern (R55, R77); a signed add sign-extends it. -/
theorem test_pair_and : gives (.pairAnd ⟨p7, .s, 8, 0, .imm 0xFFFFF, false⟩) (List.replicate 16 0xFFFFFFFF) 9 0 0 = true := by decide +kernel
theorem test_pair_add : gives (.pairAdd ⟨p7, .s, 8, 0, .imm 0xFFFFF, false⟩) zs 9 0xFFFFFFFF 0 = true := by decide +kernel
theorem test_mov : gives (.mov ⟨p7, 9, .imm 0xFFFFF⟩) zs 9 0xFFFFFFFF 0 = true := by decide +kernel
theorem test_cmp : setsP (.cmp ⟨p7, .lt, .s32, 3, 1, .reg 2, false⟩) (ab 0xFFFFFFFF 0) 3 true = true ∧
    setsP (.cmp ⟨p7, .lt, .n32, 3, 1, .reg 2, false⟩) (ab 0xFFFFFFFF 0) 3 false = true := by decide +kernel
/-- 04_lane.md:365. -/
def cvtF : CvtF := ⟨p7, .s32, .f32, 3, 2, .rtz, false, false⟩
theorem test_cvt : gives (.cvt cvtF) (ab 0 0xC0B00000) 3 0xFFFFFFFB 0x10 = true ∧ gives (.cvt cvtF) (ab 0 0x7F800000) 3 0x7FFFFFFF 0x01 = true ∧
    gives (.cvt cvtF) (ab 0 0x7FC00000) 3 0 0x01 = true := by decide +kernel
/-- 10_prog_horner.md: lane 7's and lane 1's sums with the constant in each of its forms. -/
theorem test_fadd : gives (.floatAdd ⟨p7, .f32, 1, 1, .imm 0x3DCCC, .rne, false, false⟩) (ab 0x48D9BA00 0) 1 0x48D9BA03 0x10 = true ∧
    gives (.floatAdd ⟨p7, .f32, 1, 1, .lit 0x3DCCCCCD, .rne, false, false⟩) (ab 0xBF800000 0) 1 0xBF666666 0x10 = true := by decide +kernel
/-- A quiet NaN operand gives the canonical NaN and no flag, a signalling one sets NV; 1 by 0 is infinity and DZ. -/
theorem test_fmul_nan : gives (.floatMul ⟨p7, .f32, 9, 1, .reg 2, .rne, false, false⟩) (ab 0x7FC00005 0) 9 0x7FC00000 0 = true ∧
    gives (.floatMul ⟨p7, .f32, 9, 1, .reg 2, .rne, false, false⟩) (ab 0x7FA00000 0) 9 0x7FC00000 1 = true := by decide +kernel
theorem test_fdiv_zero : gives (.floatDiv ⟨p7, .f32, 9, 1, .reg 2, .rne, false, false⟩) (ab 0x3F800000 0x80000000) 9 0xFF800000 2 = true := by
  decide +kernel
/-- A product with a lookahead of 3 waits in the entry. -/
theorem test_mul_late : after (.mul { rr 1 2 with c := ⟨false, 7, false, 3⟩ }) (one (ab 3 5)) (fun s => decide (((tm s).lane 0).r 9 = 0 ∧
    (((s.core 0).entry 0 0).pend.map (·.left)) = [3] ∧ ((s.core 0).entry 0 0).pc = 0x108)) = true := by decide +kernel
/-- R92: a full stack takes no push; the fault fills the status word. -/
theorem test_spush_full : after (.spush ⟨p7, 0, 1, 0, false⟩) (stackSt 8)
    (fun s => decide (((tm s).lane 0).stack.length = 8 ∧ ((tm s).lane 0).status = 0x1001)) = true := by decide +kernel
theorem test_spop : after (.spop ⟨p7, 3, 0, 0, false⟩) base (fun s => decide (((tm s).lane 2).r 3 = 7 ∧ ((tm s).lane 2).stack = [9])) = true := by
  decide +kernel
/-- 07_team_wide.md:168, with the fragment's lanes 0, 1, 2 and 5. -/
def redS : State := st { team0 with n := 6, lanes := [0x4B800000, 0x3F800000, 0x3F800000, 0, 0, 0x40000000].map fun x => ⟨zs.set 3 x, 0, [], 0, 0, 0, 0⟩ }
  (entry 0 0x100 0x27) id
theorem test_red : after (.red ⟨gp7, .add, .f32, 5, 3, .rne, false, false⟩) redS
    (fun s => decide ((tm s).rg 5 = 0x4B800001 ∧ (tm s).fflags = 0x10)) = true := by decide +kernel
/-- 12_core_engines.md:418. -/
def listA : List Nat := [2, 5, 9, 11, 20, 30, 31, 40]
def listB : List Nat := [1, 5, 6, 11, 12, 13, 31, 33]
def xsectS : State := st { team0 with n := 8, lanes := (List.range 8).map fun L =>
  ⟨(zs.set 8 (BitVec.ofNat 32 (listA[L]?.getD 0))).set 9 (BitVec.ofNat 32 (listB[L]?.getD 0)), 0, [], 0, 0, L, 0⟩ } (entry 0 0x100 0xFF) id
theorem test_xsect : after (.xsect ⟨p7, 10, 8, .reg 9, 12⟩) xsectS (fun s => decide ((tm s).rg 12 = 0x0000000800070003 ∧
    ((tm s).lane 0).r2 10 = 0x0000000100000001 ∧ ((tm s).lane 2).r2 10 = 0x0000000600000006 ∧ ((tm s).lane 3).r2 10 = 0xFFFFFFFFFFFFFFFF)) = true := by
  decide +kernel
/-- 08_core_memory.md:415: lanes 0, 1 and 3 at a word that holds 10. -/
def adds : List Acc := [⟨0, 64, 4, 10, 1, 0⟩, ⟨1, 64, 4, 10, 2, 0⟩, ⟨3, 64, 4, 10, 4, 0⟩]
theorem test_atom_order : (atomLanes .add .s32 adds 10).1 = 17 ∧ (atomLanes .add .s32 adds 10).2.map (·.2) = [10, 11, 13] := by decide +kernel
theorem test_atom_cas : let r := atomLanes .cas .n32 (adds.map fun a => { a with cmp := 10 }) 10
    r.1 = 1 ∧ r.2.map (·.2) = [10, 1, 1] := by decide +kernel
/-- 08_core_memory.md:248: the modulo register's offsets, and its index after four words. -/
def modR : ModReg := ⟨0x100, 64, 56⟩
theorem test_mod : ((List.range 4).map fun r => modR.offset r 4) = [some 0x138, some 0x13C, some 0x100, some 0x104] ∧ (modR.advance 16).idx = 8 := by
  decide +kernel
/-- 06_team.md: the split of `split_demo` at 0x10: the taken fragment at 0x28, both with join address 0x30. -/
theorem test_brd : after (.brd ⟨⟨false, 0, false, 0⟩, 6, 8⟩) (on half fun k => k.setEntry 0 0 (entry 0 0x10 0xF)) (fun s =>
    decide (((s.core 0).entry 0 1).pc = 0x28 ∧ ((s.core 0).entry 0 1).jaddr = 0x30 ∧ ((s.core 0).entry 0 1).mask = 3 ∧ ((s.core 0).entry 0 0).mask = 12 ∧
      ((s.core 0).entry 0 0).pc = 0x18)) = true := by decide +kernel
/-- R66, R337: an illegal instruction enters the handler at level 1. -/
theorem test_illegal : after (.illegalInstruction 3) base (fun s => decide (((s.core 0).entry 0 0).pc = 0x400 ∧ (tm s).level = 1 ∧
    (tm s).frames.map (fun f => (f.cls, f.detail, f.stopPc, f.resumePc)) = [(1, 3, 0x100, 0x100)])) = true := by decide +kernel
theorem test_tret : after (.tret gp7) inHandler (fun s => decide (((s.core 0).entry 0 0).pc = 0x108 ∧ (tm s).level = 0 ∧ (tm s).frames = [])) = true := by
  decide +kernel
/-- 14_die_memory_model.md:238: with one element left, the owner's pop takes it and the thief finds none. -/
theorem test_deque : let s := dqS 1 4 5
    let r := s.dqApply (s.identOf 0 0) 1 0 0
    (fst' r.2).map (·.st) = some 0 ∧ (fst' (r.1.dqApply (s.identOf 0 0) 2 0 0).2).map (·.st) = some 1 := by decide +kernel
/-- R357 and R428: what reset leaves. -/
theorem test_reset : State.reset.devRead 0x40 = 2600 ∧ State.reset.devRead 0 = 0x5A0C000100000000 := by decide +kernel
/-- FIPS 180-4, the digest of "abc" (R434 names SHA-256). -/
theorem test_sha256 : sha256 [0x61, 0x62, 0x63] = [0xBA, 0x78, 0x16, 0xBF, 0x8F, 0x01, 0xCF, 0xEA, 0x41, 0x41, 0x40, 0xDE, 0x5D, 0xAE, 0x22, 0x23,
    0xB0, 0x03, 0x61, 0xA3, 0x96, 0x17, 0x7A, 0x9C, 0xB4, 0x10, 0xFF, 0x61, 0xF2, 0x00, 0x15, 0xAD] := by decide +kernel
end Sys2Proof.Tests
end

section
/-! Control transfers of a plain fragment: where the PC goes, what stands as before, and the trap at a misaligned register target. -/

namespace Sys2Proof.Machine
open Sys2Proof

/-! ## What a transfer comes to for a plain fragment -/

/-- A transfer's answer: the PC at the target when taken, else past the instruction, with team t' and nothing else changed but trace
packets. -/
def State.Transfers (s : State) (c q e : Nat) (out : Out) (taken : Bool) (len : Nat) (target : PCWord) (t' : Team) : Prop :=
  ∃ s', out = .next s' ∧
    s.Moves s' c q e (if taken then ((s.core c).entry q e).jumped target else ((s.core c).entry q e).passed len) t'

/-- No write at all leaves a team without a log and joins as it was. -/
theorem Team.put_nil {t : Team} (hl : t.log = []) (hj : t.joins = []) : t.put [] = t := by
  obtain ⟨hframe, -⟩ := Team.put_frame t [] hl hj
  have hlanes : (t.put []).lanes = t.lanes := List.ext_getElem? fun i => by simp [Team.put]
  rw [hframe, hlanes]
  rfl

theorem Team.put_nil_plain {s : State} {c q e : Nat} {t : Team} (h : Plain s c q e t) : t.put [] = t := by
  obtain ⟨⟨-, -, -, -, -, -, -, hl, hj, -⟩, -, -⟩ := h
  exact Team.put_nil hl hj

theorem Core.note_eq (k : Core) (slot entry kind rest : Nat) : ∃ tr, k.note slot entry kind rest = { k with trq := tr } := by
  unfold Core.note
  split
  · exact ⟨_, rfl⟩
  · exact ⟨k.trq, rfl⟩

theorem Core.noteSync_eq (k : Core) (slot entry : Nat) (pc : PCWord) : ∃ tr, k.noteSync slot entry pc = { k with trq := tr } := by
  unfold Core.noteSync
  split
  · exact ⟨_, rfl⟩
  · exact ⟨k.trq, rfl⟩

/-- A BRANCH packet and its SYNC go to the core's trace queue and nowhere else (R418). -/
theorem Cx.branchTrace_eq (cx : Cx) (form : Nat) (taken : Bool) (target : PCWord) :
    ∃ tr, cx.branchTrace form taken target = { cx with k := { cx.k with trq := tr } } := by
  simp only [Cx.branchTrace]
  generalize (if taken = true then 1 else 0) + 2 * form + 16 * _ = rest
  obtain ⟨tr, hnote⟩ := Core.note_eq cx.k cx.slot cx.e 2 rest
  rw [hnote]
  split
  · obtain ⟨tr', hsync⟩ := Core.noteSync_eq { cx.k with trq := tr } cx.slot cx.e target
    exact ⟨tr', by rw [hsync]⟩
  · exact ⟨tr, rfl⟩

/-- A fragment with a lane and no record meets no other (R128). -/
theorem Core.meet_of_no_record {k : Core} {q e : Nat} (hi : (k.entry q e).inner = none) (hm : (k.entry q e).mask ≠ 0) (slot : Nat) :
    k.meet q e slot = k := if_pos ⟨hi, hm⟩

/-- The instruction of a plain fragment ends at `pc`, whatever trace packets it has noted. -/
theorem Cx.finish_plain {s : State} {c q e : Nat} {t : Team} (h : Plain s c q e t) (t' : Team) (tr : List (List DWord)) (pc : PCWord) :
    s.Moves (({ Cx.at s c q e t with k := { s.core c with trq := tr }, t := t' } : Cx).finish s pc) c q e
      (((s.core c).entry q e).jumped pc) t' := by
  obtain ⟨⟨-, hc, hq, he, -, hp, -⟩, hi, hm⟩ := h
  have hx := Core.entry_pend (e := e) hp
  have hentry : (({ s.core c with trq := tr } : Core).setEntry q e (((s.core c).entry q e).jumped pc)).entry q e =
      ((s.core c).entry q e).jumped pc := Core.entry_setEntry hq he _
  have hmeet := Core.meet_of_no_record (k := (({ s.core c with trq := tr } : Core).setEntry q e (((s.core c).entry q e).jumped pc)).setTeam
    ((s.core c).entry q e).team t') (q := q) (e := e) (by rw [Core.entry_setTeam, hentry]; exact hi)
    (by rw [Core.entry_setTeam, hentry]; exact hm) ((s.core c).entry q e).team
  have hfin : ({ Cx.at s c q e t with k := { s.core c with trq := tr }, t := t' } : Cx).finish s pc =
      (s.setCore c { ((s.core c).setEntry q e (((s.core c).entry q e).jumped pc)).setTeam ((s.core c).entry q e).team t' with
        trq := tr }).bump := by
    simp only [Cx.finish, Cx.core, Cx.slot, hx, tickPends, List.map_nil]
    exact congrArg (fun k => (s.setCore c k).bump) hmeet
  unfold State.Moves
  rw [hfin, State.core_bump, State.core_setCore hc]

/-- A taken transfer of a plain fragment has no window to close: the PC is at the target and the writes are done (R61, R132). -/
theorem Cx.transfer_plain {s : State} {c q e : Nat} {t : Team} (h : Plain s c q e t) (form len : Nat) (target : PCWord) (ws : List Wr) :
    s.Transfers c q e ((Cx.at s c q e t).transfer s form target ws) true len target (t.put ws) := by
  simp only [Cx.transfer, Cx.close_quiet h.1]
  obtain ⟨tr, ht⟩ := ({ Cx.at s c q e t with t := t.put ws } : Cx).branchTrace_eq form true target
  rw [ht]
  exact ⟨_, rfl, Cx.finish_plain h _ tr target⟩

/-- A branch that a plain fragment does not take goes on behind itself (R132). -/
theorem Cx.fallThrough_plain {s : State} {c q e : Nat} {t : Team} (h : Plain s c q e t) (len : Nat) (target : PCWord) (ws : List Wr) :
    s.Transfers c q e ((Cx.at s c q e t).fallThrough s len ws) false len target (t.put ws) := by
  simp only [Cx.fallThrough]
  obtain ⟨tr, ht⟩ := ({ Cx.at s c q e t with t := t.put ws } : Cx).branchTrace_eq 0 false (Cx.at s c q e t).x.pc
  rw [ht]
  exact ⟨_, rfl, Cx.finish_plain h _ tr _⟩

/-- A transfer whose gp predicate is false only moves the PC past itself (R51). -/
theorem Cx.next_transfers {s : State} {c q e : Nat} {t : Team} (h : Plain s c q e t) (len : Nat) (target : PCWord) :
    s.Transfers c q e (.next ((Cx.at s c q e t).next s len)) false len target t :=
  ⟨_, rfl, Cx.finish_plain h t (s.core c).trq _⟩

/-! ## The instructions -/

/-- A branch of a plain fragment follows its condition (R133). -/
theorem branchOp_plain {s : State} {c q e : Nat} {t : Team} (h : Plain s c q e t) (f : BraF) (cond : Cx → Bool) :
    s.Transfers c q e (branchOp f cond s) (cond (Cx.at s c q e t)) f.tgt.len (f.tgt.target ((s.core c).entry q e).pc) t := by
  unfold branchOp
  rw [issue_quiet h.1]
  have taken := Cx.transfer_plain h 0 f.tgt.len (f.tgt.target ((s.core c).entry q e).pc) []
  have passed := Cx.fallThrough_plain h f.tgt.len (f.tgt.target ((s.core c).entry q e).pc) []
  rw [Team.put_nil_plain h] at taken passed
  cases cond (Cx.at s c q e t) with
  | true => exact taken
  | false => exact passed

/-- `brany` branches when some active lane's predicate holds (R133). -/
theorem Cx.part_nonempty (cx : Cx) (cc : Ctl) :
    (!(cx.part cc).isEmpty) = decide (∃ L ∈ cx.active, xor ((cx.v.lane L).pr cc.ps.toNat) cc.pn = true) := by
  rw [Bool.eq_iff_iff]
  simp [Cx.part, List.filter_eq_nil_iff]

/-- `brall` branches when every active lane's predicate holds (R133). -/
theorem Cx.part_eq_active (cx : Cx) (cc : Ctl) :
    decide (cx.part cc = cx.active) = decide (∀ L ∈ cx.active, xor ((cx.v.lane L).pr cc.ps.toNat) cc.pn = true) := by
  simp only [Cx.part, List.filter_eq_self]

theorem exec_bra_plain {s : State} {c q e : Nat} {t : Team} (h : Plain s c q e t) (f : BraF) :
    s.Transfers c q e (exec (.bra f) s) (if f.c.w then (Cx.at s c q e t).takes f.c else !f.c.pn) f.tgt.len
      (f.tgt.target ((s.core c).entry q e).pc) t := by
  have ⟨⟨hcur, _⟩, _⟩ := h
  have hexec : exec (.bra f) s = branchOp f (fun cx => if f.c.w then cx.takes f.c else !f.c.pn) s := by
    show execBra f s = _
    unfold execBra
    rw [hcur]
  rw [hexec]
  exact branchOp_plain h f _

theorem exec_brany_plain {s : State} {c q e : Nat} {t : Team} (h : Plain s c q e t) (f : BraF) :
    s.Transfers c q e (exec (.brany f) s) (decide (∃ L ∈ (Cx.at s c q e t).active, xor ((t.lane L).pr f.c.ps.toNat) f.c.pn = true))
      f.tgt.len (f.tgt.target ((s.core c).entry q e).pc) t :=
  (Cx.at s c q e t).part_nonempty f.c ▸ branchOp_plain h f fun cx => !(cx.part f.c).isEmpty

theorem exec_brall_plain {s : State} {c q e : Nat} {t : Team} (h : Plain s c q e t) (f : BraF) :
    s.Transfers c q e (exec (.brall f) s) (decide (∀ L ∈ (Cx.at s c q e t).active, xor ((t.lane L).pr f.c.ps.toNat) f.c.pn = true))
      f.tgt.len (f.tgt.target ((s.core c).entry q e).pc) t :=
  (Cx.at s c q e t).part_eq_active f.c ▸ branchOp_plain h f fun cx => decide (cx.part f.c = cx.active)

/-- A jump through a register goes to the register's bits 55:0 (R135). -/
theorem jumpOp_plain {s : State} {c q e : Nat} {t : Team} (h : Plain s c q e t) (f : BraF) (form : Nat) {r : Reg} (hr : f.tgt = .reg r)
    (ha : (Cx.at s c q e t).takes f.c = true → (t.rg r.toNat).setWidth 56 &&& 3 = (0 : PCWord)) :
    s.Transfers c q e (jumpOp f form s) ((Cx.at s c q e t).takes f.c) 8 ((t.rg r.toNat).setWidth 56) t := by
  unfold jumpOp
  rw [issue_quiet h.1, hr]
  cases htk : (Cx.at s c q e t).takes f.c with
  | true =>
    simp only [Bool.not_true, Bool.false_eq_true, if_false, ha htk, ne_eq, not_true_eq_false]
    have taken := Cx.transfer_plain h form 8 ((t.rg r.toNat).setWidth 56) []
    rwa [Team.put_nil_plain h] at taken
  | false => exact Cx.next_transfers h 8 _

/-- A jump to a register target that is not a multiple of 4 traps at the jump (R65). -/
theorem jumpOp_misaligned {s : State} {c q e : Nat} {t : Team} (h : Plain s c q e t) (f : BraF) (form : Nat) {r : Reg} (hr : f.tgt = .reg r)
    (htk : (Cx.at s c q e t).takes f.c = true) (hm : (t.rg r.toNat).setWidth 56 &&& 3 ≠ (0 : PCWord)) :
    jumpOp f form s = .next ((Cx.at s c q e t).illegal s 0x0A) := by
  unfold jumpOp
  rw [issue_quiet h.1, hr]
  simp only [htk, Bool.not_true, Bool.false_eq_true, if_false]
  exact if_pos hm

/-- Where a call goes: to its register's bits 55:0, or to its PC-relative target (R135). -/
def Tgt.callee (t : Team) (pc : PCWord) : Tgt → PCWord
  | .reg r => (t.rg r.toNat).setWidth 56
  | tgt => tgt.target pc

theorem exec_call_eq {s : State} {c q e : Nat} {t : Team} (h : Plain s c q e t) (f : BraF) :
    let cx := Cx.at s c q e t
    let pc := Tgt.callee t cx.x.pc f.tgt
    exec (.call f) s =
      if !(cx.takes f.c) then .next (cx.next s f.tgt.len)
      else if f.tgt.isReg ∧ pc &&& 3 ≠ 0 then .next (cx.illegal s 0x0A)
      else cx.transfer s 2 pc [.g f.d.toNat ((cx.x.pc + BitVec.ofNat 56 f.tgt.len).setWidth 64)] := by
  show execCall f s = _
  unfold execCall
  rw [issue_quiet h.1]
  rfl

/-- A call that is taken leaves the address behind itself in gD (R135). -/
theorem exec_call_plain {s : State} {c q e : Nat} {t : Team} (h : Plain s c q e t) (f : BraF) {pc : PCWord}
    (hpc : Tgt.callee t ((s.core c).entry q e).pc f.tgt = pc)
    (ha : (Cx.at s c q e t).takes f.c = true → f.tgt.isReg = true → pc &&& 3 = 0) :
    s.Transfers c q e (exec (.call f) s) ((Cx.at s c q e t).takes f.c) f.tgt.len pc
      (if (Cx.at s c q e t).takes f.c then t.put [.g f.d.toNat ((((s.core c).entry q e).pc + BitVec.ofNat 56 f.tgt.len).setWidth 64)]
        else t) := by
  subst hpc
  rw [exec_call_eq h]
  cases htk : (Cx.at s c q e t).takes f.c with
  | true =>
    have hal : ¬ (f.tgt.isReg = true ∧ Tgt.callee t ((s.core c).entry q e).pc f.tgt &&& 3 ≠ 0) := fun hb => hb.2 (ha htk hb.1)
    simp only [Bool.not_true, Bool.false_eq_true, if_false, hal]
    exact Cx.transfer_plain h 2 f.tgt.len _ _
  | false => exact Cx.next_transfers h f.tgt.len _

/-- A call to a register target that is not a multiple of 4 traps at the call (R65). -/
theorem exec_call_misaligned {s : State} {c q e : Nat} {t : Team} (h : Plain s c q e t) (f : BraF) {r : Reg} (hr : f.tgt = .reg r)
    (htk : (Cx.at s c q e t).takes f.c = true) (hm : (t.rg r.toNat).setWidth 56 &&& 3 ≠ (0 : PCWord)) :
    exec (.call f) s = .next ((Cx.at s c q e t).illegal s 0x0A) := by
  have hbad : (Tgt.reg r).isReg = true ∧ Tgt.callee t (Cx.at s c q e t).x.pc (.reg r) &&& 3 ≠ 0 := ⟨rfl, hm⟩
  rw [exec_call_eq h, hr]
  simp only [htk, Bool.not_true, Bool.false_eq_true, if_false]
  exact if_pos hbad

/-- A counted loop takes one from gD and branches while that is not zero (R136). -/
theorem exec_loop_plain {s : State} {c q e : Nat} {t : Team} (h : Plain s c q e t) (f : BraF) :
    s.Transfers c q e (exec (.loop f) s) ((Cx.at s c q e t).takes f.c && decide (t.rg f.d.toNat - 1 ≠ 0)) f.tgt.len
      (f.tgt.target ((s.core c).entry q e).pc)
      (if (Cx.at s c q e t).takes f.c then t.put [.g f.d.toNat (t.rg f.d.toNat - 1)] else t) := by
  show s.Transfers c q e (execLoop f s) _ _ _ _
  unfold execLoop
  rw [issue_quiet h.1]
  cases htk : (Cx.at s c q e t).takes f.c with
  | false => exact Cx.next_transfers h f.tgt.len _
  | true =>
    by_cases hn : t.rg f.d.toNat - 1 = 0
    · simp only [hn]
      exact Cx.fallThrough_plain h f.tgt.len _ _
    · simp only [Bool.not_true, Bool.false_eq_true, if_false, ne_eq, hn, not_false_eq_true, if_true, decide_true, Bool.and_true]
      exact Cx.transfer_plain h 0 f.tgt.len _ _

/-- Settles O13: each instruction is a transfer, a step past itself, or the trap of R65, by its condition. -/
theorem branchesJumpsAndLoops : Obligations.BranchesJumpsAndLoops := by
  unfold Obligations.BranchesJumpsAndLoops
  intro s c q e t f h
  refine ⟨exec_bra_plain h f, exec_brany_plain h f, exec_brall_plain h f, fun r hr => ⟨fun ha => ?_, fun htk hm => ?_⟩, fun ha => ?_,
    exec_loop_plain h f⟩
  · exact ⟨jumpOp_plain h f 1 hr ha, jumpOp_plain h f 3 hr ha⟩
  · exact ⟨jumpOp_misaligned h f 1 hr htk hm, jumpOp_misaligned h f 3 hr htk hm, exec_call_misaligned h f hr htk hm⟩
  · refine exec_call_plain h f ?_ fun htk hreg => ha htk ?_
    · cases f.tgt <;> rfl
    · cases htgt : f.tgt with
      | reg r => exact ⟨r, rfl⟩
      | rel20 v => rw [htgt] at hreg; cases hreg
      | rel32 v => rw [htgt] at hreg; cases hreg

end Sys2Proof.Machine
end

section
/-! Where an access goes: the home slice, the ownership entry that decides, and the plane of a request to another device. -/

namespace Sys2Proof.Machine
open Sys2Proof

/-! ## The home slice (R303) -/

/-- A field of an address that lies inside the address's width, as the model's arithmetic reads it. -/
theorem toNat_extractLsb'_ofNat {w start len : Nat} (h : start + len ≤ w) (n : Nat) :
    ((BitVec.ofNat w n).extractLsb' start len).toNat = n / 2 ^ start % 2 ^ len := by
  apply Nat.eq_of_testBit_eq
  intro i
  rw [BitVec.testBit_toNat, BitVec.getLsbD_extractLsb', BitVec.getLsbD_ofNat, Nat.testBit_mod_two_pow, Nat.testBit_div_two_pow,
    Nat.add_comm i start]
  by_cases hi : i < len
  · have hw : start + i < w := by omega
    simp [hi, hw]
  · simp [hi]

theorem homeSlice_eq (f n va : Nat) :
    let v := BitVec.ofNat 56 va
    homeSlice f n va = f + (v.extractLsb' 16 16 ^^^ v.extractLsb' 32 16 ^^^ (v.extractLsb' 48 8).setWidth 16).toNat % n := by
  intro v
  have hlow : (v.extractLsb' 16 16).toNat = va / 2 ^ 16 % 2 ^ 16 := toNat_extractLsb'_ofNat (by decide) va
  have hmid : (v.extractLsb' 32 16).toNat = va / 2 ^ 32 % 2 ^ 16 := toNat_extractLsb'_ofNat (by decide) va
  have hhigh : (v.extractLsb' 48 8).toNat = va / 2 ^ 48 % 2 ^ 8 := toNat_extractLsb'_ofNat (by decide) va
  rw [BitVec.toNat_xor, BitVec.toNat_xor, BitVec.toNat_setWidth_of_le (by decide), hlow, hmid, hhigh]
  rfl

/-! ## The ownership entry that decides (R404) -/

theorem State.home_of_unserved {s : State} {part va : Nat} (h : ∀ e ∈ s.otable, otServes e.2 (s.part part).first va = false) :
    s.home part va = .here (homeSlice (s.part part).first (s.part part).size va) := by
  have hfind : s.otable.find? (fun e => otServes e.2 (s.part part).first va) = none :=
    List.find?_eq_none.mpr fun e he => by simp [h e he]
  unfold State.home
  simp only [hfind]

theorem State.home_of_first_serving {s : State} {part va i : Nat} {e : BitVec 128} {pre rest : List (Nat × BitVec 128)}
    (hsplit : s.otable = pre ++ (i, e) :: rest) (hpre : ∀ y ∈ pre, otServes y.2 (s.part part).first va = false)
    (he : otServes e (s.part part).first va = true) :
    s.home part va = if (e.extractLsb' 80 8).toNat = s.devnum.toNat % 256
      then .here (homeSlice (s.part part).first (s.part part).size va)
      else .away (e.extractLsb' 80 8).toNat (e.extractLsb' 92 4).toNat := by
  have hfind : s.otable.find? (fun e => otServes e.2 (s.part part).first va) = some (i, e) :=
    List.find?_eq_some_iff_append.mpr ⟨he, pre, rest, hsplit, fun y hy => by simp [hpre y hy]⟩
  unfold State.home
  simp only [hfind]

/-! ## The plane of a request to another device (R400) -/

/-- Whether a plane has a port of this device that is up. -/
def State.planeUp (s : State) (p : Nat) : Bool :=
  match s.ports[p]? with
  | some x => x.up
  | none => false

theorem State.planeUp_iff (s : State) (p : Nat) : s.planeUp p = true ↔ ∃ x, s.ports[p]? = some x ∧ x.up = true := by
  unfold State.planeUp
  cases s.ports[p]? with
  | none => simp
  | some x => simp

/-- The plane that R400 tries first for a piece homed on device h. -/
def firstPlane (h va : Nat) : Nat := (h + ((BitVec.ofNat 64 va).extractLsb' 16 5).toNat) % 24

/-- The i-th plane that is tried lies i above the first, counting modulo 24. -/
theorem firstPlane_add (h va i : Nat) : (firstPlane h va + i) % 24 = (h + va / 2 ^ 16 % 32 + i) % 24 := by
  have hfield : ((BitVec.ofNat 64 va).extractLsb' 16 5).toNat = va / 2 ^ 16 % 32 := toNat_extractLsb'_ofNat (by decide) va
  rw [firstPlane, hfield, Nat.mod_add_mod]

/-- The plane is found by searching the distances 0 to 23 upwards from the first one. -/
theorem State.plane_eq (s : State) (h va : Nat) :
    s.plane h va = ((List.range 24).find? fun i => s.planeUp ((firstPlane h va + i) % 24)).map fun i => (firstPlane h va + i) % 24 := by
  simp only [firstPlane_add]
  change ((List.range 24).map fun i => (h + va / 2 ^ 16 % 32 + i) % 24).find? s.planeUp = _
  rw [List.find?_map]
  rfl

theorem State.plane_eq_some_iff (s : State) (h va p : Nat) :
    s.plane h va = some p ↔ ∃ i < 24, p = (firstPlane h va + i) % 24 ∧ s.planeUp p = true ∧
      ∀ j < i, ¬ s.planeUp ((firstPlane h va + j) % 24) = true := by
  rw [State.plane_eq, Option.map_eq_some_iff]
  simp only [List.find?_range_eq_some, List.mem_range, Bool.not_eq_true', Bool.not_eq_true]
  constructor
  · rintro ⟨i, ⟨hup, hi, hbelow⟩, rfl⟩
    exact ⟨i, hi, rfl, hup, hbelow⟩
  · rintro ⟨i, hi, rfl, hup, hbelow⟩
    exact ⟨i, ⟨hup, hi, hbelow⟩, rfl⟩

/-- Counting modulo 24 from any plane, every plane is reached within 24 steps. -/
theorem exists_add_mod_24 (first : Nat) {p : Nat} (hp : p < 24) : ∃ i < 24, (first + i) % 24 = p :=
  ⟨(p + (24 - first % 24)) % 24, Nat.mod_lt _ (by decide), by omega⟩

theorem State.plane_eq_none_iff (s : State) (h va : Nat) : s.plane h va = none ↔ ∀ p < 24, ¬ s.planeUp p = true := by
  rw [State.plane_eq, Option.map_eq_none_iff, List.find?_range_eq_none]
  simp only [Bool.not_eq_true', Bool.not_eq_true]
  constructor
  · intro hdown p hp
    obtain ⟨i, hi, rfl⟩ := exists_add_mod_24 (firstPlane h va) hp
    exact hdown i hi
  · intro hdown i _
    exact hdown _ (Nat.mod_lt _ (by decide))

/-- Settles O57: the slice by its three fields, the home by the first ownership entry that serves the piece, and the plane by the search
upwards from R400's first one. -/
theorem homesAndPlanes : Obligations.HomesAndPlanes := by
  unfold Obligations.HomesAndPlanes
  refine ⟨homeSlice_eq, fun s part va => ⟨State.home_of_unserved, fun pre i e rest => State.home_of_first_serving⟩, fun s h va => ?_⟩
  simp only [← State.planeUp_iff]
  exact ⟨s.plane_eq_some_iff h va, s.plane_eq_none_iff h va⟩

end Sys2Proof.Machine
end
